-- ==== Sys2Proof/Word.lean ====
section
/-!
DEFINITION. The words the ZQ864 carries, the numbers that name its parts, and the one way this model builds a
vector of a fixed length. Nothing here says what the part does.
-/

namespace Sys2Proof

/-- A 16-bit word of one slot (00_scope.md, Numbers and words). -/
abbrev Word := BitVec 16

/-- One byte of a cell (R197): an address, a payload byte, aux. -/
abbrev Byte := BitVec 8

/-- Links L0 to L7. -/
abbrev LinkId := Fin 8

/-- Slot numbers 0 to 63, the largest range a record or an entry can hold. -/
abbrev SlotId := Fin 64

/-- Bridges 0 to 15 (R99). -/
abbrev BridgeId := Fin 16

/-- Leg positions 0 to 7 of one bridge (R99). -/
abbrev LegId := Fin 8

/-- The vector whose element at `i` is `f i`, by structural recursion, so that the kernel can evaluate it. -/
def vecOf {α : Type} (n : Nat) (f : Fin n → α) : Vector α n := ⟨(List.ofFn f).toArray, by simp⟩

@[simp] theorem getElem_vecOf {α : Type} (n : Nat) (f : Fin n → α) (i : Nat) (h : i < n) :
    (vecOf n f)[i] = f ⟨i, h⟩ := by simp [vecOf]

end Sys2Proof
end

