-- ==== Sys2Proof/Config.lean ====
section
/-!
DEFINITION. What one ZQ864 fixes for good: its part code, its capacities, the nominal frame period, and the strap
pins as this model samples them at its own reset. The datasheet leaves no value of the part undefined, so there is
no opaque free value here; every order it leaves open is an operand of a command instead (notes/assumptions/3.md).
-/

namespace Sys2Proof.Config

/-- The part code IDENTIFY returns, high byte and low byte (R150). -/
def partCodeHigh : Byte := 0x08#8
def partCodeLow : Byte := 0x64#8

/-- The revision IDENTIFY returns (R150). -/
def revision : Byte := 0x01#8

/-- REFCLK periods in one nominal frame period (R48). The unit of the held period is one REFCLK period
(notes/assumptions/6.md, DESIGN CHOICE). -/
def nominalPeriod : Nat := 512

/-- Cells a cell queue holds at most (R141). -/
def cellQueueCapacity : Nat := 4

/-- Records the event queue holds at most (R181). -/
def eventQueueCapacity : Nat := 32

/-- Frames an elastic store holds at most (R34). -/
def storeCapacity : Nat := 2

/-- The qualification count at which a link is qualified (R41). -/
def qualifiedCount : Nat := 16

/-- Local superframe starts from the setting of the notice timer to its expiry (R191). -/
def noticeTimer : Nat := 64

/-- Resends of a notice before the controller falls silent (R191). -/
def noticeResends : Nat := 3

/-- ADDR[3:0] as sampled at the model's own reset: DESIGN CHOICE (notes/assumptions/1.md); POWER_ON_RESET samples
any value. -/
def resetAddr : BitVec 4 := 0#4

/-- UPL[2:0] as sampled at the model's own reset: DESIGN CHOICE (notes/assumptions/1.md). -/
def resetUplink : LinkId := 0

end Sys2Proof.Config
end

