-- ==== Sys2Proof/Syntax.lean ====
section
/-!
DEFINITION. The commands of the block: one constructor of `Instr` for each row of spec/opcode_table.json, and the
operands they carry. The table gives its rows no operands and no bits; the operands here are what each row's rule
says arrives from outside: the strap pins, a lane's bits, a header word, the words of a frame, a command cell, and,
where the spec says of two things that come together that either may be first, the order in which they are taken
(notes/assumptions/3.md).
-/

namespace Sys2Proof

/-- The things that come about together at one local frame start, each an act of one block
(95_what_each_step_holds.md, LOCAL_FRAME_START and LOCAL_SUPERFRAME_START). -/
inductive StartAct where
  /-- the choice of the new superframe number (R58) -/
  | number
  /-- the clock watch of one receiver (R20) -/
  | clockWatch (l : LinkId)
  /-- the evaluation of one receiver's check-alarm window (R31) -/
  | checkWindow (l : LinkId)
  /-- the qualification count of one receiver, with the selection it may bring about (R41, R42, R53) -/
  | qualification (l : LinkId)
  /-- the report of a step of the superframe number (R60) -/
  | timeStep
  /-- the switch scheduler (R92, R93, R94) -/
  | schedule
  /-- one chunk of the bank engine (R86, R87) -/
  | engineChunk
  /-- the choice of one link's current input frame (R36) -/
  | present (l : LinkId)
  /-- the notice timer (R191) -/
  | noticeTimer
  /-- the management words are fixed from the cell queues, and cells leave (R116, R117) -/
  | management
  /-- bridges, connection map and transmitters fix the frame (R65, R104, R113) -/
  | transmit
  /-- the soft reset, when the reset response leaves at this start (R142) -/
  | softReset
  /-- the notice controller's test for a place, when a cell leaves the active uplink's queue (R189) -/
  | noticeTest
deriving DecidableEq, Repr

/-- The things a receiver hands over at the completion of one frame; no order holds among them
(02_receive_links.md, Frames Completed in SYNC). -/
inductive ReceiveAct where
  /-- the arrival of the frame at the elastic store (R35) -/
  | store
  /-- the check error to the counters and the alarm window (R30) -/
  | check
  /-- the RAI bit to the remote-alarm integrator (R29) -/
  | remoteAlarm
  /-- the S bit to the superframe-number collector (R32, R33) -/
  | collector
  /-- the completion to the timebase, when it is LOCKED to the link (R49) -/
  | timing
  /-- the management word to the cell assembler (R28, R132) -/
  | cell
deriving DecidableEq, Repr

/-- What a completion takes from outside, the frame's words apart. -/
structure CompletionInput where
  /-- the time of the local frame start that this completion would give, its own time and the fixed delay of R49 after
  it, in REFCLK periods from the last local frame start -/
  startAt : Nat
  /-- the order in which the acts of the completion are taken; acts not named follow in `ReceiveAct` order -/
  order : List ReceiveAct
deriving DecidableEq, Repr

/-- A frame's completion on a link, as RECEIVE_FRAME_COMPLETE carries it. -/
structure FrameArrival where
  link : LinkId
  /-- the words of slots 1 to 63, of which the frame has the first N − 1 -/
  words : Vector Word 63
  input : CompletionInput
  refFirst : Bool
  noticeFirst : Bool
deriving DecidableEq, Repr

/-- What a local frame start takes from outside. -/
structure StartInput where
  /-- the length of the local frame that ends, in REFCLK periods: the time from the previous local frame start to
  this one (R48 to R51) -/
  elapsed : Nat
  /-- bit L is set when lane L's RXC made a transition since the previous local frame start that no other command
  showed (R20) -/
  rxc : BitVec 8
  /-- the order in which the acts of the start are taken; acts not named follow in `StartAct` order -/
  order : List StartAct
  /-- bit L is set when link L, should it leave SYNC at this start as the current source, has REF_CHANGE reported
  before its LINK_DOWN (R179: either may be first, for each link that loses its clock) -/
  refFirst : BitVec 8
  /-- frames whose completions come together with this start and are taken, one after the other, after the cells have
  left their queues and before the notice controller tests for the place that a cell leaves (R139, R189: the cell such a
  frame completes and a notice both want that place, and either may be first) -/
  arrivals : List FrameArrival
deriving DecidableEq, Repr

/-- A good command cell that has completed on a link: its fields (R126) apart from the direction marker, which is
outbound, the code, which the row names, and the check, which is good. -/
structure CommandCell where
  /-- the arrival link -/
  arrival : LinkId
  /-- destination address -/
  dest : Byte
  /-- source address -/
  src : Byte
  /-- aux, not examined (R126); relayed as it stands -/
  aux : Byte
  tag : BitVec 3
  /-- status, not examined (R126); relayed as it stands -/
  status : BitVec 6
  /-- the payload bytes P0 to P7 -/
  payload : Vector Byte 8
  /-- when LINK-SET makes two reports at one taking: REF_CHANGE before LINK_DOWN (R156: either may be first) -/
  refFirst : Bool
  /-- when the taking moves the active uplink in DUE: the notice is placed before the response's place is taken
  (R139: either may be first) -/
  noticeFirst : Bool
deriving DecidableEq, Repr

/-- One command of the block: a row of spec/opcode_table.json. -/
inductive Instr where
  /-- POWER_ON_RESET: the release of RST_N with the strap pins at these values (R144) -/
  | powerOnReset (addr : BitVec 4) (upl : LinkId)
  /-- LOCAL_FRAME_START (R47) -/
  | localFrameStart (i : StartInput)
  /-- LOCKED_START_TIMEOUT (R49) -/
  | lockedStartTimeout (i : StartInput)
  /-- LOCAL_SUPERFRAME_START (R58) -/
  | localSuperframeStart (i : StartInput)
  /-- NOTICE_TIMER_EXPIRY (R191) -/
  | noticeTimerExpiry (i : StartInput)
  /-- CLOCK_LOSS (R20) -/
  | clockLoss (l : LinkId) (i : StartInput)
  /-- CLOCK_RETURN (R20) -/
  | clockReturn (l : LinkId)
  /-- HUNT_CANDIDATE (R21): bits received in HUNT, in order of arrival -/
  | huntCandidate (l : LinkId) (bits : List Bool)
  /-- CONFIRMATION_HEADER (R22): bits received in CONFIRM, in order of arrival -/
  | confirmationHeader (l : LinkId) (bits : List Bool)
  /-- SYNC_HEADER_ARRIVAL (R24): the word at the header position -/
  | syncHeaderArrival (l : LinkId) (w : Word) (refFirst : Bool)
  /-- RECEIVE_FRAME_COMPLETE (R27): the words of slots 1 to 63, of which the frame has the first N − 1 -/
  | receiveFrameComplete (l : LinkId) (words : Vector Word 63) (i : CompletionInput) (refFirst noticeFirst : Bool)
  /-- ENGINE_END (R87) -/
  | engineEnd (i : StartInput)
  /-- LINK_QUALIFIED (R42) -/
  | linkQualified (l : LinkId) (i : StartInput)
  /-- BANK_SWITCH (R94) -/
  | bankSwitch (i : StartInput)
  /-- NOTICE_PLACED (R189) -/
  | noticePlaced (i : StartInput)
  /-- SOFT_RESET_APPLIED (R142) -/
  | softResetApplied (i : StartInput)
  /-- IDENTIFY (R150) -/
  | identify (c : CommandCell)
  /-- ADDR_SET (R151) -/
  | addrSet (c : CommandCell)
  /-- GROUP_SET (R152) -/
  | groupSet (c : CommandCell)
  /-- PART_RESET (R153) -/
  | partReset (c : CommandCell)
  /-- LINK_SET (R154) -/
  | linkSet (c : CommandCell)
  /-- LINK_GET (R157) -/
  | linkGet (c : CommandCell)
  /-- LINK_STATUS (R158) -/
  | linkStatus (c : CommandCell)
  /-- COUNT_READ (R159) -/
  | countRead (c : CommandCell)
  /-- REF_SET (R160) -/
  | refSet (c : CommandCell)
  /-- REF_STATUS (R161) -/
  | refStatus (c : CommandCell)
  /-- TIME_SET (R162) -/
  | timeSet (c : CommandCell)
  /-- MAP_WRITE (R163) -/
  | mapWrite (c : CommandCell)
  /-- MAP_READ (R165) -/
  | mapRead (c : CommandCell)
  /-- BANK_COPY (R166) -/
  | bankCopy (c : CommandCell)
  /-- BANK_CLEAR (R166) -/
  | bankClear (c : CommandCell)
  /-- BANK_ABORT (R167) -/
  | bankAbort (c : CommandCell)
  /-- BANK_STATUS (R168) -/
  | bankStatus (c : CommandCell)
  /-- SWITCH_AT (R169) -/
  | switchAt (c : CommandCell)
  /-- SWITCH_NOW (R170) -/
  | switchNow (c : CommandCell)
  /-- SWITCH_CANCEL (R171) -/
  | switchCancel (c : CommandCell)
  /-- LEG_SET (R172) -/
  | legSet (c : CommandCell)
  /-- LEG_CLEAR (R173) -/
  | legClear (c : CommandCell)
  /-- LEG_READ (R175) -/
  | legRead (c : CommandCell)
  /-- BRIDGE_SET (R174) -/
  | bridgeSet (c : CommandCell)
  /-- EVENT_READ (R187) -/
  | eventRead (c : CommandCell)
  /-- EVENT_MASK (R177) -/
  | eventMask (c : CommandCell)
  /-- NOTICE_SET (R178) -/
  | noticeSet (c : CommandCell)
  /-- BAD_COMMAND (R147): a command cell whose code names no command -/
  | badCommand (code : BitVec 7) (c : CommandCell)
deriving DecidableEq, Repr

end Sys2Proof
end

