-- ==== Sys2Proof/Decode.lean ====
section
/-!
DEFINITION. The command codes of R198, and the table's words: the table gives no row a bit pattern, so no word spells
a command. Command cells are read by Machine/Operands.lean.
-/

namespace Sys2Proof

/-- The codes of the list of command codes (R198). NOTICE, 0x7F, is inbound only and is no command (R147). -/
def commandCodes : List (BitVec 7) :=
  [0x01#7, 0x02#7, 0x03#7, 0x04#7, 0x10#7, 0x11#7, 0x12#7, 0x13#7, 0x20#7, 0x21#7, 0x22#7, 0x30#7, 0x31#7, 0x32#7,
   0x33#7, 0x34#7, 0x35#7, 0x36#7, 0x37#7, 0x38#7, 0x40#7, 0x41#7, 0x42#7, 0x43#7, 0x50#7, 0x51#7, 0x52#7]

/-- The command a word of the table's bits spells: no row of spec/opcode_table.json gives bits, so none does. -/
def decodeTableWord (_nbits _w : Nat) : Option Instr := none

end Sys2Proof
end

