-- ==== Sys2Proof/WellFormed.lean ====
section
/-!
DEFINITION. Which commands are well formed: an order of acts names each act once, and a BAD_COMMAND carries a code
that names no command. Every other range is in the operand's type or is checked by the part itself.
-/

namespace Sys2Proof

/-- No act stands twice in the order. -/
def noRepeats {α : Type} [DecidableEq α] : List α → Bool
  | [] => true
  | a :: as => !as.contains a && noRepeats as

/-- A start names no act twice, and no link completes two frames together with it or names an act of its frame twice. -/
def StartInput.wf (i : StartInput) : Bool :=
  noRepeats i.order && noRepeats (i.arrivals.map (·.link)) && i.arrivals.all fun x => noRepeats x.input.order

/-- A command is well formed. -/
def Instr.wf : Instr → Bool
  | .powerOnReset _ _ => true
  | .localFrameStart i => i.wf
  | .lockedStartTimeout i => i.wf
  | .localSuperframeStart i => i.wf
  | .noticeTimerExpiry i => i.wf
  | .clockLoss _ i => i.wf
  | .clockReturn _ => true
  | .huntCandidate _ _ => true
  | .confirmationHeader _ _ => true
  | .syncHeaderArrival _ _ _ => true
  | .receiveFrameComplete _ _ i _ _ => noRepeats i.order
  | .engineEnd i => i.wf
  | .linkQualified _ i => i.wf
  | .bankSwitch i => i.wf
  | .noticePlaced i => i.wf
  | .softResetApplied i => i.wf
  | .identify _ => true
  | .addrSet _ => true
  | .groupSet _ => true
  | .partReset _ => true
  | .linkSet _ => true
  | .linkGet _ => true
  | .linkStatus _ => true
  | .countRead _ => true
  | .refSet _ => true
  | .refStatus _ => true
  | .timeSet _ => true
  | .mapWrite _ => true
  | .mapRead _ => true
  | .bankCopy _ => true
  | .bankClear _ => true
  | .bankAbort _ => true
  | .bankStatus _ => true
  | .switchAt _ => true
  | .switchNow _ => true
  | .switchCancel _ => true
  | .legSet _ => true
  | .legClear _ => true
  | .legRead _ => true
  | .bridgeSet _ => true
  | .eventRead _ => true
  | .eventMask _ => true
  | .noticeSet _ => true
  | .badCommand code _ => !commandCodes.contains code

end Sys2Proof
end

