-- ==== Sys2Proof/Machine/State.lean ====
section
/-!
DEFINITION. The state of the ZQ864: every register, FIFO, flag, counter and mode the datasheet gives it, block by
block, and the queue of commands that wait; the state right after a power-on reset; the reasons a step can stop.
-/

namespace Sys2Proof.Machine

/-! ## Link configuration (R2, R17) -/

/-- Slot count of a link. -/
inductive SlotCount where
  | n8 | n16 | n32 | n64
deriving DecidableEq, Repr

/-- N, the number of slots. -/
def SlotCount.toNat : SlotCount → Nat
  | .n8 => 8
  | .n16 => 16
  | .n32 => 32
  | .n64 => 64

/-- Management role of a link (R130). -/
inductive Role where
  | none | uplink | downlink
deriving DecidableEq, Repr

/-- The four fields that set the slot roles of a link (R2). -/
structure Shape where
  slotCount : SlotCount
  checkEnable : Bool
  role : Role
  mgmtSlot : SlotId
deriving DecidableEq, Repr

/-- The configuration record of a link (R17). -/
structure LinkConfig where
  rxEnable : Bool
  txEnable : Bool
  discard : Bool
  idle : Word
  shape : Shape
deriving DecidableEq, Repr

/-- The copy of the transmit-side fields a transmitter uses for the frame in progress (R112). -/
structure TxConfig where
  txEnable : Bool
  idle : Word
  shape : Shape
deriving DecidableEq, Repr

/-! ## Receive side -/

/-- A header's alignment code and frame index (R7). -/
structure Header where
  code : BitVec 6
  index : BitVec 6
deriving DecidableEq, Repr

/-- The frame being received in SYNC: its header, whether that header was good, and the fields read from the record
when the header arrived (R18, R24). -/
structure FrameInProgress where
  header : Word
  good : Bool
  shape : Shape
  discard : Bool
deriving DecidableEq, Repr

/-- The alignment state (R19 to R25). In `hunt` the bits are those received since the search began that no examined
position has used up; in `confirm` they run from the candidate's first bit on, so that the candidate's word is their
first sixteen and the words received since follow (R21, R22). -/
inductive Align where
  | off
  | noclock
  | hunt (bits : List Bool)
  | confirm (bits : List Bool)
  | sync (expected : Header) (badRun : Nat) (frame : Option FrameInProgress)
deriving DecidableEq, Repr

/-- The superframe-number collector (R32): the bits so far, and the index of the next frame it needs. -/
inductive Collector where
  | idle
  | collecting (number : Word) (next : Nat)
deriving DecidableEq, Repr

/-- The clock watch of a receiver (R20). -/
structure ClockWatch where
  /-- a local frame start has been noted since reset or since OFF was left -/
  begun : Bool
  /-- RXC made a transition since the previous local frame start -/
  seen : Bool
  /-- the previous local frame start closed a silent interval -/
  silent : Bool
deriving DecidableEq, Repr

/-- A Link Receiver. -/
structure Receiver where
  align : Align
  watch : ClockWatch
  remoteAlarm : Bool
  raiRun : Nat
  checkAlarm : Bool
  window : BitVec 8
  collector : Collector
  number : Word
  numberValid : Bool
  qualCount : Nat
  wholeMark : Bool
deriving DecidableEq, Repr

/-- A received frame with its validity mark and the slot roles it was received with (R27, R69). -/
structure RxFrame where
  words : List Word
  valid : Bool
  shape : Shape
deriving DecidableEq, Repr

/-- An elastic store (R34): the queue, oldest first. -/
structure Store where
  queue : List RxFrame
  current : Option RxFrame
  primed : Bool
deriving DecidableEq, Repr

/-- The five receive counters (R43). -/
structure RxCounters where
  headerErrors : Word
  checkErrors : Word
  repeatSlips : Word
  deleteSlips : Word
  syncLosses : Word
deriving DecidableEq, Repr

/-! ## Transmit side and the management channel of one link -/

/-- A cell: eight words, word 1 at index 0 (R126). -/
abbrev Cell := Vector Word 8

/-- A cell in a cell queue; the reset response is marked (R142). -/
structure QueuedCell where
  cell : Cell
  resetResponse : Bool
deriving DecidableEq, Repr

/-- A Link Transmitter (R112), with the management word and the frame fixed for the present local frame; no frame is
silence (R116, R119). -/
structure Transmitter where
  inUse : TxConfig
  wordCount : Fin 8
  mgmtWord : Word
  frame : Option (List Word)
deriving DecidableEq, Repr

/-- The six management counters (R146). -/
structure MgmtCounters where
  goodCells : Word
  checkFailures : Word
  directionErrors : Word
  relayDrops : Word
  congestion : Word
  flushed : Word
deriving DecidableEq, Repr

/-- Everything of one link. The assembler holds the words collected so far; none is IDLE (R132). -/
structure Link where
  config : LinkConfig
  rx : Receiver
  store : Store
  tx : Transmitter
  assembler : List Word
  queue : List QueuedCell
  rxCount : RxCounters
  mgmtCount : MgmtCounters
deriving DecidableEq, Repr

/-! ## Timebase and Reference Selector (R46) -/

/-- An entry of the reference list: a link, or LOCAL. -/
inductive RefEntry where
  | link (l : LinkId)
  | localClock
deriving DecidableEq, Repr

/-- The timebase state. -/
inductive TimeSource where
  | free
  | locked (l : LinkId)
  | holdover
deriving DecidableEq, Repr

structure Timebase where
  frameIndex : Fin 48
  number : Word
  source : TimeSource
  /-- the held period in REFCLK periods -/
  heldPeriod : Nat
  refList : List RefEntry
  revertive : Bool
  follow : Bool
  pendingSet : Option Word
  pendingAdoption : Option Word
  /-- the first local frame start after the release of RST_N has come (R47) -/
  started : Bool
  /-- REFCLK periods from the last wrap of the divider to the last local frame start (R48) -/
  divider : Fin 512
  /-- the previous local frame start was taken from a completion of the present source (R49) -/
  fromCompletion : Bool
  /-- LOCKED only: when the completions of the present source received so far would give a local frame start, in REFCLK
  periods from the last local frame start; those already past are not kept (R49) -/
  completions : List Nat
deriving DecidableEq, Repr

/-! ## Connection Map, Bank Engine, Switch Scheduler -/

inductive Bank where
  | a | b
deriving DecidableEq, Repr

/-- The bank that is not this one. -/
def Bank.other : Bank → Bank
  | .a => .b
  | .b => .a

/-- Kind and source fields of a connection entry (R64). -/
inductive EntrySource where
  | idle
  | slot (link : LinkId) (slot : SlotId)
  | leg (bridge : BridgeId) (leg : LegId)
  | const (w : Word)
deriving DecidableEq, Repr

inductive FaultAction where
  | idle | hold
deriving DecidableEq, Repr

structure Entry where
  source : EntrySource
  fault : FaultAction
deriving DecidableEq, Repr

/-- The reset value of an entry (R64). -/
def Entry.reset : Entry := ⟨.idle, .idle⟩

/-- The entries of both banks and the hold values; output slot (L, s) stands at index L × 64 + s (R63, R74). -/
structure ConnMap where
  bankA : Vector Entry 512
  bankB : Vector Entry 512
  holds : Vector (Option Word) 512
deriving DecidableEq, Repr

inductive EngineOp where
  | copy | clear
deriving DecidableEq, Repr

inductive EngineOutcome where
  | done | aborted
deriving DecidableEq, Repr

/-- The bank engine (R84). `none` as last operation is NONE. -/
inductive Engine where
  | idle (last : Option EngineOp) (outcome : EngineOutcome) (endPos : Nat)
  | running (op : EngineOp) (pos : Nat)
deriving DecidableEq, Repr

/-- The switch scheduler (R90). -/
inductive Scheduler where
  | idle
  | armed (target : Word)
  | immediate
deriving DecidableEq, Repr

/-- The four pieces of state of 05_bank_switching_and_the_bank_engine.md. -/
structure BankCtl where
  active : Bank
  /-- the standby is CONSISTENT -/
  consistent : Bool
  engine : Engine
  scheduler : Scheduler
deriving DecidableEq, Repr

/-! ## Bridges (R99) -/

structure Leg where
  link : LinkId
  slot : SlotId
  attenuation : Fin 4
deriving DecidableEq, Repr

/-- One bridge; `outputs` are the leg outputs fixed for the frame in progress, `none` where invalid (R104). -/
structure Bridge where
  enabled : Bool
  legs : Vector (Option Leg) 8
  outputs : Vector (Option Word) 8
deriving DecidableEq, Repr

/-! ## Management Agent -/

inductive ResetCause where
  | powerOn | partReset
deriving DecidableEq, Repr

structure Agent where
  strapAddr : Byte
  strapUplink : LinkId
  /-- alias slots 1 to 3 at indices 0 to 2 -/
  aliases : Vector (Option Byte) 3
  groups : Vector (Option Byte) 2
  activeUplink : LinkId
  replyAddr : Byte
  resetPending : Bool
  resetCause : ResetCause
  /-- the link whose cell queue has a place held for the response of the command being taken (R137) -/
  heldPlace : Option LinkId
deriving DecidableEq, Repr

/-! ## Event Queue and Notice Controller -/

/-- The nine event kinds (R179). -/
inductive EventKind where
  | linkUp | linkDown | slip | checkAlarm | remoteAlarm | refChange | timeStep | bankSwitch | engineEnd
deriving DecidableEq, Repr

/-- An event record (R180). -/
structure EventRecord where
  seq : Byte
  kind : EventKind
  subject : Byte
  detail : Byte
  stampNumber : Word
  stampIndex : Fin 48
  count : Byte
  lost : Byte
  delivered : Bool
deriving DecidableEq, Repr

/-- The Event Queue (R181), oldest record first. Bit k − 1 of the mask enables kind code k. -/
structure EventQueue where
  records : List EventRecord
  nextSeq : Byte
  pendingLost : Byte
  mask : BitVec 9
deriving DecidableEq, Repr

inductive NoticeState where
  | off | quiet | due | wait | silent
deriving DecidableEq, Repr

/-- The Notice Controller (R188); a stopped timer is 0. -/
structure Notice where
  state : NoticeState
  retry : Nat
  timer : Nat
deriving DecidableEq, Repr

/-! ## The whole part -/

structure State where
  /-- commands that wait, first in first out -/
  pending : List Instr
  links : Vector Link 8
  tb : Timebase
  map : ConnMap
  bank : BankCtl
  bridges : Vector Bridge 16
  agent : Agent
  events : EventQueue
  notice : Notice
deriving DecidableEq, Repr

/-- Reasons a step stops with a fault: none. The datasheet gives every command an effect in every state. -/
inductive Fault where
deriving DecidableEq, Repr

/-- Reasons a step is refused. -/
inductive Refusal where
  /-- Raised by `exec` for a command of the table that has no meaning yet; no arm raises it. Safe: the model stops. -/
  | notModelled (mnemonic : String)
deriving DecidableEq, Repr

/-! ## Power-on values -/

/-- The power-on record of R17. -/
def LinkConfig.powerOn (role : Role) : LinkConfig :=
  { rxEnable := true, txEnable := true, discard := false, idle := 0x0000#16,
    shape := { slotCount := .n32, checkEnable := false, role := role, mgmtSlot := 1 } }

/-- The receiver after a power-on reset (List of Receive-Side State after Each Reset). -/
def Receiver.powerOn : Receiver :=
  { align := .hunt [], watch := ⟨false, false, false⟩, remoteAlarm := false, raiRun := 0, checkAlarm := false,
    window := 0#8, collector := .idle, number := 0#16, numberValid := false, qualCount := 0, wholeMark := false }

def RxCounters.zero : RxCounters := ⟨0#16, 0#16, 0#16, 0#16, 0#16⟩

def MgmtCounters.zero : MgmtCounters := ⟨0#16, 0#16, 0#16, 0#16, 0#16, 0#16⟩

/-- The transmit-side copy of a record (R112). -/
def LinkConfig.txPart (c : LinkConfig) : TxConfig := ⟨c.txEnable, c.idle, c.shape⟩

/-- One link after a power-on reset. -/
def Link.powerOn (role : Role) : Link :=
  { config := .powerOn role, rx := .powerOn, store := ⟨[], none, false⟩,
    tx := ⟨(LinkConfig.powerOn role).txPart, 0, 0x0000#16, none⟩, assembler := [], queue := [],
    rxCount := .zero, mgmtCount := .zero }

/-- The timebase after a power-on reset (R46). -/
def Timebase.powerOn : Timebase :=
  { frameIndex := 0, number := 0#16, source := .free, heldPeriod := Config.nominalPeriod, refList := [.localClock],
    revertive := false, follow := false, pendingSet := none, pendingAdoption := none, started := false,
    divider := 0, fromCompletion := false, completions := [] }

/-- Both banks cleared and no hold value (R77). -/
def ConnMap.cleared : ConnMap :=
  ⟨Vector.replicate 512 .reset, Vector.replicate 512 .reset, Vector.replicate 512 none⟩

/-- Bank, engine and scheduler after a reset of either kind (R97). -/
def BankCtl.cleared : BankCtl := ⟨.a, true, .idle none .done 0, .idle⟩

/-- A bridge after a power-on reset (R99). -/
def Bridge.powerOn : Bridge := ⟨false, Vector.replicate 8 none, Vector.replicate 8 none⟩

/-- The agent after a power-on reset with these straps (R144, List of Agent State after Each Reset). -/
def Agent.powerOn (addr : BitVec 4) (upl : LinkId) : Agent :=
  { strapAddr := 0x4#4 ++ addr, strapUplink := upl, aliases := Vector.replicate 3 none,
    groups := Vector.replicate 2 none, activeUplink := upl, replyAddr := 0x00#8, resetPending := false,
    resetCause := .powerOn, heldPlace := none }

/-- The event queue after a reset of either kind (R181). -/
def EventQueue.cleared : EventQueue := ⟨[], 0#8, 0#8, 0x1FF#9⟩

/-- The notice controller after a reset of either kind (R188). -/
def Notice.cleared : Notice := ⟨.quiet, 0, 0⟩

/-- The part right after the release of RST_N with these straps, with these commands waiting. -/
def State.powerOn (addr : BitVec 4) (upl : LinkId) (pending : List Instr) : State :=
  { pending := pending,
    links := vecOf 8 fun l => Link.powerOn (if l = upl then .uplink else .none),
    tb := .powerOn, map := .cleared, bank := .cleared, bridges := Vector.replicate 16 .powerOn,
    agent := .powerOn addr upl, events := .cleared, notice := .cleared }

/-- The machine right after reset: released from RST_N with the straps of Config (notes/assumptions/1.md), no command
waiting. -/
def State.reset : State := State.powerOn Config.resetAddr Config.resetUplink []

end Sys2Proof.Machine
end

