-- ==== Sys2Proof/Machine/Operands.lean ====
section
/-!
DEFINITION. The fields of header words and cells (R196, R197), the coded values that commands and responses carry
(R198), the slot roles of a link (R2), and the records and entries as payload bytes. Read and built here and nowhere
else.
-/

namespace Sys2Proof.Machine

/-! ## Header words (R5, R7, R196) -/

/-- Alignment code and frame index at their places in the header word; bits 15 and 14 are ignored (R8). -/
def headerOf (w : Word) : Header := ⟨w.extractLsb' 8 6, w.extractLsb' 0 6⟩

def headerRai (w : Word) : Bool := w.getLsbD 7

def headerS (w : Word) : Bool := w.getLsbD 6

/-- The alignment code that goes with a frame index: 0x2D with an even one, 0x12 with an odd one (R5). -/
def codeForIndex (index : BitVec 6) : BitVec 6 := if index.getLsbD 0 then 0x12#6 else 0x2D#6

/-- The well-formed test of R7. -/
def Header.wellFormed (h : Header) : Bool := decide (h.index.toNat < 48) && decide (h.code = codeForIndex h.index)

/-- The header that follows: complement of the code, index plus 1 modulo 48 (R7). -/
def Header.succ (h : Header) : Header := ⟨~~~h.code, if h.index = 47#6 then 0#6 else h.index + 1#6⟩

/-- The successor test of R7: `w` is well formed and follows `prev`. -/
def isSuccessor (prev w : Word) : Bool := (headerOf w).wellFormed && decide (headerOf w = (headerOf prev).succ)

/-- The header word of R196, zero field 0 (R8). -/
def headerWord (index : Fin 48) (rai s : Bool) : Word :=
  let i := BitVec.ofNat 6 index.val
  0#2 ++ codeForIndex i ++ BitVec.ofBool rai ++ BitVec.ofBool s ++ i

/-- The S bit sent in the frame with this index of the superframe with this number (R10). -/
def sBit (number : Word) (index : Fin 48) : Bool := decide (index.val < 16) && number.getLsbD (15 - index.val)

/-! ## Bits of a lane, most significant first (R1) -/

/-- The word whose bits are these, first bit most significant. -/
def wordOfBits (bits : List Bool) : Word := bits.foldl (fun w b => (w <<< 1) ||| (BitVec.ofBool b).zeroExtend 16) 0#16

/-- The bits of a word in the order sent. -/
def bitsOfWord (w : Word) : List Bool := (List.range 16).map fun i => w.getLsbD (15 - i)

/-- The word of the first sixteen bits, when there are sixteen. -/
def firstWord? (bits : List Bool) : Option Word :=
  if (bits.take 16).length = 16 then some (wordOfBits (bits.take 16)) else none

/-! ## Slot roles (R2) -/

/-- Slot `t` is the check slot. -/
def Shape.isCheck (sh : Shape) (t : Nat) : Bool := sh.checkEnable && decide (t + 1 = sh.slotCount.toNat)

/-- Slot `t` is the management slot. -/
def Shape.isMgmt (sh : Shape) (t : Nat) : Bool := decide (sh.role ≠ .none) && decide (t = sh.mgmtSlot.val)

/-- Slot `t` is a payload slot: below the slot count, not the header, not the check slot, not the management slot. -/
def Shape.isPayload (sh : Shape) (t : Nat) : Bool :=
  decide (t < sh.slotCount.toNat) && decide (t ≠ 0) && !sh.isCheck t && !sh.isMgmt t

/-- The exclusive OR of a list of words (R12, R13). -/
def xorWords (ws : List Word) : Word := ws.foldl (· ^^^ ·) 0#16

/-! ## Coded values (R198) -/

/-- A byte as a number below `n`. -/
def finOf (n : Nat) (b : Byte) : Option (Fin n) := if h : b.toNat < n then some ⟨b.toNat, h⟩ else none

/-- A number as a byte. -/
def byteOf (n : Nat) : Byte := BitVec.ofNat 8 n

/-- An on/off flag as a whole byte. -/
def flagCode (b : Bool) : Byte := if b then 1#8 else 0#8

def flagOf (b : Byte) : Option Bool :=
  if b = 0#8 then some false else if b = 1#8 then some true else none

def bankCode : Bank → Byte
  | .a => 0#8
  | .b => 1#8

def bankOf (b : Byte) : Option Bank :=
  if b = 0#8 then some .a else if b = 1#8 then some .b else none

def slotCountCode : SlotCount → Byte
  | .n8 => 0#8
  | .n16 => 1#8
  | .n32 => 2#8
  | .n64 => 3#8

def slotCountOf (b : Byte) : Option SlotCount :=
  if b = 0#8 then some .n8 else if b = 1#8 then some .n16 else if b = 2#8 then some .n32
  else if b = 3#8 then some .n64 else none

def roleCode : Role → Byte
  | .none => 0#8
  | .uplink => 1#8
  | .downlink => 2#8

def roleOf (b : Byte) : Option Role :=
  if b = 0#8 then some .none else if b = 1#8 then some .uplink else if b = 2#8 then some .downlink else none

def faultCode : FaultAction → Byte
  | .idle => 0#8
  | .hold => 1#8

def faultOf (b : Byte) : Option FaultAction :=
  if b = 0#8 then some .idle else if b = 1#8 then some .hold else none

def alignCode : Align → Byte
  | .off => 0#8
  | .noclock => 1#8
  | .hunt _ => 2#8
  | .confirm _ => 3#8
  | .sync _ _ _ => 4#8

def refEntryCode : RefEntry → Byte
  | .link l => byteOf l.val
  | .localClock => 8#8

def refEntryOf (b : Byte) : Option RefEntry :=
  if b = 8#8 then some .localClock else (finOf 8 b).map .link

/-- The timebase state as REF_CHANGE, REF-SET and REF-STATUS carry it. -/
def timeSourceCode : TimeSource → Byte
  | .locked l => byteOf l.val
  | .free => 8#8
  | .holdover => 9#8

def engineOpCode : Option EngineOp → Nat
  | .none => 0
  | .some .copy => 1
  | .some .clear => 2

def engineOutcomeCode : EngineOutcome → Nat
  | .done => 0
  | .aborted => 1

def schedulerCode : Scheduler → Nat
  | .idle => 0
  | .armed _ => 1
  | .immediate => 2

def noticeStateCode : NoticeState → Byte
  | .off => 0#8
  | .quiet => 1#8
  | .due => 2#8
  | .wait => 3#8
  | .silent => 4#8

def resetCauseCode : ResetCause → Byte
  | .powerOn => 0#8
  | .partReset => 1#8

def eventKindCode : EventKind → Nat
  | .linkUp => 1
  | .linkDown => 2
  | .slip => 3
  | .checkAlarm => 4
  | .remoteAlarm => 5
  | .refChange => 6
  | .timeStep => 7
  | .bankSwitch => 8
  | .engineEnd => 9

/-- The status codes of R148. -/
inductive Status where
  | ok | accepted | empty
  | badCommand | badParam | badSource | duplicate | severs
  | busy | pending | notReady | tooLate | badState
deriving DecidableEq, Repr

def Status.code : Status → BitVec 6
  | .ok => 0x00#6
  | .accepted => 0x01#6
  | .empty => 0x02#6
  | .badCommand => 0x10#6
  | .badParam => 0x11#6
  | .badSource => 0x12#6
  | .duplicate => 0x13#6
  | .severs => 0x14#6
  | .busy => 0x20#6
  | .pending => 0x21#6
  | .notReady => 0x22#6
  | .tooLate => 0x23#6
  | .badState => 0x24#6

/-! ## Cells (R126, R127, R197) -/

/-- Direction markers. -/
def outboundMarker : Byte := 0xC5#8
def inboundMarker : Byte := 0xCA#8

/-- The code of a notice (R198). -/
def noticeCode : BitVec 7 := 0x7F#7

def highByte (w : Word) : Byte := w.extractLsb' 8 8

def lowByte (w : Word) : Byte := w.extractLsb' 0 8

/-- A word from its high and its low byte. -/
def wordOfBytes (high low : Byte) : Word := high ++ low

/-- The sum of words 1 to 7 modulo 65536. -/
def cellSum (x : Cell) : Word := x[0] + x[1] + x[2] + x[3] + x[4] + x[5] + x[6]

/-- The check of a cell: the complement of that sum (R127). -/
def cellCheck (x : Cell) : Word := ~~~(cellSum x)

def cellGood (x : Cell) : Bool := decide (x[7] = cellCheck x)

/-- The eight payload bytes: those given, then 0x00 (R197). -/
def payloadOf (bytes : List Byte) : Vector Byte 8 := vecOf 8 fun i => bytes.getD i.val 0#8

/-- A cell with these fields and its check (R197). -/
def buildCell (marker dest src aux : Byte) (tag : BitVec 3) (code : BitVec 7) (status : BitVec 6)
    (p : Vector Byte 8) : Cell :=
  let w1 := wordOfBytes marker dest
  let w2 := wordOfBytes src aux
  let w3 : Word := tag ++ code ++ status
  let w4 := wordOfBytes p[0] p[1]
  let w5 := wordOfBytes p[2] p[3]
  let w6 := wordOfBytes p[4] p[5]
  let w7 := wordOfBytes p[6] p[7]
  #v[w1, w2, w3, w4, w5, w6, w7, ~~~(w1 + w2 + w3 + w4 + w5 + w6 + w7)]

def cellMarker (x : Cell) : Byte := highByte x[0]

def cellCode (x : Cell) : BitVec 7 := x[2].extractLsb' 6 7

/-- The cell whose words 1 to 8 are these. -/
def cellOfWords (ws : List Word) : Cell := vecOf 8 fun i => ws.getD i.val 0#16

/-- The command cell an outbound cell on link `a` is (R197). -/
def commandCellOf (a : LinkId) (x : Cell) (refFirst noticeFirst : Bool) : CommandCell :=
  { arrival := a, dest := lowByte x[0], src := highByte x[1], aux := lowByte x[1],
    tag := x[2].extractLsb' 13 3, status := x[2].extractLsb' 0 6,
    payload := #v[highByte x[3], lowByte x[3], highByte x[4], lowByte x[4],
                  highByte x[5], lowByte x[5], highByte x[6], lowByte x[6]],
    refFirst := refFirst, noticeFirst := noticeFirst }

/-- The whole outbound cell of a command cell with this code. -/
def outboundCell (code : BitVec 7) (c : CommandCell) : Cell :=
  buildCell outboundMarker c.dest c.src c.aux c.tag code c.status c.payload

/-- Payload byte P`i`. -/
def pByte (c : CommandCell) (i : Fin 8) : Byte := c.payload[i]

/-- The 16-bit parameter in P`i` and P`j`, high byte first (R197). -/
def pWord (c : CommandCell) (i j : Fin 8) : Word := wordOfBytes (pByte c i) (pByte c j)

/-- A 16-bit number in two payload bytes, high byte first. -/
def wordBytes (w : Word) : List Byte := [highByte w, lowByte w]

/-! ## The link record as bytes B1 to B6 -/

/-- B1 to B6 of the record (R197). DESIGN CHOICE, notes/assumptions/28.md: bits 4 to 7 of B1, which name no flag, are
sent as 0. -/
def LinkConfig.bytes (c : LinkConfig) : List Byte :=
  [byteOf (c.rxEnable.toNat + 2 * c.txEnable.toNat + 4 * c.shape.checkEnable.toNat + 8 * c.discard.toNat),
   slotCountCode c.shape.slotCount, roleCode c.shape.role, byteOf c.shape.mgmtSlot.val] ++ wordBytes c.idle

/-- Check 3 of R154: the management slot is not slot 0, below the slot count and not the check slot, whatever the
role. -/
def Shape.mgmtSlotLegal (sh : Shape) : Bool :=
  decide (sh.mgmtSlot.val ≠ 0) && decide (sh.mgmtSlot.val < sh.slotCount.toNat) && !sh.isCheck sh.mgmtSlot.val

/-- Check 4 of R154: a role goes with both lanes enabled. -/
def LinkConfig.roleLegal (c : LinkConfig) : Bool := decide (c.shape.role = .none) || (c.rxEnable && c.txEnable)

/-- The record a LINK-SET carries in P1 to P6, when checks 2 to 4 of R154 pass. -/
def recordOf (c : CommandCell) : Option LinkConfig :=
  let flags := pByte c 1
  match slotCountOf (pByte c 2), roleOf (pByte c 3), finOf 64 (pByte c 4) with
  | some n, some role, some m =>
    let cfg : LinkConfig :=
      { rxEnable := flags.getLsbD 0, txEnable := flags.getLsbD 1, discard := flags.getLsbD 3, idle := pWord c 5 6,
        shape := { slotCount := n, checkEnable := flags.getLsbD 2, role := role, mgmtSlot := m } }
    if cfg.shape.mgmtSlotLegal && cfg.roleLegal then some cfg else none
  | _, _, _ => none

/-! ## Connection entries as bytes -/

/-- Kind, fault action and source fields of an entry, as MAP-WRITE and MAP-READ carry them in P2 to P5. -/
def Entry.bytes (e : Entry) : List Byte :=
  match e.source with
  | .idle => [0#8, faultCode e.fault, 0#8, 0#8]
  | .slot l t => [1#8, faultCode e.fault, byteOf l.val, byteOf t.val]
  | .leg b k => [2#8, faultCode e.fault, byteOf b.val, byteOf k.val]
  | .const w => [3#8, faultCode e.fault] ++ wordBytes w

/-- The entry a MAP-WRITE carries, when checks 3 and 4 of R163 pass. Source fields of another kind are not examined
(R149). -/
def entryOf (c : CommandCell) : Option Entry :=
  match faultOf (pByte c 3) with
  | none => none
  | some f =>
    if pByte c 2 = 0#8 then some ⟨.idle, f⟩
    else if pByte c 2 = 1#8 then
      match finOf 8 (pByte c 4), finOf 64 (pByte c 5) with
      | some l, some t => some ⟨.slot l t, f⟩
      | _, _ => none
    else if pByte c 2 = 2#8 then
      match finOf 16 (pByte c 4), finOf 8 (pByte c 5) with
      | some b, some k => some ⟨.leg b k, f⟩
      | _, _ => none
    else if pByte c 2 = 3#8 then some ⟨.const (pWord c 4 5), f⟩
    else none

/-- The index of output slot (L, s) in both banks and in the hold values (R63). -/
def slotIndex (l : LinkId) (t : SlotId) : Fin 512 := ⟨l.val * 64 + t.val, by omega⟩

end Sys2Proof.Machine
end

