-- ==== Sys2Proof/Machine/Flags.lean ====
section
/-!
DEFINITION. The flag and counter arithmetic of the part: saturating counters, the two alarms' rules, the modular
comparisons of superframe numbers, and the mix-minus sums. Functions of their arguments alone.
-/

namespace Sys2Proof.Machine

/-! ## Saturating counters (00_scope.md, Numbers and words) -/

/-- A 16-bit counter after `n` increments, stopping at 65535. -/
def satAdd16 (w : Word) (n : Nat) : Word := BitVec.ofNat 16 (min (w.toNat + n) 65535)

/-- An 8-bit count after one increment, stopping at 255. -/
def satInc8 (b : Byte) : Byte := BitVec.ofNat 8 (min (b.toNat + 1) 255)

/-! ## Remote alarm (R29) -/

/-- The alarm, the run count and whether the alarm changed, after one good-header frame with this RAI bit. -/
def integrateRai (alarm : Bool) (run : Nat) (rai : Bool) : Bool × Nat × Bool :=
  if rai = alarm then (alarm, 0, false)
  else if run + 1 ≥ 4 then (!alarm, 0, true)
  else (alarm, run + 1, false)

/-! ## Check alarm (R31) -/

/-- The check alarm after the evaluation of a window with this count. -/
def evaluateWindow (alarm : Bool) (count : Byte) : Bool :=
  if count.toNat ≥ 4 then true else if count.toNat = 0 then false else alarm

/-! ## Superframe numbers (00_scope.md, Superframes and modular comparison) -/

/-- The modular distance from `b` to `a`. -/
def distance (a b : Word) : Nat := (a - b).toNat

/-- `target` is in the future of `current`: its distance is 1 to 32767. -/
def inFuture (target current : Word) : Bool :=
  decide (1 ≤ distance target current) && decide (distance target current ≤ 32767)

/-- The step at a superframe start: none, `some true` forward, `some false` backward (R60). -/
def stepOf (old new : Word) : Option Bool :=
  let d := distance new (old + 1#16)
  if d = 0 then none else some (decide (d ≤ 32767))

/-- Whether a switch armed for `target` fires at a superframe start, and with which late mark (R93). -/
def armedFires (target old new : Word) : Option Bool :=
  if new = target then some (decide (new ≠ old + 1#16))
  else if stepOf old new = some true && inFuture target old && decide (32768 ≤ distance target new) then some true
  else none

/-! ## Mix-minus (R101, R102) -/

/-- A sample shifted right arithmetically by the attenuation, rounded toward minus infinity (R101). -/
def attenuate (w : Word) (att : Fin 4) : Int := w.toInt.fdiv (2 ^ att.val)

/-- A sum clamped to 16 bits (R102). -/
def clamp16 (x : Int) : Word := BitVec.ofInt 16 (max (-32768) (min 32767 x))

/-- The output of leg `k`: the clamped sum of the other legs' contributions (R102). -/
def mixMinus (x : Vector Int 8) (k : LegId) : Word :=
  clamp16 (((List.finRange 8).filter (· ≠ k)).map (fun j => x[j])).sum

end Sys2Proof.Machine
end

