-- ==== Sys2Proof/Machine/Ops.lean ====
section
/-!
DEFINITION. The shared operations over State: access to links and banks, cell queues, event reports and notices,
reference selection, leaving SYNC, the hold values, and the soft reset. Every meaning is built from these.
-/

namespace Sys2Proof.Machine

/-! ## Access -/

def State.link (s : State) (l : LinkId) : Link := s.links[l.val]

def State.setLink (s : State) (l : LinkId) (x : Link) : State := { s with links := s.links.set l.val x }

/-- Change one link and nothing else. -/
def State.updLink (s : State) (l : LinkId) (f : Link → Link) : State := s.setLink l (f (s.link l))

def State.withTb (s : State) (x : Timebase) : State := { s with tb := x }
def State.withMap (s : State) (x : ConnMap) : State := { s with map := x }
def State.withBank (s : State) (x : BankCtl) : State := { s with bank := x }
def State.withBridges (s : State) (x : Vector Bridge 16) : State := { s with bridges := x }
def State.withAgent (s : State) (x : Agent) : State := { s with agent := x }
def State.withEvents (s : State) (x : EventQueue) : State := { s with events := x }
def State.withNotice (s : State) (x : Notice) : State := { s with notice := x }
def State.withLinks (s : State) (x : Vector Link 8) : State := { s with links := x }
def State.withPending (s : State) (x : List Instr) : State := { s with pending := x }

/-- The entries of one bank. -/
def ConnMap.entries (m : ConnMap) : Bank → Vector Entry 512
  | .a => m.bankA
  | .b => m.bankB

def ConnMap.setEntries (m : ConnMap) (k : Bank) (v : Vector Entry 512) : ConnMap :=
  match k with
  | .a => { m with bankA := v }
  | .b => { m with bankB := v }

def State.standby (s : State) : Bank := s.bank.active.other

def Align.isSync : Align → Bool
  | .sync _ _ _ => true
  | _ => false

def Link.inSync (x : Link) : Bool := x.rx.align.isSync

/-- Replace the receiver of a link. -/
def Link.withRx (x : Link) (r : Receiver) : Link := { x with rx := r }

/-- The subject of an event that belongs to a link (R179). -/
def linkSubject (l : LinkId) : Byte := byteOf l.val

/-- The subject of the part-wide events (R179). -/
def partWide : Byte := 0xFF#8

/-! ## Cell queues (R136, R141) -/

/-- A link's cell queue has a free place, the place held for a response counted as taken (R137). -/
def State.hasRoom (s : State) (l : LinkId) : Bool :=
  decide ((s.link l).queue.length + (if s.agent.heldPlace = some l then 1 else 0) < Config.cellQueueCapacity)

/-- Place a cell at the tail of a link's queue. -/
def State.enqueue (s : State) (l : LinkId) (x : QueuedCell) : State :=
  s.updLink l fun k => { k with queue := k.queue ++ [x] }

/-- Place a relayed copy, or drop it and count the drop (R136). -/
def State.relayTo (s : State) (l : LinkId) (x : Cell) : State :=
  if s.hasRoom l then s.enqueue l ⟨x, false⟩
  else s.updLink l fun k =>
    { k with mgmtCount := { k.mgmtCount with relayDrops := satAdd16 k.mgmtCount.relayDrops 1 } }

/-- Relay an outbound cell into the queue of every DOWNLINK, each queue judged on its own (R136). -/
def State.relayOutbound (s : State) (x : Cell) : State :=
  (List.finRange 8).foldl (fun s l => if (s.link l).config.shape.role = .downlink then s.relayTo l x else s) s

/-- Relay an inbound cell into the queue of the active uplink (R135, R136). -/
def State.relayInbound (s : State) (x : Cell) : State := s.relayTo s.agent.activeUplink x

/-! ## Notices (R188 to R191) -/

/-- The notice cell as it stands at the placing (R190). -/
def State.noticeCell (s : State) : Cell :=
  buildCell inboundMarker s.agent.replyAddr s.agent.strapAddr 0#8 0#3 noticeCode Status.ok.code
    (payloadOf [byteOf s.events.records.length, (s.events.records.head?.map (·.seq)).getD 0#8, s.events.pendingLost,
                byteOf s.notice.retry])

/-- One test for a place in DUE: a place found, the notice is placed and the timer set (R189). -/
def State.noticeTest (s : State) : State :=
  if s.notice.state = .due && s.hasRoom s.agent.activeUplink then
    (s.enqueue s.agent.activeUplink ⟨s.noticeCell, false⟩).withNotice ⟨.wait, s.notice.retry, Config.noticeTimer⟩
  else s

/-- Enter DUE with this retry count and test for a place (R189). -/
def State.enterDue (s : State) (retry : Nat) : State := (s.withNotice ⟨.due, retry, 0⟩).noticeTest

/-- What an append does to the notice controller (R188: QUIET to DUE; other states unchanged). -/
def State.recordAppended (s : State) : State := if s.notice.state = .quiet then s.enterDue 0 else s

/-- The expiry of the notice timer (R191). -/
def State.noticeExpiry (s : State) : State :=
  if s.notice.retry < Config.noticeResends then s.enterDue (s.notice.retry + 1)
  else s.withNotice ⟨.silent, s.notice.retry, 0⟩

/-! ## Event reports (R182 to R184) -/

/-- The kind is enabled in the mask. -/
def EventQueue.enabled (q : EventQueue) (k : EventKind) : Bool := q.mask.getLsbD (eventKindCode k - 1)

/-- An undelivered SLIP record of this link and direction (R183). -/
def EventRecord.absorbs (r : EventRecord) (subject detail : Byte) : Bool :=
  decide (r.kind = .slip) && !r.delivered && decide (r.subject = subject) && decide (r.detail = detail)

/-- The records after the first that absorbs the slip has done so; `none` when none does (R183). -/
def coalesce (subject detail : Byte) : List EventRecord → Option (List EventRecord)
  | [] => none
  | r :: rs =>
    if r.absorbs subject detail then some ({ r with count := satInc8 r.count } :: rs)
    else (coalesce subject detail rs).map (r :: ·)

/-- The record a report appends, stamped with the frame index and superframe number in force (R180, R182). -/
def State.newRecord (s : State) (k : EventKind) (subject detail : Byte) : EventRecord :=
  { seq := s.events.nextSeq, kind := k, subject := subject, detail := detail, stampNumber := s.tb.number,
    stampIndex := s.tb.frameIndex, count := 1#8, lost := s.events.pendingLost, delivered := false }

/-- Steps 3 and 4 of R182: append at the tail, or count a loss. -/
def State.appendOrLose (s : State) (k : EventKind) (subject detail : Byte) : State :=
  if s.events.records.length < Config.eventQueueCapacity then
    (s.withEvents { s.events with records := s.events.records ++ [s.newRecord k subject detail],
                                  nextSeq := s.events.nextSeq + 1#8, pendingLost := 0#8 }).recordAppended
  else s.withEvents { s.events with pendingLost := satInc8 s.events.pendingLost }

/-- A report is taken into the queue: masked, coalesced, appended or lost (R182). -/
def State.report (s : State) (k : EventKind) (subject detail : Byte) : State :=
  if !s.events.enabled k then s
  else if k = .slip then
    match coalesce subject detail s.events.records with
    | some rs => s.withEvents { s.events with records := rs }
    | none => s.appendOrLose k subject detail
  else s.appendOrLose k subject detail

/-! ## Reference selection (R52 to R55) -/

/-- An entry of the reference list is qualified (R52). -/
def State.qualified (s : State) : RefEntry → Bool
  | .localClock => true
  | .link l => decide ((s.link l).rx.qualCount = Config.qualifiedCount)

/-- The current source as a list entry; none in HOLDOVER (R46). -/
def TimeSource.entry : TimeSource → Option RefEntry
  | .free => some .localClock
  | .locked l => some (.link l)
  | .holdover => none

def RefEntry.source : RefEntry → TimeSource
  | .localClock => .free
  | .link l => .locked l

/-- The first qualified entry in list order, or HOLDOVER (R54). -/
def State.firstQualified (s : State) : TimeSource :=
  match s.tb.refList.find? s.qualified with
  | some e => e.source
  | none => .holdover

/-- The outcome of a selection (R54). -/
def State.chooseSource (s : State) : TimeSource :=
  match s.tb.source.entry with
  | none => s.firstQualified
  | some e =>
    if s.tb.revertive || !s.tb.refList.contains e || !s.qualified e then s.firstQualified else s.tb.source

/-- Re-centring: of two held frames the oldest is discarded (R40). -/
def Store.recentre (x : Store) : Store :=
  if x.queue.length = Config.storeCapacity then { x with queue := x.queue.drop 1 } else x

/-- Re-centre the store of the link a source names (R55). -/
def State.recentreSource (s : State) : TimeSource → State
  | .locked l => s.updLink l fun k => { k with store := k.store.recentre }
  | _ => s

/-- The timebase in a new state: adoption cleared, the nominal period on entering FREE (R48, R55). A completion received
before the change gives no start after it (DESIGN CHOICE, notes/assumptions/7.md). -/
def Timebase.enter (t : Timebase) (new : TimeSource) : Timebase :=
  { t with source := new, pendingAdoption := none,
           heldPeriod := if new = .free then Config.nominalPeriod else t.heldPeriod,
           fromCompletion := false, completions := [] }

/-- Enter a state or source different from the one before (R55). -/
def State.enterSource (s : State) (new : TimeSource) : State :=
  ((s.withTb (s.tb.enter new)).recentreSource new).report .refChange partWide (timeSourceCode new)

/-- Run a selection (R53 to R55). -/
def State.select (s : State) : State :=
  if s.chooseSource = s.tb.source then s else s.enterSource s.chooseSource

/-! ## Entering and leaving SYNC (R23, R26, R39) -/

/-- The causes of LINK_DOWN (R26). -/
inductive DownCause where
  | headerErrors | clockLoss | reconfigured | disabled
deriving DecidableEq, Repr

def downCode : DownCause → Byte
  | .headerErrors => 1#8
  | .clockLoss => 2#8
  | .reconfigured => 3#8
  | .disabled => 4#8

/-- The causes that come from the line, counted as sync losses (R26). -/
def DownCause.fromLine : DownCause → Bool
  | .headerErrors => true
  | .clockLoss => true
  | .reconfigured => false
  | .disabled => false

/-- The queue is emptied and primed cleared; the current input frame stays until the next start (R39). -/
def Store.emptied (x : Store) : Store := { x with queue := [], primed := false }

/-- What leaving SYNC for `next` does to the link itself (R26). -/
def Link.outOfSync (x : Link) (next : Align) (cause : DownCause) : Link :=
  { x with
    rx := { x.rx with align := next, remoteAlarm := false, raiRun := 0, checkAlarm := false, window := 0#8,
                      collector := .idle, numberValid := false, qualCount := 0, wholeMark := false }
    store := x.store.emptied
    assembler := []
    rxCount := if cause.fromLine then { x.rxCount with syncLosses := satAdd16 x.rxCount.syncLosses 1 }
               else x.rxCount }

/-- The selection that a disqualification of the current source runs (R42, R53). -/
def State.disqualified (s : State) (l : LinkId) (wasQualified : Bool) : State :=
  if wasQualified && s.tb.source = .locked l then s.select else s

/-- The receiver of `l` leaves SYNC: the link's own changes, LINK_DOWN, and the selection of a lost source; either of
the two reports may be first (R26, R42, R156). DESIGN CHOICE (notes/assumptions/26.md): the two stand next to each
other; where reports of other links or blocks come together with them, those come before both or after both, and not
between, which R179 leaves open. -/
def State.leaveSync (s : State) (l : LinkId) (next : Align) (cause : DownCause) (refFirst : Bool) : State :=
  let q := decide ((s.link l).rx.qualCount = Config.qualifiedCount)
  let s1 := s.updLink l (·.outOfSync next cause)
  if refFirst then (s1.disqualified l q).report .linkDown (linkSubject l) (downCode cause)
  else (s1.report .linkDown (linkSubject l) (downCode cause)).disqualified l q

/-- The frame begun by a header word, with the fields read at its header (R18). -/
def Link.beginFrame (x : Link) (header : Word) (good : Bool) : FrameInProgress :=
  ⟨header, good, x.config.shape, x.config.discard⟩

/-- The receiver of `l` enters SYNC at a confirming header (R23). -/
def State.enterSync (s : State) (l : LinkId) (header : Word) : State :=
  (s.updLink l fun x =>
    { x with rx := { x.rx with align := .sync (headerOf header).succ 0 (some (x.beginFrame header true)) },
             store := x.store.emptied }).report .linkUp (linkSubject l) 0#8

/-! ## Bit search (R21, R22) -/

/-- Where a search stands after its bits: still in HUNT with these bits, in CONFIRM with these, or in SYNC at this
confirming header. -/
inductive SearchResult where
  | hunt (bits : List Bool)
  | confirm (bits : List Bool)
  | sync (header : Word)
deriving DecidableEq, Repr

/-- The bit-by-bit search over the bits received, `n` bits to a frame: the first position whose word is well formed
and whose successor tests, as far as their words have arrived, have passed. A failed candidate is passed over and the
words after it are examined as though they were arriving (R21, R22). -/
def searchBits (n : Nat) : List Bool → SearchResult
  | [] => .hunt []
  | b :: rest =>
    match firstWord? (b :: rest) with
    | none => .hunt (b :: rest)
    | some w =>
      if (headerOf w).wellFormed then
        match firstWord? ((b :: rest).drop n) with
        | none => .confirm (b :: rest)
        | some w1 =>
          if isSuccessor w w1 then
            match firstWord? ((b :: rest).drop (2 * n)) with
            | none => .confirm (b :: rest)
            | some w2 => if isSuccessor w1 w2 then .sync w2 else searchBits n rest
          else searchBits n rest
      else searchBits n rest

/-- Bits in one frame of a link. -/
def Link.frameBits (x : Link) : Nat := 16 * x.config.shape.slotCount.toNat

/-- A lane shows clock activity (R20). -/
def Receiver.clockSeen (r : Receiver) : Receiver := { r with watch := { r.watch with seen := true } }

/-- Bits arrive at a receiver that held `old` in HUNT or CONFIRM. -/
def State.receiveBits (s : State) (l : LinkId) (old new : List Bool) : State :=
  let s1 := if new = [] then s else s.updLink l fun x => x.withRx x.rx.clockSeen
  match searchBits (s.link l).frameBits (old ++ new) with
  | .hunt bits => s1.updLink l fun x => x.withRx { x.rx with align := .hunt bits }
  | .confirm bits => s1.updLink l fun x => x.withRx { x.rx with align := .confirm bits }
  | .sync header => s1.enterSync l header

/-! ## Hold values (R75, R76) -/

/-- Every hold value is none (R75). -/
def State.clearAllHolds (s : State) : State := s.withMap { s.map with holds := Vector.replicate 512 none }

/-- The 64 hold values of one link are none (R76). -/
def State.clearLinkHolds (s : State) (l : LinkId) : State :=
  s.withMap { s.map with holds := vecOf 512 fun i => if i.val / 64 = l.val then none else s.map.holds[i.val] }

/-! ## Soft reset (R142, R153) -/

/-- A bridge after PART-RESET; the leg outputs fixed for the frame in progress stay (R99). -/
def Bridge.partReset (x : Bridge) : Bridge := { x with enabled := false, legs := Vector.replicate 8 none }

/-- A link after PART-RESET: both groups of counters 0, everything else kept (R43, R124, R143). -/
def Link.partReset (x : Link) : Link := { x with rxCount := .zero, mgmtCount := .zero }

/-- The soft reset is applied (R142, R153). -/
def State.softReset (s : State) : State :=
  { s with
    links := vecOf 8 fun l => (s.link l).partReset
    map := .cleared
    bank := .cleared
    bridges := vecOf 16 fun b => s.bridges[b.val].partReset
    agent := { s.agent with resetPending := false, resetCause := .partReset }
    events := .cleared
    notice := .cleared }

end Sys2Proof.Machine
end

