-- ==== Sys2Proof/Machine/Taking.lean ====
section
/-!
DEFINITION. Taking a command (R129, R131, R134, R137 to R140, R142, R147): the destination class, the active uplink
and the reply address, congestion, a pending reset, the examination, and the response. ONE operation for every command
cell; each command hands it its code, its kind and its body.
-/

namespace Sys2Proof.Machine

/-- The class of an outbound cell's destination for this part (R129). -/
inductive DestClass where
  | unicast | group | broadcast | other
deriving DecidableEq, Repr

def Agent.classify (a : Agent) (dest : Byte) : DestClass :=
  if dest = a.strapAddr || a.aliases.toList.contains (some dest) then .unicast
  else if a.groups.toList.contains (some dest) then .group
  else if dest = 0xFF#8 then .broadcast
  else .other

/-- What a command answers: status, aux, payload bytes (the rest 0x00), and whether the response is the reset
response (R140, R142). -/
structure Answer where
  status : Status
  aux : Byte
  payload : List Byte
  resetResponse : Bool
deriving DecidableEq, Repr

/-- A refusal: aux 0 and zero payload (R149). -/
def Answer.refusal (st : Status) : Answer := ⟨st, 0#8, [], false⟩

/-- A success OK with this aux and payload. -/
def Answer.success (aux : Byte) (payload : List Byte) : Answer := ⟨.ok, aux, payload, false⟩

/-- A success ACCEPTED with aux 0 (R148). -/
def Answer.begun (payload : List Byte) : Answer := ⟨.accepted, 0#8, payload, false⟩

/-- The response cell (R140). -/
def responseCell (code : BitVec 7) (c : CommandCell) (a : Answer) : Cell :=
  buildCell inboundMarker c.src c.dest a.aux c.tag code a.status.code (payloadOf a.payload)

/-- The taking sets the active uplink and the reply address (R131). -/
def State.noteTaking (s : State) (c : CommandCell) : State :=
  s.withAgent { s.agent with activeUplink := c.arrival, replyAddr := c.src }

/-- The notice controller's test when the active uplink has changed from `old` (R189). -/
def State.movedTest (s : State) (old : LinkId) : State := if s.agent.activeUplink = old then s else s.noticeTest

/-- Hold a place in the arrival link's queue for the response (R137). -/
def State.holdPlace (s : State) (l : LinkId) : State := s.withAgent { s.agent with heldPlace := some l }

/-- The place held is free again. -/
def State.releasePlace (s : State) : State := s.withAgent { s.agent with heldPlace := none }

/-- Place the response at the tail of the arrival link's queue, in the place held for it (R137, R140). -/
def State.respond (s : State) (code : BitVec 7) (c : CommandCell) (a : Answer) : State :=
  s.releasePlace.enqueue c.arrival ⟨responseCell code c a, a.resetResponse⟩

/-- A command refused for congestion (R139). -/
def State.congested (s : State) (l : LinkId) : State :=
  s.updLink l fun x => { x with mgmtCount := { x.mgmtCount with congestion := satAdd16 x.mgmtCount.congestion 1 } }

/-- The body of a command: its examination and execution from stage 4 on, whether it was taken by unicast, and its
answer (R147). -/
abbrev Body := Bool → CommandCell → State → State × Answer

/-- A unicast command, the active uplink and the reply address set (R137, R139, R142). -/
def State.takeUnicast (s : State) (code : BitVec 7) (body : Body) (c : CommandCell) (old : LinkId) : State :=
  let s1 := if c.noticeFirst then s.movedTest old else s
  if s1.hasRoom c.arrival then
    let s2 := s1.holdPlace c.arrival
    let s3 := if c.noticeFirst then s2 else s2.movedTest old
    if s3.agent.resetPending then s3.respond code c (.refusal .busy)
    else (body true c s3).1.respond code c (body true c s3).2
  else s1.congested c.arrival

/-- A group or broadcast command, already relayed, the active uplink and the reply address set: no response, and a
reading kind is ignored (R138, R142). -/
def State.takeShared (s : State) (reading : Bool) (body : Body) (c : CommandCell) (old : LinkId) : State :=
  let s1 := s.movedTest old
  if s1.agent.resetPending || reading then s1 else (body false c s1).1

/-- Take a command cell that has completed on its arrival link. It is taken only where that link's record holds UPLINK
and the destination is for this part (R131, R134); a group or broadcast cell is relayed first. -/
def State.take (s : State) (code : BitVec 7) (reading : Bool) (body : Body) (c : CommandCell) : State :=
  if (s.link c.arrival).config.shape.role = .uplink then
    match s.agent.classify c.dest with
    | .other => s
    | .unicast => (s.noteTaking c).takeUnicast code body c s.agent.activeUplink
    | .group => ((s.relayOutbound (outboundCell code c)).noteTaking c).takeShared reading body c s.agent.activeUplink
    | .broadcast =>
      ((s.relayOutbound (outboundCell code c)).noteTaking c).takeShared reading body c s.agent.activeUplink
  else s

end Sys2Proof.Machine
end

