-- ==== Sys2Proof/Machine/Agent.lean ====
section
/-!
DEFINITION. Identity, addresses and PART-RESET (R150 to R153), and the command whose code names none (R147).
-/

namespace Sys2Proof.Machine

/-! ## IDENTIFY (R150) -/

def identifyBody : Body := fun _ c s =>
  (s, .success 0#8 [Config.partCodeHigh, Config.partCodeLow, Config.revision, s.agent.strapAddr,
                    byteOf s.agent.strapUplink.val, resetCauseCode s.agent.resetCause, byteOf c.arrival.val])

def State.takeIdentify (s : State) (c : CommandCell) : State := s.take 0x01#7 true identifyBody c

def execIdentify (c : CommandCell) (s : State) : Host.Outcome State Fault Refusal := .next (s.takeIdentify c)

/-! ## ADDR-SET (R151) -/

/-- An address slot as a payload byte: 0x00 when empty. -/
def addrByte (a : Option Byte) : Byte := a.getD 0x00#8

/-- The address a slot takes: 0x00 empties it. -/
def addrOf (b : Byte) : Option Byte := if b = 0x00#8 then none else some b

/-- The alias slot with this number, 1 to 3, at index 0 to 2. -/
def aliasIndex (b : Byte) : Option (Fin 3) := if b = 0#8 then none else finOf 3 (b - 1#8)

/-- Another alias slot holds this address (check 4). -/
def Agent.aliasTaken (a : Agent) (i : Fin 3) (addr : Byte) : Bool :=
  (List.finRange 3).any fun j => decide (j ≠ i) && decide (a.aliases[j.val] = some addr)

def addrSetBody : Body := fun _ c s =>
  match aliasIndex (pByte c 0) with
  | none => (s, .refusal .badParam)
  | some i =>
    let addr := pByte c 1
    if 0xF0 ≤ addr.toNat then (s, .refusal .badParam)
    else if addr = s.agent.strapAddr then (s, .refusal .duplicate)
    else if s.agent.aliasTaken i addr then (s, .refusal .duplicate)
    else
      let aliases := s.agent.aliases.set i.val (addrOf addr)
      (s.withAgent { s.agent with aliases := aliases },
       .success 0#8 [addrByte aliases[0], addrByte aliases[1], addrByte aliases[2]])

def State.takeAddrSet (s : State) (c : CommandCell) : State := s.take 0x02#7 false addrSetBody c

def execAddrSet (c : CommandCell) (s : State) : Host.Outcome State Fault Refusal := .next (s.takeAddrSet c)

/-! ## GROUP-SET (R152) -/

/-- An address a membership slot admits: 0x00, or a group address 0xF0 to 0xFE. -/
def groupAddrLegal (b : Byte) : Bool := decide (b = 0x00#8) || (decide (0xF0 ≤ b.toNat) && decide (b ≠ 0xFF#8))

/-- The other membership slot holds this group (check 3). -/
def Agent.groupTaken (a : Agent) (i : Fin 2) (addr : Byte) : Bool :=
  (List.finRange 2).any fun j => decide (j ≠ i) && decide (a.groups[j.val] = some addr)

def groupSetBody : Body := fun _ c s =>
  match finOf 2 (pByte c 0) with
  | none => (s, .refusal .badParam)
  | some i =>
    let addr := pByte c 1
    if !groupAddrLegal addr then (s, .refusal .badParam)
    else if s.agent.groupTaken i addr then (s, .refusal .duplicate)
    else
      let groups := s.agent.groups.set i.val (addrOf addr)
      (s.withAgent { s.agent with groups := groups }, .success 0#8 [addrByte groups[0], addrByte groups[1]])

def State.takeGroupSet (s : State) (c : CommandCell) : State := s.take 0x03#7 false groupSetBody c

def execGroupSet (c : CommandCell) (s : State) : Host.Outcome State Fault Refusal := .next (s.takeGroupSet c)

/-! ## PART-RESET (R142, R143, R153) -/

/-- By unicast the reset becomes pending and the response is marked; by group or broadcast the soft reset is applied
at once. -/
def partResetBody : Body := fun unicast _ s =>
  if unicast then (s.withAgent { s.agent with resetPending := true }, ⟨.ok, 0#8, [], true⟩)
  else (s.softReset, .success 0#8 [])

def State.takePartReset (s : State) (c : CommandCell) : State := s.take 0x04#7 false partResetBody c

def execPartReset (c : CommandCell) (s : State) : Host.Outcome State Fault Refusal := .next (s.takePartReset c)

/-! ## A code that names no command (R147) -/

def badCommandBody : Body := fun _ _ s => (s, .refusal .badCommand)

def State.takeBadCommand (s : State) (code : BitVec 7) (c : CommandCell) : State := s.take code false badCommandBody c

/-- BAD_COMMAND. A code that names a command is no bad command: the row does not come about. -/
def execBadCommand (code : BitVec 7) (c : CommandCell) (s : State) : Host.Outcome State Fault Refusal :=
  .next (if commandCodes.contains code then s else s.takeBadCommand code c)

end Sys2Proof.Machine
end

