-- ==== Sys2Proof/Machine/Transmit.lean ====
section
/-!
DEFINITION. What is fixed at a local frame start and sent during the frame: source validity, bridges, the words of
the connection map, the hold values, and each transmitter's frame with its management and check words.
-/

namespace Sys2Proof.Machine

/-! ## Sources (R38, R69, R70) -/

/-- The word of slot `t` of a received frame as a source: the frame valid, the slot a payload slot under the roles the
frame was received with (R69, R101). -/
def RxFrame.source (f : RxFrame) (t : SlotId) : Option Word :=
  if f.valid && f.shape.isPayload t.val then some (f.words.getD t.val 0#16) else none

/-- The word of a SLOT source, or none when it is invalid (R69). -/
def State.slotSource (s : State) (k : LinkId) (t : SlotId) : Option Word :=
  match (s.link k).store.current with
  | none => none
  | some f => f.source t

/-! ## Bridges (R101 to R104) -/

/-- The contribution of one leg position (R101). -/
def State.contribution (s : State) : Option Leg → Int
  | none => 0
  | some g =>
    match s.slotSource g.link g.slot with
    | none => 0
    | some w => attenuate w g.attenuation

/-- The leg outputs of one bridge, none where invalid (R102, R103). -/
def State.bridgeOutputs (s : State) (b : Bridge) : Vector (Option Word) 8 :=
  if b.enabled then
    let x := vecOf 8 fun k => s.contribution b.legs[k.val]
    vecOf 8 fun k => b.legs[k.val].map fun _ => mixMinus x k
  else Vector.replicate 8 none

/-- The Bridge Unit fixes every leg output for the frame (R104). -/
def State.evaluateBridges (s : State) : State :=
  s.withBridges (vecOf 16 fun b => { s.bridges[b.val] with outputs := s.bridgeOutputs s.bridges[b.val] })

/-! ## Connection map words (R65 to R74) -/

/-- The word a SLOT or LEG source delivers; none when it is invalid (R69, R70). -/
def State.sourceWord (s : State) : EntrySource → Option Word
  | .idle => none
  | .const _ => none
  | .slot k t => s.slotSource k t
  | .leg b k => s.bridges[b.val].outputs[k.val]

/-- The word sent when the source is invalid: the hold value under HOLD when there is one, else the idle word (R71 to
R73). -/
def faultWord (fault : FaultAction) (hold : Option Word) (idle : Word) : Word :=
  match fault with
  | .idle => idle
  | .hold => hold.getD idle

/-- The word fixed for a payload output slot (R71). -/
def State.fixedWord (s : State) (e : Entry) (hold : Option Word) (idle : Word) : Word :=
  match e.source with
  | .idle => idle
  | .const w => w
  | .slot k t => (s.slotSource k t).getD (faultWord e.fault hold idle)
  | .leg b k => (s.sourceWord (.leg b k)).getD (faultWord e.fault hold idle)

/-- Entry of the active bank for output slot (l, t). -/
def State.activeEntry (s : State) (l : LinkId) (t : SlotId) : Entry :=
  (s.map.entries s.bank.active)[(slotIndex l t).val]

/-- The payload word of output slot (l, t) under a transmit configuration (R66, R71). -/
def State.payloadWord (s : State) (cfg : TxConfig) (l : LinkId) (t : SlotId) : Word :=
  s.fixedWord (s.activeEntry l t) s.map.holds[(slotIndex l t).val] cfg.idle

/-- Link and slot of an index of the map (R63). -/
def indexLink (i : Fin 512) : LinkId := ⟨i.val / 64, by omega⟩
def indexSlot (i : Fin 512) : SlotId := ⟨i.val % 64, by omega⟩

/-- The hold value of an output slot for later frames (R66, R67, R74). -/
def State.nextHold (s : State) (i : Fin 512) : Option Word :=
  let cfg := (s.link (indexLink i)).config
  if cfg.txEnable && cfg.shape.isPayload (indexSlot i).val then
    (s.sourceWord ((s.map.entries s.bank.active)[i.val]).source).or s.map.holds[i.val]
  else s.map.holds[i.val]

/-! ## Frames (R113 to R119) -/

/-- The header word a link sends for the frame that starts (R9, R114). -/
def State.txHeader (s : State) (x : Link) : Word :=
  headerWord s.tb.frameIndex (x.config.rxEnable && !x.inSync) (sBit s.tb.number s.tb.frameIndex)

/-- The next word of the head cell, or idle fill (R116). -/
def Link.nextMgmtWord (x : Link) : Word :=
  match x.queue with
  | [] => 0x0000#16
  | q :: _ => q.cell[x.tx.wordCount.val]

/-- The word of one slot other than the check slot (R113). -/
def State.slotWord (s : State) (l : LinkId) (x : Link) (t : SlotId) : Word :=
  if t.val = 0 then s.txHeader x
  else if x.config.shape.isMgmt t.val then x.tx.mgmtWord
  else s.payloadWord x.config.txPart l t

/-- The N words of the frame, the check word computed after every other (R113, R118). -/
def State.frameWords (s : State) (l : LinkId) (x : Link) : List Word :=
  let n := x.config.shape.slotCount.toNat
  if x.config.shape.checkEnable then
    let body := ((List.finRange 64).take (n - 1)).map (s.slotWord l x)
    body ++ [xorWords body]
  else ((List.finRange 64).take n).map (s.slotWord l x)

/-- One management word has been fixed: the count goes on, and at word 8 the cell leaves (R116, R117). -/
def Link.advanceQueue (x : Link) : Link :=
  match x.queue with
  | [] => x
  | _ :: rest =>
    if x.tx.wordCount = 7 then { x with queue := rest, tx := { x.tx with wordCount := 0 } }
    else { x with tx := { x.tx with wordCount := x.tx.wordCount + 1 } }

/-- A management word is sent in the frame that starts: tx enable on and a management role (R116). -/
def Link.sendsMgmt (x : Link) : Bool := x.config.txEnable && decide (x.config.shape.role ≠ .none)

/-- At the start that comes, the head cell's eighth word is fixed and it leaves (R117). -/
def Link.departs (x : Link) : Bool := x.sendsMgmt && decide (x.tx.wordCount = 7) && !x.queue.isEmpty

/-- The cell leaving is the reset response (R142). -/
def Link.resetLeaves (x : Link) : Bool := x.departs && ((x.queue.head?.map (·.resetResponse)).getD false)

/-- The management word of one link is fixed, and its cell goes on or leaves (R116, R117). -/
def Link.takeMgmtWord (x : Link) : Link :=
  if x.sendsMgmt then
    { x.advanceQueue with tx := { x.advanceQueue.tx with mgmtWord := x.nextMgmtWord } }
  else x

/-- Every management word of the frame that starts is fixed from the queues as they stand (R113, R116). -/
def State.fixManagement (s : State) : State := s.withLinks (vecOf 8 fun l => (s.link l).takeMgmtWord)

/-- The transmitter of one link takes its configuration and fixes its frame, or is silent (R112, R113, R119). -/
def State.sendLink (s : State) (l : LinkId) : Link :=
  let x := s.link l
  { x with tx := { x.tx with inUse := x.config.txPart,
                             frame := if x.config.txEnable then some (s.frameWords l x) else none } }

/-- Bridges, map and transmitters act for the frame that starts (R65, R104, R113). -/
def State.transmit (s : State) : State :=
  let s1 := s.evaluateBridges
  { s1 with links := vecOf 8 fun l => s1.sendLink l,
            map := { s1.map with holds := vecOf 512 fun i => s1.nextHold i } }

end Sys2Proof.Machine
end

