-- ==== Sys2Proof/Machine/Start.lean ====
section
/-!
DEFINITION. Local frame starts: when the timebase's source gives one, the choice of the superframe number, the acts
of every block at a start, and their order.
-/

namespace Sys2Proof.Machine

/-! ## When a start comes (R47 to R51) -/

/-- One and a half held periods, in whole REFCLK periods (R49; notes/assumptions/6.md). -/
def Timebase.timeoutAt (t : Timebase) : Nat := (3 * t.heldPeriod + 1) / 2

/-- The start that the first usable completion of the locked link gives: the earliest in the window from half a held
period to one and a half after the previous start (R49; the tie at one and a half, notes/assumptions/6.md). -/
def Timebase.firstUsable (t : Timebase) : Option Nat :=
  (t.completions.filter fun d => t.heldPeriod ≤ 2 * d && 2 * d < 3 * t.heldPeriod).min?

/-- Whether the source gives a local frame start `elapsed` after the previous one, and if so whether it is taken from
a completion of the locked link: in FREE at the first wrap of the divider at least half a nominal period after the
previous start; in LOCKED at the start of the first usable completion, and where there is none by itself at one and a
half held periods; in HOLDOVER at the held period (R48 to R51). DESIGN CHOICE (notes/assumptions/6.md): resolution and
ties; and where FREE is entered after that first wrap has passed, which the table of R51 names and its bound of one and
a half periods then contradicts for the wrap after it, the table is followed: the frame that ends is that wrap's. -/
def Timebase.startKind (t : Timebase) (elapsed : Nat) : Option Bool :=
  if !t.started then some false
  else match t.source with
    | .free =>
      if (t.divider.val + elapsed) % 512 = 0 && Config.nominalPeriod ≤ 2 * elapsed &&
          2 * elapsed < 3 * Config.nominalPeriod then some false
      else none
    | .locked _ =>
      match t.firstUsable with
      | some d => if elapsed = d then some true else none
      | none => if elapsed = t.timeoutAt then some false else none
    | .holdover => if elapsed = t.heldPeriod then some false else none

/-- The start that comes is a local superframe start (R47). -/
def Timebase.superframeDue (t : Timebase) : Bool := t.started && decide (t.frameIndex = 47)

/-- The new superframe number (R58). -/
def Timebase.chooseNumber (t : Timebase) : Word :=
  match t.pendingSet with
  | some v => v
  | none =>
    match t.follow, t.source, t.pendingAdoption with
    | true, .locked _, some v => v
    | _, _, _ => t.number + 1#16

/-- The timebase for the frame that begins: index, number, pending values cleared at a superframe start, the held period
tracked, the divider run on, and the completions whose starts are still to come reckoned from this start; the first
start is a wrap (R47, R48, R49, R58). -/
def Timebase.beginFrame (t : Timebase) (new : Word) (fromCompletion : Bool) (elapsed : Nat) : Timebase :=
  { t with
    frameIndex := if t.started then t.frameIndex + 1 else t.frameIndex
    number := new
    pendingSet := if t.superframeDue then none else t.pendingSet
    pendingAdoption := if t.superframeDue then none else t.pendingAdoption
    heldPeriod := if fromCompletion && t.fromCompletion then elapsed else t.heldPeriod
    started := true
    divider := if t.started then Fin.ofNat 512 (t.divider.val + elapsed) else 0
    fromCompletion := fromCompletion
    completions := (t.completions.filter (elapsed < ·)).map (· - elapsed) }

/-! ## What a start knows -/

/-- What the acts of one start share. -/
structure StartCtx where
  superframe : Bool
  old : Word
  new : Word
  rxc : BitVec 8
  /-- bit L: REF_CHANGE before LINK_DOWN when link L leaves SYNC -/
  refFirst : BitVec 8
  /-- the notice timer was running when the start came -/
  timerRunning : Bool
  /-- the reset response leaves at this start and a reset is pending -/
  resetDue : Bool
  /-- a cell leaves the active uplink's queue, and no frame that completes with the start comes before the test for its
  place -/
  testsPlace : Bool

/-- The reset response leaves its queue at the start that comes (R142). -/
def State.resetDue (s : State) : Bool :=
  s.agent.resetPending && (List.finRange 8).any fun l => (s.link l).resetLeaves

/-- A cell leaves the active uplink's queue at the start that comes (R117). -/
def State.uplinkDeparts (s : State) : Bool := (s.link s.agent.activeUplink).departs

/-- The context of the start that comes, but for the new superframe number. -/
def State.startCtxOld (s : State) (i : StartInput) : StartCtx :=
  { superframe := s.tb.superframeDue, old := s.tb.number, new := s.tb.number, rxc := i.rxc, refFirst := i.refFirst,
    timerRunning := decide (s.notice.state = .wait), resetDue := s.resetDue,
    testsPlace := s.uplinkDeparts && i.arrivals.isEmpty }

/-! ## The acts -/

/-- Set a link's clock watch. -/
def Link.withWatch (x : Link) (w : ClockWatch) : Link := x.withRx { x.rx with watch := w }

/-- Set a link's alignment state. -/
def Link.withAlign (x : Link) (a : Align) : Link := x.withRx { x.rx with align := a }

/-- RXC of `l` made a transition since the previous local frame start. -/
def State.laneActive (s : State) (l : LinkId) (rxc : BitVec 8) : Bool :=
  (s.link l).rx.watch.seen || rxc.getLsbD l.val

/-- The clock watch of one receiver (R20). A transition in NOCLOCK that no CLOCK_RETURN showed takes the receiver to
HUNT here (DEDUCED, notes/assumptions/15.md). -/
def State.clockWatchAct (s : State) (l : LinkId) (rxc : BitVec 8) (refFirst : Bool) : State :=
  let w := (s.link l).rx.watch
  let noted := s.updLink l (·.withWatch ⟨true, false, false⟩)
  match (s.link l).rx.align with
  | .off => s
  | .noclock => if s.laneActive l rxc then noted.updLink l (·.withAlign (.hunt [])) else noted
  | _ =>
    if !w.begun || s.laneActive l rxc then noted
    else if !w.silent then s.updLink l (·.withWatch ⟨true, false, true⟩)
    else if (s.link l).inSync then noted.leaveSync l .noclock .clockLoss refFirst
    else noted.updLink l (·.withAlign .noclock)

/-- The second consecutive silent interval of `l` closes at the start that comes (R20). -/
def State.clockLossDue (s : State) (l : LinkId) (rxc : BitVec 8) : Bool :=
  let w := (s.link l).rx.watch
  decide ((s.link l).rx.align ≠ .off) && decide ((s.link l).rx.align ≠ .noclock) && w.begun && w.silent &&
    !s.laneActive l rxc

/-- The evaluation of one receiver's check-alarm window (R31). -/
def State.checkWindowAct (s : State) (l : LinkId) (superframe : Bool) : State :=
  let x := s.link l
  if superframe && x.inSync && x.config.shape.checkEnable then
    let alarm := evaluateWindow x.rx.checkAlarm x.rx.window
    let s1 := s.updLink l fun x => x.withRx { x.rx with checkAlarm := alarm, window := 0#8 }
    if alarm = x.rx.checkAlarm then s1 else s1.report .checkAlarm (linkSubject l) (flagCode alarm)
  else s

/-- The qualification count after a superframe start (R41). -/
def Link.nextQual (x : Link) : Nat :=
  if x.inSync && x.rx.wholeMark then min (x.rx.qualCount + 1) Config.qualifiedCount else x.rx.qualCount

/-- The link becomes qualified at the superframe start that comes (R42). -/
def Link.qualifies (x : Link) : Bool :=
  decide (x.nextQual = Config.qualifiedCount) && decide (x.rx.qualCount ≠ Config.qualifiedCount)

/-- Qualification of one receiver at a superframe start, and the selection of a listed link that qualifies (R41, R42,
R53). -/
def State.qualificationAct (s : State) (l : LinkId) (superframe : Bool) : State :=
  if superframe then
    let x := s.link l
    let s1 := s.updLink l fun x => x.withRx { x.rx with qualCount := x.nextQual, wholeMark := x.inSync }
    if x.qualifies && s.tb.refList.contains (.link l) then s1.select else s1
  else s

/-- The report of a step (R60). -/
def State.timeStepAct (s : State) (c : StartCtx) : State :=
  if c.superframe then
    match stepOf c.old c.new with
    | none => s
    | some forward => s.report .timeStep partWide (flagCode (!forward))
  else s

/-- A switch fires (R94). -/
def State.fireSwitch (s : State) (late : Bool) : State :=
  (s.clearAllHolds.withBank { s.bank with active := s.standby, consistent := true, scheduler := .idle }).report
    .bankSwitch partWide (bankCode s.standby + (if late then 2#8 else 0#8))

/-- Whether the scheduled switch fires at a start, and with which late mark (R92, R93). -/
def Scheduler.fires (x : Scheduler) (superframe : Bool) (old new : Word) : Option Bool :=
  match x with
  | .idle => none
  | .immediate => some false
  | .armed target => if superframe then armedFires target old new else none

/-- The switch scheduler at a start. -/
def State.scheduleAct (s : State) (c : StartCtx) : State :=
  match s.bank.scheduler.fires c.superframe c.old c.new with
  | none => s
  | some late => s.fireSwitch late

/-- The standby entry at index `i` once processed (R86). -/
def State.processedEntry (s : State) (op : EngineOp) (i : Fin 512) : Entry :=
  match op with
  | .copy => (s.map.entries s.bank.active)[i.val]
  | .clear => .reset

/-- The eight standby entries at `pos` to `pos` + 7 are processed (R86). -/
def State.processChunk (s : State) (op : EngineOp) (pos : Nat) : State :=
  s.withMap (s.map.setEntries s.standby (vecOf 512 fun i =>
    if pos ≤ i.val && i.val < pos + 8 then s.processedEntry op i else (s.map.entries s.standby)[i.val]))

/-- The detail of ENGINE_END (R179). -/
def engineEndDetail (op : EngineOp) (outcome : EngineOutcome) : Byte :=
  byteOf ((match op with | .copy => 0 | .clear => 1) + 2 * engineOutcomeCode outcome)

/-- One chunk of a running engine; the last one completes the operation (R86, R87). -/
def State.engineAct (s : State) : State :=
  match s.bank.engine with
  | .idle _ _ _ => s
  | .running op pos =>
    let s1 := s.processChunk op pos
    if pos + 8 < 512 then s1.withBank { s1.bank with engine := .running op (pos + 8) }
    else (s1.withBank { s1.bank with engine := .idle (some op) .done 512, consistent := true }).report
      .engineEnd partWide (engineEndDetail op .done)

/-- The choice of one link's current input frame (R36). -/
def State.presentAct (s : State) (l : LinkId) : State :=
  let x := s.link l
  if x.rx.align = .off then s.updLink l fun x => { x with store := { x.store with current := none } }
  else match x.store.queue with
    | f :: rest => s.updLink l fun x => { x with store := ⟨rest, some f, true⟩ }
    | [] =>
      if x.inSync && x.store.primed then
        (s.updLink l fun x =>
          { x with rxCount := { x.rxCount with repeatSlips := satAdd16 x.rxCount.repeatSlips 1 } }).report
            .slip (linkSubject l) 0#8
      else s.updLink l fun x => { x with store := { x.store with current := none } }

/-- The notice timer at a superframe start; a timer set at this very start is not lowered by it (R191). -/
def State.noticeTimerAct (s : State) (c : StartCtx) : State :=
  if c.superframe && c.timerRunning && decide (s.notice.state = .wait) && !(c.resetDue && !s.agent.resetPending) then
    if s.notice.timer ≤ 1 then s.noticeExpiry
    else s.withNotice { s.notice with timer := s.notice.timer - 1 }
  else s

/-- One act of a start. -/
def State.startAct (c : StartCtx) (s : State) : StartAct → State
  | .number => s
  | .clockWatch l => s.clockWatchAct l c.rxc (c.refFirst.getLsbD l.val)
  | .checkWindow l => s.checkWindowAct l c.superframe
  | .qualification l => s.qualificationAct l c.superframe
  | .timeStep => s.timeStepAct c
  | .schedule => s.scheduleAct c
  | .engineChunk => s.engineAct
  | .present l => s.presentAct l
  | .noticeTimer => s.noticeTimerAct c
  | .management => s.fixManagement
  | .transmit => s.transmit
  | .softReset => if c.resetDue then s.softReset else s
  | .noticeTest => if c.testsPlace then s.noticeTest else s

/-! ## Their order -/

/-- Every act of a start once, in the order used where the command names none. -/
def allStartActs : List StartAct :=
  List.flatten [[.number], (List.finRange 8).map StartAct.clockWatch, (List.finRange 8).map StartAct.checkWindow,
    (List.finRange 8).map StartAct.qualification, [.timeStep, .schedule, .engineChunk],
    (List.finRange 8).map StartAct.present, [.noticeTimer, .management, .transmit, .softReset, .noticeTest]]

/-- The first occurrence of each act. -/
def firstOccurrences {α : Type} [DecidableEq α] : List α → List α
  | [] => []
  | a :: as => a :: (firstOccurrences as).filter (· ≠ a)

/-- Acts that satisfy `p` and stand after `b` are moved to directly before it, in their order. -/
def bringForward (p : StartAct → Bool) (b : StartAct) (acts : List StartAct) : List StartAct :=
  let post := (acts.dropWhile (· ≠ b)).drop 1
  acts.takeWhile (· ≠ b) ++ post.filter p ++ [b] ++ post.filter (!p ·)

/-- Acts that satisfy `p` and stand before `b` are moved to directly after it, in their order. -/
def holdBack (p : StartAct → Bool) (b : StartAct) (acts : List StartAct) : List StartAct :=
  let pre := acts.takeWhile (· ≠ b)
  pre.filter (!p ·) ++ [b] ++ pre.filter p ++ (acts.dropWhile (· ≠ b)).drop 1

/-- Acts whose outcome the frame is fixed from (R36, R65, R116). -/
def frameNeeds : StartAct → Bool
  | .present _ => true
  | .schedule => true
  | .management => true
  | _ => false

/-- The order in which the acts of a start are taken: the command's order, then the acts it does not name; what the
frame is fixed from before the frame, the test for a place after the cells have left (R189), the soft reset after the
frame (R142). When the order places a soft reset that is due before the switch, the switch comes after it and does not
fire (R97). DESIGN CHOICE, notes/assumptions/29.md: R194 lets a report and the soft reset come in either order; what is
taken before the frame makes its reports before the reset, a SLIP repeat of that very start always. -/
def startSequence (resetDue : Bool) (order : List StartAct) : List StartAct :=
  let all := firstOccurrences (order ++ allStartActs)
  let cut := resetDue && (all.takeWhile (· ≠ .schedule)).contains .softReset
  let framed := bringForward (fun a => frameNeeds a && !(cut && a = .schedule)) .transmit all
  let seq := holdBack (· = .softReset) .transmit (holdBack (· = .noticeTest) .management framed)
  if cut then holdBack (· = .schedule) .softReset seq else seq

/-! ## The start -/

/-- The context of the start that comes. The new number is chosen where the order places the choice: after the
selections of acts taken before it, which may have cleared the adoption (R42, R57, R58). -/
def State.startCtx (s : State) (i : StartInput) : StartCtx :=
  let c := s.startCtxOld i
  let before := (startSequence c.resetDue i.order).takeWhile (· ≠ .number)
  { c with new := if c.superframe then (before.foldl (State.startAct c) s).tb.chooseNumber else s.tb.number }

/-- The acts of a local frame start: the timebase begins the new frame and every block acts for it (R47); where the
source gives no start at this time, nothing happens (R49: not used for timing). -/
def State.localFrameStart (s : State) (i : StartInput) : State :=
  match s.tb.startKind i.elapsed with
  | none => s
  | some fromCompletion =>
    let c := s.startCtx i
    (startSequence c.resetDue i.order).foldl (State.startAct c)
      (s.withTb (s.tb.beginFrame c.new fromCompletion i.elapsed))

end Sys2Proof.Machine
end

