-- ==== Sys2Proof/Machine/Banks.lean ====
section
/-!
DEFINITION. The map and bank commands: MAP-WRITE, MAP-READ (R163 to R165), BANK-COPY, BANK-CLEAR, BANK-ABORT,
BANK-STATUS (R85, R88, R166 to R168), SWITCH-AT, SWITCH-NOW and SWITCH-CANCEL (R91, R92, R95, R169 to R171).
-/

namespace Sys2Proof.Machine

/-- A bank switch is scheduled: ARMED or IMMEDIATE (R90). -/
def Scheduler.scheduled : Scheduler → Bool
  | .idle => false
  | _ => true

def Engine.isRunning : Engine → Bool
  | .idle _ _ _ => false
  | .running _ _ => true

/-! ## MAP-WRITE (R163, R164) -/

/-- The source is a payload slot of its link's record; kinds other than SLOT are not tested (check 5 of R163). -/
def State.sourceUsable (s : State) : EntrySource → Bool
  | .slot k t => (s.link k).config.shape.isPayload t.val
  | _ => true

/-- P0 output link, P1 output slot, P2 to P5 the entry. -/
def entryPayload (l : LinkId) (t : SlotId) (e : Entry) : List Byte := [byteOf l.val, byteOf t.val] ++ e.bytes

/-- Write one entry of the standby bank. -/
def State.writeStandby (s : State) (i : Fin 512) (e : Entry) : State :=
  s.withMap (s.map.setEntries s.standby ((s.map.entries s.standby).set i.val e))

def mapWriteBody : Body := fun _ c s =>
  match finOf 8 (pByte c 0), finOf 64 (pByte c 1), entryOf c with
  | some l, some t, some e =>
    if t = 0 then (s, .refusal .badParam)
    else if !s.sourceUsable e.source then (s, .refusal .badSource)
    else if s.bank.scheduler.scheduled then (s, .refusal .pending)
    else if s.bank.engine.isRunning then (s, .refusal .busy)
    else (s.writeStandby (slotIndex l t) e, .success (bankCode s.standby) (entryPayload l t e))
  | _, _, _ => (s, .refusal .badParam)

def State.takeMapWrite (s : State) (c : CommandCell) : State := s.take 0x30#7 false mapWriteBody c

def execMapWrite (c : CommandCell) (s : State) : Host.Outcome State Fault Refusal := .next (s.takeMapWrite c)

/-! ## MAP-READ (R165) -/

def mapReadBody : Body := fun _ c s =>
  match finOf 8 (pByte c 0), finOf 64 (pByte c 1), bankOf (pByte c 2) with
  | some l, some t, some k =>
    (s, .success (if k = s.bank.active then 0#8 else 1#8)
      (entryPayload l t (s.map.entries k)[(slotIndex l t).val]))
  | _, _, _ => (s, .refusal .badParam)

def State.takeMapRead (s : State) (c : CommandCell) : State := s.take 0x31#7 true mapReadBody c

def execMapRead (c : CommandCell) (s : State) : Host.Outcome State Fault Refusal := .next (s.takeMapRead c)

/-! ## BANK-COPY and BANK-CLEAR (R85, R166) -/

/-- Start an engine operation, after the two checks of R166. -/
def State.startEngine (s : State) (op : EngineOp) : State × Answer :=
  if s.bank.scheduler.scheduled then (s, .refusal .pending)
  else if s.bank.engine.isRunning then (s, .refusal .busy)
  else (s.withBank { s.bank with engine := .running op 0 },
        .begun [byteOf (engineOpCode (some op)), bankCode s.standby])

def bankCopyBody : Body := fun _ _ s => s.startEngine .copy

def State.takeBankCopy (s : State) (c : CommandCell) : State := s.take 0x32#7 false bankCopyBody c

def execBankCopy (c : CommandCell) (s : State) : Host.Outcome State Fault Refusal := .next (s.takeBankCopy c)

def bankClearBody : Body := fun _ _ s => s.startEngine .clear

def State.takeBankClear (s : State) (c : CommandCell) : State := s.take 0x33#7 false bankClearBody c

def execBankClear (c : CommandCell) (s : State) : Host.Outcome State Fault Refusal := .next (s.takeBankClear c)

/-! ## BANK-ABORT (R88, R167) -/

def bankAbortBody : Body := fun _ _ s =>
  match s.bank.engine with
  | .idle _ _ _ => (s, .refusal .badState)
  | .running op pos =>
    ((s.withBank { s.bank with engine := .idle (some op) .aborted pos, consistent := false }).report
        .engineEnd partWide (engineEndDetail op .aborted),
     .success 0#8 (byteOf (engineOpCode (some op)) :: wordBytes (BitVec.ofNat 16 pos)))

def State.takeBankAbort (s : State) (c : CommandCell) : State := s.take 0x34#7 false bankAbortBody c

def execBankAbort (c : CommandCell) (s : State) : Host.Outcome State Fault Refusal := .next (s.takeBankAbort c)

/-! ## BANK-STATUS (R98, R168) -/

/-- Operation, outcome and position as BANK-STATUS reports them: in RUNNING the outcome is returned as done. -/
def Engine.report : Engine → Option EngineOp × EngineOutcome × Nat
  | .idle last outcome pos => (last, outcome, pos)
  | .running op pos => (some op, .done, pos)

/-- The target reported: S in ARMED, otherwise 0. -/
def Scheduler.target : Scheduler → Word
  | .armed x => x
  | _ => 0#16

/-- P0 flags, P1 to P2 position, P3 to P4 target. -/
def BankCtl.statusPayload (x : BankCtl) : List Byte :=
  let r := x.engine.report
  [byteOf ((bankCode x.active).toNat + 2 * (!x.consistent).toNat + 4 * x.engine.isRunning.toNat +
           8 * engineOutcomeCode r.2.1 + 16 * engineOpCode r.1 + 64 * schedulerCode x.scheduler)] ++
  wordBytes (BitVec.ofNat 16 r.2.2) ++ wordBytes x.scheduler.target

def bankStatusBody : Body := fun _ _ s => (s, .success 0#8 s.bank.statusPayload)

def State.takeBankStatus (s : State) (c : CommandCell) : State := s.take 0x35#7 true bankStatusBody c

def execBankStatus (c : CommandCell) (s : State) : Host.Outcome State Fault Refusal := .next (s.takeBankStatus c)

/-! ## SWITCH-AT (R91, R169) -/

def switchAtBody : Body := fun _ c s =>
  let target := pWord c 0 1
  let fields := wordBytes target ++ wordBytes s.tb.number
  if s.bank.scheduler = .armed target then (s, .success 0#8 fields)
  else if s.bank.engine.isRunning then (s, .refusal .busy)
  else if s.bank.scheduler.scheduled then (s, .refusal .pending)
  else if !s.bank.consistent then (s, .refusal .notReady)
  else if !inFuture target s.tb.number then (s, ⟨.tooLate, 0#8, fields, false⟩)
  else (s.withBank { s.bank with scheduler := .armed target }, .success 0#8 fields)

def State.takeSwitchAt (s : State) (c : CommandCell) : State := s.take 0x36#7 false switchAtBody c

def execSwitchAt (c : CommandCell) (s : State) : Host.Outcome State Fault Refusal := .next (s.takeSwitchAt c)

/-! ## SWITCH-NOW (R92, R170) -/

def switchNowBody : Body := fun _ _ s =>
  if s.bank.engine.isRunning then (s, .refusal .busy)
  else if s.bank.scheduler.scheduled then (s, .refusal .pending)
  else if !s.bank.consistent then (s, .refusal .notReady)
  else (s.withBank { s.bank with scheduler := .immediate }, .success 0#8 [bankCode s.standby])

def State.takeSwitchNow (s : State) (c : CommandCell) : State := s.take 0x37#7 false switchNowBody c

def execSwitchNow (c : CommandCell) (s : State) : Host.Outcome State Fault Refusal := .next (s.takeSwitchNow c)

/-! ## SWITCH-CANCEL (R95, R171) -/

def switchCancelBody : Body := fun _ _ s =>
  if s.bank.scheduler.scheduled then
    (s.withBank { s.bank with scheduler := .idle },
     .success (byteOf (schedulerCode s.bank.scheduler)) (wordBytes s.bank.scheduler.target))
  else (s, .refusal .badState)

def State.takeSwitchCancel (s : State) (c : CommandCell) : State := s.take 0x38#7 false switchCancelBody c

def execSwitchCancel (c : CommandCell) (s : State) : Host.Outcome State Fault Refusal := .next (s.takeSwitchCancel c)

end Sys2Proof.Machine
end

