-- ==== Sys2Proof/Machine/Bridges.lean ====
section
/-!
DEFINITION. The bridge commands: LEG-SET, LEG-CLEAR, LEG-READ and BRIDGE-SET (R100, R105 to R108, R111, R172 to R175).
A change applies from the next local frame start, where the leg outputs are fixed (R104, R105).
-/

namespace Sys2Proof.Machine

def State.bridge (s : State) (b : BridgeId) : Bridge := s.bridges[b.val]

def State.setBridge (s : State) (b : BridgeId) (x : Bridge) : State := s.withBridges (s.bridges.set b.val x)

/-- A leg has this input link and slot; attenuation does not enter (R100). -/
def sameInput (l : LinkId) (t : SlotId) : Option Leg → Bool
  | none => false
  | some g => decide (g.link = l) && decide (g.slot = t)

/-- Another present leg of the bridge has this input (R106). -/
def Bridge.inputTaken (x : Bridge) (k : LegId) (l : LinkId) (t : SlotId) : Bool :=
  (List.finRange 8).any fun j => decide (j ≠ k) && sameInput l t x.legs[j.val]

/-! ## LEG-SET (R106, R172) -/

def legSetBody : Body := fun _ c s =>
  match finOf 16 (pByte c 0), finOf 8 (pByte c 1), finOf 8 (pByte c 2), finOf 64 (pByte c 3), finOf 4 (pByte c 4) with
  | some b, some k, some l, some t, some att =>
    if !(s.link l).config.shape.isPayload t.val then (s, .refusal .badSource)
    else if (s.bridge b).inputTaken k l t then (s, .refusal .duplicate)
    else
      (s.setBridge b { s.bridge b with legs := (s.bridge b).legs.set k.val (some ⟨l, t, att⟩) },
       .success 0#8 [byteOf b.val, byteOf k.val, byteOf l.val, byteOf t.val, byteOf att.val,
                     flagCode (s.bridge b).enabled])
  | _, _, _, _, _ => (s, .refusal .badParam)

def State.takeLegSet (s : State) (c : CommandCell) : State := s.take 0x40#7 false legSetBody c

def execLegSet (c : CommandCell) (s : State) : Host.Outcome State Fault Refusal := .next (s.takeLegSet c)

/-! ## LEG-CLEAR (R107, R173) -/

def legClearBody : Body := fun _ c s =>
  match finOf 16 (pByte c 0), finOf 8 (pByte c 1) with
  | some b, some k =>
    (s.setBridge b { s.bridge b with legs := (s.bridge b).legs.set k.val none }, .success 0#8 [])
  | _, _ => (s, .refusal .badParam)

def State.takeLegClear (s : State) (c : CommandCell) : State := s.take 0x41#7 false legClearBody c

def execLegClear (c : CommandCell) (s : State) : Host.Outcome State Fault Refusal := .next (s.takeLegClear c)

/-! ## LEG-READ (R111, R175) -/

/-- P1 to P4 of the response: present, input link, input slot, attenuation; 0 for an absent leg. -/
def legPayload : Option Leg → List Byte
  | none => [0#8, 0#8, 0#8, 0#8]
  | some g => [1#8, byteOf g.link.val, byteOf g.slot.val, byteOf g.attenuation.val]

def legReadBody : Body := fun _ c s =>
  match finOf 16 (pByte c 0), finOf 8 (pByte c 1) with
  | some b, some k =>
    (s, .success 0#8 (flagCode (s.bridge b).enabled :: legPayload (s.bridge b).legs[k.val]))
  | _, _ => (s, .refusal .badParam)

def State.takeLegRead (s : State) (c : CommandCell) : State := s.take 0x42#7 true legReadBody c

def execLegRead (c : CommandCell) (s : State) : Host.Outcome State Fault Refusal := .next (s.takeLegRead c)

/-! ## BRIDGE-SET (R108, R174) -/

/-- The number of present legs. -/
def Bridge.presentLegs (x : Bridge) : Nat := (x.legs.toList.filter (·.isSome)).length

def bridgeSetBody : Body := fun _ c s =>
  match finOf 16 (pByte c 0), flagOf (pByte c 1) with
  | some b, some on =>
    (s.setBridge b { s.bridge b with enabled := on }, .success 0#8 [flagCode on, byteOf (s.bridge b).presentLegs])
  | _, _ => (s, .refusal .badParam)

def State.takeBridgeSet (s : State) (c : CommandCell) : State := s.take 0x43#7 false bridgeSetBody c

def execBridgeSet (c : CommandCell) (s : State) : Host.Outcome State Fault Refusal := .next (s.takeBridgeSet c)

end Sys2Proof.Machine
end

