-- ==== Sys2Proof/Machine/Events.lean ====
section
/-!
DEFINITION. The event commands: EVENT-READ, EVENT-MASK and NOTICE-SET (R176 to R178, R185, R187, R192, R193).
-/

namespace Sys2Proof.Machine

/-! ## EVENT-READ (R176, R187, R192) -/

/-- Step 1: the delivered head is removed when the acknowledgement names it. -/
def acknowledge (ack : Bool) (seq : Byte) : List EventRecord → List EventRecord
  | [] => []
  | r :: rs => if ack && r.delivered && decide (r.seq = seq) then rs else r :: rs

/-- Step 2: the head is marked delivered. -/
def deliverHead : List EventRecord → List EventRecord
  | [] => []
  | r :: rs => { r with delivered := true } :: rs

/-- A record as P0 to P7 carry it. -/
def EventRecord.payload (r : EventRecord) : List Byte :=
  [r.seq, byteOf (eventKindCode r.kind), r.subject, r.detail] ++ wordBytes r.stampNumber ++
    [byteOf r.stampIndex.val, r.count]

/-- The notice controller after an executed EVENT-READ that leaves these records (R192). -/
def Notice.afterRead (n : Notice) (left : List EventRecord) : Notice :=
  if n.state = .off then n
  else if left.isEmpty then ⟨.quiet, 0, 0⟩
  else ⟨.wait, 0, Config.noticeTimer⟩

def eventReadBody : Body := fun _ c s =>
  let left := acknowledge ((pByte c 0).getLsbD 0) (pByte c 1) s.events.records
  let s1 := (s.withEvents { s.events with records := deliverHead left }).withNotice (s.notice.afterRead left)
  match left with
  | [] => (s1, ⟨.empty, 0#8, [], false⟩)
  | r :: _ => (s1, .success r.lost r.payload)

def State.takeEventRead (s : State) (c : CommandCell) : State := s.take 0x50#7 true eventReadBody c

def execEventRead (c : CommandCell) (s : State) : Host.Outcome State Fault Refusal := .next (s.takeEventRead c)

/-! ## EVENT-MASK (R177, R185) -/

def eventMaskBody : Body := fun _ c s =>
  let w := pWord c 0 1
  if 512 ≤ w.toNat then (s, .refusal .badParam)
  else
    (s.withEvents { s.events with mask := w.truncate 9 },
     .success 0#8 (wordBytes (s.events.mask.zeroExtend 16) ++ wordBytes w))

def State.takeEventMask (s : State) (c : CommandCell) : State := s.take 0x51#7 false eventMaskBody c

def execEventMask (c : CommandCell) (s : State) : Host.Outcome State Fault Refusal := .next (s.takeEventMask c)

/-! ## NOTICE-SET (R178, R193) -/

/-- The notice controller after NOTICE-SET; from DUE the test of R189 follows at once. -/
def State.setNotices (s : State) (on : Bool) : State :=
  if on then
    if s.events.records.isEmpty then s.withNotice ⟨.quiet, 0, 0⟩ else s.enterDue 0
  else s.withNotice ⟨.off, 0, 0⟩

def noticeSetBody : Body := fun _ c s =>
  match flagOf (pByte c 0) with
  | none => (s, .refusal .badParam)
  | some on => (s.setNotices on, .success (noticeStateCode (s.setNotices on).notice.state) [])

def State.takeNoticeSet (s : State) (c : CommandCell) : State := s.take 0x52#7 false noticeSetBody c

def execNoticeSet (c : CommandCell) (s : State) : Host.Outcome State Fault Refusal := .next (s.takeNoticeSet c)

end Sys2Proof.Machine
end

