-- ==== Sys2Proof/Machine/Links.lean ====
section
/-!
DEFINITION. The link commands: LINK-SET with its checks and consequences (R44, R45, R76, R121, R123, R133, R154 to
R156), LINK-GET, LINK-STATUS and COUNT-READ (R157 to R159).
-/

namespace Sys2Proof.Machine

/-! ## LINK-SET -/

/-- The SEVERS check on the arrival link's own record (R155). -/
def severs (old new : LinkConfig) : Bool :=
  decide (new.shape.role ≠ .uplink) || !new.rxEnable || !new.txEnable ||
    decide (new.shape.slotCount ≠ old.shape.slotCount) || decide (new.shape.mgmtSlot ≠ old.shape.mgmtSlot)

/-- The cell queue is flushed: every cell discarded and counted, the word count 0 (R123). -/
def Link.flush (x : Link) : Link :=
  { x with queue := [], tx := { x.tx with wordCount := 0 },
           mgmtCount := { x.mgmtCount with flushed := satAdd16 x.mgmtCount.flushed x.queue.length } }

/-- A change of tx enable to off, or of the role to NONE, flushes (R123). -/
def flushNeeded (old new : LinkConfig) : Bool :=
  (old.txEnable && !new.txEnable) || (decide (old.shape.role ≠ .none) && decide (new.shape.role = .none))

/-- The fields whose change clears the link's hold values (R76): tx enable and the four of the shape. -/
def holdsCleared (old new : LinkConfig) : Bool :=
  decide (old.txEnable ≠ new.txEnable) || decide (old.shape ≠ new.shape)

/-- What a new record does to the link itself at the taking, the receiver's state apart: the record written, the queue
flushed, the assembler idle under role NONE, the check alarm cleared when check enable goes off (R17, R31, R123,
R133). -/
def Link.written (x : Link) (new : LinkConfig) : Link :=
  let y := if flushNeeded x.config new then x.flush else x
  { y with
    config := new
    assembler := if new.shape.role = .none then [] else x.assembler
    rx := if x.config.shape.checkEnable && !new.shape.checkEnable
          then { x.rx with checkAlarm := false, window := 0#8 } else x.rx }

/-- A receiver in OFF, or in HUNT at the beginning of a search after OFF, watches its clock from the next start on
(R19, R20). -/
def Link.watchReset (x : Link) : Link := x.withRx { x.rx with watch := ⟨false, false, false⟩ }

/-- What a LINK-SET does to the receiver, the record already written (R19, R44, R45). -/
def State.reconfigureRx (s : State) (l : LinkId) (old new : LinkConfig) (refFirst : Bool) : State :=
  if old.rxEnable && !new.rxEnable then
    (if (s.link l).inSync then s.leaveSync l .off .disabled refFirst
     else s.updLink l fun x => x.withRx { x.rx with align := .off }).updLink l (·.watchReset)
  else if !old.rxEnable && new.rxEnable then
    (s.updLink l fun x => x.withRx { x.rx with align := .hunt [] }).updLink l (·.watchReset)
  else if new.rxEnable && decide (old.shape.slotCount ≠ new.shape.slotCount) then
    if (s.link l).inSync then s.leaveSync l (.hunt []) .reconfigured refFirst
    else if (s.link l).rx.align = .noclock then s
    else s.updLink l fun x => x.withRx { x.rx with align := .hunt [] }
  else s

/-- An accepted LINK-SET (R156). -/
def State.writeLink (s : State) (l : LinkId) (new : LinkConfig) (refFirst : Bool) : State :=
  let old := (s.link l).config
  let s1 := s.updLink l (·.written new)
  let s2 := if holdsCleared old new then s1.clearLinkHolds l else s1
  s2.reconfigureRx l old new refFirst

/-- P0 link, P1 to P6 record. -/
def linkRecordPayload (l : LinkId) (x : LinkConfig) : List Byte := byteOf l.val :: x.bytes

def linkSetBody : Body := fun _ c s =>
  match finOf 8 (pByte c 0), recordOf c with
  | some l, some new =>
    if l = c.arrival && severs (s.link l).config new then (s, .refusal .severs)
    else (s.writeLink l new c.refFirst, .success 0#8 (linkRecordPayload l new))
  | _, _ => (s, .refusal .badParam)

def State.takeLinkSet (s : State) (c : CommandCell) : State := s.take 0x10#7 false linkSetBody c

def execLinkSet (c : CommandCell) (s : State) : Host.Outcome State Fault Refusal := .next (s.takeLinkSet c)

/-! ## LINK-GET (R157) -/

def linkGetBody : Body := fun _ c s =>
  match finOf 8 (pByte c 0) with
  | some l => (s, .success 0#8 (linkRecordPayload l (s.link l).config))
  | none => (s, .refusal .badParam)

def State.takeLinkGet (s : State) (c : CommandCell) : State := s.take 0x11#7 true linkGetBody c

def execLinkGet (c : CommandCell) (s : State) : Host.Outcome State Fault Refusal := .next (s.takeLinkGet c)

/-! ## LINK-STATUS (R158) -/

/-- P0 to P5 of the response (R158, R197). DESIGN CHOICE, notes/assumptions/28.md: bits 4 to 7 of P0, which name no
flag, are sent as 0. -/
def Link.statusPayload (x : Link) : List Byte :=
  [byteOf (x.rx.remoteAlarm.toNat + 2 * x.rx.checkAlarm.toNat + 4 * x.rx.numberValid.toNat + 8 * x.store.primed.toNat),
   byteOf x.rx.qualCount, byteOf x.store.queue.length, x.rx.window] ++ wordBytes x.rx.number

def linkStatusBody : Body := fun _ c s =>
  match finOf 8 (pByte c 0) with
  | some l => (s, .success (alignCode (s.link l).rx.align) (s.link l).statusPayload)
  | none => (s, .refusal .badParam)

def State.takeLinkStatus (s : State) (c : CommandCell) : State := s.take 0x12#7 true linkStatusBody c

def execLinkStatus (c : CommandCell) (s : State) : Host.Outcome State Fault Refusal := .next (s.takeLinkStatus c)

/-! ## COUNT-READ (R159) -/

/-- The counters of a group and page, in order. -/
def Link.counters (x : Link) (mgmt page1 : Bool) : List Word :=
  match mgmt, page1 with
  | false, false => [x.rxCount.headerErrors, x.rxCount.checkErrors, x.rxCount.repeatSlips, x.rxCount.deleteSlips]
  | false, true => [x.rxCount.syncLosses]
  | true, false =>
    [x.mgmtCount.goodCells, x.mgmtCount.checkFailures, x.mgmtCount.directionErrors, x.mgmtCount.relayDrops]
  | true, true => [x.mgmtCount.congestion, x.mgmtCount.flushed]

/-- The counters of that page set to 0, every other kept. -/
def Link.clearCounters (x : Link) (mgmt page1 : Bool) : Link :=
  match mgmt, page1 with
  | false, false =>
    { x with rxCount := { x.rxCount with
        headerErrors := 0#16, checkErrors := 0#16, repeatSlips := 0#16, deleteSlips := 0#16 } }
  | false, true => { x with rxCount := { x.rxCount with syncLosses := 0#16 } }
  | true, false =>
    { x with mgmtCount := { x.mgmtCount with
        goodCells := 0#16, checkFailures := 0#16, directionErrors := 0#16, relayDrops := 0#16 } }
  | true, true => { x with mgmtCount := { x.mgmtCount with congestion := 0#16, flushed := 0#16 } }

def countReadBody : Body := fun _ c s =>
  match finOf 8 (pByte c 0), flagOf (pByte c 1), flagOf (pByte c 2), flagOf (pByte c 3) with
  | some l, some mgmt, some page1, some clear =>
    (if clear then s.updLink l (·.clearCounters mgmt page1) else s,
     .success 0#8 (((s.link l).counters mgmt page1).flatMap wordBytes))
  | _, _, _, _ => (s, .refusal .badParam)

def State.takeCountRead (s : State) (c : CommandCell) : State := s.take 0x13#7 true countReadBody c

def execCountRead (c : CommandCell) (s : State) : Host.Outcome State Fault Refusal := .next (s.takeCountRead c)

end Sys2Proof.Machine
end

