-- ==== Sys2Proof/Machine/Timing.lean ====
section
/-!
DEFINITION. The timing commands: REF-SET, REF-STATUS and TIME-SET (R59, R61, R160 to R162).
-/

namespace Sys2Proof.Machine

/-! ## REF-SET (R160) -/

/-- The entries within the count, when every one names a link or LOCAL. -/
def refEntriesOf : List Byte → Option (List RefEntry)
  | [] => some []
  | b :: bs =>
    match refEntryOf b, refEntriesOf bs with
    | some e, some es => some (e :: es)
    | _, _ => none

/-- The revertive and follow flags as P5 of a response carries them (R197). DESIGN CHOICE, notes/assumptions/28.md: bits
2 to 7, which name no flag, are sent as 0. -/
def refFlags (revertive follow : Bool) : Byte := byteOf (revertive.toNat + 2 * follow.toNat)

/-- P0 count, P1 to P4 entries with 0x0F beyond the count, P5 flags. -/
def refPayload (es : List RefEntry) (revertive follow : Bool) : List Byte :=
  byteOf es.length :: ((es.map refEntryCode) ++ List.replicate (4 - es.length) 0x0F#8) ++ [refFlags revertive follow]

def refSetBody : Body := fun _ c s =>
  let count := (pByte c 0).toNat
  if count = 0 || 4 < count then (s, .refusal .badParam)
  else match refEntriesOf ([pByte c 1, pByte c 2, pByte c 3, pByte c 4].take count) with
    | none => (s, .refusal .badParam)
    | some es =>
      if !noRepeats es then (s, .refusal .duplicate)
      else
        let revertive := (pByte c 5).getLsbD 0
        let follow := (pByte c 5).getLsbD 1
        let s1 := (s.withTb { s.tb with refList := es, revertive := revertive, follow := follow }).select
        (s1, .success (timeSourceCode s1.tb.source) (refPayload es revertive follow))

def State.takeRefSet (s : State) (c : CommandCell) : State := s.take 0x20#7 false refSetBody c

def execRefSet (c : CommandCell) (s : State) : Host.Outcome State Fault Refusal := .next (s.takeRefSet c)

/-! ## REF-STATUS (R161) -/

/-- P6: bit k − 1 marks entry k qualified (R161, R197). DESIGN CHOICE, notes/assumptions/28.md: bits 4 to 7, and the
marks of entries beyond the count, are sent as 0. -/
def State.qualifiedMarks (s : State) : Byte :=
  byteOf ((s.tb.refList.map s.qualified).foldr (fun q n => q.toNat + 2 * n) 0)

/-- P2 of page 1: whether a pending set value and a pending adoption exist (R161, R197). DESIGN CHOICE,
notes/assumptions/28.md: bits 2 to 7, which name no flag, are sent as 0. -/
def Timebase.pendingMarks (t : Timebase) : Byte := byteOf (t.pendingSet.isSome.toNat + 2 * t.pendingAdoption.isSome.toNat)

def refStatusBody : Body := fun _ c s =>
  match flagOf (pByte c 0) with
  | some false =>
    (s, .success (timeSourceCode s.tb.source)
      (refPayload s.tb.refList s.tb.revertive s.tb.follow ++ [s.qualifiedMarks]))
  | some true =>
    (s, .success (byteOf s.tb.frameIndex.val)
      (wordBytes s.tb.number ++
       [s.tb.pendingMarks] ++
       wordBytes (s.tb.pendingSet.getD 0#16) ++ wordBytes (s.tb.pendingAdoption.getD 0#16)))
  | none => (s, .refusal .badParam)

def State.takeRefStatus (s : State) (c : CommandCell) : State := s.take 0x21#7 true refStatusBody c

def execRefStatus (c : CommandCell) (s : State) : Host.Outcome State Fault Refusal := .next (s.takeRefStatus c)

/-! ## TIME-SET (R59, R162) -/

/-- Follow is on and the timebase is LOCKED to a link. -/
def Timebase.following (t : Timebase) : Bool :=
  t.follow && (match t.source with | .locked _ => true | _ => false)

def timeSetBody : Body := fun _ c s =>
  if s.tb.following then (s, .refusal .badState)
  else
    let v := pWord c 0 1
    (s.withTb { s.tb with pendingSet := some v },
     .begun (wordBytes v ++ wordBytes s.tb.number ++ [byteOf s.tb.frameIndex.val]))

def State.takeTimeSet (s : State) (c : CommandCell) : State := s.take 0x22#7 false timeSetBody c

def execTimeSet (c : CommandCell) (s : State) : Host.Outcome State Fault Refusal := .next (s.takeTimeSet c)

end Sys2Proof.Machine
end

