-- ==== Sys2Proof/Machine/Receive.lean ====
section
/-!
DEFINITION. What a receive lane brings: the return of its clock, bits in HUNT and CONFIRM, header words in SYNC, and
completed frames with what the receiver hands over at a completion: the frame to the store, the check result, the RAI
bit, the S bit, and the management word to the assembler, whose completed cell is dispatched (R20 to R35, R57, R132 to
R136).
-/

namespace Sys2Proof.Machine

/-! ## Clock return and bits (R20, R21, R22) -/

/-- A receiver in another alignment state, all else kept. -/
def Receiver.aligned (r : Receiver) (a : Align) : Receiver := { r with align := a }

/-- CLOCK_RETURN (R20): the first transition of RXC in NOCLOCK. -/
def execClockReturn (l : LinkId) (s : State) : Host.Outcome State Fault Refusal :=
  .next (if (s.link l).rx.align = .noclock then s.updLink l fun x => x.withRx (x.rx.clockSeen.aligned (.hunt []))
         else s)

/-- HUNT_CANDIDATE (R21): bits arrive in HUNT. -/
def execHuntCandidate (l : LinkId) (bits : List Bool) (s : State) : Host.Outcome State Fault Refusal :=
  .next (match (s.link l).rx.align with
         | .hunt old => s.receiveBits l old bits
         | _ => s)

/-- CONFIRMATION_HEADER (R22): bits arrive in CONFIRM. -/
def execConfirmationHeader (l : LinkId) (bits : List Bool) (s : State) : Host.Outcome State Fault Refusal :=
  .next (match (s.link l).rx.align with
         | .confirm old => s.receiveBits l old bits
         | _ => s)

/-! ## Header words in SYNC (R24, R25) -/

/-- The good-header test of R24. -/
def goodHeader (expected : Header) (w : Word) : Bool :=
  (headerOf w).wellFormed && decide ((headerOf w).index = expected.index)

/-- A bad header raises the header-error counter (R24). -/
def Link.countHeader (x : Link) (good : Bool) : Link :=
  if good then x
  else { x with rxCount := { x.rxCount with headerErrors := satAdd16 x.rxCount.headerErrors 1 } }

/-- The consecutive-bad count after a header (R24). -/
def nextBadRun (run : Nat) (good : Bool) : Nat := if good then 0 else run + 1

/-- A header word arrives in SYNC. At the fourth consecutive bad header the search begins with that word (R25); its
bits are examined when the bits after it arrive (DEDUCED, notes/assumptions/10.md). -/
def State.judgeHeader (s : State) (l : LinkId) (expected : Header) (badRun : Nat) (w : Word) (refFirst : Bool) :
    State :=
  let good := goodHeader expected w
  let s1 := s.updLink l fun x => (x.countHeader good).withRx x.rx.clockSeen
  if nextBadRun badRun good < 4 then
    s1.updLink l fun x => x.withAlign (.sync expected.succ (nextBadRun badRun good) (some (x.beginFrame w good)))
  else s1.leaveSync l (.hunt (bitsOfWord w)) .headerErrors refFirst

/-- SYNC_HEADER_ARRIVAL (R24). -/
def execSyncHeaderArrival (l : LinkId) (w : Word) (refFirst : Bool) (s : State) : Host.Outcome State Fault Refusal :=
  .next (match (s.link l).rx.align with
         | .sync expected badRun none => s.judgeHeader l expected badRun w refFirst
         | _ => s)

/-! ## Completed cells (R133 to R136) -/

/-- Take the command with this code (R198); a code that names none is refused (R147). -/
def State.takeByCode (s : State) (code : BitVec 7) (c : CommandCell) : State :=
  if code = 0x01#7 then s.takeIdentify c
  else if code = 0x02#7 then s.takeAddrSet c
  else if code = 0x03#7 then s.takeGroupSet c
  else if code = 0x04#7 then s.takePartReset c
  else if code = 0x10#7 then s.takeLinkSet c
  else if code = 0x11#7 then s.takeLinkGet c
  else if code = 0x12#7 then s.takeLinkStatus c
  else if code = 0x13#7 then s.takeCountRead c
  else if code = 0x20#7 then s.takeRefSet c
  else if code = 0x21#7 then s.takeRefStatus c
  else if code = 0x22#7 then s.takeTimeSet c
  else if code = 0x30#7 then s.takeMapWrite c
  else if code = 0x31#7 then s.takeMapRead c
  else if code = 0x32#7 then s.takeBankCopy c
  else if code = 0x33#7 then s.takeBankClear c
  else if code = 0x34#7 then s.takeBankAbort c
  else if code = 0x35#7 then s.takeBankStatus c
  else if code = 0x36#7 then s.takeSwitchAt c
  else if code = 0x37#7 then s.takeSwitchNow c
  else if code = 0x38#7 then s.takeSwitchCancel c
  else if code = 0x40#7 then s.takeLegSet c
  else if code = 0x41#7 then s.takeLegClear c
  else if code = 0x42#7 then s.takeLegRead c
  else if code = 0x43#7 then s.takeBridgeSet c
  else if code = 0x50#7 then s.takeEventRead c
  else if code = 0x51#7 then s.takeEventMask c
  else if code = 0x52#7 then s.takeNoticeSet c
  else s.takeBadCommand code c

/-- A good cell travels the wrong way (R135). -/
def State.directionError (s : State) (l : LinkId) : State :=
  s.updLink l fun x =>
    { x with mgmtCount := { x.mgmtCount with directionErrors := satAdd16 x.mgmtCount.directionErrors 1 } }

/-- A good outbound cell on an UPLINK: not for this part, it is relayed; otherwise it is taken, and `State.take` relays
a group or broadcast cell (R134). -/
def State.dispatchOutbound (s : State) (l : LinkId) (x : Cell) (refFirst noticeFirst : Bool) : State :=
  if s.agent.classify (lowByte x[0]) = .other then s.relayOutbound x
  else s.takeByCode (cellCode x) (commandCellOf l x refFirst noticeFirst)

/-- Dispatch of a good cell under the role the record holds (R133 to R135). -/
def State.dispatch (s : State) (l : LinkId) (x : Cell) (refFirst noticeFirst : Bool) : State :=
  match (s.link l).config.shape.role with
  | .none => s
  | .uplink => if cellMarker x = outboundMarker then s.dispatchOutbound l x refFirst noticeFirst else s.directionError l
  | .downlink => if cellMarker x = outboundMarker then s.directionError l else s.relayInbound x

/-- A cell is complete: its check is tested, it is counted, and a good one is dispatched (R133). -/
def State.completeCell (s : State) (l : LinkId) (x : Cell) (refFirst noticeFirst : Bool) : State :=
  if cellGood x then
    (s.updLink l fun k =>
      { k with mgmtCount := { k.mgmtCount with goodCells := satAdd16 k.mgmtCount.goodCells 1 } }).dispatch
        l x refFirst noticeFirst
  else s.updLink l fun k =>
    { k with mgmtCount := { k.mgmtCount with checkFailures := satAdd16 k.mgmtCount.checkFailures 1 } }

/-! ## The cell assembler (R132) -/

/-- The assembler after a word: the words held, and the cell the word completes. -/
def assemble (held : List Word) (w : Word) : List Word × Option Cell :=
  if held.isEmpty then
    if highByte w = outboundMarker || highByte w = inboundMarker then ([w], none) else ([], none)
  else if held.length < 7 then (held ++ [w], none)
  else ([], some (cellOfWords (held ++ [w])))

/-- A management word reaches the assembler of `l` (R132); while the record holds NONE it is passed over (R133). -/
def State.assembleWord (s : State) (l : LinkId) (w : Word) (refFirst noticeFirst : Bool) : State :=
  if (s.link l).config.shape.role = .none then s
  else
    let r := assemble (s.link l).assembler w
    let s1 := s.updLink l fun x => { x with assembler := r.1 }
    match r.2 with
    | none => s1
    | some x => s1.completeCell l x refFirst noticeFirst

/-! ## A completed frame (R27 to R35) -/

/-- The N words of a frame: its header and the words received since (R1). -/
def FrameInProgress.words (f : FrameInProgress) (rest : Vector Word 63) : List Word :=
  f.header :: rest.toList.take (f.shape.slotCount.toNat - 1)

/-- The frame fails the check (R13, R30). -/
def FrameInProgress.checkError (f : FrameInProgress) (rest : Vector Word 63) : Bool :=
  f.shape.checkEnable && decide (xorWords (f.words rest) ≠ 0#16)

/-- The frame handed to the store, with its validity mark (R27). -/
def FrameInProgress.received (f : FrameInProgress) (rest : Vector Word 63) : RxFrame :=
  ⟨f.words rest, f.good && !(f.checkError rest && f.discard), f.shape⟩

/-- An arrival at the elastic store (R35). -/
def State.storeAct (s : State) (l : LinkId) (f : RxFrame) : State :=
  if (s.link l).inSync then
    if (s.link l).store.queue.length < Config.storeCapacity then
      s.updLink l fun x => { x with store := { x.store with queue := x.store.queue ++ [f] } }
    else
      (s.updLink l fun x =>
        { x with store := { x.store with queue := x.store.queue.drop 1 ++ [f] },
                 rxCount := { x.rxCount with deleteSlips := satAdd16 x.rxCount.deleteSlips 1 } }).report
        .slip (linkSubject l) 1#8
  else s

/-- A check error is counted; the window count rises only while the record holds check enable on (R30, R31). -/
def Link.countCheckError (x : Link) : Link :=
  { x with
    rxCount := { x.rxCount with checkErrors := satAdd16 x.rxCount.checkErrors 1 }
    rx := if x.inSync && x.config.shape.checkEnable then { x.rx with window := satInc8 x.rx.window } else x.rx }

def State.checkAct (s : State) (l : LinkId) (error : Bool) : State :=
  if error then s.updLink l (·.countCheckError) else s

/-- The RAI bit of a good-header frame reaches the integrator (R29). -/
def State.remoteAlarmAct (s : State) (l : LinkId) (f : FrameInProgress) : State :=
  if (s.link l).inSync && f.good then
    let r := integrateRai (s.link l).rx.remoteAlarm (s.link l).rx.raiRun (headerRai f.header)
    let s1 := s.updLink l fun x => x.withRx { x.rx with remoteAlarm := r.1, raiRun := r.2.1 }
    if r.2.2 then s1.report .remoteAlarm (linkSubject l) (flagCode r.1) else s1
  else s

/-- The S bit at its place in the number (R11). -/
def sBitAt (header : Word) (i : Nat) : Word := if headerS header then 1#16 <<< (15 - i) else 0#16

/-- The collector after a frame, and the number it completes (R32). Good headers carry consecutive indices, so an
index other than the next does not come (notes/assumptions/17.md). -/
def collect (k : Collector) (f : FrameInProgress) : Collector × Option Word :=
  let i := (headerOf f.header).index.toNat
  if !f.good then (.idle, none)
  else if i = 0 then (.collecting (sBitAt f.header 0) 1, none)
  else match k with
    | .idle => (.idle, none)
    | .collecting n next =>
      if i = next && decide (i < 15) then (.collecting (n ||| sBitAt f.header i) (i + 1), none)
      else if i = next && decide (i = 15) then (.idle, some (n ||| sBitAt f.header i))
      else (k, none)

/-- A completed collection offers an adoption to a timebase LOCKED to the link (R33, R57). -/
def Timebase.offer (t : Timebase) (l : LinkId) (number : Word) : Timebase :=
  if t.source = .locked l then { t with pendingAdoption := some (number + 1#16) } else t

/-- The S bit reaches the collector; a completed number is stored and offered (R32, R33). -/
def State.collectorAct (s : State) (l : LinkId) (f : FrameInProgress) : State :=
  if (s.link l).inSync then
    let r := collect (s.link l).rx.collector f
    match r.2 with
    | none => s.updLink l fun x => x.withRx { x.rx with collector := r.1 }
    | some n =>
      (s.updLink l fun x => x.withRx { x.rx with collector := r.1, number := n, numberValid := true }).withTb
        (s.tb.offer l n)
  else s

/-- A completion of the link the timebase is LOCKED to, and the start it would give (R49). -/
def Timebase.noteCompletion (t : Timebase) (l : LinkId) (startAt : Nat) : Timebase :=
  if t.source = .locked l then { t with completions := t.completions ++ [startAt] } else t

/-- The completion of a frame in SYNC reaches the timebase (R49). -/
def State.timingAct (s : State) (l : LinkId) (startAt : Nat) : State :=
  if (s.link l).inSync then s.withTb (s.tb.noteCompletion l startAt) else s

/-- The word of the frame's management slot, when the frame has one (R28). -/
def FrameInProgress.mgmtWord (f : FrameInProgress) (rest : Vector Word 63) : Option Word :=
  if f.shape.role = .none then none else some ((f.words rest).getD f.shape.mgmtSlot.val 0#16)

/-- The management word leaves the receiver for the assembler (R28). -/
def State.cellAct (s : State) (l : LinkId) (w : Option Word) (refFirst noticeFirst : Bool) : State :=
  match w with
  | none => s
  | some w => if (s.link l).inSync then s.assembleWord l w refFirst noticeFirst else s

/-- One thing handed over at a completion. -/
def State.receiveAct (l : LinkId) (f : FrameInProgress) (rest : Vector Word 63) (startAt : Nat)
    (refFirst noticeFirst : Bool) (s : State) : ReceiveAct → State
  | .store => s.storeAct l (f.received rest)
  | .check => s.checkAct l (f.checkError rest)
  | .remoteAlarm => s.remoteAlarmAct l f
  | .collector => s.collectorAct l f
  | .timing => s.timingAct l startAt
  | .cell => s.cellAct l (f.mgmtWord rest) refFirst noticeFirst

/-- Every act once, in the order used where the command names none. -/
def allReceiveActs : List ReceiveAct := [.store, .check, .remoteAlarm, .collector, .timing, .cell]

/-- The frame in progress is complete: the next word is a header. -/
def Link.frameEnds (x : Link) (expected : Header) (badRun : Nat) : Link :=
  x.withRx (x.rx.clockSeen.aligned (.sync expected badRun none))

/-- A frame completes (R27). What it hands over is handed over in one step, and the start that its completion gives is
a later step, the delay of R49 being greater than zero: the offer of frame 15 is so always before the superframe start
that this very completion gives, one of the two orders R57 and R200 (k = 15) leave open (DESIGN CHOICE,
notes/assumptions/27.md). -/
def State.frameCompletes (s : State) (x : FrameArrival) : State :=
  match (s.link x.link).rx.align with
  | .sync expected badRun (some f) =>
    (firstOccurrences (x.input.order ++ allReceiveActs)).foldl
      (State.receiveAct x.link f x.words x.input.startAt x.refFirst x.noticeFirst)
      (s.updLink x.link (·.frameEnds expected badRun))
  | _ => s

/-- RECEIVE_FRAME_COMPLETE (R27). -/
def execReceiveFrameComplete (l : LinkId) (words : Vector Word 63) (i : CompletionInput)
    (refFirst noticeFirst : Bool) (s : State) : Host.Outcome State Fault Refusal :=
  .next (s.frameCompletes ⟨l, words, i, refFirst, noticeFirst⟩)

end Sys2Proof.Machine
end

