-- ==== Sys2Proof/Machine/StartRows.lean ====
section
/-!
DEFINITION. The meanings of POWER_ON_RESET and of the rows that are local frame starts, with the frames that complete
together with the start. Rows that name what comes about at a start are that start (notes/assumptions/2.md); where it
does not come about they change nothing (notes/assumptions/4.md).
-/

namespace Sys2Proof.Machine

/-- The acts of a start, and the completions that come together with it and before the notice's test (R139, R189). -/
def State.throughArrivals (s : State) (i : StartInput) : State :=
  i.arrivals.foldl State.frameCompletes (s.localFrameStart i)

/-- A local frame start. Where a cell leaves the active uplink's queue, the notice controller tests for its place: among
the acts where no frame completes together with the start, and after those completions where some do, so that a cell
they bring can take the place first and leave the notice in DUE (R139, R189). -/
def State.frameStart (s : State) (i : StartInput) : State :=
  if i.arrivals.isEmpty || (s.tb.startKind i.elapsed).isNone then s.localFrameStart i
  else if s.uplinkDeparts then (s.throughArrivals i).noticeTest
  else s.throughArrivals i

/-- The local frame start at which something comes about, when it does; else nothing happens. -/
def State.startWhen (s : State) (due : Bool) (i : StartInput) : State := if due then s.frameStart i else s

/-! ## Meanings -/

/-- POWER_ON_RESET (R144): the straps are sampled and every block takes its power-on values. -/
def execPowerOnReset (addr : BitVec 4) (upl : LinkId) (s : State) : Host.Outcome State Fault Refusal :=
  .next (State.powerOn addr upl s.pending)

/-- LOCAL_FRAME_START (R47). -/
def execLocalFrameStart (i : StartInput) (s : State) : Host.Outcome State Fault Refusal := .next (s.frameStart i)

/-- In LOCKED, one and a half held periods have passed (R49). -/
def Timebase.timeoutDue (t : Timebase) (elapsed : Nat) : Bool :=
  t.started && t.source.entry.any (· ≠ .localClock) && decide (elapsed = t.timeoutAt)

/-- LOCKED_START_TIMEOUT (R49): the start the timebase makes itself. -/
def execLockedStartTimeout (i : StartInput) (s : State) : Host.Outcome State Fault Refusal :=
  .next (s.startWhen (s.tb.timeoutDue i.elapsed) i)

/-- LOCAL_SUPERFRAME_START (R58): the start at which the index goes from 47 to 0. -/
def execLocalSuperframeStart (i : StartInput) (s : State) : Host.Outcome State Fault Refusal :=
  .next (s.startWhen s.tb.superframeDue i)

/-- The notice timer expires at the start that comes (R191). -/
def State.expiryDue (s : State) : Bool :=
  s.tb.superframeDue && decide (s.notice.state = .wait) && decide (s.notice.timer ≤ 1)

/-- NOTICE_TIMER_EXPIRY (R191): the superframe start that brings the timer to 0. -/
def execNoticeTimerExpiry (i : StartInput) (s : State) : Host.Outcome State Fault Refusal :=
  .next (s.startWhen s.expiryDue i)

/-- CLOCK_LOSS (R20): the start that closes the second consecutive silent interval of a lane. -/
def execClockLoss (l : LinkId) (i : StartInput) (s : State) : Host.Outcome State Fault Refusal :=
  .next (s.startWhen (s.clockLossDue l i.rxc) i)

/-- The engine processes its last chunk at the start that comes (R87). -/
def Engine.endDue : Engine → Bool
  | .idle _ _ _ => false
  | .running _ pos => decide (512 ≤ pos + 8)

/-- ENGINE_END (R87): the start that processes the chunk at position 504. -/
def execEngineEnd (i : StartInput) (s : State) : Host.Outcome State Fault Refusal :=
  .next (s.startWhen s.bank.engine.endDue i)

/-- LINK_QUALIFIED (R42): the superframe start at which a link's count reaches 16. -/
def execLinkQualified (l : LinkId) (i : StartInput) (s : State) : Host.Outcome State Fault Refusal :=
  .next (s.startWhen (s.tb.superframeDue && (s.link l).qualifies) i)

/-- A scheduled switch fires at the start that comes (R92, R93). -/
def State.switchDue (s : State) (i : StartInput) : Bool :=
  let c := s.startCtx i
  (s.bank.scheduler.fires c.superframe c.old c.new).isSome

/-- BANK_SWITCH (R94): the start at which the scheduled switch fires. -/
def execBankSwitch (i : StartInput) (s : State) : Host.Outcome State Fault Refusal :=
  .next (s.startWhen (s.switchDue i) i)

/-- NOTICE_PLACED (R189): in DUE, the notice is placed where the active uplink's queue has a place; where it has none,
at the start at which a cell leaves that queue, unless the operand has another cell take the place first. -/
def execNoticePlaced (i : StartInput) (s : State) : Host.Outcome State Fault Refusal :=
  .next (if s.hasRoom s.agent.activeUplink then s.noticeTest
         else s.startWhen (decide (s.notice.state = .due) && s.uplinkDeparts) i)

/-- SOFT_RESET_APPLIED (R142): the start that fixes the reset response's eighth word. -/
def execSoftResetApplied (i : StartInput) (s : State) : Host.Outcome State Fault Refusal :=
  .next (s.startWhen s.resetDue i)

end Sys2Proof.Machine
end

