-- ==== Sys2Proof/Machine/Dispatch.lean ====
section
/-!
DEFINITION. One arm for each command: its effect on everything but the queue of waiting commands.
-/

namespace Sys2Proof.Machine

def exec (i : Instr) (s : State) : Host.Outcome State Fault Refusal :=
  match i with
  | .powerOnReset addr upl => Sys2Proof.Machine.execPowerOnReset addr upl s
  | .localFrameStart x => Sys2Proof.Machine.execLocalFrameStart x s
  | .lockedStartTimeout x => Sys2Proof.Machine.execLockedStartTimeout x s
  | .localSuperframeStart x => Sys2Proof.Machine.execLocalSuperframeStart x s
  | .noticeTimerExpiry x => Sys2Proof.Machine.execNoticeTimerExpiry x s
  | .clockLoss l x => Sys2Proof.Machine.execClockLoss l x s
  | .clockReturn l => Sys2Proof.Machine.execClockReturn l s
  | .huntCandidate l bits => Sys2Proof.Machine.execHuntCandidate l bits s
  | .confirmationHeader l bits => Sys2Proof.Machine.execConfirmationHeader l bits s
  | .syncHeaderArrival l w refFirst => Sys2Proof.Machine.execSyncHeaderArrival l w refFirst s
  | .receiveFrameComplete l ws o rf nf => Sys2Proof.Machine.execReceiveFrameComplete l ws o rf nf s
  | .engineEnd x => Sys2Proof.Machine.execEngineEnd x s
  | .linkQualified l x => Sys2Proof.Machine.execLinkQualified l x s
  | .bankSwitch x => Sys2Proof.Machine.execBankSwitch x s
  | .noticePlaced x => Sys2Proof.Machine.execNoticePlaced x s
  | .softResetApplied x => Sys2Proof.Machine.execSoftResetApplied x s
  | .identify c => Sys2Proof.Machine.execIdentify c s
  | .addrSet c => Sys2Proof.Machine.execAddrSet c s
  | .groupSet c => Sys2Proof.Machine.execGroupSet c s
  | .partReset c => Sys2Proof.Machine.execPartReset c s
  | .linkSet c => Sys2Proof.Machine.execLinkSet c s
  | .linkGet c => Sys2Proof.Machine.execLinkGet c s
  | .linkStatus c => Sys2Proof.Machine.execLinkStatus c s
  | .countRead c => Sys2Proof.Machine.execCountRead c s
  | .refSet c => Sys2Proof.Machine.execRefSet c s
  | .refStatus c => Sys2Proof.Machine.execRefStatus c s
  | .timeSet c => Sys2Proof.Machine.execTimeSet c s
  | .mapWrite c => Sys2Proof.Machine.execMapWrite c s
  | .mapRead c => Sys2Proof.Machine.execMapRead c s
  | .bankCopy c => Sys2Proof.Machine.execBankCopy c s
  | .bankClear c => Sys2Proof.Machine.execBankClear c s
  | .bankAbort c => Sys2Proof.Machine.execBankAbort c s
  | .bankStatus c => Sys2Proof.Machine.execBankStatus c s
  | .switchAt c => Sys2Proof.Machine.execSwitchAt c s
  | .switchNow c => Sys2Proof.Machine.execSwitchNow c s
  | .switchCancel c => Sys2Proof.Machine.execSwitchCancel c s
  | .legSet c => Sys2Proof.Machine.execLegSet c s
  | .legClear c => Sys2Proof.Machine.execLegClear c s
  | .legRead c => Sys2Proof.Machine.execLegRead c s
  | .bridgeSet c => Sys2Proof.Machine.execBridgeSet c s
  | .eventRead c => Sys2Proof.Machine.execEventRead c s
  | .eventMask c => Sys2Proof.Machine.execEventMask c s
  | .noticeSet c => Sys2Proof.Machine.execNoticeSet c s
  | .badCommand code c => Sys2Proof.Machine.execBadCommand code c s

end Sys2Proof.Machine
end

