-- ==== Sys2Proof/Safety.lean ====
section
/-!
DEFINITION. The words the statements are made of: the command row a code names, the conditions under which a command
is taken and answered, and what holds of the state between any two steps.
-/

namespace Sys2Proof.Machine

/-! ## Commands by code -/

/-- The row of the command with this code, BAD_COMMAND where the code names none (R198, R147). -/
def commandOf (code : BitVec 7) (c : CommandCell) : Instr :=
  if code = 0x01#7 then .identify c
  else if code = 0x02#7 then .addrSet c
  else if code = 0x03#7 then .groupSet c
  else if code = 0x04#7 then .partReset c
  else if code = 0x10#7 then .linkSet c
  else if code = 0x11#7 then .linkGet c
  else if code = 0x12#7 then .linkStatus c
  else if code = 0x13#7 then .countRead c
  else if code = 0x20#7 then .refSet c
  else if code = 0x21#7 then .refStatus c
  else if code = 0x22#7 then .timeSet c
  else if code = 0x30#7 then .mapWrite c
  else if code = 0x31#7 then .mapRead c
  else if code = 0x32#7 then .bankCopy c
  else if code = 0x33#7 then .bankClear c
  else if code = 0x34#7 then .bankAbort c
  else if code = 0x35#7 then .bankStatus c
  else if code = 0x36#7 then .switchAt c
  else if code = 0x37#7 then .switchNow c
  else if code = 0x38#7 then .switchCancel c
  else if code = 0x40#7 then .legSet c
  else if code = 0x41#7 then .legClear c
  else if code = 0x42#7 then .legRead c
  else if code = 0x43#7 then .bridgeSet c
  else if code = 0x50#7 then .eventRead c
  else if code = 0x51#7 then .eventMask c
  else if code = 0x52#7 then .noticeSet c
  else .badCommand code c

/-- The codes of the reading kinds (R138). -/
def readingCodes : List (BitVec 7) :=
  [0x01#7, 0x11#7, 0x12#7, 0x13#7, 0x21#7, 0x31#7, 0x35#7, 0x42#7, 0x50#7]

/-- What the command with this code examines and does. -/
def bodyOf (code : BitVec 7) : Body :=
  if code = 0x01#7 then identifyBody
  else if code = 0x02#7 then addrSetBody
  else if code = 0x03#7 then groupSetBody
  else if code = 0x04#7 then partResetBody
  else if code = 0x10#7 then linkSetBody
  else if code = 0x11#7 then linkGetBody
  else if code = 0x12#7 then linkStatusBody
  else if code = 0x13#7 then countReadBody
  else if code = 0x20#7 then refSetBody
  else if code = 0x21#7 then refStatusBody
  else if code = 0x22#7 then timeSetBody
  else if code = 0x30#7 then mapWriteBody
  else if code = 0x31#7 then mapReadBody
  else if code = 0x32#7 then bankCopyBody
  else if code = 0x33#7 then bankClearBody
  else if code = 0x34#7 then bankAbortBody
  else if code = 0x35#7 then bankStatusBody
  else if code = 0x36#7 then switchAtBody
  else if code = 0x37#7 then switchNowBody
  else if code = 0x38#7 then switchCancelBody
  else if code = 0x40#7 then legSetBody
  else if code = 0x41#7 then legClearBody
  else if code = 0x42#7 then legReadBody
  else if code = 0x43#7 then bridgeSetBody
  else if code = 0x50#7 then eventReadBody
  else if code = 0x51#7 then eventMaskBody
  else if code = 0x52#7 then noticeSetBody
  else badCommandBody

/-! ## The taking of a command -/

/-- A good command cell completes on an UPLINK (R134). -/
def State.arrives (s : State) (c : CommandCell) : Prop := (s.link c.arrival).config.shape.role = .uplink

/-- The destination matches by unicast (R129). -/
def State.matchesUnicast (s : State) (c : CommandCell) : Prop := s.agent.classify c.dest = .unicast

/-- The destination matches by group or broadcast (R129). -/
def State.matchesShared (s : State) (c : CommandCell) : Prop :=
  s.agent.classify c.dest = .group ∨ s.agent.classify c.dest = .broadcast

/-- The state in which the place for the response is sought: the active uplink and the reply address set, and the
notice placed when it comes first (R131, R137, R139). -/
def State.atTest (s : State) (c : CommandCell) : State :=
  if c.noticeFirst then (s.noteTaking c).movedTest s.agent.activeUplink else s.noteTaking c

/-- The state in which a unicast command is examined: the place for its response held (R137). -/
def State.atTaking (s : State) (c : CommandCell) : State :=
  if c.noticeFirst then (s.atTest c).holdPlace c.arrival
  else ((s.atTest c).holdPlace c.arrival).movedTest s.agent.activeUplink

/-- The command is taken by unicast and finds a place for its response. -/
def State.placed (s : State) (c : CommandCell) : Prop :=
  s.arrives c ∧ s.matchesUnicast c ∧ (s.atTest c).hasRoom c.arrival = true

/-- The command is taken by unicast, finds a place, and no reset is pending: it is examined (R137). -/
def State.examines (s : State) (c : CommandCell) : Prop := s.placed c ∧ s.agent.resetPending = false

/-- The state in which a group or broadcast command is examined: relayed, the active uplink and the reply address set,
a notice that waits tested for a place (R131, R134, R189). -/
def State.atSharedTaking (s : State) (code : BitVec 7) (c : CommandCell) : State :=
  ((s.relayOutbound (outboundCell code c)).noteTaking c).movedTest s.agent.activeUplink

/-! ## A transmitted frame -/

/-- The words `ws` are the frame of link `l` in `s`: N words, the header of the frame index with this link's RAI and the S
bit, the management word in the management slot, the map's word in every payload slot, and with check enable a last word
that makes the exclusive OR of all N zero (R9, R12, R113, R114, R118). -/
def State.carries (s : State) (l : LinkId) (ws : List Word) : Prop :=
  ws.length = (s.link l).config.shape.slotCount.toNat ∧
  ws.head? = some (headerWord s.tb.frameIndex ((s.link l).config.rxEnable && !(s.link l).inSync)
    (sBit s.tb.number s.tb.frameIndex)) ∧
  ((s.link l).config.shape.checkEnable = true → xorWords ws = 0#16) ∧
  (∀ t : SlotId, (s.link l).config.shape.isPayload t.val = true →
    ws[t.val]? = some (s.payloadWord (s.link l).config.txPart l t)) ∧
  (∀ t : SlotId, t.val ≠ 0 → t.val < (s.link l).config.shape.slotCount.toNat →
    (s.link l).config.shape.isCheck t.val = false → (s.link l).config.shape.isMgmt t.val = true →
    ws[t.val]? = some (s.link l).tx.mgmtWord)

/-! ## Notices -/

/-- The notice cell with this occupancy, head sequence, pending-lost count and retry number (R190). -/
def Agent.noticeWith (a : Agent) (occupancy : Nat) (head lost : Byte) (retry : Nat) : Cell :=
  buildCell 0xCA#8 a.replyAddr a.strapAddr 0#8 0#3 0x7F#7 0#6 (payloadOf [byteOf occupancy, head, lost, byteOf retry])

/-- The notice cell over this event queue (R190). -/
def Agent.noticeFor (a : Agent) (q : EventQueue) (retry : Nat) : Cell :=
  a.noticeWith q.records.length ((q.records.head?.map (·.seq)).getD 0#8) q.pendingLost retry

/-- The notice cell over the event queue of `s` when the first record has been appended to it (R182, R190). -/
def State.firstNotice (s : State) : Cell :=
  s.agent.noticeWith (s.events.records.length + 1) ((s.events.records.head?.map (·.seq)).getD s.events.nextSeq) 0#8 0

/-- `y` is a notice cell placed between `s` and `t`: over the queue as `t` has it, or, out of QUIET, with the first
record (R189, R190); the notice controller waits with its timer set. -/
def State.noticeJoins (s t : State) (y : Cell) : Prop :=
  t.notice.state = .wait ∧ t.notice.timer = 64 ∧
  (y = s.agent.noticeFor t.events t.notice.retry ∨
    (s.notice.state = .quiet ∧ t.notice.retry = 0 ∧ y = s.firstNotice))

/-! ## A completed frame -/

/-- What the completion of frame `f` on `l` has handed over, from `s` to `u`: the frame to the store, the check error to
counter and window, the RAI bit, the S bit, the completion to the timebase, and this to the assembler; the reports of a
delete slip and of a remote alarm in either order, with what they do to the notice controller and the active uplink's
queue: nothing, or, out of QUIET, DUE without a place and the notice cell in it with one; nothing else (R27 to R33, R35,
R49, R57, R189). -/
def State.handedOver (s u : State) (l : LinkId) (f : FrameInProgress) (rest : Vector Word 63) (e : Header)
    (run startAt : Nat) (assembler : List Word) : Prop :=
  let x := s.link l
  let words := f.header :: rest.toList.take (f.shape.slotCount.toNat - 1)
  let error := f.shape.checkEnable && decide (xorWords words ≠ 0#16)
  let full := decide (2 ≤ x.store.queue.length)
  let rai := integrateRai x.rx.remoteAlarm x.rx.raiRun (headerRai f.header)
  let got := collect x.rx.collector f
  let slip := fun v : State => if full then v.report .slip (byteOf l.val) 1#8 else v
  let alarm := fun v : State =>
    if f.good && rai.2.2 then v.report .remoteAlarm (byteOf l.val) (if x.rx.remoteAlarm then 0#8 else 1#8) else v
  u.link l = { x with
    rx := { x.rx with
      align := .sync e run none
      watch := { x.rx.watch with seen := true }
      remoteAlarm := if f.good then rai.1 else x.rx.remoteAlarm
      raiRun := if f.good then rai.2.1 else x.rx.raiRun
      window := if error && x.config.shape.checkEnable then satInc8 x.rx.window else x.rx.window
      collector := got.1
      number := got.2.getD x.rx.number
      numberValid := got.2.isSome || x.rx.numberValid }
    store := { x.store with queue := (if full then x.store.queue.drop 1 else x.store.queue) ++
      [⟨words, f.good && !(error && f.discard), f.shape⟩] }
    rxCount := { x.rxCount with
      checkErrors := if error then satAdd16 x.rxCount.checkErrors 1 else x.rxCount.checkErrors
      deleteSlips := if full then satAdd16 x.rxCount.deleteSlips 1 else x.rxCount.deleteSlips }
    assembler := assembler
    queue := (u.link l).queue } ∧
  (∀ k, k ≠ l → u.link k = { s.link k with queue := (u.link k).queue }) ∧
  (∀ k, k ≠ s.agent.activeUplink → (u.link k).queue = (s.link k).queue) ∧
  u.tb = { s.tb with
    pendingAdoption := match got.2 with
      | some n => if s.tb.source = .locked l then some (n + 1#16) else s.tb.pendingAdoption
      | none => s.tb.pendingAdoption
    completions := if s.tb.source = .locked l then s.tb.completions ++ [startAt] else s.tb.completions } ∧
  (∃ v, (v = alarm (slip s) ∨ v = slip (alarm s)) ∧ u.events = v.events ∧ u.notice = v.notice ∧
    (u.link s.agent.activeUplink).queue = (v.link s.agent.activeUplink).queue) ∧
  ((u.notice = s.notice ∧ (u.link s.agent.activeUplink).queue = (s.link s.agent.activeUplink).queue) ∨
    (s.notice.state = .quiet ∧
      if s.hasRoom s.agent.activeUplink = true then
        u.notice = ⟨.wait, 0, 64⟩ ∧ (u.link s.agent.activeUplink).queue =
          (s.link s.agent.activeUplink).queue ++ [⟨s.firstNotice, false⟩]
      else u.notice = ⟨.due, 0, 0⟩ ∧
        (u.link s.agent.activeUplink).queue = (s.link s.agent.activeUplink).queue)) ∧
  u.map = s.map ∧ u.bank = s.bank ∧ u.bridges = s.bridges ∧ u.agent = s.agent

/-! ## The search for a header -/

/-- The position `q` of the bits `b` is passed over: its word is complete and not well formed, or a word that is to
confirm it has come and is no successor (R21, R22). -/
def failsAt (n : Nat) (b : List Bool) (q : Nat) : Prop :=
  ∃ w, firstWord? (b.drop q) = some w ∧
    ((headerOf w).wellFormed = false ∨
      ∃ w1, firstWord? (b.drop (q + n)) = some w1 ∧
        (isSuccessor w w1 = false ∨ ∃ w2, firstWord? (b.drop (q + 2 * n)) = some w2 ∧ isSuccessor w1 w2 = false))

/-- The receiver of `l` at another place of its search, these bits having come. -/
def State.searched (s : State) (l : LinkId) (bits : List Bool) (a : Align) : State :=
  s.updLink l fun x => { x with
    rx := { x.rx with align := a, watch := { x.rx.watch with seen := x.rx.watch.seen || !bits.isEmpty } } }

/-- The row takes the bits `new` behind the bits `old` as a search bit by bit does: at the first position `p` that is not
passed over it is still in HUNT when the word there is not complete, in CONFIRM when that word is well formed and what
has come of the two words that are to confirm it has passed, and in SYNC when both have, the frame of the second begun,
the store emptied and LINK_UP reported (R21, R22, R23). -/
def State.searchGoes (s : State) (l : LinkId) (row : List Bool → Instr) (old new : List Bool) : Prop :=
  ∀ p, let n := (s.link l).frameBits
    let b := old ++ new
    (∀ q < p, failsAt n b q) →
      (firstWord? (b.drop p) = none → exec (row new) s = .next (s.searched l new (.hunt (b.drop p)))) ∧
      ∀ w, firstWord? (b.drop p) = some w → (headerOf w).wellFormed = true →
        (firstWord? (b.drop (p + n)) = none → exec (row new) s = .next (s.searched l new (.confirm (b.drop p)))) ∧
        ∀ w1, firstWord? (b.drop (p + n)) = some w1 → isSuccessor w w1 = true →
          (firstWord? (b.drop (p + 2 * n)) = none →
            exec (row new) s = .next (s.searched l new (.confirm (b.drop p)))) ∧
          ∀ w2, firstWord? (b.drop (p + 2 * n)) = some w2 → isSuccessor w1 w2 = true →
            exec (row new) s = .next (((s.searched l new (.sync (headerOf w2).succ 0
                (some ⟨w2, true, (s.link l).config.shape, (s.link l).config.discard⟩))).updLink l fun x =>
              { x with store := { x.store with queue := [], primed := false } }).report .linkUp (byteOf l.val) 0#8)

/-! ## What holds between steps -/

/-- A receiver out of SYNC holds nothing of a frame, a window, a collection or a qualification (R26, R34, R41). -/
def Link.quiet (x : Link) : Prop :=
  x.store.queue = [] ∧ x.store.primed = false ∧ x.rx.qualCount = 0 ∧ x.rx.wholeMark = false ∧
  x.rx.numberValid = false ∧ x.rx.remoteAlarm = false ∧ x.rx.raiRun = 0 ∧ x.rx.checkAlarm = false ∧
  x.rx.window = 0#8 ∧ x.rx.collector = .idle ∧ x.assembler = []

/-- In SYNC the expected header is well formed and fewer than four bad headers stand in a row (R24, R25). -/
def Align.ok : Align → Prop
  | .sync expected badRun _ => expected.wellFormed = true ∧ badRun ≤ 3
  | _ => True

/-- The receive side of one link (R19, R25, R26, R29, R31, R34, R41). -/
def Link.receiveOk (x : Link) : Prop :=
  x.store.queue.length ≤ 2 ∧ x.rx.qualCount ≤ 16 ∧ x.rx.raiRun ≤ 3 ∧ x.rx.align.ok ∧
  (x.rx.align = .off ↔ x.config.rxEnable = false) ∧
  (x.inSync = false → x.quiet) ∧
  (x.config.shape.checkEnable = false → x.rx.checkAlarm = false ∧ x.rx.window = 0#8)

def State.receiveOk (s : State) : Prop := ∀ l, (s.link l).receiveOk

/-- The management side of one link (R120, R130, R132, R141, R154). -/
def Link.manageOk (x : Link) : Prop :=
  x.queue.length ≤ 4 ∧ x.assembler.length ≤ 7 ∧ x.config.shape.mgmtSlotLegal = true ∧
  (x.config.shape.role = .none → x.queue = [] ∧ x.assembler = []) ∧
  (x.config.shape.role ≠ .none → x.config.rxEnable = true ∧ x.config.txEnable = true) ∧
  (x.tx.wordCount ≠ 0 → x.queue ≠ [])

/-- The management channel: every link's side of it, no place held between steps, and the active uplink an UPLINK with
both lanes enabled (R131, R137). -/
def State.manageOk (s : State) : Prop :=
  (∀ l, (s.link l).manageOk) ∧ s.agent.heldPlace = none ∧
  (s.link s.agent.activeUplink).config.shape.role = .uplink

/-- The reference list has one to four distinct entries; the source is a qualified entry of it, the first one when
revertive is on, and HOLDOVER stands only where no entry is qualified (R46, R52, R54, R56). -/
def State.timebaseOk (s : State) : Prop :=
  1 ≤ s.tb.refList.length ∧ s.tb.refList.length ≤ 4 ∧ s.tb.refList.Nodup ∧
  (match s.tb.source.entry with
   | some e => e ∈ s.tb.refList ∧ s.qualified e = true
   | none => ∀ e ∈ s.tb.refList, s.qualified e = false) ∧
  (s.tb.revertive = true → s.tb.source = s.firstQualified)

/-- The engine and a scheduled switch exclude each other, and a scheduled switch finds the standby CONSISTENT
(R84, R96). -/
def BankCtl.ok (x : BankCtl) : Prop :=
  (∀ op pos, x.engine = .running op pos → x.scheduler = .idle ∧ pos ≤ 504 ∧ pos % 8 = 0) ∧
  (x.scheduler ≠ .idle → x.consistent = true)

/-- The entries of slot 0 hold the reset value in both banks, and the hold values of a link with tx enable off are none
(R63, R67). -/
def State.mapOk (s : State) : Prop :=
  (∀ l, s.map.bankA[(slotIndex l 0).val] = .reset ∧ s.map.bankB[(slotIndex l 0).val] = .reset) ∧
  (∀ l t, (s.link l).config.txEnable = false → s.map.holds[(slotIndex l t).val] = none)

/-- No two present legs of a bridge have the same input link and slot (R100). -/
def Bridge.ok (x : Bridge) : Prop :=
  ∀ j k : LegId, j ≠ k → ∀ g h : Leg, x.legs[j.val] = some g → x.legs[k.val] = some h →
    ¬(g.link = h.link ∧ g.slot = h.slot)

def State.bridgesOk (s : State) : Prop := ∀ b, (s.bridge b).ok

/-- Two records are undelivered SLIP records of one link and direction (R183). -/
def EventRecord.twin (r q : EventRecord) : Prop :=
  r.kind = .slip ∧ q.kind = .slip ∧ r.delivered = false ∧ q.delivered = false ∧ r.subject = q.subject ∧
    r.detail = q.detail

/-- At most 32 records, their sequences consecutive up to the next one, none but the head delivered, and at most one
undelivered SLIP record of a link and direction (R181, R183). -/
def EventQueue.ok (q : EventQueue) : Prop :=
  q.records.length ≤ 32 ∧
  q.records.map (·.seq) = (List.range q.records.length).map
    (fun i => q.nextSeq - BitVec.ofNat 8 (q.records.length - i)) ∧
  (∀ r ∈ q.records.tail, r.delivered = false) ∧
  q.records.Pairwise fun r q => ¬ r.twin q

/-- QUIET goes with an empty event queue, DUE, WAIT and SILENT with a record; in DUE the active uplink's queue is full;
the retry count is at most 3; the timer runs in WAIT only, from 64 down to 1 (R188, R189, R191). -/
def State.noticeOk (s : State) : Prop :=
  (s.notice.state = .quiet → s.events.records = []) ∧
  (s.notice.state = .due ∨ s.notice.state = .wait ∨ s.notice.state = .silent → s.events.records ≠ []) ∧
  (s.notice.state = .due → 4 ≤ (s.link s.agent.activeUplink).queue.length) ∧
  s.notice.retry ≤ 3 ∧
  (s.notice.state = .wait → 1 ≤ s.notice.timer ∧ s.notice.timer ≤ 64) ∧
  (s.notice.state ≠ .wait → s.notice.timer = 0)

/-- Everything above at once. -/
def State.ok (s : State) : Prop :=
  s.receiveOk ∧ s.manageOk ∧ s.timebaseOk ∧ s.bank.ok ∧ s.mapOk ∧ s.bridgesOk ∧ s.events.ok ∧ s.noticeOk

end Sys2Proof.Machine
end

