-- ==== Sys2Proof/Certificates/Slice0/Obligations.lean ====
section
/-!
DEFINITION. The statements about the ZQ864. Where a statement speaks of a value or a convention the model chose, its
docstring names the row of notes/assumptions.
-/

open Sys2Proof Sys2Proof.Machine

/-! ## The queue of commands -/

/-- A step runs the command at the front of the queue on the state with the queue's rest; on an empty queue the block
idles (the model's choice, notes/assumptions/5.md). -/
def Obligations.StepRunsFrontCommand : Prop :=
  (∀ (i : Instr) (rest : List Instr) (s : State), s.pending = i :: rest → step s = exec i (s.withPending rest)) ∧
  (∀ s : State, s.pending = [] → step s = .next s)

/-- Every command answers a next state, in every state, and leaves the queue of waiting commands alone. That a row whose
thing does not come about answers a next state is the model's choice (notes/assumptions/4.md), and that no rule stops a
command its reading (notes/assumptions/14.md). -/
def Obligations.EveryCommandCompletesAndKeepsQueue : Prop :=
  ∀ (i : Instr) (s : State), ∃ t, exec i s = .next t ∧ t.pending = s.pending

/-- The rows of the command cells are the codes of R198: a row is the taking of a cell with its code (the
model's reading, notes/assumptions/8.md), every code of the list has a row of its own, and every other code is
BAD_COMMAND. -/
def Obligations.CommandCodesNameTheRows : Prop :=
  ∀ (code : BitVec 7) (c : CommandCell) (s : State),
    exec (commandOf code c) s = .next (s.takeByCode code c) ∧
    (commandOf code c = .badCommand code c ↔ commandCodes.contains code = false)

/-! ## Reset -/

/-- The release of RST_N samples the straps and gives every block its power-on values (R144, R17, R46, R77, R97, R99,
R181, R188). -/
def Obligations.PowerOnValues : Prop :=
  ∀ (addr : BitVec 4) (upl : LinkId) (s : State), ∃ t, exec (.powerOnReset addr upl) s = .next t ∧
    t.agent.strapAddr.toNat = 0x40 + addr.toNat ∧ t.agent.strapUplink = upl ∧ t.agent.activeUplink = upl ∧
    t.agent.replyAddr = 0x00#8 ∧ t.agent.resetPending = false ∧ t.agent.resetCause = .powerOn ∧
    (∀ i : Fin 3, t.agent.aliases[i.val] = none) ∧ (∀ i : Fin 2, t.agent.groups[i.val] = none) ∧
    (∀ l, (t.link l).config.rxEnable = true ∧ (t.link l).config.txEnable = true ∧
      (t.link l).config.discard = false ∧ (t.link l).config.idle = 0x0000#16 ∧
      (t.link l).config.shape = ⟨.n32, false, if l = upl then .uplink else .none, 1⟩ ∧
      (t.link l).rx.align = .hunt [] ∧ (t.link l).rx.remoteAlarm = false ∧ (t.link l).rx.raiRun = 0 ∧
      (t.link l).rx.checkAlarm = false ∧ (t.link l).rx.window = 0#8 ∧ (t.link l).rx.collector = .idle ∧
      (t.link l).rx.number = 0#16 ∧ (t.link l).rx.numberValid = false ∧ (t.link l).rx.qualCount = 0 ∧
      (t.link l).rx.wholeMark = false ∧ (t.link l).store = ⟨[], none, false⟩ ∧ (t.link l).assembler = [] ∧
      (t.link l).queue = [] ∧ (t.link l).tx.wordCount = 0 ∧ (t.link l).rxCount = ⟨0#16, 0#16, 0#16, 0#16, 0#16⟩ ∧
      (t.link l).mgmtCount = ⟨0#16, 0#16, 0#16, 0#16, 0#16, 0#16⟩) ∧
    t.tb.frameIndex = 0 ∧ t.tb.number = 0#16 ∧ t.tb.source = .free ∧ t.tb.heldPeriod = 512 ∧
    t.tb.refList = [.localClock] ∧ t.tb.revertive = false ∧ t.tb.follow = false ∧ t.tb.pendingSet = none ∧
    t.tb.pendingAdoption = none ∧
    (∀ (k : Bank) (i : Fin 512), (t.map.entries k)[i.val] = ⟨.idle, .idle⟩) ∧
    (∀ i : Fin 512, t.map.holds[i.val] = none) ∧
    t.bank = ⟨.a, true, .idle none .done 0, .idle⟩ ∧
    (∀ b, (t.bridge b).enabled = false ∧ ∀ k : LegId, (t.bridge b).legs[k.val] = none) ∧
    t.events = ⟨[], 0#8, 0#8, 0x1FF#9⟩ ∧ t.notice = ⟨.quiet, 0, 0⟩

/-- Right after reset everything holds that the steps keep; the straps of this reset, ADDR = 0 and UPL = 0, are the
model's choice (notes/assumptions/1.md). -/
def Obligations.ResetIsOk : Prop := State.reset.ok

/-! ## What every step keeps -/

/-- A store holds at most two frames, and a receiver out of SYNC holds none, is not qualified and shows no alarm. -/
def Obligations.StepKeepsReceiveSide : Prop := ∀ s t : State, s.receiveOk → step s = .next t → t.receiveOk

/-- A cell queue holds at most four cells, a link without a role holds none, and the active uplink is an UPLINK. -/
def Obligations.StepKeepsManagementChannel : Prop := ∀ s t : State, s.manageOk → step s = .next t → t.manageOk

/-- The timebase is never LOCKED to a link that is not qualified or not listed. -/
def Obligations.StepKeepsReference : Prop := ∀ s t : State, s.timebaseOk → step s = .next t → t.timebaseOk

/-- A running engine and a scheduled switch exclude each other. -/
def Obligations.StepKeepsBankControl : Prop := ∀ s t : State, s.bank.ok → step s = .next t → t.bank.ok

/-- Slot-0 entries hold the reset value, and hold values of a silent lane are none. -/
def Obligations.StepKeepsMap : Prop := ∀ s t : State, s.mapOk → step s = .next t → t.mapOk

/-- No bridge holds two present legs with the same input link and slot. -/
def Obligations.StepKeepsLegsDistinct : Prop := ∀ s t : State, s.bridgesOk → step s = .next t → t.bridgesOk

/-- The event queue holds at most 32 records with consecutive sequences, and one undelivered SLIP of a kind. -/
def Obligations.StepKeepsEventQueue : Prop := ∀ s t : State, s.events.ok → step s = .next t → t.events.ok

/-- The notice state agrees with the event queue, in DUE the active uplink's queue is full, the retry count is at most 3
and the timer runs in WAIT only; the management channel in order. -/
def Obligations.StepKeepsNotices : Prop :=
  ∀ s t : State, s.manageOk → s.noticeOk → step s = .next t → t.noticeOk

/-! ## Local frame starts -/

/-- At a local frame start the index advances by 1 modulo 48 and the divider has run on, but for the first start after
reset; at a superframe start the number becomes the set value, else the adoption or the old number plus 1, and both
pending values are cleared. That the number is chosen at its place in the operand's order, from the adoption as it
stands there, is the model's reading and its choice (notes/assumptions/16.md and 3.md); where the order names nothing,
or the number first, no selection of the start comes before it, and it is the first case of R58 that applies. The start
changes no link record, no list or flag of the timebase and, where no soft reset is due, nothing of the agent, the event
mask, the legs and enables of bridges and the management counters, and no entry unless the engine runs. Stated, as the
statements below, for a start by itself; how one goes with which frames complete together is
`Obligations.NoticeIsPlaced`. -/
def Obligations.FrameStartNumbersTheFrame : Prop :=
  ∀ (i : StartInput) (s : State) (k : Bool), s.tb.startKind i.elapsed = some k →
    i.arrivals = [] →
    ∃ t, exec (.localFrameStart i) s = .next t ∧ t.tb.started = true ∧
      (s.tb.started = false → t.tb.frameIndex = s.tb.frameIndex ∧ t.tb.number = s.tb.number) ∧
      (∀ l, (t.link l).config = (s.link l).config) ∧
      (t.tb.refList = s.tb.refList ∧ t.tb.revertive = s.tb.revertive ∧ t.tb.follow = s.tb.follow) ∧
      (s.resetDue = false → t.agent = s.agent ∧ t.events.mask = s.events.mask ∧
        (∀ l, (t.link l).mgmtCount = (s.link l).mgmtCount) ∧
        (∀ b, (t.bridge b).enabled = (s.bridge b).enabled ∧ (t.bridge b).legs = (s.bridge b).legs) ∧
        ((∀ op pos, s.bank.engine ≠ .running op pos) → ∀ k, t.map.entries k = s.map.entries k)) ∧
      (s.tb.started = true → t.tb.frameIndex = s.tb.frameIndex + 1 ∧
        t.tb.divider.val = (s.tb.divider.val + i.elapsed) % 512) ∧
      (s.tb.superframeDue = false → t.tb.number = s.tb.number ∧ t.tb.pendingSet = s.tb.pendingSet) ∧
      (s.tb.superframeDue = true → t.tb.frameIndex = 0 ∧ t.tb.pendingSet = none ∧ t.tb.pendingAdoption = none ∧
        (∀ v, s.tb.pendingSet = some v → t.tb.number = v) ∧
        (s.tb.pendingSet = none → t.tb.number = s.tb.number + 1#16 ∨
          (s.tb.follow = true ∧ (∃ l, s.tb.source = .locked l) ∧ s.tb.pendingAdoption = some t.tb.number)) ∧
        ((i.order = [] ∨ i.order.head? = some .number) → s.tb.pendingSet = none → s.tb.follow = true →
          ∀ l v, s.tb.source = .locked l → s.tb.pendingAdoption = some v → t.tb.number = v))

/-- LOCAL_SUPERFRAME_START is the local frame start at which the index goes from 47 to 0; at any other start it does
not come about and changes nothing (the model's choice, notes/assumptions/2.md and 4.md). -/
def Obligations.SuperframeStartIsStartAt47 : Prop :=
  ∀ (i : StartInput) (s : State),
    (s.tb.started = true → s.tb.frameIndex = 47 →
      exec (.localSuperframeStart i) s = exec (.localFrameStart i) s ∧
      ∀ k, s.tb.startKind i.elapsed = some k →
        ∃ t, exec (.localSuperframeStart i) s = .next t ∧ t.tb.frameIndex = 0) ∧
    (¬(s.tb.started = true ∧ s.tb.frameIndex = 47) → exec (.localSuperframeStart i) s = .next s)

/-- When a source gives a start, in whole REFCLK periods (R48 to R51; resolution, notes/assumptions/6.md): FREE at the
first wrap of the divider at least half a nominal period after the previous start; LOCKED at the start that the first
usable completion of the link gives, the earliest in that window of the held period, and where there is none by itself
at one and a half; HOLDOVER at the held period. A completion's start is the time its operand gives, the delay of R49
having no value (the model's choice, notes/assumptions/7.md). Elsewhere nothing happens. LOCKED_START_TIMEOUT is the
start the timebase makes itself: not taken from a completion, it does not set the held period (R49); at any other time
the row changes nothing (the model's choice, notes/assumptions/4.md). At a start at which no selection runs, the second
of two starts in a row taken from completions of the source sets the held period to the length of the frame that ends,
any other leaves it (R49; the bit that remembers the first is the model's, notes/assumptions/19.md), and completions
whose starts are still to come are reckoned from the new start. -/
def Obligations.SourcesGiveStarts : Prop :=
  ((∀ (t : Timebase) (e : Nat), t.started = true →
    (t.source = .free →
      (t.startKind e).isSome = decide ((t.divider.val + e) % 512 = 0 ∧ 256 ≤ e ∧ e < 768)) ∧
    (∀ l, t.source = .locked l →
      (t.startKind e = some true ↔ e ∈ t.completions ∧ t.heldPeriod ≤ 2 * e ∧ 2 * e < 3 * t.heldPeriod ∧
        ∀ d ∈ t.completions, t.heldPeriod ≤ 2 * d → 2 * d < 3 * t.heldPeriod → e ≤ d) ∧
      (t.startKind e = some false ↔ e = (3 * t.heldPeriod + 1) / 2 ∧
        ∀ d ∈ t.completions, ¬(t.heldPeriod ≤ 2 * d ∧ 2 * d < 3 * t.heldPeriod))) ∧
    (t.source = .holdover → (t.startKind e).isSome = decide (e = t.heldPeriod))) ∧
  (∀ (i : StartInput) (s : State), s.tb.startKind i.elapsed = none → exec (.localFrameStart i) s = .next s)) ∧
  (∀ (i : StartInput) (s : State) (l : LinkId), s.tb.started = true → s.tb.source = .locked l →
    let usable := ∃ d ∈ s.tb.completions, s.tb.heldPeriod ≤ 2 * d ∧ 2 * d < 3 * s.tb.heldPeriod
    (i.elapsed = (3 * s.tb.heldPeriod + 1) / 2 → ¬usable → i.arrivals = [] →
      ∃ t, exec (.lockedStartTimeout i) s = .next t ∧ exec (.localFrameStart i) s = .next t ∧
        t.tb.frameIndex = s.tb.frameIndex + 1 ∧ t.tb.fromCompletion = false ∧
        (t.tb.heldPeriod = s.tb.heldPeriod ∨ t.tb.heldPeriod = 512)) ∧
    (i.elapsed ≠ (3 * s.tb.heldPeriod + 1) / 2 ∨ usable → exec (.lockedStartTimeout i) s = .next s)) ∧
  (∀ (i : StartInput) (s : State) (k : Bool), s.tb.startKind i.elapsed = some k →
    i.arrivals = [] → (∀ l, s.clockLossDue l i.rxc = false) →
    (s.tb.superframeDue = true → ∀ l, RefEntry.link l ∈ s.tb.refList →
      (s.link l).rx.qualCount = 16 ∨ (s.link l).rx.qualCount < 15) →
    ∃ t, exec (.localFrameStart i) s = .next t ∧ t.tb.source = s.tb.source ∧ t.tb.fromCompletion = k ∧
      t.tb.heldPeriod = (if k = true ∧ s.tb.fromCompletion = true then i.elapsed else s.tb.heldPeriod) ∧
      t.tb.completions = (s.tb.completions.filter (i.elapsed < ·)).map (· - i.elapsed))

/-- At the expiry of the notice timer the retry count rises and the state becomes DUE, where a notice may be placed at
once; with three resends made it becomes SILENT (R191). With no order named, the notice cell with the risen retry number
joins the active uplink's queue at this start where that queue has a place or a cell leaves it, and where not the state
stays DUE (R189, R190). Stated for a start at which no soft reset is due; that the row is that local frame start is the
model's reading (notes/assumptions/2.md). -/
def Obligations.NoticeTimerExpires : Prop :=
  ∀ (i : StartInput) (s : State) (k : Bool), s.tb.started = true → s.tb.frameIndex = 47 → s.notice.state = .wait →
    s.notice.timer = 1 → s.tb.startKind i.elapsed = some k → s.resetDue = false → i.arrivals = [] →
    ∃ t, exec (.noticeTimerExpiry i) s = .next t ∧ exec (.localFrameStart i) s = .next t ∧
      (s.notice.retry < 3 → t.notice.retry = s.notice.retry + 1 ∧
        ((t.notice.state = .due ∧ t.notice.timer = 0) ∨ (t.notice.state = .wait ∧ t.notice.timer = 64))) ∧
      (s.notice.retry = 3 → t.notice = ⟨.silent, 3, 0⟩) ∧
      (i.order = [] → s.notice.retry < 3 → s.agent.heldPlace = none →
        let x := s.link s.agent.activeUplink
        let leaves := x.config.txEnable = true ∧ x.config.shape.role ≠ .none ∧ x.tx.wordCount = 7
        let left := if leaves then x.queue.drop 1 else x.queue
        x.queue.length ≤ 4 → (x.queue = [] → x.tx.wordCount = 0) →
        (x.queue.length < 4 ∨ leaves → t.notice = ⟨.wait, s.notice.retry + 1, 64⟩ ∧
          (t.link s.agent.activeUplink).queue =
            left ++ [⟨s.agent.noticeFor t.events (s.notice.retry + 1), false⟩]) ∧
        (x.queue.length = 4 → ¬leaves → t.notice = ⟨.due, s.notice.retry + 1, 0⟩ ∧
          (t.link s.agent.activeUplink).queue = x.queue))

/-- At the second of two consecutive silent intervals an enabled receiver enters NOCLOCK; from SYNC it gives up
everything a receiver out of SYNC does not hold, and counts a sync loss; with LINK_DOWN enabled, at most 16 records
queued and no order named, LINK_DOWN with cause 2 is recorded and stamped with the frame that starts (R20, R26, R47).
The last is stated for a start at which no soft reset is due; that the row is that local frame start is the model's
reading (notes/assumptions/2.md). -/
def Obligations.ClockLossEntersNoClock : Prop :=
  ∀ (l : LinkId) (i : StartInput) (s : State) (k : Bool), (s.link l).rx.align ≠ .off →
    (s.link l).rx.align ≠ .noclock → (s.link l).rx.watch = ⟨true, false, true⟩ → i.rxc.getLsbD l.val = false →
    s.tb.startKind i.elapsed = some k → i.arrivals = [] →
    ∃ t, exec (.clockLoss l i) s = .next t ∧ exec (.localFrameStart i) s = .next t ∧ (t.link l).rx.align = .noclock ∧
      ((s.link l).inSync = true → (t.link l).quiet ∧
        (s.resetDue = false → (t.link l).rxCount.syncLosses = satAdd16 (s.link l).rxCount.syncLosses 1) ∧
        (s.resetDue = false → i.order = [] → s.events.mask.getLsbD 1 = true → s.events.records.length ≤ 16 →
          ∃ r ∈ t.events.records, r.kind = .linkDown ∧ r.subject = byteOf l.val ∧ r.detail = 2#8 ∧
            r.stampNumber = t.tb.number ∧ r.stampIndex = t.tb.frameIndex ∧ r.count = 1#8 ∧ r.delivered = false))

/-- The start that processes the chunk at position 504 completes the operation: engine IDLE with the record done at 512,
the standby CONSISTENT (R87); with no switch scheduled, the last eight entries are processed (R86). ENGINE_END is
reported with the operation and the outcome done (R87, R179); with the kind enabled, a place in the event queue, no
order named, and no clock loss and no superframe start to report before it, it is recorded. Stated for a start at which
no soft reset is due; that the row is that local frame start is the model's reading (notes/assumptions/2.md). -/
def Obligations.EngineEndsAtLastChunk : Prop :=
  ∀ (i : StartInput) (s : State) (k : Bool) (op : EngineOp), s.bank.engine = .running op 504 →
    s.tb.startKind i.elapsed = some k → s.resetDue = false → i.arrivals = [] →
    ∃ t, exec (.engineEnd i) s = .next t ∧ exec (.localFrameStart i) s = .next t ∧
      t.bank.engine = .idle (some op) .done 512 ∧ t.bank.consistent = true ∧
      (s.bank.scheduler = .idle → t.bank.active = s.bank.active ∧
        ∀ j : Fin 512, 504 ≤ j.val → (t.map.entries t.standby)[j.val] = s.processedEntry op j) ∧
      (∃ m, s.engineAct = ((s.withMap m).withBank { s.bank with
        engine := .idle (some op) .done 512, consistent := true }).report .engineEnd 0xFF#8
          (match op with | .copy => 0#8 | .clear => 1#8)) ∧
      (i.order = [] → s.bank.scheduler = .idle → s.tb.superframeDue = false → (∀ l, s.clockLossDue l i.rxc = false) →
        s.events.mask.getLsbD 8 = true → s.events.records.length < 32 →
        ∃ r ∈ t.events.records, r.kind = .engineEnd ∧ r.subject = 0xFF#8 ∧
          r.detail = (match op with | .copy => 0#8 | .clear => 1#8) ∧ r.stampNumber = t.tb.number ∧
          r.stampIndex = t.tb.frameIndex)

/-- Sixty-four chunks from position 0 process the whole standby bank: a COPY leaves it an exact copy of the active bank,
a CLEAR leaves it at the reset value; the engine is IDLE with the record done at 512 (R85, R86, R87). A local frame
start at a position below 504 processes the eight entries there and goes on by 8, and leaves every other entry of the
standby bank, the active bank, the scheduler and the consistency as they were (R86); no chunk touches a hold value. The
second is stated for a start at which no soft reset is due. -/
def Obligations.OperationCoversStandby : Prop :=
  (∀ (s : State) (op : EngineOp), s.bank.engine = .running op 0 →
    let t := State.engineAct^[64] s
    t.bank = { s.bank with engine := .idle (some op) .done 512, consistent := true } ∧
    (∀ j : Fin 512, (t.map.entries t.standby)[j.val] = s.processedEntry op j) ∧
    t.map.entries t.bank.active = s.map.entries s.bank.active ∧ t.map.holds = s.map.holds) ∧
  (∀ (i : StartInput) (s : State) (k : Bool) (op : EngineOp) (pos : Nat), s.bank.engine = .running op pos →
    pos + 8 < 512 → s.bank.scheduler = .idle → s.tb.startKind i.elapsed = some k → s.resetDue = false →
    i.arrivals = [] →
    ∃ t, exec (.localFrameStart i) s = .next t ∧ t.bank = { s.bank with engine := .running op (pos + 8) } ∧
      (∀ j : Fin 512, (t.map.entries s.bank.active.other)[j.val] =
        if pos ≤ j.val ∧ j.val < pos + 8
        then match op with
          | .copy => (s.map.entries s.bank.active)[j.val]
          | .clear => ⟨.idle, .idle⟩
        else (s.map.entries s.bank.active.other)[j.val]) ∧
      t.map.entries s.bank.active = s.map.entries s.bank.active ∧ s.engineAct.map.holds = s.map.holds)

/-- At a superframe start the qualification count of a link in SYNC whose mark stands rises by 1, up to 16, where it
stays, and the mark becomes whether the link is in SYNC (R41). The start that brings the count to 16 is LINK_QUALIFIED
(R42; that the row is that local frame start is the model's reading, notes/assumptions/2.md). A link in the reference
list that becomes qualified runs a selection at that moment (R53); out of HOLDOVER it takes the timebase to itself where
no other entry is qualified. -/
def Obligations.LinkQualifiesAtSixteen : Prop :=
  (∀ (l : LinkId) (i : StartInput) (s : State) (k : Bool), s.tb.started = true → s.tb.frameIndex = 47 →
    (s.link l).inSync = true → (s.link l).rx.wholeMark = true → (s.link l).rx.qualCount = 15 →
    s.clockLossDue l i.rxc = false → s.tb.startKind i.elapsed = some k → i.arrivals = [] →
    ∃ t, exec (.linkQualified l i) s = .next t ∧ exec (.localFrameStart i) s = .next t ∧
      (t.link l).rx.qualCount = 16 ∧ (t.link l).rx.wholeMark = true ∧
      (s.tb.source = .holdover → .link l ∈ s.tb.refList → (∀ j, s.clockLossDue j i.rxc = false) →
        (∀ e ∈ s.tb.refList, e ≠ .link l → ∃ j, e = .link j ∧ (s.link j).rx.qualCount < 15) →
        t.tb.source = .locked l)) ∧
  (∀ (l : LinkId) (i : StartInput) (s : State) (k : Bool), s.tb.started = true → s.tb.frameIndex = 47 →
    s.clockLossDue l i.rxc = false → s.tb.startKind i.elapsed = some k → i.arrivals = [] →
    ∃ t, exec (.localFrameStart i) s = .next t ∧ (t.link l).rx.wholeMark = (s.link l).inSync ∧
      (t.link l).rx.qualCount = if (s.link l).inSync = true ∧ (s.link l).rx.wholeMark = true
        then min ((s.link l).rx.qualCount + 1) 16 else (s.link l).rx.qualCount) ∧
  (∀ (s : State) (l : LinkId), s.qualificationAct l false = s ∧
    ∃ n u, n = (if (s.link l).inSync = true ∧ (s.link l).rx.wholeMark = true
        then min ((s.link l).rx.qualCount + 1) 16 else (s.link l).rx.qualCount) ∧
      u = s.updLink l (fun x => { x with rx := { x.rx with qualCount := n, wholeMark := (s.link l).inSync } }) ∧
      (n = 16 → (s.link l).rx.qualCount ≠ 16 → .link l ∈ s.tb.refList → s.qualificationAct l true = u.select) ∧
      (¬(n = 16 ∧ (s.link l).rx.qualCount ≠ 16 ∧ .link l ∈ s.tb.refList) → s.qualificationAct l true = u))

/-- A scheduled switch fires: the standby becomes active, the other bank is the standby and CONSISTENT, the scheduler
is IDLE (R94). IMMEDIATE fires at the next start, ARMED at a superframe start whose number decides so (R92, R93).
Stated for a start at which no soft reset is due; that the row is that local frame start is the model's reading
(notes/assumptions/2.md). -/
def Obligations.SwitchFires : Prop :=
  ∀ (i : StartInput) (s : State) (k : Bool), s.tb.startKind i.elapsed = some k → s.resetDue = false →
    i.arrivals = [] →
    (s.bank.scheduler = .immediate ∨
      ∃ x, s.bank.scheduler = .armed x ∧ s.tb.superframeDue = true ∧
        (armedFires x s.tb.number (s.startCtx i).new).isSome = true) →
    ∃ t, exec (.bankSwitch i) s = .next t ∧ exec (.localFrameStart i) s = .next t ∧
      t.bank.active = s.bank.active.other ∧ t.bank.consistent = true ∧ t.bank.scheduler = .idle

/-- When an ARMED switch fires at a superframe start, and with which late mark (R93); and what a firing does at once:
every hold value none, the pointer, the consistency and the scheduler, and the report (R75, R94). At the start at which
a switch fires, with the kind enabled, no order named, no clock loss and at most 14 records queued, BANK_SWITCH is
recorded with the bank and the late mark and stamped with the frame that starts (R94, R179; stated for a start at which
no soft reset is due; that the row is that local frame start is the model's reading, notes/assumptions/2.md). -/
def Obligations.ArmedSwitchDecides : Prop :=
  (∀ target old new : Word,
    (new = target → armedFires target old new = some (decide (new ≠ old + 1#16))) ∧
    (new ≠ target → 1 ≤ (new - (old + 1#16)).toNat → (new - (old + 1#16)).toNat ≤ 32767 →
      1 ≤ (target - old).toNat → (target - old).toNat ≤ 32767 → 32768 ≤ (target - new).toNat →
      armedFires target old new = some true) ∧
    (new ≠ target → ¬(1 ≤ (new - (old + 1#16)).toNat ∧ (new - (old + 1#16)).toNat ≤ 32767 ∧
      1 ≤ (target - old).toNat ∧ (target - old).toNat ≤ 32767 ∧ 32768 ≤ (target - new).toNat) →
      armedFires target old new = none)) ∧
  (∀ (s : State) (late : Bool),
    s.fireSwitch late =
      ((s.withMap { s.map with holds := Vector.replicate 512 none }).withBank
        { active := s.bank.active.other, consistent := true, engine := s.bank.engine, scheduler := .idle }).report
        .bankSwitch 0xFF#8 (bankCode s.bank.active.other + (if late then 2#8 else 0#8))) ∧
  (∀ (i : StartInput) (s : State) (k late : Bool), i.order = [] → i.arrivals = [] → s.tb.startKind i.elapsed = some k →
    s.resetDue = false → (∀ l, s.clockLossDue l i.rxc = false) →
    ((s.bank.scheduler = .immediate ∧ late = false) ∨
      ∃ x, s.bank.scheduler = .armed x ∧ s.tb.superframeDue = true ∧
        armedFires x s.tb.number (s.startCtx i).new = some late) →
    s.events.mask.getLsbD 7 = true → s.events.records.length ≤ 14 →
    ∃ t, exec (.bankSwitch i) s = .next t ∧ exec (.localFrameStart i) s = .next t ∧
      t.tb.number = (s.startCtx i).new ∧
      ∃ r ∈ t.events.records, r.kind = .bankSwitch ∧ r.subject = 0xFF#8 ∧
        r.detail = bankCode s.bank.active.other + (if late then 2#8 else 0#8) ∧ r.stampNumber = t.tb.number ∧
        r.stampIndex = t.tb.frameIndex ∧ r.count = 1#8 ∧ r.delivered = false)

/-- The step of a superframe number and its direction (R60): none when the new number is the old plus 1, else TIME_STEP,
detail 0 forward for a distance of 1 to 32767, 1 backward for one of 32768 to 65535. At the superframe start whose
number steps so, with the kind enabled, no order named, no clock loss and at most 15 records queued, it is recorded and
stamped with the new number and frame 0 (R60, R179); that part is stated for a start at which no soft reset is due. -/
def Obligations.NumberStepIsReported : Prop :=
  (∀ (s : State) (c : StartCtx), c.superframe = true →
    (c.new = c.old + 1#16 → s.timeStepAct c = s) ∧
    (1 ≤ (c.new - (c.old + 1#16)).toNat → (c.new - (c.old + 1#16)).toNat ≤ 32767 →
      s.timeStepAct c = s.report .timeStep 0xFF#8 0#8) ∧
    (32768 ≤ (c.new - (c.old + 1#16)).toNat → s.timeStepAct c = s.report .timeStep 0xFF#8 1#8)) ∧
  (∀ (i : StartInput) (s : State) (k : Bool), i.order = [] → i.arrivals = [] → s.tb.startKind i.elapsed = some k →
    s.tb.superframeDue = true → s.resetDue = false → (∀ l, s.clockLossDue l i.rxc = false) →
    s.events.mask.getLsbD 6 = true → s.events.records.length ≤ 15 →
    ∃ t, exec (.localSuperframeStart i) s = .next t ∧ exec (.localFrameStart i) s = .next t ∧
      (t.tb.number ≠ s.tb.number + 1#16 → ∃ r ∈ t.events.records, r.kind = .timeStep ∧ r.subject = 0xFF#8 ∧
        r.detail = (if (t.tb.number - (s.tb.number + 1#16)).toNat ≤ 32767 then 0#8 else 1#8) ∧
        r.stampNumber = t.tb.number ∧ r.stampIndex = 0 ∧ r.count = 1#8 ∧ r.delivered = false))

/-- In DUE, with a place in the active uplink's queue, the notice is placed at its tail and the state becomes WAIT with
the timer at 64, the retry count as it stands (R189, R190). With that queue full, it is placed at the start at which a
cell leaves the queue, in that cell's place at the tail, with the records as they then stand. Frames whose completions
come together with the start are taken between the departure and the notice's test for the place (R139, R189: either may
be first): they complete as RECEIVE_FRAME_COMPLETE has them complete, and the test comes after them. So an inbound cell
that such a frame brings to a DOWNLINK takes the place, and the notice stays in DUE as it was. Stated for a start with
no order named, the second and the last for one at which no soft reset is due; that the row is that start is the model's
reading (notes/assumptions/2.md). -/
def Obligations.NoticeIsPlaced : Prop :=
  (∀ (i : StartInput) (s : State), s.notice.state = .due → s.hasRoom s.agent.activeUplink = true →
    exec (.noticePlaced i) s = .next ((s.updLink s.agent.activeUplink fun x => { x with queue := x.queue ++
      [⟨buildCell 0xCA#8 s.agent.replyAddr s.agent.strapAddr 0#8 0#3 0x7F#7 0#6
        (payloadOf [byteOf s.events.records.length, (s.events.records.head?.map (·.seq)).getD 0#8,
          s.events.pendingLost, byteOf s.notice.retry]), false⟩] }).withNotice ⟨.wait, s.notice.retry, 64⟩)) ∧
  (∀ (i : StartInput) (s : State) (k : Bool), s.notice.state = .due → s.agent.heldPlace = none →
    (s.link s.agent.activeUplink).queue.length = 4 → (s.link s.agent.activeUplink).config.txEnable = true →
    (s.link s.agent.activeUplink).config.shape.role ≠ .none → (s.link s.agent.activeUplink).tx.wordCount = 7 →
    i.order = [] → i.arrivals = [] →
    s.tb.startKind i.elapsed = some k → s.resetDue = false →
    ∃ t, exec (.noticePlaced i) s = .next t ∧ exec (.localFrameStart i) s = .next t ∧
      t.notice = ⟨.wait, s.notice.retry, 64⟩ ∧ (t.link s.agent.activeUplink).tx.wordCount = 0 ∧
      (t.link s.agent.activeUplink).queue = (s.link s.agent.activeUplink).queue.drop 1 ++
        [⟨s.agent.noticeFor t.events s.notice.retry, false⟩]) ∧
  ((∀ (s : State) (x : FrameArrival),
      exec (.receiveFrameComplete x.link x.words x.input x.refFirst x.noticeFirst) s = .next (s.frameCompletes x)) ∧
    ∀ (i : StartInput) (s : State) (k : Bool), i.order = [] → s.tb.startKind i.elapsed = some k → ∃ u : State,
      let tested := fun v : State =>
        if (s.link s.agent.activeUplink).config.txEnable = true ∧
          (s.link s.agent.activeUplink).config.shape.role ≠ .none ∧ (s.link s.agent.activeUplink).tx.wordCount = 7 ∧
          (s.link s.agent.activeUplink).queue ≠ [] then v.noticeTest else v
      exec (.localFrameStart { i with arrivals := [] }) s = .next (tested u) ∧
      exec (.localFrameStart i) s = .next (tested (i.arrivals.foldl State.frameCompletes u))) ∧
  (∀ (i : StartInput) (s : State) (k : Bool) (x : FrameArrival) (e : Header) (run : Nat) (f : FrameInProgress)
    (cell : Cell), s.notice.state = .due → s.agent.heldPlace = none →
    (s.link s.agent.activeUplink).queue.length = 4 → (s.link s.agent.activeUplink).config.txEnable = true →
    (s.link s.agent.activeUplink).config.shape.role ≠ .none → (s.link s.agent.activeUplink).tx.wordCount = 7 →
    i.order = [] → i.arrivals = [x] → x.input.order = [] → s.tb.startKind i.elapsed = some k → s.resetDue = false →
    (s.link x.link).rx.align = .sync e run (some f) → s.clockLossDue x.link i.rxc = false → f.shape.role ≠ .none →
    (s.link x.link).config.shape.role = .downlink → x.link ≠ s.agent.activeUplink →
    (s.link x.link).assembler.length = 7 → cell = cellOfWords ((s.link x.link).assembler ++
      [(f.header :: x.words.toList.take (f.shape.slotCount.toNat - 1)).getD f.shape.mgmtSlot.val 0#16]) →
    cell[0] + cell[1] + cell[2] + cell[3] + cell[4] + cell[5] + cell[6] + cell[7] = 0xFFFF#16 →
    highByte cell[0] = 0xCA#8 →
    ∃ t, exec (.localFrameStart i) s = .next t ∧ t.notice = s.notice ∧
      (t.link s.agent.activeUplink).queue = (s.link s.agent.activeUplink).queue.drop 1 ++ [⟨cell, false⟩])

/-- The soft reset is applied at the start that fixes the reset response's eighth word: banks, bridges, scheduler and
engine at their reset values, management counters 0, the flag clear, the cause part-reset; link records, addresses,
active uplink and reply address as they were (R142, R143, R153). With no order named the receive counters are 0, the
event queue is empty with sequence and pending lost 0 and every kind enabled, and notices are QUIET after the start
(R43, R181, R188); in another order a report may come after the reset (the model's reading, notes/assumptions/18.md
and, for reports made before the frame, its choice, notes/assumptions/29.md). That the row is that local frame start is
the model's reading (notes/assumptions/2.md). -/
def Obligations.SoftResetIsApplied : Prop :=
  ∀ (i : StartInput) (s : State) (k : Bool), s.resetDue = true → s.tb.startKind i.elapsed = some k →
    i.arrivals = [] → ∃ t, exec (.softResetApplied i) s = .next t ∧ exec (.localFrameStart i) s = .next t ∧
      t.agent = { s.agent with resetPending := false, resetCause := .partReset } ∧
      (∀ (bk : Bank) (j : Fin 512), (t.map.entries bk)[j.val] = ⟨.idle, .idle⟩) ∧
      (∀ j : Fin 512, t.map.holds[j.val] = none) ∧
      t.bank = ⟨.a, true, .idle none .done 0, .idle⟩ ∧
      (∀ b, (t.bridge b).enabled = false ∧ ∀ k : LegId, (t.bridge b).legs[k.val] = none) ∧
      (∀ l, (t.link l).mgmtCount = ⟨0#16, 0#16, 0#16, 0#16, 0#16, 0#16⟩ ∧ (t.link l).config = (s.link l).config) ∧
      t.events.mask = 0x1FF#9 ∧
      (i.order = [] → t.events = ⟨[], 0#8, 0#8, 0x1FF#9⟩ ∧ t.notice = ⟨.quiet, 0, 0⟩ ∧
        ∀ l, (t.link l).rxCount = ⟨0#16, 0#16, 0#16, 0#16, 0#16⟩)

/-! ## The frame that starts -/

/-- At a local frame start a store presents its oldest frame, repeats the previous one with a repeat slip, or presents
no frame; a link that is OFF presents none (R36); no other link's store is touched. At an arrival a store with fewer
than two frames takes the frame at its tail; a full one gives up its oldest frame, counts a delete slip and reports SLIP
delete, whatever the marks (R35). A local frame start does so on every link. The store it presents from is the one
before the start, emptied where the link lost its clock in SYNC at it (R39); re-centred where the link is the source
after the start and was not before (R40); as it was where the link is not in the reference list, and on every link of a
start at which no link loses its clock and which is no superframe start; on any other link as it was or re-centred, for
selections that run one after the other may lock to it in between (R56). Which store a start presents from, and that a
link that loses its clock at the same start ends with an empty store and no frame, rests on the model's order of acts
where none is named, the clock watch and the selections before the presenting (notes/assumptions/3.md and 16.md). Stated
for a start with no order named, by itself, at which no soft reset is due. -/
def Obligations.StorePresents : Prop :=
  (∀ (s : State) (l : LinkId),
    ((s.link l).rx.align = .off → ((s.presentAct l).link l).store = { (s.link l).store with current := none }) ∧
    ((s.link l).rx.align ≠ .off → ∀ f rest, (s.link l).store.queue = f :: rest →
      ((s.presentAct l).link l).store = ⟨rest, some f, true⟩ ∧ (s.presentAct l).events = s.events) ∧
    ((s.link l).rx.align ≠ .off → (s.link l).store.queue = [] → (s.link l).inSync = true →
      (s.link l).store.primed = true →
      s.presentAct l = (s.updLink l fun x => { x with rxCount := { x.rxCount with
        repeatSlips := satAdd16 x.rxCount.repeatSlips 1 } }).report .slip (byteOf l.val) 0#8 ∧
      ((s.presentAct l).link l).store = (s.link l).store) ∧
    ((s.link l).rx.align ≠ .off → (s.link l).store.queue = [] →
      ¬((s.link l).inSync = true ∧ (s.link l).store.primed = true) →
      ((s.presentAct l).link l).store = { (s.link l).store with current := none }) ∧
    (∀ k, k ≠ l → ((s.presentAct l).link k).store = (s.link k).store)) ∧
  (∀ (s : State) (l : LinkId) (f : RxFrame), (s.link l).inSync = true →
    ((s.link l).store.queue.length < 2 →
      s.storeAct l f = s.updLink l fun x => { x with store := { x.store with queue := x.store.queue ++ [f] } }) ∧
    (∀ a b, (s.link l).store.queue = [a, b] →
      s.storeAct l f = (s.updLink l fun x => { x with
        store := { x.store with queue := [b, f] },
        rxCount := { x.rxCount with deleteSlips := satAdd16 x.rxCount.deleteSlips 1 } }).report
          .slip (byteOf l.val) 1#8)) ∧
  (∀ (i : StartInput) (s : State) (k : Bool) (l : LinkId), i.order = [] → i.arrivals = [] →
    s.tb.startKind i.elapsed = some k → s.resetDue = false →
    ∃ (t : State) (x : Store), exec (.localFrameStart i) s = .next t ∧
      (x = (s.link l).store ∨ x = (s.link l).store.recentre) ∧
      (t.tb.source = .locked l → s.tb.source ≠ .locked l → x = (s.link l).store.recentre) ∧
      (.link l ∉ s.tb.refList → x = (s.link l).store) ∧
      ((∀ j, s.clockLossDue j i.rxc = false) → s.tb.superframeDue = false → x = (s.link l).store) ∧
      ((s.link l).inSync = true → s.clockLossDue l i.rxc = true → (t.link l).store = ⟨[], none, false⟩) ∧
      ((s.link l).rx.align = .off → (t.link l).store = { x with current := none }) ∧
      ((s.link l).rx.align ≠ .off → ¬((s.link l).inSync = true ∧ s.clockLossDue l i.rxc = true) →
        (∀ f rest, x.queue = f :: rest → (t.link l).store = ⟨rest, some f, true⟩) ∧
        (x.queue = [] → (s.link l).inSync = true → x.primed = true → (t.link l).store = x) ∧
        (x.queue = [] → ¬((s.link l).inSync = true ∧ x.primed = true) →
          (t.link l).store = { x with current := none })) ∧
      (t.link l).rxCount.repeatSlips =
        if x.queue = [] ∧ (s.link l).inSync = true ∧ x.primed = true ∧ s.clockLossDue l i.rxc = false
        then satAdd16 (s.link l).rxCount.repeatSlips 1 else (s.link l).rxCount.repeatSlips)

/-- A SLOT source is valid exactly when the current input frame of its link is a frame marked valid and the slot is a
payload slot of it under the roles it was received with, and it delivers that frame's word (R69). The word of a payload
output slot and the hold value for later frames go by kind, validity and fault action (R71 to R74); the hold value of an
ignored slot stays (R66). A local frame start writes the hold values so, from the sources of the frame it begins, every
one of them none before it where a switch fires (R74, R75). Stated for a start with no order named, at which no soft
reset is due. -/
def Obligations.PayloadWordIsChosen : Prop :=
  (∀ (s : State) (k : LinkId) (t : SlotId) (w : Word),
    s.slotSource k t = some w ↔
      ∃ f, (s.link k).store.current = some f ∧ f.valid = true ∧ t.val < f.shape.slotCount.toNat ∧ t.val ≠ 0 ∧
        ¬(f.shape.checkEnable = true ∧ t.val + 1 = f.shape.slotCount.toNat) ∧
        ¬(f.shape.role ≠ .none ∧ t.val = f.shape.mgmtSlot.val) ∧ w = f.words.getD t.val 0#16) ∧
  ((∀ (s : State) (e : Entry) (hold : Option Word) (idle : Word),
    (e.source = .idle → s.fixedWord e hold idle = idle) ∧
    (∀ w, e.source = .const w → s.fixedWord e hold idle = w) ∧
    (∀ w, s.sourceWord e.source = some w → s.fixedWord e hold idle = w) ∧
    (s.sourceWord e.source = none → (∀ w, e.source ≠ .const w) → e.fault = .idle →
      s.fixedWord e hold idle = idle) ∧
    (s.sourceWord e.source = none → (∀ w, e.source ≠ .const w) → e.source ≠ .idle → e.fault = .hold →
      s.fixedWord e hold idle = hold.getD idle)) ∧
  (∀ (s : State) (l : LinkId) (t : SlotId),
    ((s.link l).config.txEnable = true → (s.link l).config.shape.isPayload t.val = true →
      (∀ w, s.sourceWord (s.activeEntry l t).source = some w → s.nextHold (slotIndex l t) = some w) ∧
      (s.sourceWord (s.activeEntry l t).source = none →
        s.nextHold (slotIndex l t) = s.map.holds[(slotIndex l t).val])) ∧
    (¬((s.link l).config.txEnable = true ∧ (s.link l).config.shape.isPayload t.val = true) →
      s.nextHold (slotIndex l t) = s.map.holds[(slotIndex l t).val]))) ∧
  (∀ (i : StartInput) (s : State) (k : Bool), i.order = [] → i.arrivals = [] →
    s.tb.startKind i.elapsed = some k → s.resetDue = false →
    ∃ t, exec (.localFrameStart i) s = .next t ∧ ∀ (l : LinkId) (p : SlotId),
      let before := if t.bank.active = s.bank.active then s.map.holds[(slotIndex l p).val] else none
      t.map.holds[(slotIndex l p).val] =
        if (s.link l).config.txEnable = true ∧ (s.link l).config.shape.isPayload p.val = true
        then (t.sourceWord (t.activeEntry l p).source).or before else before)

/-- A link with tx enable on sends N words: the header of the frame index, this link's RAI and the S bit, the management
word in the management slot, the map's word in every payload slot, and with check enable a last word that makes the
exclusive OR of all N zero (R9, R12, R113, R114, R118); one with tx enable off is silent (R119). A local frame start
fixes every transmitter's frame so, with the record as it stands, from the state that the start leaves (R65, R112,
R113); stated for a start with no order named, at which no soft reset is due. The RAI bit of a link that loses its clock
at that very start is set, since in the model's order the clock watch comes before the frame is fixed
(notes/assumptions/3.md and 16.md). -/
def Obligations.TransmitterFixesFrame : Prop :=
  (∀ (s : State) (l : LinkId),
    ((s.link l).config.txEnable = false → (s.transmit.link l).tx.frame = none) ∧
    ((s.link l).config.txEnable = true →
      ∃ ws, (s.transmit.link l).tx.frame = some ws ∧ s.evaluateBridges.carries l ws) ∧
    (s.transmit.link l).tx.inUse = (s.link l).config.txPart) ∧
  (∀ (i : StartInput) (s : State) (k : Bool), i.order = [] → i.arrivals = [] →
    s.tb.startKind i.elapsed = some k → s.resetDue = false →
    ∃ t, exec (.localFrameStart i) s = .next t ∧ ∀ l, (t.link l).config = (s.link l).config ∧
      (t.link l).tx.inUse = (s.link l).config.txPart ∧
      ((s.link l).config.txEnable = false → (t.link l).tx.frame = none) ∧
      ((s.link l).config.txEnable = true → ∃ ws, (t.link l).tx.frame = some ws ∧ t.carries l ws))

/-- The management word is the next word of the head cell, or idle fill; at the eighth word the cell leaves and the
count returns to 0; without a role or with tx off nothing is taken (R116, R117). A local frame start takes the word of
every link so; only at the active uplink may the notice cell join the queue at the same start, behind the cells that
stand there (R189, R190). Where that queue was empty, the notice that joins it gives the word of this very start: R116
and R199 allow either outcome, and this one is the model's reading (notes/assumptions/16.md) in its order of acts where
none is named (notes/assumptions/3.md). Stated for a start with no order named, at which no soft reset is due. -/
def Obligations.ManagementWordIsTaken : Prop :=
  (∀ x : Link,
    ((x.config.txEnable = false ∨ x.config.shape.role = .none) → x.takeMgmtWord = x) ∧
    (x.config.txEnable = true → x.config.shape.role ≠ .none → x.queue = [] →
      x.takeMgmtWord = { x with tx := { x.tx with mgmtWord := 0x0000#16 } }) ∧
    (x.config.txEnable = true → x.config.shape.role ≠ .none → ∀ q rest, x.queue = q :: rest →
      (x.tx.wordCount = 7 → x.takeMgmtWord =
        { x with queue := rest, tx := { x.tx with mgmtWord := q.cell[7], wordCount := 0 } }) ∧
      (x.tx.wordCount ≠ 7 → x.takeMgmtWord =
        { x with tx := { x.tx with mgmtWord := q.cell[x.tx.wordCount.val], wordCount := x.tx.wordCount + 1 } }))) ∧
  (∀ (i : StartInput) (s : State) (k : Bool), i.order = [] → i.arrivals = [] →
    s.tb.startKind i.elapsed = some k → s.resetDue = false →
    ∃ t, exec (.localFrameStart i) s = .next t ∧
      (∀ l, (l ≠ s.agent.activeUplink ∨ (s.link l).queue ≠ [] ∨ (s.link l).config.txEnable = false ∨
          (s.link l).config.shape.role = .none) →
        (t.link l).tx.mgmtWord = (s.link l).takeMgmtWord.tx.mgmtWord ∧
        (t.link l).tx.wordCount = (s.link l).takeMgmtWord.tx.wordCount ∧
        ((t.link l).queue = (s.link l).takeMgmtWord.queue ∨
          ∃ y, l = s.agent.activeUplink ∧ s.noticeJoins t y ∧
            (t.link l).queue = (s.link l).takeMgmtWord.queue ++ [⟨y, false⟩])) ∧
      ∀ x, x = s.link s.agent.activeUplink → x.config.txEnable = true → x.config.shape.role ≠ .none → x.queue = [] →
        x.tx.wordCount = 0 →
        ((t.link s.agent.activeUplink).queue = [] ∧ (t.link s.agent.activeUplink).tx.mgmtWord = 0x0000#16 ∧
          (t.link s.agent.activeUplink).tx.wordCount = 0) ∨
        ∃ y, s.noticeJoins t y ∧ (t.link s.agent.activeUplink).queue = [⟨y, false⟩] ∧
          (t.link s.agent.activeUplink).tx.mgmtWord = y[0] ∧ (t.link s.agent.activeUplink).tx.wordCount = 1)

/-- Leg k of an enabled bridge gives the sum of the other seven contributions, clamped to 16 bits; its output is valid
exactly when the leg is present and the bridge enabled; an absent leg and an invalid input contribute 0, a valid input
its sample shifted right and rounded toward minus infinity (R101, R102, R103). A local frame start fixes the outputs of
every bridge so, from the input frames of the frame it begins, and changes no leg and no enable (R104); stated for a
start with no order named, at which no soft reset is due. -/
def Obligations.BridgeGivesMixMinus : Prop :=
  (∀ (s : State) (b : Bridge) (k : LegId),
    (b.enabled = false → (s.bridgeOutputs b)[k.val] = none) ∧
    (b.legs[k.val] = none → (s.bridgeOutputs b)[k.val] = none) ∧
    (b.enabled = true → b.legs[k.val] ≠ none →
      (s.bridgeOutputs b)[k.val] = some (BitVec.ofInt 16 (max (-32768) (min 32767
        ((((List.finRange 8).filter (· ≠ k)).map fun j => s.contribution b.legs[j.val]).sum)))))) ∧
  (∀ (s : State) (g : Leg),
    s.contribution none = 0 ∧
    (s.slotSource g.link g.slot = none → s.contribution (some g) = 0) ∧
    (∀ w, s.slotSource g.link g.slot = some w →
      s.contribution (some g) * 2 ^ g.attenuation.val ≤ w.toInt ∧
      w.toInt < (s.contribution (some g) + 1) * 2 ^ g.attenuation.val)) ∧
  (∀ (i : StartInput) (s : State) (k : Bool), i.order = [] → i.arrivals = [] →
    s.tb.startKind i.elapsed = some k → s.resetDue = false →
    ∃ t, exec (.localFrameStart i) s = .next t ∧ ∀ b, t.bridge b =
      { s.bridge b with outputs := t.bridgeOutputs (s.bridge b) })

/-! ## Receive lanes -/

/-- In NOCLOCK the first transition of RXC takes the receiver to HUNT with no bit received; in HUNT a well-formed word
takes it to CONFIRM, and a word that is not is passed over by one bit (R20, R21). Nothing else changes; a CLOCK_RETURN
elsewhere than in NOCLOCK changes nothing (the model's choice, notes/assumptions/4.md). Whatever bits the receiver holds
in HUNT and whatever bits arrive, the outcome is that of a search bit by bit (R21, R22); bits after the word that brings
SYNC are dropped (the model's choice, notes/assumptions/9.md). -/
def Obligations.SearchBegins : Prop :=
  ∀ (l : LinkId) (s : State),
    ((s.link l).rx.align = .noclock →
      exec (.clockReturn l) s = .next (s.updLink l fun x => { x with
        rx := { x.rx with align := .hunt [], watch := { x.rx.watch with seen := true } } })) ∧
    ((s.link l).rx.align ≠ .noclock → exec (.clockReturn l) s = .next s) ∧
    ((s.link l).rx.align = .hunt [] → ∀ w : Word,
      exec (.huntCandidate l (bitsOfWord w)) s = .next (s.updLink l fun x => { x with rx := { x.rx with
        align := if (headerOf w).wellFormed = true then .confirm (bitsOfWord w) else .hunt ((bitsOfWord w).drop 1)
        watch := { x.rx.watch with seen := true } } })) ∧
    (∀ old bits, (s.link l).rx.align = .hunt old → s.searchGoes l (.huntCandidate l) old bits)

/-- In CONFIRM two successors at one frame length's spacing bring SYNC: the expected header is the successor of the
last, its frame begins, the store is emptied and LINK_UP is reported; a word that is no successor gives the candidate up
and the search goes on one bit after it (R22, R23). Nothing else changes. Bits after the second confirmation are dropped
(the model's choice, notes/assumptions/9.md), and a failed confirmation, the first or the second, examines the bits
received since at once (its reading, notes/assumptions/11.md): whatever bits come in CONFIRM, the outcome is that of a
search bit by bit, in HUNT, in CONFIRM with none or one word confirmed, or in SYNC. -/
def Obligations.ConfirmationEntersSync : Prop :=
  (∀ (l : LinkId) (s : State) (old bits : List Bool), (s.link l).rx.align = .confirm old →
    s.searchGoes l (.confirmationHeader l) old bits) ∧
  (∀ (l : LinkId) (s : State) (old bits : List Bool), (s.link l).rx.align = .confirm old → bits ≠ [] →
    ∃ t, exec (.confirmationHeader l bits) s = .next t ∧
      (∀ w w1 w2 : Word, firstWord? (old ++ bits) = some w → (headerOf w).wellFormed = true →
        firstWord? ((old ++ bits).drop (s.link l).frameBits) = some w1 → isSuccessor w w1 = true →
        firstWord? ((old ++ bits).drop (2 * (s.link l).frameBits)) = some w2 → isSuccessor w1 w2 = true →
        t = (s.updLink l fun x => { x with
          rx := { x.rx with
            align := .sync (headerOf w2).succ 0 (some ⟨w2, true, x.config.shape, x.config.discard⟩),
            watch := { x.rx.watch with seen := true } },
          store := { x.store with queue := [], primed := false } }).report .linkUp (byteOf l.val) 0#8) ∧
      (∀ w w1 : Word, firstWord? (old ++ bits) = some w →
        firstWord? ((old ++ bits).drop (s.link l).frameBits) = some w1 → isSuccessor w w1 = false →
        ∀ rest, searchBits (s.link l).frameBits ((old ++ bits).drop 1) = .hunt rest →
          t = s.updLink l fun x => { x with rx := { x.rx with
            align := .hunt rest, watch := { x.rx.watch with seen := true } } }))

/-- In SYNC, between frames, a header word is judged: the expected header advances in either case; a good header ends
a run of bad ones, a bad header is counted and marks its frame (R24); the fourth in a row is counted, takes the
receiver out of SYNC to HUNT with that word as the first of the search, and counts a loss; LINK_DOWN with cause 1 is
reported, and a source that was qualified is selected away from, either first (R25, R26, R42). That the word's bits are
held and examined when the next bits arrive, even when it is well formed, is the model's reading
(notes/assumptions/10.md). -/
def Obligations.HeaderIsJudged : Prop :=
  ∀ (l : LinkId) (w : Word) (rf : Bool) (s : State) (e : Header) (run : Nat),
    (s.link l).rx.align = .sync e run none →
    ∃ t, exec (.syncHeaderArrival l w rf) s = .next t ∧
      ((headerOf w).wellFormed = true → (headerOf w).index = e.index →
        t = s.updLink l fun x => { x with rx := { x.rx with
          align := .sync e.succ 0 (some ⟨w, true, x.config.shape, x.config.discard⟩),
          watch := { x.rx.watch with seen := true } } }) ∧
      (¬((headerOf w).wellFormed = true ∧ (headerOf w).index = e.index) → run < 3 →
        t = s.updLink l fun x => { x with
          rx := { x.rx with
            align := .sync e.succ (run + 1) (some ⟨w, false, x.config.shape, x.config.discard⟩),
            watch := { x.rx.watch with seen := true } },
          rxCount := { x.rxCount with headerErrors := satAdd16 x.rxCount.headerErrors 1 } }) ∧
      (¬((headerOf w).wellFormed = true ∧ (headerOf w).index = e.index) → 3 ≤ run →
        (t.link l).rx.align = .hunt (bitsOfWord w) ∧ (t.link l).quiet ∧
        (t.link l).rxCount = { (s.link l).rxCount with
          headerErrors := satAdd16 (s.link l).rxCount.headerErrors 1,
          syncLosses := satAdd16 (s.link l).rxCount.syncLosses 1 } ∧
        (∀ k, k ≠ l → (t.link k).rx = (s.link k).rx) ∧ (∀ k, (t.link k).config = (s.link k).config) ∧
        t.map = s.map ∧ t.bank = s.bank ∧ t.bridges = s.bridges ∧ t.agent = s.agent ∧
        ∃ u, u = s.updLink l (fun x => { x with
            rx := { x.rx with align := .hunt (bitsOfWord w), watch := { x.rx.watch with seen := true },
                              remoteAlarm := false, raiRun := 0, checkAlarm := false, window := 0#8,
                              collector := .idle, numberValid := false, qualCount := 0, wholeMark := false },
            store := { x.store with queue := [], primed := false }, assembler := [],
            rxCount := { x.rxCount with headerErrors := satAdd16 x.rxCount.headerErrors 1,
                                        syncLosses := satAdd16 x.rxCount.syncLosses 1 } }) ∧
          (¬(s.tb.source = .locked l ∧ (s.link l).rx.qualCount = 16) →
            t = u.report .linkDown (byteOf l.val) 1#8) ∧
          (s.tb.source = .locked l → (s.link l).rx.qualCount = 16 →
            t = if rf then u.select.report .linkDown (byteOf l.val) 1#8
                else (u.report .linkDown (byteOf l.val) 1#8).select))

/-- A frame completed in SYNC is handed over: to the store with its mark, the oldest frame leaving a full store as a
delete slip; a check error to its counter and, while check enable is on, to the alarm window; the RAI bit to the remote
alarm; the S bit to the collector, a number that completes being offered; the completion to a timebase LOCKED to the
link; the management word to the assembler, unless the frame or the record has no role (R27 to R33, R35, R49, R57, R132,
R133). The first record that its reports append in QUIET brings the notice, in the active uplink's queue or in DUE
(R189). That a completion carries the time of the start it would give is the model's choice (notes/assumptions/7.md).
Where a cell completes, it is counted, tested and dispatched on the state so left; that is stated for no order named. -/
def Obligations.CompletedFrameIsHandedOver : Prop :=
  ∀ (l : LinkId) (ws : Vector Word 63) (o : CompletionInput) (rf nf : Bool) (s : State) (e : Header) (run : Nat)
    (f : FrameInProgress), (s.link l).rx.align = .sync e run (some f) →
    let word := (f.header :: ws.toList.take (f.shape.slotCount.toNat - 1)).getD f.shape.mgmtSlot.val 0#16
    let held := (s.link l).assembler
    let passed := f.shape.role = .none ∨ (s.link l).config.shape.role = .none
    (passed → ∃ t, exec (.receiveFrameComplete l ws o rf nf) s = .next t ∧ s.handedOver t l f ws e run o.startAt held) ∧
    (¬passed → held.length < 7 → ∃ t, exec (.receiveFrameComplete l ws o rf nf) s = .next t ∧
      s.handedOver t l f ws e run o.startAt (assemble held word).1) ∧
    (¬passed → 7 ≤ held.length → o.order = [] → ∃ u, s.handedOver u l f ws e run o.startAt [] ∧
      exec (.receiveFrameComplete l ws o rf nf) s = .next (u.completeCell l (cellOfWords (held ++ [word])) rf nf))

/-- The remote alarm (R29): an agreeing RAI bit ends a run; the fourth disagreeing one in a row turns the alarm over and
is reported; a bad header leaves alarm and run alone. The check alarm (R31): at a superframe start a link in SYNC with
check enable on evaluates its window, 4 or more check errors turning the alarm on, none turning it off, and a turn is
reported; the window begins again at 0. A local frame start does so at a superframe start only. -/
def Obligations.AlarmsGoByTheirRules : Prop :=
  (∀ (alarm : Bool) (run : Nat),
    integrateRai alarm run alarm = (alarm, 0, false) ∧
    (run < 3 → integrateRai alarm run (!alarm) = (alarm, run + 1, false)) ∧
    (run = 3 → integrateRai alarm run (!alarm) = (!alarm, 0, true))) ∧
  (∀ (s : State) (l : LinkId) (f : FrameInProgress),
    (f.good = false → s.remoteAlarmAct l f = s) ∧
    ((s.link l).inSync = true → f.good = true → (s.link l).rx.raiRun = 3 →
      headerRai f.header = !(s.link l).rx.remoteAlarm →
      s.remoteAlarmAct l f = (s.updLink l fun x => { x with rx := { x.rx with
        remoteAlarm := !(s.link l).rx.remoteAlarm, raiRun := 0 } }).report .remoteAlarm (byteOf l.val)
          (if (s.link l).rx.remoteAlarm then 0#8 else 1#8))) ∧
  (∀ (s : State) (l : LinkId) (superframe : Bool),
    (superframe = false ∨ (s.link l).inSync = false ∨ (s.link l).config.shape.checkEnable = false →
      s.checkWindowAct l superframe = s) ∧
    (superframe = true → (s.link l).inSync = true → (s.link l).config.shape.checkEnable = true →
      (4 ≤ (s.link l).rx.window.toNat → (s.link l).rx.checkAlarm = false →
        s.checkWindowAct l superframe = (s.updLink l fun x => { x with rx := { x.rx with
          checkAlarm := true, window := 0#8 } }).report .checkAlarm (byteOf l.val) 1#8) ∧
      ((s.link l).rx.window = 0#8 → (s.link l).rx.checkAlarm = true →
        s.checkWindowAct l superframe = (s.updLink l fun x => { x with rx := { x.rx with
          checkAlarm := false, window := 0#8 } }).report .checkAlarm (byteOf l.val) 0#8) ∧
      (¬(4 ≤ (s.link l).rx.window.toNat ∧ (s.link l).rx.checkAlarm = false) →
        ¬((s.link l).rx.window = 0#8 ∧ (s.link l).rx.checkAlarm = true) →
        s.checkWindowAct l superframe = s.updLink l fun x => { x with rx := { x.rx with window := 0#8 } }))) ∧
  (∀ (i : StartInput) (s : State) (k : Bool) (l : LinkId), s.tb.startKind i.elapsed = some k →
    i.arrivals = [] → s.clockLossDue l i.rxc = false → ∃ t, exec (.localFrameStart i) s = .next t ∧
      (s.tb.superframeDue = true → (s.link l).inSync = true → (s.link l).config.shape.checkEnable = true →
        (t.link l).rx.window = 0#8 ∧
        (t.link l).rx.checkAlarm = if 4 ≤ (s.link l).rx.window.toNat then true
          else if (s.link l).rx.window = 0#8 then false else (s.link l).rx.checkAlarm) ∧
      (¬(s.tb.superframeDue = true ∧ (s.link l).inSync = true ∧ (s.link l).config.shape.checkEnable = true) →
        (t.link l).rx.window = (s.link l).rx.window ∧ (t.link l).rx.checkAlarm = (s.link l).rx.checkAlarm))

/-- The superframe-number collector (R32, R33, R57): frames 0 to 15 of one superframe, good headers all, give the number
bit by bit from the most significant; the completed number is stored, valid, and offered plus 1 to a timebase LOCKED
to the link; a bad header gives the collection up. -/
def Obligations.NumberIsCollected : Prop :=
  (∀ (number : Word) (frames : Fin 16 → FrameInProgress) (k : Collector),
    (∀ i, (frames i).good = true ∧ (headerOf (frames i).header).index = BitVec.ofNat 6 i.val ∧
      headerS (frames i).header = number.getLsbD (15 - i.val)) →
    (List.finRange 16).foldl (fun (r : Collector × Option Word) i => collect r.1 (frames i)) (k, none) =
      (.idle, some number)) ∧
  (∀ (k : Collector) (f : FrameInProgress), f.good = false → collect k f = (.idle, none)) ∧
  (∀ (s : State) (l : LinkId) (f : FrameInProgress) (n : Word), (s.link l).inSync = true →
    (collect (s.link l).rx.collector f).2 = some n →
    ((s.collectorAct l f).link l).rx.number = n ∧ ((s.collectorAct l f).link l).rx.numberValid = true ∧
    (s.tb.source = .locked l → (s.collectorAct l f).tb.pendingAdoption = some (n + 1#16)) ∧
    (s.tb.source ≠ .locked l → (s.collectorAct l f).tb = s.tb))

/-! ## Cells -/

/-- The assembler (R132): a marker word begins a cell, any word goes on with it, the eighth completes it. A completed
cell (R133): a bad check is counted and the cell discarded, a good one is counted and dispatched. Dispatch (R134, R135):
an outbound cell on an UPLINK that is not for this part is relayed, one that is is taken by its code; an inbound cell on
a DOWNLINK is relayed to the tail of the active uplink's queue, or dropped and counted there when it is full (R136); a
cell that travels the wrong way is counted as a direction error and discarded. -/
def Obligations.CellsAreAssembled : Prop :=
  ((∀ w : Word, (highByte w = 0xC5#8 ∨ highByte w = 0xCA#8 → assemble [] w = ([w], none)) ∧
    (highByte w ≠ 0xC5#8 → highByte w ≠ 0xCA#8 → assemble [] w = ([], none))) ∧
  (∀ (held : List Word) (w : Word), held ≠ [] → held.length < 7 → assemble held w = (held ++ [w], none)) ∧
  (∀ (held : List Word) (w : Word), held.length = 7 → assemble held w = ([], some (cellOfWords (held ++ [w])))) ∧
  (∀ (s : State) (l : LinkId) (x : Cell) (rf nf : Bool),
    (x[0] + x[1] + x[2] + x[3] + x[4] + x[5] + x[6] + x[7] ≠ 0xFFFF#16 →
      s.completeCell l x rf nf = s.updLink l fun k =>
        { k with mgmtCount := { k.mgmtCount with checkFailures := satAdd16 k.mgmtCount.checkFailures 1 } }) ∧
    (x[0] + x[1] + x[2] + x[3] + x[4] + x[5] + x[6] + x[7] = 0xFFFF#16 →
      s.completeCell l x rf nf = (s.updLink l fun k =>
        { k with mgmtCount := { k.mgmtCount with goodCells := satAdd16 k.mgmtCount.goodCells 1 } }).dispatch l x rf nf))) ∧
  (∀ (s : State) (l : LinkId) (x : Cell) (rf nf : Bool),
    ((s.link l).config.shape.role = .uplink → highByte x[0] = 0xC5#8 → s.agent.classify (lowByte x[0]) = .other →
      s.dispatch l x rf nf = s.relayOutbound x) ∧
    ((s.link l).config.shape.role = .uplink → highByte x[0] = 0xC5#8 → s.agent.classify (lowByte x[0]) ≠ .other →
      exec (commandOf (x[2].extractLsb' 6 7) (commandCellOf l x rf nf)) s = .next (s.dispatch l x rf nf)) ∧
    ((s.link l).config.shape.role = .uplink ∧ highByte x[0] = 0xCA#8 ∨
        (s.link l).config.shape.role = .downlink ∧ highByte x[0] = 0xC5#8 →
      s.dispatch l x rf nf = s.updLink l fun k => { k with mgmtCount :=
        { k.mgmtCount with directionErrors := satAdd16 k.mgmtCount.directionErrors 1 } }) ∧
    ((s.link l).config.shape.role = .downlink → highByte x[0] = 0xCA#8 → s.agent.heldPlace = none →
      ((s.link s.agent.activeUplink).queue.length < 4 →
        s.dispatch l x rf nf = s.updLink s.agent.activeUplink fun k => { k with queue := k.queue ++ [⟨x, false⟩] }) ∧
      (4 ≤ (s.link s.agent.activeUplink).queue.length →
        s.dispatch l x rf nf = s.updLink s.agent.activeUplink fun k => { k with mgmtCount :=
          { k.mgmtCount with relayDrops := satAdd16 k.mgmtCount.relayDrops 1 } })))

/-- A relayed outbound cell joins the queue of every DOWNLINK that holds fewer than four cells, is dropped and counted
at every other DOWNLINK, and touches nothing else (R136). -/
def Obligations.RelayReachesEveryDownlink : Prop :=
  ∀ (s : State) (x : Cell), s.agent.heldPlace = none →
    (∀ l, (s.relayOutbound x).link l =
      if (s.link l).config.shape.role = .downlink then
        if (s.link l).queue.length < 4 then { s.link l with queue := (s.link l).queue ++ [⟨x, false⟩] }
        else { s.link l with mgmtCount := { (s.link l).mgmtCount with
          relayDrops := satAdd16 (s.link l).mgmtCount.relayDrops 1 } }
      else s.link l) ∧
    s.relayOutbound x = s.withLinks (s.relayOutbound x).links

/-- A good outbound cell read as a command cell and built again is the same cell, word for word (R126, R197): what a
group or broadcast command relays is what arrived. -/
def Obligations.CellReadAndBuiltAgain : Prop :=
  ∀ (l : LinkId) (x : Cell) (rf nf : Bool), highByte x[0] = 0xC5#8 →
    x[0] + x[1] + x[2] + x[3] + x[4] + x[5] + x[6] + x[7] = 0xFFFF#16 →
    outboundCell (x[2].extractLsb' 6 7) (commandCellOf l x rf nf) = x

/-- A legal link record, a connection entry and a header survive their encoding: a LINK-SET with a record's bytes
carries that record, a MAP-WRITE with an entry's bytes that entry, and a header word its index, code, RAI and S (R196,
R197, R198). -/
def Obligations.LayoutsRoundTrip : Prop :=
  (∀ (c : CommandCell) (x : LinkConfig), x.shape.mgmtSlotLegal = true → x.roleLegal = true →
    (∀ i : Fin 6, c.payload[i.val + 1] = x.bytes.getD i.val 0#8) → recordOf c = some x) ∧
  (∀ (c : CommandCell) (e : Entry), (∀ i : Fin 4, c.payload[i.val + 2] = e.bytes.getD i.val 0#8) →
    entryOf c = some e) ∧
  (∀ (i : Fin 48) (rai sb : Bool),
    headerOf (headerWord i rai sb) = ⟨if i.val % 2 = 0 then 0x2D#6 else 0x12#6, BitVec.ofNat 6 i.val⟩ ∧
    (headerOf (headerWord i rai sb)).wellFormed = true ∧ headerRai (headerWord i rai sb) = rai ∧
    headerS (headerWord i rai sb) = sb ∧ (headerWord i rai sb).extractLsb' 14 2 = 0#2 ∧
    isSuccessor (headerWord i rai sb) (headerWord (i + 1) rai sb) = true)

/-! ## Taking a command -/

/-- A command cell that arrives on a link without the UPLINK role, or whose destination is not for this part, is not
taken; a unicast command that finds its queue full is counted and not executed; with a reset pending it is answered
BUSY and not executed (R134, R137, R139, R142). That a row whose cell is not taken changes nothing is the model's choice
(notes/assumptions/4.md, with 8.md: the relay of such a cell belongs to the frame that completes it). -/
def Obligations.CommandsAreTurnedAway : Prop :=
  ∀ (code : BitVec 7) (c : CommandCell) (s : State),
    (¬ s.arrives c → exec (commandOf code c) s = .next s) ∧
    (s.agent.classify c.dest = .other → exec (commandOf code c) s = .next s) ∧
    (s.arrives c → s.matchesUnicast c → (s.atTest c).hasRoom c.arrival = false →
      exec (commandOf code c) s = .next ((s.atTest c).updLink c.arrival fun x => { x with mgmtCount :=
        { x.mgmtCount with congestion := satAdd16 x.mgmtCount.congestion 1 } })) ∧
    (s.placed c → s.agent.resetPending = true →
      exec (commandOf code c) s = .next ((s.atTaking c).respond code c ⟨.busy, 0#8, [], false⟩))

/-- What the taking by unicast itself changes: the active uplink, the reply address and the place held; only where a
notice waits in DUE and the active uplink moves may that notice join the queue (R131, R137, R189). -/
def Obligations.TakingSetsActiveUplink : Prop :=
  ∀ (c : CommandCell) (s : State),
    (s.atTaking c).agent = { s.agent with activeUplink := c.arrival, replyAddr := c.src, heldPlace := some c.arrival } ∧
    (s.atTaking c).tb = s.tb ∧ (s.atTaking c).map = s.map ∧ (s.atTaking c).bank = s.bank ∧
    (s.atTaking c).bridges = s.bridges ∧ (s.atTaking c).events = s.events ∧
    (∀ l, l ≠ c.arrival → (s.atTaking c).link l = s.link l) ∧
    (s.atTaking c).link c.arrival = { s.link c.arrival with queue := ((s.atTaking c).link c.arrival).queue } ∧
    (s.notice.state ≠ .due ∨ s.agent.activeUplink = c.arrival →
      (s.atTaking c).links = s.links ∧ (s.atTaking c).notice = s.notice)

/-- The response (R140): an inbound cell to the command's source, from the address that matched, with the command's tag
and code and the given status, aux and payload, its check good, at the tail of the arrival link's queue; the place
held is given up and nothing else changes. -/
def Obligations.ResponseIsPlaced : Prop :=
  ∀ (u : State) (code : BitVec 7) (c : CommandCell) (a : Answer),
    u.respond code c a = (u.updLink c.arrival fun x => { x with queue := x.queue ++
      [⟨buildCell 0xCA#8 c.src c.dest a.aux c.tag code a.status.code (payloadOf a.payload), a.resetResponse⟩] }).withAgent
        { u.agent with heldPlace := none } ∧
    cellGood (buildCell 0xCA#8 c.src c.dest a.aux c.tag code a.status.code (payloadOf a.payload)) = true

/-- A command taken by group or broadcast is relayed and sets the active uplink and the reply address; a reading kind,
and every command while a reset is pending, does nothing more; any other is executed without a response (R134, R138,
R142). -/
def Obligations.SharedCommandsHaveNoResponse : Prop :=
  ∀ (code : BitVec 7) (c : CommandCell) (s : State), s.arrives c → s.matchesShared c →
    (s.agent.resetPending = true ∨ readingCodes.contains code = true →
      exec (commandOf code c) s = .next (s.atSharedTaking code c)) ∧
    (s.agent.resetPending = false → readingCodes.contains code = false →
      exec (commandOf code c) s = .next (bodyOf code false c (s.atSharedTaking code c)).1)

/-! ## Commands -/

/-- IDENTIFY, BANK-STATUS, REF-STATUS and MAP-READ answer what they read and change nothing; a code that names no
command is answered BAD_COMMAND (R147, R150, R161, R165, R168). That the bits of REF-STATUS's P5, P6 and, on page 1, P2 that
name nothing, and the marks of entries beyond the count, are 0 is the model's choice (notes/assumptions/28.md). -/
def Obligations.PartReadingsAnswer : Prop :=
  ∀ (c : CommandCell) (s : State), s.examines c →
    exec (.identify c) s = .next ((s.atTaking c).respond 0x01#7 c ⟨.ok, 0#8,
      [0x08#8, 0x64#8, 0x01#8, s.agent.strapAddr, byteOf s.agent.strapUplink.val, resetCauseCode s.agent.resetCause,
       byteOf c.arrival.val], false⟩) ∧
    exec (.bankStatus c) s = .next ((s.atTaking c).respond 0x35#7 c ⟨.ok, 0#8, s.bank.statusPayload, false⟩) ∧
    (pByte c 0 = 0#8 → exec (.refStatus c) s = .next ((s.atTaking c).respond 0x21#7 c
      ⟨.ok, timeSourceCode s.tb.source, refPayload s.tb.refList s.tb.revertive s.tb.follow ++ [s.qualifiedMarks],
       false⟩)) ∧
    (pByte c 0 = 1#8 → exec (.refStatus c) s = .next ((s.atTaking c).respond 0x21#7 c
      ⟨.ok, byteOf s.tb.frameIndex.val, [highByte s.tb.number, lowByte s.tb.number,
        byteOf (s.tb.pendingSet.isSome.toNat + 2 * s.tb.pendingAdoption.isSome.toNat),
        highByte (s.tb.pendingSet.getD 0#16), lowByte (s.tb.pendingSet.getD 0#16),
        highByte (s.tb.pendingAdoption.getD 0#16), lowByte (s.tb.pendingAdoption.getD 0#16)], false⟩)) ∧
    (2 ≤ (pByte c 0).toNat → exec (.refStatus c) s = .next ((s.atTaking c).respond 0x21#7 c
      ⟨.badParam, 0#8, [], false⟩)) ∧
    (∀ (l : LinkId) (t : SlotId) (k : Bank), (pByte c 0).toNat = l.val → (pByte c 1).toNat = t.val →
      pByte c 2 = bankCode k →
      exec (.mapRead c) s = .next ((s.atTaking c).respond 0x31#7 c ⟨.ok, if k = s.bank.active then 0#8 else 1#8,
        [pByte c 0, pByte c 1] ++ (s.map.entries k)[(slotIndex l t).val].bytes, false⟩)) ∧
    (8 ≤ (pByte c 0).toNat ∨ 64 ≤ (pByte c 1).toNat ∨ 2 ≤ (pByte c 2).toNat →
      exec (.mapRead c) s = .next ((s.atTaking c).respond 0x31#7 c ⟨.badParam, 0#8, [], false⟩)) ∧
    (∀ code : BitVec 7, commandCodes.contains code = false → exec (.badCommand code c) s =
      .next ((s.atTaking c).respond code c ⟨.badCommand, 0#8, [], false⟩))

/-- LINK-GET, LINK-STATUS, COUNT-READ and LEG-READ answer what they read; COUNT-READ with the clear flag sets the page's
counters to 0 and no other (R111, R157, R158, R159, R175). That bits 4 to 7 of LINK-GET's B1 and of LINK-STATUS's P0,
which name no flag, are 0 is the model's choice (notes/assumptions/28.md). -/
def Obligations.LinkReadingsAnswer : Prop :=
  ∀ (c : CommandCell) (s : State), s.examines c →
    (∀ l : LinkId, (pByte c 0).toNat = l.val →
      exec (.linkGet c) s = .next ((s.atTaking c).respond 0x11#7 c
        ⟨.ok, 0#8, pByte c 0 :: (s.link l).config.bytes, false⟩) ∧
      exec (.linkStatus c) s = .next ((s.atTaking c).respond 0x12#7 c
        ⟨.ok, alignCode (s.link l).rx.align, (s.link l).statusPayload, false⟩) ∧
      (∀ mgmt page1 clear : Bool, pByte c 1 = flagCode mgmt → pByte c 2 = flagCode page1 → pByte c 3 = flagCode clear →
        exec (.countRead c) s = .next ((if clear then (s.atTaking c).updLink l (·.clearCounters mgmt page1)
            else s.atTaking c).respond 0x13#7 c
          ⟨.ok, 0#8, ((s.link l).counters mgmt page1).flatMap wordBytes, false⟩))) ∧
    (8 ≤ (pByte c 0).toNat →
      exec (.linkGet c) s = .next ((s.atTaking c).respond 0x11#7 c ⟨.badParam, 0#8, [], false⟩) ∧
      exec (.linkStatus c) s = .next ((s.atTaking c).respond 0x12#7 c ⟨.badParam, 0#8, [], false⟩)) ∧
    (8 ≤ (pByte c 0).toNat ∨ 2 ≤ (pByte c 1).toNat ∨ 2 ≤ (pByte c 2).toNat ∨ 2 ≤ (pByte c 3).toNat →
      exec (.countRead c) s = .next ((s.atTaking c).respond 0x13#7 c ⟨.badParam, 0#8, [], false⟩)) ∧
    (∀ (b : BridgeId) (k : LegId), (pByte c 0).toNat = b.val → (pByte c 1).toNat = k.val →
      exec (.legRead c) s = .next ((s.atTaking c).respond 0x42#7 c
        ⟨.ok, 0#8, flagCode (s.bridge b).enabled :: legPayload (s.bridge b).legs[k.val], false⟩)) ∧
    (16 ≤ (pByte c 0).toNat ∨ 8 ≤ (pByte c 1).toNat →
      exec (.legRead c) s = .next ((s.atTaking c).respond 0x42#7 c ⟨.badParam, 0#8, [], false⟩)) ∧
    (∀ (x : Link) (mgmt page1 : Bool),
      (∀ n ∈ (x.clearCounters mgmt page1).counters mgmt page1, n = 0#16) ∧
      (∀ m p, (m, p) ≠ (mgmt, page1) → (x.clearCounters mgmt page1).counters m p = x.counters m p) ∧
      { x.clearCounters mgmt page1 with rxCount := x.rxCount, mgmtCount := x.mgmtCount } = x)

/-- ADDR-SET and GROUP-SET: the checks in their order, and an accepted one writes its slot alone (R151, R152). -/
def Obligations.AddressSlotsAreWritten : Prop :=
  ∀ (c : CommandCell) (s : State), s.examines c →
    ((pByte c 0 = 0#8 ∨ 4 ≤ (pByte c 0).toNat ∨ 0xF0 ≤ (pByte c 1).toNat) →
      exec (.addrSet c) s = .next ((s.atTaking c).respond 0x02#7 c ⟨.badParam, 0#8, [], false⟩)) ∧
    (∀ i : Fin 3, (pByte c 0).toNat = i.val + 1 → (pByte c 1).toNat < 0xF0 →
      ((pByte c 1 = s.agent.strapAddr ∨ ∃ j : Fin 3, j ≠ i ∧ s.agent.aliases[j.val] = some (pByte c 1)) →
        exec (.addrSet c) s = .next ((s.atTaking c).respond 0x02#7 c ⟨.duplicate, 0#8, [], false⟩)) ∧
      (¬(pByte c 1 = s.agent.strapAddr ∨ ∃ j : Fin 3, j ≠ i ∧ s.agent.aliases[j.val] = some (pByte c 1)) →
        ∃ v : Vector (Option Byte) 3,
          v = s.agent.aliases.set i.val (if pByte c 1 = 0#8 then none else some (pByte c 1)) ∧
          exec (.addrSet c) s = .next (((s.atTaking c).withAgent { (s.atTaking c).agent with aliases := v }).respond
            0x02#7 c ⟨.ok, 0#8, [v[0].getD 0#8, v[1].getD 0#8, v[2].getD 0#8], false⟩))) ∧
    ((2 ≤ (pByte c 0).toNat ∨ (pByte c 1 ≠ 0#8 ∧ (pByte c 1).toNat < 0xF0) ∨ pByte c 1 = 0xFF#8) →
      exec (.groupSet c) s = .next ((s.atTaking c).respond 0x03#7 c ⟨.badParam, 0#8, [], false⟩)) ∧
    (∀ i : Fin 2, (pByte c 0).toNat = i.val →
      (pByte c 1 = 0#8 ∨ (0xF0 ≤ (pByte c 1).toNat ∧ pByte c 1 ≠ 0xFF#8)) →
      ((∃ j : Fin 2, j ≠ i ∧ s.agent.groups[j.val] = some (pByte c 1)) →
        exec (.groupSet c) s = .next ((s.atTaking c).respond 0x03#7 c ⟨.duplicate, 0#8, [], false⟩)) ∧
      (¬(∃ j : Fin 2, j ≠ i ∧ s.agent.groups[j.val] = some (pByte c 1)) →
        ∃ v : Vector (Option Byte) 2,
          v = s.agent.groups.set i.val (if pByte c 1 = 0#8 then none else some (pByte c 1)) ∧
          exec (.groupSet c) s = .next (((s.atTaking c).withAgent { (s.atTaking c).agent with groups := v }).respond
            0x03#7 c ⟨.ok, 0#8, [v[0].getD 0#8, v[1].getD 0#8], false⟩)))

/-- PART-RESET: by unicast the flag is set and the response OK is marked as the reset response, nothing else; by group
or broadcast, with no reset pending, the soft reset is applied at once, after the relay (R142, R143, R153). A soft reset
clears both groups of counters of every link, both banks, the hold values, engine and scheduler, every leg and enable of
the bridges, the event queue with its mask, and the notices, and leaves the rest as it is (R43, R77, R97, R99, R143,
R181, R188). -/
def Obligations.PartResetPendsOrApplies : Prop :=
  ∀ (c : CommandCell) (s : State),
    (s.examines c → exec (.partReset c) s =
      .next (((s.atTaking c).withAgent { (s.atTaking c).agent with resetPending := true }).respond 0x04#7 c
        ⟨.ok, 0#8, [], true⟩)) ∧
    (s.arrives c → s.matchesShared c → s.agent.resetPending = false →
      exec (.partReset c) s = .next (s.atSharedTaking 0x04#7 c).softReset) ∧
    (∀ u : State,
      (∀ l, u.softReset.link l = { u.link l with
        rxCount := ⟨0#16, 0#16, 0#16, 0#16, 0#16⟩, mgmtCount := ⟨0#16, 0#16, 0#16, 0#16, 0#16, 0#16⟩ }) ∧
      (∀ (bk : Bank) (j : Fin 512), (u.softReset.map.entries bk)[j.val] = ⟨.idle, .idle⟩) ∧
      (∀ j : Fin 512, u.softReset.map.holds[j.val] = none) ∧
      (∀ b, u.softReset.bridge b = ⟨false, Vector.replicate 8 none, (u.bridge b).outputs⟩) ∧
      u.softReset.bank = ⟨.a, true, .idle none .done 0, .idle⟩ ∧ u.softReset.events = ⟨[], 0#8, 0#8, 0x1FF#9⟩ ∧
      u.softReset.notice = ⟨.quiet, 0, 0⟩ ∧ u.softReset.tb = u.tb ∧ u.softReset.pending = u.pending ∧
      u.softReset.agent = { u.agent with resetPending := false, resetCause := .partReset })

/-- LINK-SET: a record out of range is refused BAD_PARAM, one that cuts its own path SEVERS; an accepted one is written
whole, and the link's queue is flushed, its hold values cleared, its check alarm and assembler cleared and its receiver
moved as its fields changed (R31, R44, R45, R76, R123, R133, R154, R155, R156). Any link but the named one keeps its
record, receiver, transmitter, assembler and hold values. That the hold values are none from the taking on is the
model's reading (notes/assumptions/23.md; R76 has it for the first frame of the new configuration). That the response
stands behind a notice its LINK_DOWN and REF_CHANGE bring about is the model's reading (notes/assumptions/12.md), and
that bits 4 to 7 of B1 in the response, which name no flag, are 0 its choice (notes/assumptions/28.md). -/
def Obligations.LinkRecordIsWritten : Prop :=
  ∀ (c : CommandCell) (s : State), s.examines c →
    (8 ≤ (pByte c 0).toNat ∨ recordOf c = none →
      exec (.linkSet c) s = .next ((s.atTaking c).respond 0x10#7 c ⟨.badParam, 0#8, [], false⟩)) ∧
    (∀ new : LinkConfig, recordOf c = some new ↔
      pByte c 2 = slotCountCode new.shape.slotCount ∧ pByte c 3 = roleCode new.shape.role ∧
      (pByte c 4).toNat = new.shape.mgmtSlot.val ∧ new.rxEnable = (pByte c 1).getLsbD 0 ∧
      new.txEnable = (pByte c 1).getLsbD 1 ∧ new.shape.checkEnable = (pByte c 1).getLsbD 2 ∧
      new.discard = (pByte c 1).getLsbD 3 ∧ new.idle = pWord c 5 6 ∧ new.shape.mgmtSlot ≠ 0 ∧
      new.shape.mgmtSlot.val < new.shape.slotCount.toNat ∧
      ¬(new.shape.checkEnable = true ∧ new.shape.mgmtSlot.val + 1 = new.shape.slotCount.toNat) ∧
      (new.shape.role = .none ∨ new.rxEnable = true ∧ new.txEnable = true)) ∧
    (∀ (l : LinkId) (new : LinkConfig), (pByte c 0).toNat = l.val → recordOf c = some new →
      let old := (s.link l).config
      let cuts := new.shape.role ≠ .uplink ∨ new.rxEnable = false ∨ new.txEnable = false ∨
        new.shape.slotCount ≠ old.shape.slotCount ∨ new.shape.mgmtSlot ≠ old.shape.mgmtSlot
      let flushed := (old.txEnable = true ∧ new.txEnable = false) ∨ (old.shape.role ≠ .none ∧ new.shape.role = .none)
      let cleared := old.txEnable ≠ new.txEnable ∨ old.shape ≠ new.shape
      (l = c.arrival → cuts →
        exec (.linkSet c) s = .next ((s.atTaking c).respond 0x10#7 c ⟨.severs, 0#8, [], false⟩)) ∧
      (¬(l = c.arrival ∧ cuts) →
        ∃ t u : State, exec (.linkSet c) s = .next (t.respond 0x10#7 c ⟨.ok, 0#8, pByte c 0 :: new.bytes, false⟩) ∧
          (t.link l).config = new ∧
          ((s.link l).config.rxEnable = true → new.rxEnable = false → (t.link l).rx.align = .off) ∧
          ((s.link l).config.rxEnable = false → new.rxEnable = true → (t.link l).rx.align = .hunt []) ∧
          ((s.link l).config.rxEnable = true → new.rxEnable = true →
            new.shape.slotCount ≠ (s.link l).config.shape.slotCount → (s.link l).rx.align ≠ .noclock →
            (t.link l).rx.align = .hunt []) ∧
          (new.rxEnable = (s.link l).config.rxEnable →
            new.shape.slotCount = (s.link l).config.shape.slotCount → (t.link l).rx.align = (s.link l).rx.align) ∧
          (flushed → l ≠ c.arrival → (t.link l).queue = [] ∧
            (t.link l).tx.wordCount = 0 ∧ (t.link l).mgmtCount.flushed =
              satAdd16 (s.link l).mgmtCount.flushed (s.link l).queue.length) ∧
          (¬flushed → (t.link l).tx = (s.link l).tx ∧ (t.link l).mgmtCount = (s.link l).mgmtCount ∧
            (l ≠ c.arrival → (t.link l).queue = (s.link l).queue)) ∧
          (∀ k (p : SlotId), t.map.holds[(slotIndex k p).val] =
            if k = l ∧ cleared then none else s.map.holds[(slotIndex k p).val]) ∧
          (old.shape.checkEnable = true → new.shape.checkEnable = false →
            (t.link l).rx.checkAlarm = false ∧ (t.link l).rx.window = 0#8) ∧
          (new.shape.role = .none → (t.link l).assembler = []) ∧
          ((s.link l).rx.align = .noclock → old.rxEnable = true → new.rxEnable = true →
            (t.link l).rx.align = .noclock) ∧
          (∀ k, (u.link k) = if k = l then { (s.atTaking c).link l with
              config := new
              queue := if flushed then [] else ((s.atTaking c).link l).queue
              tx := { (s.link l).tx with wordCount := if flushed then 0 else (s.link l).tx.wordCount }
              mgmtCount := { (s.link l).mgmtCount with
                flushed := if flushed then satAdd16 (s.link l).mgmtCount.flushed ((s.atTaking c).link l).queue.length
                  else (s.link l).mgmtCount.flushed }
              assembler := if new.shape.role = .none then [] else (s.link l).assembler
              rx := if old.shape.checkEnable = true ∧ new.shape.checkEnable = false
                then { (s.link l).rx with checkAlarm := false, window := 0#8 } else (s.link l).rx }
            else (s.atTaking c).link k) ∧
          u.withMap s.map = (s.atTaking c).withLinks u.links ∧
          t = (if old.rxEnable = true ∧ new.rxEnable = false then
              (if (s.link l).inSync = true then u.leaveSync l .off .disabled c.refFirst
               else u.updLink l fun x => { x with rx := { x.rx with align := .off } }).updLink l fun x =>
                { x with rx := { x.rx with watch := ⟨false, false, false⟩ } }
            else if old.rxEnable = false ∧ new.rxEnable = true then
              u.updLink l fun x => { x with rx := { x.rx with align := .hunt [], watch := ⟨false, false, false⟩ } }
            else if new.rxEnable = true ∧ new.shape.slotCount ≠ old.shape.slotCount then
              (if (s.link l).inSync = true then u.leaveSync l (.hunt []) .reconfigured c.refFirst
               else if (s.link l).rx.align = .noclock then u
               else u.updLink l fun x => { x with rx := { x.rx with align := .hunt [] } })
            else u) ∧
          (∀ k, k ≠ l → (t.link k).config = (s.link k).config ∧ (t.link k).rx = (s.link k).rx ∧
            (t.link k).assembler = (s.link k).assembler ∧ (t.link k).tx = (s.link k).tx) ∧
          t.map.bankA = s.map.bankA ∧ t.map.bankB = s.map.bankB ∧ t.bank = s.bank ∧ t.bridges = s.bridges))

/-- A selection (R54): with revertive on, in HOLDOVER, or with a current source that is not listed or not qualified, the
first qualified entry of the list, or HOLDOVER when none is; in any other case the current source. A selection that
leads nowhere new changes nothing. When the qualified link the timebase is LOCKED to leaves SYNC, the timebase leaves it
at that moment. What leaving SYNC does: the link gives up what a receiver out of SYNC does not hold, a cause from the
line counts a sync loss, LINK_DOWN is reported with its cause, 1 to 4, and a source that was qualified is selected away
from, either first (R26, R42). -/
def Obligations.SelectionChooses : Prop :=
  ∀ s : State,
    ((s.tb.revertive = true ∨ s.tb.source = .holdover ∨
        ∃ e, s.tb.source.entry = some e ∧ (e ∉ s.tb.refList ∨ s.qualified e = false)) →
      (∀ e pre post, s.tb.refList = pre ++ e :: post → (∀ x ∈ pre, s.qualified x = false) → s.qualified e = true →
        s.select.tb.source = (match e with | .localClock => .free | .link l => .locked l)) ∧
      ((∀ x ∈ s.tb.refList, s.qualified x = false) → s.select.tb.source = .holdover)) ∧
    (∀ e, s.tb.revertive = false → s.tb.source.entry = some e → e ∈ s.tb.refList → s.qualified e = true →
      s.select = s) ∧
    s.qualified .localClock = true ∧ (∀ l, s.qualified (.link l) = decide ((s.link l).rx.qualCount = 16)) ∧
    (∀ (l : LinkId) (next : Align) (cause : DownCause) (refFirst : Bool), s.tb.source = .locked l →
      (s.link l).rx.qualCount = 16 → (s.leaveSync l next cause refFirst).tb.source ≠ .locked l) ∧
    (s.select = s ∨ ∃ new, new ≠ s.tb.source ∧ s.select = s.enterSource new) ∧
    (∀ (l : LinkId) (next : Align) (cause : DownCause) (refFirst : Bool), ∃ (code : Byte) (u : State),
      code = (match cause with | .headerErrors => 1#8 | .clockLoss => 2#8 | .reconfigured => 3#8 | .disabled => 4#8) ∧
      u = s.updLink l (fun x => { x with
        rx := { x.rx with align := next, remoteAlarm := false, raiRun := 0, checkAlarm := false, window := 0#8,
                          collector := .idle, numberValid := false, qualCount := 0, wholeMark := false },
        store := { x.store with queue := [], primed := false }, assembler := [],
        rxCount := { x.rxCount with
          syncLosses := if cause = .headerErrors ∨ cause = .clockLoss then satAdd16 x.rxCount.syncLosses 1
            else x.rxCount.syncLosses } }) ∧
      (¬(s.tb.source = .locked l ∧ (s.link l).rx.qualCount = 16) →
        s.leaveSync l next cause refFirst = u.report .linkDown (byteOf l.val) code) ∧
      (s.tb.source = .locked l → (s.link l).rx.qualCount = 16 →
        s.leaveSync l next cause refFirst = if refFirst then u.select.report .linkDown (byteOf l.val) code
          else (u.report .linkDown (byteOf l.val) code).select))

/-- When the timebase becomes LOCKED to a link, its store is re-centred: of two frames the oldest goes, 0 or 1 stay as
they are, no counter moves and no SLIP is reported, and the current input frame and primed stay (R40). Entering any
source that differs from the one before clears the pending adoption, makes the held period the nominal one on entering
FREE and no other, and reports REF_CHANGE with the source's detail: 0 to 7 for a link, 8 for FREE, 9 for HOLDOVER (R48,
R55). That completions received before the change give no start after it is the model's choice
(notes/assumptions/7.md); the bit and the list it empties are the model's (notes/assumptions/19.md). -/
def Obligations.LockingRecentresStore : Prop :=
  (∀ (s : State) (new : TimeSource), ∃ u : State,
    u = s.withTb { s.tb with source := new, pendingAdoption := none, fromCompletion := false, completions := [],
                             heldPeriod := if new = .free then 512 else s.tb.heldPeriod } ∧
    s.enterSource new = match new with
      | .free => u.report .refChange 0xFF#8 8#8
      | .holdover => u.report .refChange 0xFF#8 9#8
      | .locked l => (u.updLink l fun x => { x with store := { x.store with
          queue := if x.store.queue.length = 2 then x.store.queue.drop 1 else x.store.queue } }).report
            .refChange 0xFF#8 (byteOf l.val)) ∧
  (∀ (s : State) (l : LinkId),
    (∀ a b, (s.link l).store.queue = [a, b] →
      ((s.enterSource (.locked l)).link l).store = { (s.link l).store with queue := [b] }) ∧
    ((s.link l).store.queue.length ≤ 1 → ((s.enterSource (.locked l)).link l).store = (s.link l).store) ∧
    (∀ k, ((s.enterSource (.locked l)).link k).rxCount = (s.link k).rxCount) ∧
    (∀ k, k ≠ l → ((s.enterSource (.locked l)).link k).store = (s.link k).store) ∧
    (∀ r ∈ (s.enterSource (.locked l)).events.records, r ∈ s.events.records ∨ r.kind = .refChange))

/-- REF-SET and TIME-SET: the checks in their order; an accepted REF-SET writes list and flags and runs a selection; an
accepted TIME-SET writes the pending set value alone (R59, R160, R162). That the response of REF-SET stands behind a
notice its REF_CHANGE brings about is the model's reading (notes/assumptions/12.md), and that bits 2 to 7 of P5 in the
response are 0 its choice (notes/assumptions/28.md). -/
def Obligations.TimingCommandsWrite : Prop :=
  ∀ (c : CommandCell) (s : State), s.examines c →
    ((pByte c 0 = 0#8 ∨ 4 < (pByte c 0).toNat) →
      exec (.refSet c) s = .next ((s.atTaking c).respond 0x20#7 c ⟨.badParam, 0#8, [], false⟩)) ∧
    (∀ i : Fin 4, i.val < (pByte c 0).toNat → (pByte c 0).toNat ≤ 4 → 9 ≤ (c.payload[i.val + 1]).toNat →
      exec (.refSet c) s = .next ((s.atTaking c).respond 0x20#7 c ⟨.badParam, 0#8, [], false⟩)) ∧
    (∀ es : List RefEntry, 1 ≤ es.length → es.length ≤ 4 → (pByte c 0).toNat = es.length →
      (∀ i : Fin 4, (h : i.val < es.length) → c.payload[i.val + 1] = refEntryCode es[i.val]) →
      (¬ es.Nodup → exec (.refSet c) s = .next ((s.atTaking c).respond 0x20#7 c ⟨.duplicate, 0#8, [], false⟩)) ∧
      (es.Nodup → ∃ t : State, t = ((s.atTaking c).withTb { s.tb with
            refList := es, revertive := (pByte c 5).getLsbD 0, follow := (pByte c 5).getLsbD 1 }).select ∧
        exec (.refSet c) s = .next (t.respond 0x20#7 c ⟨.ok, timeSourceCode t.tb.source,
          refPayload es ((pByte c 5).getLsbD 0) ((pByte c 5).getLsbD 1), false⟩))) ∧
    (s.tb.follow = true → (∃ l, s.tb.source = .locked l) →
      exec (.timeSet c) s = .next ((s.atTaking c).respond 0x22#7 c ⟨.badState, 0#8, [], false⟩)) ∧
    (¬(s.tb.follow = true ∧ ∃ l, s.tb.source = .locked l) →
      exec (.timeSet c) s = .next (((s.atTaking c).withTb { s.tb with pendingSet := some (pWord c 0 1) }).respond
        0x22#7 c ⟨.accepted, 0#8, [pByte c 0, pByte c 1, highByte s.tb.number, lowByte s.tb.number,
          byteOf s.tb.frameIndex.val], false⟩))

/-- MAP-WRITE (R163, R164): the first check that fails decides the status, the ranges of kind, fault action and
source fields being those of checks 3 and 4; an accepted one writes the one entry of the
standby bank and answers the bank written and the entry. -/
def Obligations.MapWriteWritesStandby : Prop :=
  ∀ (c : CommandCell) (s : State), s.examines c →
    ((8 ≤ (pByte c 0).toNat ∨ 64 ≤ (pByte c 1).toNat ∨ pByte c 1 = 0#8 ∨ entryOf c = none) →
      exec (.mapWrite c) s = .next ((s.atTaking c).respond 0x30#7 c ⟨.badParam, 0#8, [], false⟩)) ∧
    (entryOf c = none ↔ 2 ≤ (pByte c 3).toNat ∨ 4 ≤ (pByte c 2).toNat ∨
      (pByte c 2 = 1#8 ∧ (8 ≤ (pByte c 4).toNat ∨ 64 ≤ (pByte c 5).toNat)) ∨
      (pByte c 2 = 2#8 ∧ (16 ≤ (pByte c 4).toNat ∨ 8 ≤ (pByte c 5).toNat))) ∧
    (∀ e : Entry, entryOf c = some e ↔ pByte c 3 = (match e.fault with | .idle => 0#8 | .hold => 1#8) ∧
      match e.source with
      | .idle => pByte c 2 = 0#8
      | .slot k p => pByte c 2 = 1#8 ∧ (pByte c 4).toNat = k.val ∧ (pByte c 5).toNat = p.val
      | .leg b k => pByte c 2 = 2#8 ∧ (pByte c 4).toNat = b.val ∧ (pByte c 5).toNat = k.val
      | .const w => pByte c 2 = 3#8 ∧ pWord c 4 5 = w) ∧
    (∀ (l : LinkId) (t : SlotId) (e : Entry), (pByte c 0).toNat = l.val → (pByte c 1).toNat = t.val → t ≠ 0 →
      entryOf c = some e →
      ((∃ k p, e.source = .slot k p ∧ (s.link k).config.shape.isPayload p.val = false) →
        exec (.mapWrite c) s = .next ((s.atTaking c).respond 0x30#7 c ⟨.badSource, 0#8, [], false⟩)) ∧
      ((∀ k p, e.source = .slot k p → (s.link k).config.shape.isPayload p.val = true) →
        (s.bank.scheduler ≠ .idle →
          exec (.mapWrite c) s = .next ((s.atTaking c).respond 0x30#7 c ⟨.pending, 0#8, [], false⟩)) ∧
        (s.bank.scheduler = .idle → (∃ op pos, s.bank.engine = .running op pos) →
          exec (.mapWrite c) s = .next ((s.atTaking c).respond 0x30#7 c ⟨.busy, 0#8, [], false⟩)) ∧
        (s.bank.scheduler = .idle → (∀ op pos, s.bank.engine ≠ .running op pos) →
          ∃ m, exec (.mapWrite c) s = .next (((s.atTaking c).withMap m).respond 0x30#7 c
              ⟨.ok, bankCode s.bank.active.other, [pByte c 0, pByte c 1] ++ e.bytes, false⟩) ∧
            (m.entries s.bank.active.other)[(slotIndex l t).val] = e ∧
            (∀ j : Fin 512, j ≠ slotIndex l t →
              (m.entries s.bank.active.other)[j.val] = (s.map.entries s.bank.active.other)[j.val]) ∧
            m.entries s.bank.active = s.map.entries s.bank.active ∧ m.holds = s.map.holds)))

/-- BANK-COPY and BANK-CLEAR are refused PENDING with a switch scheduled and BUSY with the engine running, and otherwise
start the engine at position 0; BANK-ABORT ends a running operation at its position and leaves the standby INCOMPLETE,
and is refused BAD_STATE with the engine idle (R85, R88, R166, R167). That the response of BANK-ABORT stands behind a
notice its ENGINE_END brings about is the model's reading (notes/assumptions/12.md). -/
def Obligations.EngineCommandsAct : Prop :=
  ∀ (c : CommandCell) (s : State), s.examines c →
    (s.bank.scheduler ≠ .idle →
      exec (.bankCopy c) s = .next ((s.atTaking c).respond 0x32#7 c ⟨.pending, 0#8, [], false⟩) ∧
      exec (.bankClear c) s = .next ((s.atTaking c).respond 0x33#7 c ⟨.pending, 0#8, [], false⟩)) ∧
    (s.bank.scheduler = .idle → ∀ op pos, s.bank.engine = .running op pos →
      exec (.bankCopy c) s = .next ((s.atTaking c).respond 0x32#7 c ⟨.busy, 0#8, [], false⟩) ∧
      exec (.bankClear c) s = .next ((s.atTaking c).respond 0x33#7 c ⟨.busy, 0#8, [], false⟩)) ∧
    (s.bank.scheduler = .idle → (∀ op pos, s.bank.engine ≠ .running op pos) →
      exec (.bankCopy c) s = .next (((s.atTaking c).withBank { s.bank with engine := .running .copy 0 }).respond
        0x32#7 c ⟨.accepted, 0#8, [1#8, bankCode s.bank.active.other], false⟩) ∧
      exec (.bankClear c) s = .next (((s.atTaking c).withBank { s.bank with engine := .running .clear 0 }).respond
        0x33#7 c ⟨.accepted, 0#8, [2#8, bankCode s.bank.active.other], false⟩)) ∧
    ((∀ op pos, s.bank.engine ≠ .running op pos) →
      exec (.bankAbort c) s = .next ((s.atTaking c).respond 0x34#7 c ⟨.badState, 0#8, [], false⟩)) ∧
    (∀ op pos, s.bank.engine = .running op pos →
      exec (.bankAbort c) s = .next ((((s.atTaking c).withBank
          { s.bank with engine := .idle (some op) .aborted pos, consistent := false }).report .engineEnd 0xFF#8
            (match op with | .copy => 2#8 | .clear => 3#8)).respond 0x34#7 c
        ⟨.ok, 0#8, [match op with | .copy => 1#8 | .clear => 2#8, highByte (BitVec.ofNat 16 pos),
          lowByte (BitVec.ofNat 16 pos)], false⟩))

/-- SWITCH-AT, SWITCH-NOW and SWITCH-CANCEL: the checks in their order, and what an accepted one schedules or drops
(R91, R92, R95, R169, R170, R171). -/
def Obligations.SwitchCommandsSchedule : Prop :=
  ∀ (c : CommandCell) (s : State), s.examines c →
    let fields := [pByte c 0, pByte c 1, highByte s.tb.number, lowByte s.tb.number]
    let running := ∃ op pos, s.bank.engine = .running op pos
    (s.bank.scheduler = .armed (pWord c 0 1) →
      exec (.switchAt c) s = .next ((s.atTaking c).respond 0x36#7 c ⟨.ok, 0#8, fields, false⟩)) ∧
    (s.bank.scheduler ≠ .armed (pWord c 0 1) →
      (running → exec (.switchAt c) s = .next ((s.atTaking c).respond 0x36#7 c ⟨.busy, 0#8, [], false⟩)) ∧
      (¬running → s.bank.scheduler ≠ .idle →
        exec (.switchAt c) s = .next ((s.atTaking c).respond 0x36#7 c ⟨.pending, 0#8, [], false⟩)) ∧
      (¬running → s.bank.scheduler = .idle → s.bank.consistent = false →
        exec (.switchAt c) s = .next ((s.atTaking c).respond 0x36#7 c ⟨.notReady, 0#8, [], false⟩)) ∧
      (¬running → s.bank.scheduler = .idle → s.bank.consistent = true →
        (¬(1 ≤ (pWord c 0 1 - s.tb.number).toNat ∧ (pWord c 0 1 - s.tb.number).toNat ≤ 32767) →
          exec (.switchAt c) s = .next ((s.atTaking c).respond 0x36#7 c ⟨.tooLate, 0#8, fields, false⟩)) ∧
        (1 ≤ (pWord c 0 1 - s.tb.number).toNat → (pWord c 0 1 - s.tb.number).toNat ≤ 32767 →
          exec (.switchAt c) s = .next (((s.atTaking c).withBank { s.bank with
            scheduler := .armed (pWord c 0 1) }).respond 0x36#7 c ⟨.ok, 0#8, fields, false⟩)))) ∧
    (running → exec (.switchNow c) s = .next ((s.atTaking c).respond 0x37#7 c ⟨.busy, 0#8, [], false⟩)) ∧
    (¬running → s.bank.scheduler ≠ .idle →
      exec (.switchNow c) s = .next ((s.atTaking c).respond 0x37#7 c ⟨.pending, 0#8, [], false⟩)) ∧
    (¬running → s.bank.scheduler = .idle → s.bank.consistent = false →
      exec (.switchNow c) s = .next ((s.atTaking c).respond 0x37#7 c ⟨.notReady, 0#8, [], false⟩)) ∧
    (¬running → s.bank.scheduler = .idle → s.bank.consistent = true →
      exec (.switchNow c) s = .next (((s.atTaking c).withBank { s.bank with scheduler := .immediate }).respond
        0x37#7 c ⟨.ok, 0#8, [bankCode s.bank.active.other], false⟩)) ∧
    (s.bank.scheduler = .idle →
      exec (.switchCancel c) s = .next ((s.atTaking c).respond 0x38#7 c ⟨.badState, 0#8, [], false⟩)) ∧
    (∀ x, s.bank.scheduler = .armed x →
      exec (.switchCancel c) s = .next (((s.atTaking c).withBank { s.bank with scheduler := .idle }).respond
        0x38#7 c ⟨.ok, 1#8, [highByte x, lowByte x], false⟩)) ∧
    (s.bank.scheduler = .immediate →
      exec (.switchCancel c) s = .next (((s.atTaking c).withBank { s.bank with scheduler := .idle }).respond
        0x38#7 c ⟨.ok, 2#8, [0#8, 0#8], false⟩))

/-- LEG-SET, LEG-CLEAR and BRIDGE-SET: the checks in their order, and an accepted one changes its one leg or flag
(R106, R107, R108, R172, R173, R174). -/
def Obligations.BridgeCommandsWrite : Prop :=
  ∀ (c : CommandCell) (s : State), s.examines c →
    ((16 ≤ (pByte c 0).toNat ∨ 8 ≤ (pByte c 1).toNat ∨ 8 ≤ (pByte c 2).toNat ∨ 64 ≤ (pByte c 3).toNat ∨
        4 ≤ (pByte c 4).toNat) →
      exec (.legSet c) s = .next ((s.atTaking c).respond 0x40#7 c ⟨.badParam, 0#8, [], false⟩)) ∧
    (∀ (b : BridgeId) (k : LegId) (l : LinkId) (t : SlotId) (att : Fin 4), (pByte c 0).toNat = b.val →
      (pByte c 1).toNat = k.val → (pByte c 2).toNat = l.val → (pByte c 3).toNat = t.val →
      (pByte c 4).toNat = att.val →
      ((s.link l).config.shape.isPayload t.val = false →
        exec (.legSet c) s = .next ((s.atTaking c).respond 0x40#7 c ⟨.badSource, 0#8, [], false⟩)) ∧
      ((s.link l).config.shape.isPayload t.val = true →
        (∃ j, j ≠ k ∧ ∃ g, (s.bridge b).legs[j.val] = some g ∧ g.link = l ∧ g.slot = t) →
        exec (.legSet c) s = .next ((s.atTaking c).respond 0x40#7 c ⟨.duplicate, 0#8, [], false⟩)) ∧
      ((s.link l).config.shape.isPayload t.val = true →
        ¬(∃ j, j ≠ k ∧ ∃ g, (s.bridge b).legs[j.val] = some g ∧ g.link = l ∧ g.slot = t) →
        exec (.legSet c) s = .next (((s.atTaking c).setBridge b { s.bridge b with
            legs := (s.bridge b).legs.set k.val (some ⟨l, t, att⟩) }).respond 0x40#7 c
          ⟨.ok, 0#8, [pByte c 0, pByte c 1, pByte c 2, pByte c 3, pByte c 4, flagCode (s.bridge b).enabled], false⟩))) ∧
    ((16 ≤ (pByte c 0).toNat ∨ 8 ≤ (pByte c 1).toNat) →
      exec (.legClear c) s = .next ((s.atTaking c).respond 0x41#7 c ⟨.badParam, 0#8, [], false⟩)) ∧
    (∀ (b : BridgeId) (k : LegId), (pByte c 0).toNat = b.val → (pByte c 1).toNat = k.val →
      exec (.legClear c) s = .next (((s.atTaking c).setBridge b { s.bridge b with
        legs := (s.bridge b).legs.set k.val none }).respond 0x41#7 c ⟨.ok, 0#8, [], false⟩)) ∧
    ((16 ≤ (pByte c 0).toNat ∨ 2 ≤ (pByte c 1).toNat) →
      exec (.bridgeSet c) s = .next ((s.atTaking c).respond 0x43#7 c ⟨.badParam, 0#8, [], false⟩)) ∧
    (∀ (b : BridgeId) (on : Bool), (pByte c 0).toNat = b.val → pByte c 1 = flagCode on →
      exec (.bridgeSet c) s = .next (((s.atTaking c).setBridge b { s.bridge b with enabled := on }).respond
        0x43#7 c ⟨.ok, 0#8, [pByte c 1, byteOf (((List.finRange 8).filter fun k : LegId =>
          ((s.bridge b).legs[k.val]).isSome).length)], false⟩))

/-- EVENT-READ (R187, R192): an acknowledged delivered head leaves, the head that then stands is delivered and returned,
EMPTY when none stands; the notice state, out of OFF, becomes QUIET or WAIT. -/
def Obligations.EventReadHandsRecords : Prop :=
  ∀ (c : CommandCell) (s : State) (left : List EventRecord), s.examines c →
    (left = match s.events.records with
      | [] => []
      | r :: rs => if (pByte c 0).getLsbD 0 = true ∧ r.delivered = true ∧ r.seq = pByte c 1 then rs else r :: rs) →
    (left = [] → exec (.eventRead c) s =
      .next ((((s.atTaking c).withEvents { s.events with records := [] }).withNotice
        (if (s.atTaking c).notice.state = .off then (s.atTaking c).notice else ⟨.quiet, 0, 0⟩)).respond
          0x50#7 c ⟨.empty, 0#8, [], false⟩)) ∧
    (∀ r rs, left = r :: rs → exec (.eventRead c) s =
      .next ((((s.atTaking c).withEvents { s.events with records := { r with delivered := true } :: rs }).withNotice
        (if (s.atTaking c).notice.state = .off then (s.atTaking c).notice else ⟨.wait, 0, 64⟩)).respond
          0x50#7 c ⟨.ok, r.lost, [r.seq, byteOf (eventKindCode r.kind), r.subject, r.detail, highByte r.stampNumber,
            lowByte r.stampNumber, byteOf r.stampIndex.val, r.count], false⟩))

/-- EVENT-MASK writes the mask whole, or refuses a bit that names no kind; NOTICE-SET off takes the controller to OFF,
on to QUIET or DUE, and from DUE at once to WAIT where the notice finds a place, from any state (R177, R178, R193). That
the aux of NOTICE-SET is the state after the test for a place, WAIT where its notice is placed at once, and that the
notice stands before the response is the model's reading (notes/assumptions/22.md and 12.md). -/
def Obligations.MaskAndNoticesAreSet : Prop :=
  ∀ (c : CommandCell) (s : State), s.examines c →
    (512 ≤ (pWord c 0 1).toNat →
      exec (.eventMask c) s = .next ((s.atTaking c).respond 0x51#7 c ⟨.badParam, 0#8, [], false⟩)) ∧
    (∀ m : BitVec 9, pWord c 0 1 = m.zeroExtend 16 →
      exec (.eventMask c) s = .next (((s.atTaking c).withEvents { s.events with mask := m }).respond 0x51#7 c
        ⟨.ok, 0#8, [highByte (s.events.mask.zeroExtend 16), lowByte (s.events.mask.zeroExtend 16), pByte c 0,
          pByte c 1], false⟩)) ∧
    (2 ≤ (pByte c 0).toNat →
      exec (.noticeSet c) s = .next ((s.atTaking c).respond 0x52#7 c ⟨.badParam, 0#8, [], false⟩)) ∧
    (pByte c 0 = 0#8 → exec (.noticeSet c) s = .next (((s.atTaking c).withNotice ⟨.off, 0, 0⟩).respond 0x52#7 c
      ⟨.ok, 0#8, [], false⟩)) ∧
    (pByte c 0 = 1#8 → s.events.records = [] →
      exec (.noticeSet c) s = .next (((s.atTaking c).withNotice ⟨.quiet, 0, 0⟩).respond 0x52#7 c
        ⟨.ok, 1#8, [], false⟩)) ∧
    (pByte c 0 = 1#8 → s.events.records ≠ [] →
      ∃ t : State, t = ((s.atTaking c).withNotice ⟨.due, 0, 0⟩).noticeTest ∧
        exec (.noticeSet c) s = .next (t.respond 0x52#7 c ⟨.ok, noticeStateCode t.notice.state, [], false⟩))

/-- A report is masked, coalesced, appended or lost, by the first step of R182 that applies; an append in QUIET
brings DUE with retry count 0, and where the active uplink's queue has a place its notice cell joins that queue at once
and the state is WAIT with the timer at 64; nothing else changes (R182, R183, R184, R189, R190). -/
def Obligations.ReportIsTaken : Prop :=
  ∀ (s : State) (k : EventKind) (subject detail : Byte),
    (s.events.mask.getLsbD (eventKindCode k - 1) = false → s.report k subject detail = s) ∧
    (s.events.mask.getLsbD (eventKindCode k - 1) = true →
      (∀ pre r post, k = .slip → s.events.records = pre ++ r :: post →
        (r.kind = .slip ∧ r.delivered = false ∧ r.subject = subject ∧ r.detail = detail) →
        (∀ x ∈ pre, ¬(x.kind = .slip ∧ x.delivered = false ∧ x.subject = subject ∧ x.detail = detail)) →
        s.report k subject detail = s.withEvents { s.events with records :=
          pre ++ { r with count := BitVec.ofNat 8 (min (r.count.toNat + 1) 255) } :: post }) ∧
      ((k = .slip → ∀ x ∈ s.events.records,
          ¬(x.kind = .slip ∧ x.delivered = false ∧ x.subject = subject ∧ x.detail = detail)) →
        (s.events.records.length < 32 → ∃ q : EventQueue,
          q = { s.events with
            records := s.events.records ++ [⟨s.events.nextSeq, k, subject, detail, s.tb.number, s.tb.frameIndex, 1#8,
              s.events.pendingLost, false⟩],
            nextSeq := s.events.nextSeq + 1#8, pendingLost := 0#8 } ∧
          (s.notice.state ≠ .quiet → s.report k subject detail = s.withEvents q) ∧
          (s.notice.state = .quiet → s.hasRoom s.agent.activeUplink = false →
            s.report k subject detail = (s.withEvents q).withNotice ⟨.due, 0, 0⟩) ∧
          (s.notice.state = .quiet → s.hasRoom s.agent.activeUplink = true →
            s.report k subject detail = ((s.withEvents q).updLink s.agent.activeUplink fun x =>
              { x with queue := x.queue ++ [⟨s.agent.noticeFor q 0, false⟩] }).withNotice ⟨.wait, 0, 64⟩)) ∧
        (32 ≤ s.events.records.length → s.report k subject detail = s.withEvents { s.events with
          pendingLost := BitVec.ofNat 8 (min (s.events.pendingLost.toNat + 1) 255) })))
end

