-- ==== Sys2Proof/Laws/State.lean ====
section
/-!
SUPPORT. One lemma for each field of State under each update of Machine/Ops.lean, so that no proof unfolds a record
update, and the same for the updates of one link.
-/

namespace Sys2Proof.Machine

/-! ### `withTb` -/

@[simp] theorem withTb_pending (s : State) (x : Timebase) : (s.withTb x).pending = s.pending := rfl
@[simp] theorem withTb_links (s : State) (x : Timebase) : (s.withTb x).links = s.links := rfl
@[simp] theorem withTb_tb (s : State) (x : Timebase) : (s.withTb x).tb = x := rfl
@[simp] theorem withTb_map (s : State) (x : Timebase) : (s.withTb x).map = s.map := rfl
@[simp] theorem withTb_bank (s : State) (x : Timebase) : (s.withTb x).bank = s.bank := rfl
@[simp] theorem withTb_bridges (s : State) (x : Timebase) : (s.withTb x).bridges = s.bridges := rfl
@[simp] theorem withTb_agent (s : State) (x : Timebase) : (s.withTb x).agent = s.agent := rfl
@[simp] theorem withTb_events (s : State) (x : Timebase) : (s.withTb x).events = s.events := rfl
@[simp] theorem withTb_notice (s : State) (x : Timebase) : (s.withTb x).notice = s.notice := rfl
@[simp] theorem withTb_link (s : State) (x : Timebase) (l : LinkId) : (s.withTb x).link l = s.link l := rfl

/-! ### `withMap` -/

@[simp] theorem withMap_pending (s : State) (x : ConnMap) : (s.withMap x).pending = s.pending := rfl
@[simp] theorem withMap_links (s : State) (x : ConnMap) : (s.withMap x).links = s.links := rfl
@[simp] theorem withMap_tb (s : State) (x : ConnMap) : (s.withMap x).tb = s.tb := rfl
@[simp] theorem withMap_map (s : State) (x : ConnMap) : (s.withMap x).map = x := rfl
@[simp] theorem withMap_bank (s : State) (x : ConnMap) : (s.withMap x).bank = s.bank := rfl
@[simp] theorem withMap_bridges (s : State) (x : ConnMap) : (s.withMap x).bridges = s.bridges := rfl
@[simp] theorem withMap_agent (s : State) (x : ConnMap) : (s.withMap x).agent = s.agent := rfl
@[simp] theorem withMap_events (s : State) (x : ConnMap) : (s.withMap x).events = s.events := rfl
@[simp] theorem withMap_notice (s : State) (x : ConnMap) : (s.withMap x).notice = s.notice := rfl
@[simp] theorem withMap_link (s : State) (x : ConnMap) (l : LinkId) : (s.withMap x).link l = s.link l := rfl

/-! ### `withBank` -/

@[simp] theorem withBank_pending (s : State) (x : BankCtl) : (s.withBank x).pending = s.pending := rfl
@[simp] theorem withBank_links (s : State) (x : BankCtl) : (s.withBank x).links = s.links := rfl
@[simp] theorem withBank_tb (s : State) (x : BankCtl) : (s.withBank x).tb = s.tb := rfl
@[simp] theorem withBank_map (s : State) (x : BankCtl) : (s.withBank x).map = s.map := rfl
@[simp] theorem withBank_bank (s : State) (x : BankCtl) : (s.withBank x).bank = x := rfl
@[simp] theorem withBank_bridges (s : State) (x : BankCtl) : (s.withBank x).bridges = s.bridges := rfl
@[simp] theorem withBank_agent (s : State) (x : BankCtl) : (s.withBank x).agent = s.agent := rfl
@[simp] theorem withBank_events (s : State) (x : BankCtl) : (s.withBank x).events = s.events := rfl
@[simp] theorem withBank_notice (s : State) (x : BankCtl) : (s.withBank x).notice = s.notice := rfl
@[simp] theorem withBank_link (s : State) (x : BankCtl) (l : LinkId) : (s.withBank x).link l = s.link l := rfl

/-! ### `withBridges` -/

@[simp] theorem withBridges_pending (s : State) (x : Vector Bridge 16) : (s.withBridges x).pending = s.pending := rfl
@[simp] theorem withBridges_links (s : State) (x : Vector Bridge 16) : (s.withBridges x).links = s.links := rfl
@[simp] theorem withBridges_tb (s : State) (x : Vector Bridge 16) : (s.withBridges x).tb = s.tb := rfl
@[simp] theorem withBridges_map (s : State) (x : Vector Bridge 16) : (s.withBridges x).map = s.map := rfl
@[simp] theorem withBridges_bank (s : State) (x : Vector Bridge 16) : (s.withBridges x).bank = s.bank := rfl
@[simp] theorem withBridges_bridges (s : State) (x : Vector Bridge 16) : (s.withBridges x).bridges = x := rfl
@[simp] theorem withBridges_agent (s : State) (x : Vector Bridge 16) : (s.withBridges x).agent = s.agent := rfl
@[simp] theorem withBridges_events (s : State) (x : Vector Bridge 16) : (s.withBridges x).events = s.events := rfl
@[simp] theorem withBridges_notice (s : State) (x : Vector Bridge 16) : (s.withBridges x).notice = s.notice := rfl
@[simp] theorem withBridges_link (s : State) (x : Vector Bridge 16) (l : LinkId) :
    (s.withBridges x).link l = s.link l :=
  rfl

/-! ### `withAgent` -/

@[simp] theorem withAgent_pending (s : State) (x : Agent) : (s.withAgent x).pending = s.pending := rfl
@[simp] theorem withAgent_links (s : State) (x : Agent) : (s.withAgent x).links = s.links := rfl
@[simp] theorem withAgent_tb (s : State) (x : Agent) : (s.withAgent x).tb = s.tb := rfl
@[simp] theorem withAgent_map (s : State) (x : Agent) : (s.withAgent x).map = s.map := rfl
@[simp] theorem withAgent_bank (s : State) (x : Agent) : (s.withAgent x).bank = s.bank := rfl
@[simp] theorem withAgent_bridges (s : State) (x : Agent) : (s.withAgent x).bridges = s.bridges := rfl
@[simp] theorem withAgent_agent (s : State) (x : Agent) : (s.withAgent x).agent = x := rfl
@[simp] theorem withAgent_events (s : State) (x : Agent) : (s.withAgent x).events = s.events := rfl
@[simp] theorem withAgent_notice (s : State) (x : Agent) : (s.withAgent x).notice = s.notice := rfl
@[simp] theorem withAgent_link (s : State) (x : Agent) (l : LinkId) : (s.withAgent x).link l = s.link l := rfl

/-! ### `withEvents` -/

@[simp] theorem withEvents_pending (s : State) (x : EventQueue) : (s.withEvents x).pending = s.pending := rfl
@[simp] theorem withEvents_links (s : State) (x : EventQueue) : (s.withEvents x).links = s.links := rfl
@[simp] theorem withEvents_tb (s : State) (x : EventQueue) : (s.withEvents x).tb = s.tb := rfl
@[simp] theorem withEvents_map (s : State) (x : EventQueue) : (s.withEvents x).map = s.map := rfl
@[simp] theorem withEvents_bank (s : State) (x : EventQueue) : (s.withEvents x).bank = s.bank := rfl
@[simp] theorem withEvents_bridges (s : State) (x : EventQueue) : (s.withEvents x).bridges = s.bridges := rfl
@[simp] theorem withEvents_agent (s : State) (x : EventQueue) : (s.withEvents x).agent = s.agent := rfl
@[simp] theorem withEvents_events (s : State) (x : EventQueue) : (s.withEvents x).events = x := rfl
@[simp] theorem withEvents_notice (s : State) (x : EventQueue) : (s.withEvents x).notice = s.notice := rfl
@[simp] theorem withEvents_link (s : State) (x : EventQueue) (l : LinkId) : (s.withEvents x).link l = s.link l := rfl

/-! ### `withNotice` -/

@[simp] theorem withNotice_pending (s : State) (x : Notice) : (s.withNotice x).pending = s.pending := rfl
@[simp] theorem withNotice_links (s : State) (x : Notice) : (s.withNotice x).links = s.links := rfl
@[simp] theorem withNotice_tb (s : State) (x : Notice) : (s.withNotice x).tb = s.tb := rfl
@[simp] theorem withNotice_map (s : State) (x : Notice) : (s.withNotice x).map = s.map := rfl
@[simp] theorem withNotice_bank (s : State) (x : Notice) : (s.withNotice x).bank = s.bank := rfl
@[simp] theorem withNotice_bridges (s : State) (x : Notice) : (s.withNotice x).bridges = s.bridges := rfl
@[simp] theorem withNotice_agent (s : State) (x : Notice) : (s.withNotice x).agent = s.agent := rfl
@[simp] theorem withNotice_events (s : State) (x : Notice) : (s.withNotice x).events = s.events := rfl
@[simp] theorem withNotice_notice (s : State) (x : Notice) : (s.withNotice x).notice = x := rfl
@[simp] theorem withNotice_link (s : State) (x : Notice) (l : LinkId) : (s.withNotice x).link l = s.link l := rfl

/-! ### `withLinks` -/

@[simp] theorem withLinks_pending (s : State) (x : Vector Link 8) : (s.withLinks x).pending = s.pending := rfl
@[simp] theorem withLinks_links (s : State) (x : Vector Link 8) : (s.withLinks x).links = x := rfl
@[simp] theorem withLinks_tb (s : State) (x : Vector Link 8) : (s.withLinks x).tb = s.tb := rfl
@[simp] theorem withLinks_map (s : State) (x : Vector Link 8) : (s.withLinks x).map = s.map := rfl
@[simp] theorem withLinks_bank (s : State) (x : Vector Link 8) : (s.withLinks x).bank = s.bank := rfl
@[simp] theorem withLinks_bridges (s : State) (x : Vector Link 8) : (s.withLinks x).bridges = s.bridges := rfl
@[simp] theorem withLinks_agent (s : State) (x : Vector Link 8) : (s.withLinks x).agent = s.agent := rfl
@[simp] theorem withLinks_events (s : State) (x : Vector Link 8) : (s.withLinks x).events = s.events := rfl
@[simp] theorem withLinks_notice (s : State) (x : Vector Link 8) : (s.withLinks x).notice = s.notice := rfl
@[simp] theorem withLinks_link (s : State) (x : Vector Link 8) (l : LinkId) : (s.withLinks x).link l = x[l.val] := rfl

/-! ### `withPending` -/

@[simp] theorem withPending_pending (s : State) (x : List Instr) : (s.withPending x).pending = x := rfl
@[simp] theorem withPending_links (s : State) (x : List Instr) : (s.withPending x).links = s.links := rfl
@[simp] theorem withPending_tb (s : State) (x : List Instr) : (s.withPending x).tb = s.tb := rfl
@[simp] theorem withPending_map (s : State) (x : List Instr) : (s.withPending x).map = s.map := rfl
@[simp] theorem withPending_bank (s : State) (x : List Instr) : (s.withPending x).bank = s.bank := rfl
@[simp] theorem withPending_bridges (s : State) (x : List Instr) : (s.withPending x).bridges = s.bridges := rfl
@[simp] theorem withPending_agent (s : State) (x : List Instr) : (s.withPending x).agent = s.agent := rfl
@[simp] theorem withPending_events (s : State) (x : List Instr) : (s.withPending x).events = s.events := rfl
@[simp] theorem withPending_notice (s : State) (x : List Instr) : (s.withPending x).notice = s.notice := rfl
@[simp] theorem withPending_link (s : State) (x : List Instr) (l : LinkId) : (s.withPending x).link l = s.link l := rfl

/-! ### `setLink` and `updLink` -/

@[simp] theorem setLink_pending (s : State) (l : LinkId) (x : Link) : (s.setLink l x).pending = s.pending := rfl
@[simp] theorem setLink_tb (s : State) (l : LinkId) (x : Link) : (s.setLink l x).tb = s.tb := rfl
@[simp] theorem setLink_map (s : State) (l : LinkId) (x : Link) : (s.setLink l x).map = s.map := rfl
@[simp] theorem setLink_bank (s : State) (l : LinkId) (x : Link) : (s.setLink l x).bank = s.bank := rfl
@[simp] theorem setLink_bridges (s : State) (l : LinkId) (x : Link) : (s.setLink l x).bridges = s.bridges := rfl
@[simp] theorem setLink_agent (s : State) (l : LinkId) (x : Link) : (s.setLink l x).agent = s.agent := rfl
@[simp] theorem setLink_events (s : State) (l : LinkId) (x : Link) : (s.setLink l x).events = s.events := rfl
@[simp] theorem setLink_notice (s : State) (l : LinkId) (x : Link) : (s.setLink l x).notice = s.notice := rfl

@[simp] theorem updLink_pending (s : State) (l : LinkId) (f : Link → Link) : (s.updLink l f).pending = s.pending := rfl
@[simp] theorem updLink_tb (s : State) (l : LinkId) (f : Link → Link) : (s.updLink l f).tb = s.tb := rfl
@[simp] theorem updLink_map (s : State) (l : LinkId) (f : Link → Link) : (s.updLink l f).map = s.map := rfl
@[simp] theorem updLink_bank (s : State) (l : LinkId) (f : Link → Link) : (s.updLink l f).bank = s.bank := rfl
@[simp] theorem updLink_bridges (s : State) (l : LinkId) (f : Link → Link) : (s.updLink l f).bridges = s.bridges := rfl
@[simp] theorem updLink_agent (s : State) (l : LinkId) (f : Link → Link) : (s.updLink l f).agent = s.agent := rfl
@[simp] theorem updLink_events (s : State) (l : LinkId) (f : Link → Link) : (s.updLink l f).events = s.events := rfl
@[simp] theorem updLink_notice (s : State) (l : LinkId) (f : Link → Link) : (s.updLink l f).notice = s.notice := rfl

theorem link_setLink (s : State) (l k : LinkId) (x : Link) :
    (s.setLink l x).link k = if k = l then x else s.link k := by
  simp only [State.link, State.setLink, Vector.getElem_set, Fin.ext_iff, eq_comm]

theorem setLink_link (s : State) (l : LinkId) : s.setLink l (s.link l) = s := by
  simp [State.setLink, State.link]

theorem setLink_setLink (s : State) (l : LinkId) (x y : Link) : (s.setLink l x).setLink l y = s.setLink l y := by
  simp [State.setLink]

theorem link_updLink (s : State) (l k : LinkId) (f : Link → Link) :
    (s.updLink l f).link k = if k = l then f (s.link l) else s.link k := link_setLink ..

@[simp] theorem link_updLink_self (s : State) (l : LinkId) (f : Link → Link) :
    (s.updLink l f).link l = f (s.link l) := by simp [link_updLink]

/-- Two updates of one link are one. -/
theorem updLink_updLink (s : State) (l : LinkId) (f g : Link → Link) :
    (s.updLink l f).updLink l g = s.updLink l fun x => g (f x) := by
  unfold State.updLink
  rw [setLink_setLink]
  simp [link_setLink]

theorem link_updLink_ne (s : State) {l k : LinkId} (h : k ≠ l) (f : Link → Link) :
    (s.updLink l f).link k = s.link k := by simp [link_updLink, h]

/-- Any function of a link that an update leaves alone reads as before, whichever link is read. -/
theorem updLink_read {α : Type} (p : Link → α) (s : State) (l k : LinkId) (f : Link → Link)
    (h : p (f (s.link l)) = p (s.link l)) : p ((s.updLink l f).link k) = p (s.link k) := by
  rw [link_updLink]; split
  · next e => rw [h, e]
  · rfl

/-! ### Updates inside a link -/

@[simp] theorem withRx_config (x : Link) (r : Receiver) : (x.withRx r).config = x.config := rfl
@[simp] theorem withRx_rx (x : Link) (r : Receiver) : (x.withRx r).rx = r := rfl
@[simp] theorem withRx_store (x : Link) (r : Receiver) : (x.withRx r).store = x.store := rfl
@[simp] theorem withRx_tx (x : Link) (r : Receiver) : (x.withRx r).tx = x.tx := rfl
@[simp] theorem withRx_assembler (x : Link) (r : Receiver) : (x.withRx r).assembler = x.assembler := rfl
@[simp] theorem withRx_queue (x : Link) (r : Receiver) : (x.withRx r).queue = x.queue := rfl
@[simp] theorem withRx_rxCount (x : Link) (r : Receiver) : (x.withRx r).rxCount = x.rxCount := rfl
@[simp] theorem withRx_mgmtCount (x : Link) (r : Receiver) : (x.withRx r).mgmtCount = x.mgmtCount := rfl

@[simp] theorem withWatch_config (x : Link) (w : ClockWatch) : (x.withWatch w).config = x.config := rfl
@[simp] theorem withWatch_rx (x : Link) (w : ClockWatch) : (x.withWatch w).rx = { x.rx with watch := w } := rfl
@[simp] theorem withWatch_store (x : Link) (w : ClockWatch) : (x.withWatch w).store = x.store := rfl
@[simp] theorem withWatch_tx (x : Link) (w : ClockWatch) : (x.withWatch w).tx = x.tx := rfl
@[simp] theorem withWatch_assembler (x : Link) (w : ClockWatch) : (x.withWatch w).assembler = x.assembler := rfl
@[simp] theorem withWatch_queue (x : Link) (w : ClockWatch) : (x.withWatch w).queue = x.queue := rfl
@[simp] theorem withWatch_rxCount (x : Link) (w : ClockWatch) : (x.withWatch w).rxCount = x.rxCount := rfl
@[simp] theorem withWatch_mgmtCount (x : Link) (w : ClockWatch) : (x.withWatch w).mgmtCount = x.mgmtCount := rfl

@[simp] theorem withAlign_config (x : Link) (a : Align) : (x.withAlign a).config = x.config := rfl
@[simp] theorem withAlign_rx (x : Link) (a : Align) : (x.withAlign a).rx = { x.rx with align := a } := rfl
@[simp] theorem withAlign_store (x : Link) (a : Align) : (x.withAlign a).store = x.store := rfl
@[simp] theorem withAlign_tx (x : Link) (a : Align) : (x.withAlign a).tx = x.tx := rfl
@[simp] theorem withAlign_assembler (x : Link) (a : Align) : (x.withAlign a).assembler = x.assembler := rfl
@[simp] theorem withAlign_queue (x : Link) (a : Align) : (x.withAlign a).queue = x.queue := rfl
@[simp] theorem withAlign_rxCount (x : Link) (a : Align) : (x.withAlign a).rxCount = x.rxCount := rfl
@[simp] theorem withAlign_mgmtCount (x : Link) (a : Align) : (x.withAlign a).mgmtCount = x.mgmtCount := rfl

end Sys2Proof.Machine
end

