-- ==== Sys2Proof/Laws/Events.lean ====
section
/-!
SUPPORT. Everything a notice test, an entry to DUE, an append and a report can do: they touch the event queue, the
notice controller and, by one cell at the tail where there is room, the queue of the active uplink.
-/

namespace Sys2Proof.Machine

/-- `t` is `s` but for the event queue, the notice controller and at most one unmarked cell more in the active uplink's
queue, placed where there was room. -/
structure State.EventOnly (s t : State) : Prop where
  pending : t.pending = s.pending
  tb : t.tb = s.tb
  map : t.map = s.map
  bank : t.bank = s.bank
  bridges : t.bridges = s.bridges
  agent : t.agent = s.agent
  link : ∀ l, t.link l = { s.link l with queue := (t.link l).queue }
  other : ∀ l, l ≠ s.agent.activeUplink → (t.link l).queue = (s.link l).queue
  queue : (t.link s.agent.activeUplink).queue = (s.link s.agent.activeUplink).queue ∨
    (s.hasRoom s.agent.activeUplink = true ∧
      ∃ x, (t.link s.agent.activeUplink).queue = (s.link s.agent.activeUplink).queue ++ [⟨x, false⟩])

theorem State.EventOnly.refl (s : State) : s.EventOnly s :=
  ⟨rfl, rfl, rfl, rfl, rfl, rfl, fun _ => rfl, fun _ _ => rfl, .inl rfl⟩

theorem State.EventOnly.of_events_notice {s u t : State} (h : u.EventOnly t) (hl : u.links = s.links)
    (hp : u.pending = s.pending) (htb : u.tb = s.tb) (hm : u.map = s.map) (hb : u.bank = s.bank)
    (hbr : u.bridges = s.bridges) (ha : u.agent = s.agent) : s.EventOnly t := by
  have hk : ∀ l, u.link l = s.link l := fun l => by simp [State.link, hl]
  have hr : ∀ l, u.hasRoom l = s.hasRoom l := fun l => by simp [State.hasRoom, hk, ha]
  refine ⟨h.pending.trans hp, h.tb.trans htb, h.map.trans hm, h.bank.trans hb, h.bridges.trans hbr,
    h.agent.trans ha, fun l => ?_, fun l => ?_, ?_⟩
  · rw [← hk]; exact h.link l
  · rw [← hk, ← ha]; exact h.other l
  · rw [← hk, ← hr, ← ha]; exact h.queue

@[simp] theorem withEvents_hasRoom (s : State) (x : EventQueue) (l : LinkId) :
    (s.withEvents x).hasRoom l = s.hasRoom l := rfl
@[simp] theorem withNotice_hasRoom (s : State) (x : Notice) (l : LinkId) :
    (s.withNotice x).hasRoom l = s.hasRoom l := rfl

theorem noticeTest_only (s : State) : s.EventOnly s.noticeTest := by
  unfold State.noticeTest
  split
  next h =>
    simp only [Bool.and_eq_true] at h
    refine ⟨rfl, rfl, rfl, rfl, rfl, rfl, fun l => ?_, fun l hl => ?_, .inr ⟨h.2, s.noticeCell, ?_⟩⟩
    · simp only [State.enqueue, withNotice_link, link_updLink]; split <;> simp_all
    · simp [State.enqueue, link_updLink, hl]
    · simp [State.enqueue]
  next => exact .refl s

theorem enterDue_only (s : State) (n : Nat) : s.EventOnly (s.enterDue n) :=
  (noticeTest_only _).of_events_notice rfl rfl rfl rfl rfl rfl rfl

theorem recordAppended_only (s : State) : s.EventOnly s.recordAppended := by
  unfold State.recordAppended; split
  · exact enterDue_only ..
  · exact .refl s

theorem noticeExpiry_only (s : State) : s.EventOnly s.noticeExpiry := by
  unfold State.noticeExpiry; split
  · exact enterDue_only ..
  · exact (State.EventOnly.refl _).of_events_notice rfl rfl rfl rfl rfl rfl rfl

theorem appendOrLose_only (s : State) (k : EventKind) (a b : Byte) : s.EventOnly (s.appendOrLose k a b) := by
  unfold State.appendOrLose; split
  · exact (recordAppended_only _).of_events_notice rfl rfl rfl rfl rfl rfl rfl
  · exact (State.EventOnly.refl _).of_events_notice rfl rfl rfl rfl rfl rfl rfl

theorem report_only (s : State) (k : EventKind) (a b : Byte) : s.EventOnly (s.report k a b) := by
  unfold State.report
  split
  · exact .refl s
  · split
    · split
      · exact (State.EventOnly.refl _).of_events_notice rfl rfl rfl rfl rfl rfl rfl
      · exact appendOrLose_only ..
    · exact appendOrLose_only ..

theorem setNotices_only (s : State) (on : Bool) : s.EventOnly (s.setNotices on) := by
  unfold State.setNotices; split
  · split
    · exact (State.EventOnly.refl _).of_events_notice rfl rfl rfl rfl rfl rfl rfl
    · exact enterDue_only ..
  · exact (State.EventOnly.refl _).of_events_notice rfl rfl rfl rfl rfl rfl rfl

/-! ## The same, field by field -/

@[simp] theorem noticeTest_pending (s : State) : s.noticeTest.pending = s.pending := (noticeTest_only s).pending
@[simp] theorem noticeTest_tb (s : State) : s.noticeTest.tb = s.tb := (noticeTest_only s).tb
@[simp] theorem noticeTest_map (s : State) : s.noticeTest.map = s.map := (noticeTest_only s).map
@[simp] theorem noticeTest_bank (s : State) : s.noticeTest.bank = s.bank := (noticeTest_only s).bank
@[simp] theorem noticeTest_bridges (s : State) : s.noticeTest.bridges = s.bridges := (noticeTest_only s).bridges
@[simp] theorem noticeTest_agent (s : State) : s.noticeTest.agent = s.agent := (noticeTest_only s).agent
@[simp] theorem noticeTest_link_config (s : State) (l : LinkId) : (s.noticeTest.link l).config = (s.link l).config := by
  rw [(noticeTest_only s).link]
@[simp] theorem noticeTest_link_rx (s : State) (l : LinkId) : (s.noticeTest.link l).rx = (s.link l).rx := by
  rw [(noticeTest_only s).link]
@[simp] theorem noticeTest_link_store (s : State) (l : LinkId) : (s.noticeTest.link l).store = (s.link l).store := by
  rw [(noticeTest_only s).link]
@[simp] theorem noticeTest_link_tx (s : State) (l : LinkId) : (s.noticeTest.link l).tx = (s.link l).tx := by
  rw [(noticeTest_only s).link]
@[simp] theorem noticeTest_link_assembler (s : State) (l : LinkId) :
    (s.noticeTest.link l).assembler = (s.link l).assembler := by
  rw [(noticeTest_only s).link]
@[simp] theorem noticeTest_link_rxCount (s : State) (l : LinkId) :
    (s.noticeTest.link l).rxCount = (s.link l).rxCount := by
  rw [(noticeTest_only s).link]
@[simp] theorem noticeTest_link_mgmtCount (s : State) (l : LinkId) :
    (s.noticeTest.link l).mgmtCount = (s.link l).mgmtCount := by
  rw [(noticeTest_only s).link]

@[simp] theorem enterDue_pending (s : State) (n : Nat) : (s.enterDue n).pending = s.pending :=
  (enterDue_only s n).pending
@[simp] theorem enterDue_tb (s : State) (n : Nat) : (s.enterDue n).tb = s.tb := (enterDue_only s n).tb
@[simp] theorem enterDue_map (s : State) (n : Nat) : (s.enterDue n).map = s.map := (enterDue_only s n).map
@[simp] theorem enterDue_bank (s : State) (n : Nat) : (s.enterDue n).bank = s.bank := (enterDue_only s n).bank
@[simp] theorem enterDue_bridges (s : State) (n : Nat) : (s.enterDue n).bridges = s.bridges :=
  (enterDue_only s n).bridges
@[simp] theorem enterDue_agent (s : State) (n : Nat) : (s.enterDue n).agent = s.agent := (enterDue_only s n).agent
@[simp] theorem enterDue_link_config (s : State) (n : Nat) (l : LinkId) :
    ((s.enterDue n).link l).config = (s.link l).config := by
  rw [(enterDue_only s n).link]
@[simp] theorem enterDue_link_rx (s : State) (n : Nat) (l : LinkId) : ((s.enterDue n).link l).rx = (s.link l).rx := by
  rw [(enterDue_only s n).link]
@[simp] theorem enterDue_link_store (s : State) (n : Nat) (l : LinkId) :
    ((s.enterDue n).link l).store = (s.link l).store := by
  rw [(enterDue_only s n).link]
@[simp] theorem enterDue_link_tx (s : State) (n : Nat) (l : LinkId) : ((s.enterDue n).link l).tx = (s.link l).tx := by
  rw [(enterDue_only s n).link]
@[simp] theorem enterDue_link_assembler (s : State) (n : Nat) (l : LinkId) :
    ((s.enterDue n).link l).assembler = (s.link l).assembler := by
  rw [(enterDue_only s n).link]
@[simp] theorem enterDue_link_rxCount (s : State) (n : Nat) (l : LinkId) :
    ((s.enterDue n).link l).rxCount = (s.link l).rxCount := by
  rw [(enterDue_only s n).link]
@[simp] theorem enterDue_link_mgmtCount (s : State) (n : Nat) (l : LinkId) :
    ((s.enterDue n).link l).mgmtCount = (s.link l).mgmtCount := by
  rw [(enterDue_only s n).link]

@[simp] theorem noticeExpiry_pending (s : State) : s.noticeExpiry.pending = s.pending := (noticeExpiry_only s).pending
@[simp] theorem noticeExpiry_tb (s : State) : s.noticeExpiry.tb = s.tb := (noticeExpiry_only s).tb
@[simp] theorem noticeExpiry_map (s : State) : s.noticeExpiry.map = s.map := (noticeExpiry_only s).map
@[simp] theorem noticeExpiry_bank (s : State) : s.noticeExpiry.bank = s.bank := (noticeExpiry_only s).bank
@[simp] theorem noticeExpiry_bridges (s : State) : s.noticeExpiry.bridges = s.bridges := (noticeExpiry_only s).bridges
@[simp] theorem noticeExpiry_agent (s : State) : s.noticeExpiry.agent = s.agent := (noticeExpiry_only s).agent
@[simp] theorem noticeExpiry_link_config (s : State) (l : LinkId) :
    (s.noticeExpiry.link l).config = (s.link l).config := by
  rw [(noticeExpiry_only s).link]
@[simp] theorem noticeExpiry_link_rx (s : State) (l : LinkId) : (s.noticeExpiry.link l).rx = (s.link l).rx := by
  rw [(noticeExpiry_only s).link]
@[simp] theorem noticeExpiry_link_store (s : State) (l : LinkId) :
    (s.noticeExpiry.link l).store = (s.link l).store := by
  rw [(noticeExpiry_only s).link]
@[simp] theorem noticeExpiry_link_tx (s : State) (l : LinkId) : (s.noticeExpiry.link l).tx = (s.link l).tx := by
  rw [(noticeExpiry_only s).link]
@[simp] theorem noticeExpiry_link_assembler (s : State) (l : LinkId) :
    (s.noticeExpiry.link l).assembler = (s.link l).assembler := by
  rw [(noticeExpiry_only s).link]
@[simp] theorem noticeExpiry_link_rxCount (s : State) (l : LinkId) :
    (s.noticeExpiry.link l).rxCount = (s.link l).rxCount := by
  rw [(noticeExpiry_only s).link]
@[simp] theorem noticeExpiry_link_mgmtCount (s : State) (l : LinkId) :
    (s.noticeExpiry.link l).mgmtCount = (s.link l).mgmtCount := by
  rw [(noticeExpiry_only s).link]

@[simp] theorem report_pending (s : State) (k : EventKind) (a b : Byte) : (s.report k a b).pending = s.pending :=
  (report_only s k a b).pending
@[simp] theorem report_tb (s : State) (k : EventKind) (a b : Byte) : (s.report k a b).tb = s.tb :=
  (report_only s k a b).tb
@[simp] theorem report_map (s : State) (k : EventKind) (a b : Byte) : (s.report k a b).map = s.map :=
  (report_only s k a b).map
@[simp] theorem report_bank (s : State) (k : EventKind) (a b : Byte) : (s.report k a b).bank = s.bank :=
  (report_only s k a b).bank
@[simp] theorem report_bridges (s : State) (k : EventKind) (a b : Byte) : (s.report k a b).bridges = s.bridges :=
  (report_only s k a b).bridges
@[simp] theorem report_agent (s : State) (k : EventKind) (a b : Byte) : (s.report k a b).agent = s.agent :=
  (report_only s k a b).agent
@[simp] theorem report_link_config (s : State) (k : EventKind) (a b : Byte) (l : LinkId) :
    ((s.report k a b).link l).config = (s.link l).config := by
  rw [(report_only s k a b).link]
@[simp] theorem report_link_rx (s : State) (k : EventKind) (a b : Byte) (l : LinkId) :
    ((s.report k a b).link l).rx = (s.link l).rx := by
  rw [(report_only s k a b).link]
@[simp] theorem report_link_store (s : State) (k : EventKind) (a b : Byte) (l : LinkId) :
    ((s.report k a b).link l).store = (s.link l).store := by
  rw [(report_only s k a b).link]
@[simp] theorem report_link_tx (s : State) (k : EventKind) (a b : Byte) (l : LinkId) :
    ((s.report k a b).link l).tx = (s.link l).tx := by
  rw [(report_only s k a b).link]
@[simp] theorem report_link_assembler (s : State) (k : EventKind) (a b : Byte) (l : LinkId) :
    ((s.report k a b).link l).assembler = (s.link l).assembler := by
  rw [(report_only s k a b).link]
@[simp] theorem report_link_rxCount (s : State) (k : EventKind) (a b : Byte) (l : LinkId) :
    ((s.report k a b).link l).rxCount = (s.link l).rxCount := by
  rw [(report_only s k a b).link]
@[simp] theorem report_link_mgmtCount (s : State) (k : EventKind) (a b : Byte) (l : LinkId) :
    ((s.report k a b).link l).mgmtCount = (s.link l).mgmtCount := by
  rw [(report_only s k a b).link]

@[simp] theorem setNotices_pending (s : State) (on : Bool) : (s.setNotices on).pending = s.pending :=
  (setNotices_only s on).pending
@[simp] theorem setNotices_tb (s : State) (on : Bool) : (s.setNotices on).tb = s.tb := (setNotices_only s on).tb
@[simp] theorem setNotices_map (s : State) (on : Bool) : (s.setNotices on).map = s.map := (setNotices_only s on).map
@[simp] theorem setNotices_bank (s : State) (on : Bool) : (s.setNotices on).bank = s.bank := (setNotices_only s on).bank
@[simp] theorem setNotices_bridges (s : State) (on : Bool) : (s.setNotices on).bridges = s.bridges :=
  (setNotices_only s on).bridges
@[simp] theorem setNotices_agent (s : State) (on : Bool) : (s.setNotices on).agent = s.agent :=
  (setNotices_only s on).agent
@[simp] theorem setNotices_link_config (s : State) (on : Bool) (l : LinkId) :
    ((s.setNotices on).link l).config = (s.link l).config := by
  rw [(setNotices_only s on).link]
@[simp] theorem setNotices_link_rx (s : State) (on : Bool) (l : LinkId) :
    ((s.setNotices on).link l).rx = (s.link l).rx := by
  rw [(setNotices_only s on).link]
@[simp] theorem setNotices_link_store (s : State) (on : Bool) (l : LinkId) :
    ((s.setNotices on).link l).store = (s.link l).store := by
  rw [(setNotices_only s on).link]
@[simp] theorem setNotices_link_tx (s : State) (on : Bool) (l : LinkId) :
    ((s.setNotices on).link l).tx = (s.link l).tx := by
  rw [(setNotices_only s on).link]
@[simp] theorem setNotices_link_assembler (s : State) (on : Bool) (l : LinkId) :
    ((s.setNotices on).link l).assembler = (s.link l).assembler := by
  rw [(setNotices_only s on).link]
@[simp] theorem setNotices_link_rxCount (s : State) (on : Bool) (l : LinkId) :
    ((s.setNotices on).link l).rxCount = (s.link l).rxCount := by
  rw [(setNotices_only s on).link]
@[simp] theorem setNotices_link_mgmtCount (s : State) (on : Bool) (l : LinkId) :
    ((s.setNotices on).link l).mgmtCount = (s.link l).mgmtCount := by
  rw [(setNotices_only s on).link]

@[simp] theorem noticeTest_events (s : State) : s.noticeTest.events = s.events := by
  unfold State.noticeTest; split <;> rfl

@[simp] theorem enterDue_events (s : State) (n : Nat) : (s.enterDue n).events = s.events := noticeTest_events _

@[simp] theorem recordAppended_events (s : State) : s.recordAppended.events = s.events := by
  unfold State.recordAppended; split <;> simp

@[simp] theorem noticeExpiry_events (s : State) : s.noticeExpiry.events = s.events := by
  unfold State.noticeExpiry; split <;> simp

@[simp] theorem setNotices_events (s : State) (on : Bool) : (s.setNotices on).events = s.events := by
  unfold State.setNotices; split
  · split <;> simp
  · simp

/-- What a notice test leaves of the notice controller (R189). -/
theorem noticeTest_notice (s : State) :
    s.noticeTest.notice = if s.notice.state = .due ∧ s.hasRoom s.agent.activeUplink = true
      then ⟨.wait, s.notice.retry, Config.noticeTimer⟩ else s.notice := by
  unfold State.noticeTest
  simp only [Bool.and_eq_true, decide_eq_true_eq]
  split <;> rfl

/-- The notice cell, by the agent, the event queue and the retry number alone (R190). -/
theorem noticeCell_eq (s : State) : s.noticeCell = s.agent.noticeFor s.events s.notice.retry := rfl

/-- In DUE with a place the notice test places the notice cell and starts the wait (R189). -/
theorem noticeTest_places {s : State} (hd : s.notice.state = .due) (hr : s.hasRoom s.agent.activeUplink = true) :
    s.noticeTest = (s.enqueue s.agent.activeUplink ⟨s.agent.noticeFor s.events s.notice.retry, false⟩).withNotice
      ⟨.wait, s.notice.retry, 64⟩ := by
  unfold State.noticeTest; rw [if_pos (by simp [hd, hr])]; rfl

/-- Elsewhere the notice test changes nothing (R189). -/
theorem noticeTest_waits {s : State} (h : s.notice.state ≠ .due ∨ s.hasRoom s.agent.activeUplink = false) :
    s.noticeTest = s := by
  unfold State.noticeTest; rw [if_neg]; rcases h with h | h <;> simp [h]

/-- The event queue after a report (R182): masked, coalesced, appended or lost. -/
theorem report_events (s : State) (k : EventKind) (a b : Byte) :
    (s.report k a b).events =
      if s.events.enabled k = false then s.events
      else match (if k = .slip then coalesce a b s.events.records else none) with
        | some rs => { s.events with records := rs }
        | none =>
          if s.events.records.length < Config.eventQueueCapacity then
            { s.events with records := s.events.records ++ [s.newRecord k a b],
                            nextSeq := s.events.nextSeq + 1#8, pendingLost := 0#8 }
          else { s.events with pendingLost := satInc8 s.events.pendingLost } := by
  have hA : (s.appendOrLose k a b).events =
      if s.events.records.length < Config.eventQueueCapacity then
        { s.events with records := s.events.records ++ [s.newRecord k a b],
                        nextSeq := s.events.nextSeq + 1#8, pendingLost := 0#8 }
      else { s.events with pendingLost := satInc8 s.events.pendingLost } := by
    unfold State.appendOrLose; split <;> simp
  unfold State.report
  cases he : s.events.enabled k
  · simp
  · simp only [Bool.not_true, Bool.false_eq_true, if_false]
    by_cases hk : k = .slip
    · simp only [hk, if_true]
      subst hk
      cases coalesce a b s.events.records <;> simp [hA]
    · simp [hk, hA]

theorem recordAppended_notice (s : State) (h : s.notice.state ≠ .quiet) : s.recordAppended.notice = s.notice := by
  unfold State.recordAppended; rw [if_neg h]

theorem report_notice (s : State) (k : EventKind) (a b : Byte) (h : s.notice.state ≠ .quiet) :
    (s.report k a b).notice = s.notice := by
  have : (s.appendOrLose k a b).notice = s.notice := by
    unfold State.appendOrLose; split
    · exact recordAppended_notice _ h
    · rfl
  unfold State.report
  (repeat' split) <;> first | rfl | exact this

@[simp] theorem report_mask (s : State) (k : EventKind) (a b : Byte) :
    (s.report k a b).events.mask = s.events.mask := by
  rw [report_events]; (repeat' split) <;> rfl

/-! ## Coalescing (R183) -/

theorem absorbs_iff (r : EventRecord) (a b : Byte) :
    r.absorbs a b = true ↔ r.kind = .slip ∧ r.delivered = false ∧ r.subject = a ∧ r.detail = b := by
  simp [EventRecord.absorbs, and_assoc]

theorem coalesce_none {a b : Byte} {rs : List EventRecord} (h : ∀ x ∈ rs, x.absorbs a b = false) :
    coalesce a b rs = none := by
  induction rs with
  | nil => rfl
  | cons r rs ih =>
    unfold coalesce
    rw [h r (by simp), ih fun x hx => h x (by simp [hx])]; rfl

theorem coalesce_some {a b : Byte} {r : EventRecord} (post : List EventRecord) (hr : r.absorbs a b = true) :
    ∀ pre : List EventRecord, (∀ x ∈ pre, x.absorbs a b = false) →
    coalesce a b (pre ++ r :: post) = some (pre ++ { r with count := satInc8 r.count } :: post)
  | [], _ => by simp [coalesce, hr]
  | x :: pre, h => by
    rw [List.cons_append]; unfold coalesce
    rw [h x (by simp), coalesce_some post hr pre fun y hy => h y (by simp [hy])]; rfl

/-- A record that no slip can join survives a coalescing. -/
theorem coalesce_mem {a b : Byte} {r : EventRecord} (hk : r.kind ≠ .slip) :
    ∀ {rs ts : List EventRecord}, coalesce a b rs = some ts → r ∈ rs → r ∈ ts
  | [], _, h, _ => by simp [coalesce] at h
  | q :: rs, ts, h, hm => by
    unfold coalesce at h
    split at h
    next hq =>
      injection h with h; subst h
      rcases List.mem_cons.1 hm with rfl | hm
      · exact absurd ((absorbs_iff _ _ _).1 hq).1 hk
      · exact List.mem_cons_of_mem _ hm
    next =>
      cases hc : coalesce a b rs with
      | none => rw [hc] at h; cases h
      | some us =>
        rw [hc] at h; injection h with h; subst h
        rcases List.mem_cons.1 hm with rfl | hm
        · exact List.mem_cons_self
        · exact List.mem_cons_of_mem _ (coalesce_mem hk hc hm)

theorem coalesce_length {a b : Byte} :
    ∀ {rs ts : List EventRecord}, coalesce a b rs = some ts → ts.length = rs.length
  | [], _, h => by simp [coalesce] at h
  | q :: rs, ts, h => by
    unfold coalesce at h
    split at h
    · injection h with h; subst h; rfl
    · cases hc : coalesce a b rs with
      | none => rw [hc] at h; cases h
      | some us => rw [hc] at h; injection h with h; subst h; simp [coalesce_length hc]

/-! ## Records across a report (R182) -/

/-- A report gives up no record, and changes none that is not a SLIP record. -/
theorem report_keeps_record {r : EventRecord} (hk : r.kind ≠ .slip) (s : State) (k : EventKind) (a b : Byte)
    (h : r ∈ s.events.records) : r ∈ (s.report k a b).events.records := by
  rw [report_events]
  split
  · exact h
  · split
    next rs hc =>
      by_cases hs : k = .slip
      · rw [if_pos hs] at hc; exact coalesce_mem hk hc h
      · rw [if_neg hs] at hc; cases hc
    next => split <;> simp [h]

theorem report_length (s : State) (k : EventKind) (a b : Byte) :
    (s.report k a b).events.records.length ≤ s.events.records.length + 1 := by
  rw [report_events]
  split
  · omega
  · split
    next rs hc =>
      by_cases hs : k = .slip
      · rw [if_pos hs] at hc; simp [coalesce_length hc]
      · rw [if_neg hs] at hc; cases hc
    next => split <;> simp

/-- A report of an enabled kind other than SLIP is recorded where there is a place. -/
theorem report_appends (s : State) {k : EventKind} (a b : Byte) (hm : s.events.enabled k = true) (hs : k ≠ .slip)
    (hl : s.events.records.length < Config.eventQueueCapacity) :
    s.newRecord k a b ∈ (s.report k a b).events.records := by
  rw [report_events, if_neg (by simp [hm]), if_neg hs]
  simp [hl]

end Sys2Proof.Machine
end

