-- ==== Sys2Proof/Laws/Selection.lean ====
section
/-!
SUPPORT. What a selection, a change of source, an exit from SYNC and an entry to it leave as they were, and what they
write (R23, R26, R40, R54, R55).
-/

namespace Sys2Proof.Machine

/-! ## Selection -/

@[simp] theorem recentreSource_pending (s : State) (x : TimeSource) : (s.recentreSource x).pending = s.pending := by
  cases x <;> rfl
@[simp] theorem recentreSource_tb (s : State) (x : TimeSource) : (s.recentreSource x).tb = s.tb := by
  cases x <;> rfl
@[simp] theorem recentreSource_map (s : State) (x : TimeSource) : (s.recentreSource x).map = s.map := by
  cases x <;> rfl
@[simp] theorem recentreSource_bank (s : State) (x : TimeSource) : (s.recentreSource x).bank = s.bank := by
  cases x <;> rfl
@[simp] theorem recentreSource_bridges (s : State) (x : TimeSource) : (s.recentreSource x).bridges = s.bridges := by
  cases x <;> rfl
@[simp] theorem recentreSource_agent (s : State) (x : TimeSource) : (s.recentreSource x).agent = s.agent := by
  cases x <;> rfl
@[simp] theorem recentreSource_events (s : State) (x : TimeSource) : (s.recentreSource x).events = s.events := by
  cases x <;> rfl
@[simp] theorem recentreSource_notice (s : State) (x : TimeSource) : (s.recentreSource x).notice = s.notice := by
  cases x <;> rfl
@[simp] theorem recentreSource_link_config (s : State) (x : TimeSource) (k : LinkId) :
    ((s.recentreSource x).link k).config = (s.link k).config := by
  cases x with
  | locked l => exact updLink_read (fun y : Link => y.config) s l k _ rfl
  | _ => rfl
@[simp] theorem recentreSource_link_rx (s : State) (x : TimeSource) (k : LinkId) :
    ((s.recentreSource x).link k).rx = (s.link k).rx := by
  cases x with
  | locked l => exact updLink_read (fun y : Link => y.rx) s l k _ rfl
  | _ => rfl
@[simp] theorem recentreSource_link_tx (s : State) (x : TimeSource) (k : LinkId) :
    ((s.recentreSource x).link k).tx = (s.link k).tx := by
  cases x with
  | locked l => exact updLink_read (fun y : Link => y.tx) s l k _ rfl
  | _ => rfl
@[simp] theorem recentreSource_link_assembler (s : State) (x : TimeSource) (k : LinkId) :
    ((s.recentreSource x).link k).assembler = (s.link k).assembler := by
  cases x with
  | locked l => exact updLink_read (fun y : Link => y.assembler) s l k _ rfl
  | _ => rfl
@[simp] theorem recentreSource_link_rxCount (s : State) (x : TimeSource) (k : LinkId) :
    ((s.recentreSource x).link k).rxCount = (s.link k).rxCount := by
  cases x with
  | locked l => exact updLink_read (fun y : Link => y.rxCount) s l k _ rfl
  | _ => rfl
@[simp] theorem recentreSource_link_mgmtCount (s : State) (x : TimeSource) (k : LinkId) :
    ((s.recentreSource x).link k).mgmtCount = (s.link k).mgmtCount := by
  cases x with
  | locked l => exact updLink_read (fun y : Link => y.mgmtCount) s l k _ rfl
  | _ => rfl
@[simp] theorem recentreSource_link_queue (s : State) (x : TimeSource) (k : LinkId) :
    ((s.recentreSource x).link k).queue = (s.link k).queue := by
  cases x with
  | locked l => exact updLink_read (fun y : Link => y.queue) s l k _ rfl
  | _ => rfl

/-- Re-centring reaches the store of the link the source names, and no other (R40). -/
theorem recentreSource_link_store (s : State) (x : TimeSource) (k : LinkId) :
    ((s.recentreSource x).link k).store =
      if x = .locked k then (s.link k).store.recentre else (s.link k).store := by
  cases x with
  | locked l =>
    simp only [State.recentreSource, link_updLink, TimeSource.locked.injEq]
    by_cases h : k = l
    · subst h; simp
    · simp [h, Ne.symm h]
  | _ => simp [State.recentreSource]

@[simp] theorem enterSource_pending (s : State) (x : TimeSource) : (s.enterSource x).pending = s.pending := by
  simp [State.enterSource]
@[simp] theorem enterSource_map (s : State) (x : TimeSource) : (s.enterSource x).map = s.map := by
  simp [State.enterSource]
@[simp] theorem enterSource_bank (s : State) (x : TimeSource) : (s.enterSource x).bank = s.bank := by
  simp [State.enterSource]
@[simp] theorem enterSource_bridges (s : State) (x : TimeSource) : (s.enterSource x).bridges = s.bridges := by
  simp [State.enterSource]
@[simp] theorem enterSource_agent (s : State) (x : TimeSource) : (s.enterSource x).agent = s.agent := by
  simp [State.enterSource]
@[simp] theorem enterSource_tb (s : State) (x : TimeSource) : (s.enterSource x).tb = s.tb.enter x := by
  simp [State.enterSource]
@[simp] theorem enterSource_link_config (s : State) (x : TimeSource) (k : LinkId) :
    ((s.enterSource x).link k).config = (s.link k).config := by simp [State.enterSource]
@[simp] theorem enterSource_link_rx (s : State) (x : TimeSource) (k : LinkId) :
    ((s.enterSource x).link k).rx = (s.link k).rx := by simp [State.enterSource]
@[simp] theorem enterSource_link_tx (s : State) (x : TimeSource) (k : LinkId) :
    ((s.enterSource x).link k).tx = (s.link k).tx := by simp [State.enterSource]
@[simp] theorem enterSource_link_assembler (s : State) (x : TimeSource) (k : LinkId) :
    ((s.enterSource x).link k).assembler = (s.link k).assembler := by simp [State.enterSource]
@[simp] theorem enterSource_link_rxCount (s : State) (x : TimeSource) (k : LinkId) :
    ((s.enterSource x).link k).rxCount = (s.link k).rxCount := by simp [State.enterSource]
@[simp] theorem enterSource_link_mgmtCount (s : State) (x : TimeSource) (k : LinkId) :
    ((s.enterSource x).link k).mgmtCount = (s.link k).mgmtCount := by simp [State.enterSource]
theorem enterSource_link_store (s : State) (x : TimeSource) (k : LinkId) :
    ((s.enterSource x).link k).store =
      if x = .locked k then (s.link k).store.recentre else (s.link k).store := by
  simp [State.enterSource, recentreSource_link_store]

/-- A selection leaves everything, or enters the state it chooses (R55). -/
theorem select_cases (s : State) :
    (s.chooseSource = s.tb.source ∧ s.select = s) ∨
    (s.chooseSource ≠ s.tb.source ∧ s.select = s.enterSource s.chooseSource) := by
  unfold State.select; split <;> simp_all

/-- After a selection the source is the one chosen. -/
@[simp] theorem select_source (s : State) : s.select.tb.source = s.chooseSource := by
  rcases select_cases s with ⟨h, e⟩ | ⟨_, e⟩ <;> rw [e]
  · exact h.symm
  · simp [Timebase.enter]

@[simp] theorem select_pending (s : State) : s.select.pending = s.pending := by
  rcases select_cases s with ⟨_, e⟩ | ⟨_, e⟩ <;> simp [e]
@[simp] theorem select_map (s : State) : s.select.map = s.map := by
  rcases select_cases s with ⟨_, e⟩ | ⟨_, e⟩ <;> simp [e]
@[simp] theorem select_bank (s : State) : s.select.bank = s.bank := by
  rcases select_cases s with ⟨_, e⟩ | ⟨_, e⟩ <;> simp [e]
@[simp] theorem select_bridges (s : State) : s.select.bridges = s.bridges := by
  rcases select_cases s with ⟨_, e⟩ | ⟨_, e⟩ <;> simp [e]
@[simp] theorem select_agent (s : State) : s.select.agent = s.agent := by
  rcases select_cases s with ⟨_, e⟩ | ⟨_, e⟩ <;> simp [e]
@[simp] theorem select_link_config (s : State) (k : LinkId) : (s.select.link k).config = (s.link k).config := by
  rcases select_cases s with ⟨_, e⟩ | ⟨_, e⟩ <;> simp [e]
@[simp] theorem select_link_rx (s : State) (k : LinkId) : (s.select.link k).rx = (s.link k).rx := by
  rcases select_cases s with ⟨_, e⟩ | ⟨_, e⟩ <;> simp [e]
@[simp] theorem select_link_tx (s : State) (k : LinkId) : (s.select.link k).tx = (s.link k).tx := by
  rcases select_cases s with ⟨_, e⟩ | ⟨_, e⟩ <;> simp [e]
@[simp] theorem select_link_assembler (s : State) (k : LinkId) :
    (s.select.link k).assembler = (s.link k).assembler := by
  rcases select_cases s with ⟨_, e⟩ | ⟨_, e⟩ <;> simp [e]
@[simp] theorem select_link_rxCount (s : State) (k : LinkId) : (s.select.link k).rxCount = (s.link k).rxCount := by
  rcases select_cases s with ⟨_, e⟩ | ⟨_, e⟩ <;> simp [e]
@[simp] theorem select_link_mgmtCount (s : State) (k : LinkId) :
    (s.select.link k).mgmtCount = (s.link k).mgmtCount := by
  rcases select_cases s with ⟨_, e⟩ | ⟨_, e⟩ <;> simp [e]
@[simp] theorem select_tb_refList (s : State) : s.select.tb.refList = s.tb.refList := by
  rcases select_cases s with ⟨_, e⟩ | ⟨_, e⟩ <;> simp [e, Timebase.enter]
@[simp] theorem select_tb_revertive (s : State) : s.select.tb.revertive = s.tb.revertive := by
  rcases select_cases s with ⟨_, e⟩ | ⟨_, e⟩ <;> simp [e, Timebase.enter]
@[simp] theorem select_tb_follow (s : State) : s.select.tb.follow = s.tb.follow := by
  rcases select_cases s with ⟨_, e⟩ | ⟨_, e⟩ <;> simp [e, Timebase.enter]
@[simp] theorem select_tb_frameIndex (s : State) : s.select.tb.frameIndex = s.tb.frameIndex := by
  rcases select_cases s with ⟨_, e⟩ | ⟨_, e⟩ <;> simp [e, Timebase.enter]
@[simp] theorem select_tb_number (s : State) : s.select.tb.number = s.tb.number := by
  rcases select_cases s with ⟨_, e⟩ | ⟨_, e⟩ <;> simp [e, Timebase.enter]
@[simp] theorem select_tb_pendingSet (s : State) : s.select.tb.pendingSet = s.tb.pendingSet := by
  rcases select_cases s with ⟨_, e⟩ | ⟨_, e⟩ <;> simp [e, Timebase.enter]
@[simp] theorem select_tb_started (s : State) : s.select.tb.started = s.tb.started := by
  rcases select_cases s with ⟨_, e⟩ | ⟨_, e⟩ <;> simp [e, Timebase.enter]

/-- A selection leaves a store as it is, or re-centres it (R40). -/
theorem select_link_store (s : State) (k : LinkId) :
    (s.select.link k).store = (s.link k).store ∨ (s.select.link k).store = (s.link k).store.recentre := by
  rcases select_cases s with ⟨_, e⟩ | ⟨_, e⟩ <;> rw [e]
  · exact .inl rfl
  · rw [enterSource_link_store]; split
    · exact .inr rfl
    · exact .inl rfl

/-- A selection sets no adoption (R55). -/
theorem select_tb_adoption (s : State) :
    s.select.tb.pendingAdoption = s.tb.pendingAdoption ∨ s.select.tb.pendingAdoption = none := by
  rcases select_cases s with ⟨_, e⟩ | ⟨_, e⟩ <;> simp [e, Timebase.enter]

/-- The qualification of an entry depends on the links' counts alone (R52). -/
theorem qualified_congr {s t : State} (h : ∀ l, (t.link l).rx.qualCount = (s.link l).rx.qualCount) (e : RefEntry) :
    t.qualified e = s.qualified e := by cases e <;> simp [State.qualified, h]

/-- The selection that an exit may bring about is a selection or nothing (R42). -/
theorem disqualified_cases (s : State) (l : LinkId) (q : Bool) :
    s.disqualified l q = s ∨ s.disqualified l q = s.select := by
  unfold State.disqualified; split <;> simp


@[simp] theorem disqualified_pending (s : State) (l : LinkId) (q : Bool) :
    (s.disqualified l q).pending = s.pending := by
  rcases disqualified_cases s l q with e | e <;> simp [e]
@[simp] theorem disqualified_map (s : State) (l : LinkId) (q : Bool) : (s.disqualified l q).map = s.map := by
  rcases disqualified_cases s l q with e | e <;> simp [e]
@[simp] theorem disqualified_bank (s : State) (l : LinkId) (q : Bool) : (s.disqualified l q).bank = s.bank := by
  rcases disqualified_cases s l q with e | e <;> simp [e]
@[simp] theorem disqualified_bridges (s : State) (l : LinkId) (q : Bool) :
    (s.disqualified l q).bridges = s.bridges := by
  rcases disqualified_cases s l q with e | e <;> simp [e]
@[simp] theorem disqualified_agent (s : State) (l : LinkId) (q : Bool) : (s.disqualified l q).agent = s.agent := by
  rcases disqualified_cases s l q with e | e <;> simp [e]
@[simp] theorem disqualified_link_config (s : State) (l k : LinkId) (q : Bool) :
    ((s.disqualified l q).link k).config = (s.link k).config := by
  rcases disqualified_cases s l q with e | e <;> simp [e]
@[simp] theorem disqualified_link_rx (s : State) (l k : LinkId) (q : Bool) :
    ((s.disqualified l q).link k).rx = (s.link k).rx := by
  rcases disqualified_cases s l q with e | e <;> simp [e]
@[simp] theorem disqualified_link_tx (s : State) (l k : LinkId) (q : Bool) :
    ((s.disqualified l q).link k).tx = (s.link k).tx := by
  rcases disqualified_cases s l q with e | e <;> simp [e]
@[simp] theorem disqualified_link_assembler (s : State) (l k : LinkId) (q : Bool) :
    ((s.disqualified l q).link k).assembler = (s.link k).assembler := by
  rcases disqualified_cases s l q with e | e <;> simp [e]
@[simp] theorem disqualified_link_rxCount (s : State) (l k : LinkId) (q : Bool) :
    ((s.disqualified l q).link k).rxCount = (s.link k).rxCount := by
  rcases disqualified_cases s l q with e | e <;> simp [e]
@[simp] theorem disqualified_link_mgmtCount (s : State) (l k : LinkId) (q : Bool) :
    ((s.disqualified l q).link k).mgmtCount = (s.link k).mgmtCount := by
  rcases disqualified_cases s l q with e | e <;> simp [e]
@[simp] theorem disqualified_tb_refList (s : State) (l : LinkId) (q : Bool) :
    (s.disqualified l q).tb.refList = s.tb.refList := by
  rcases disqualified_cases s l q with e | e <;> simp [e]
@[simp] theorem disqualified_tb_revertive (s : State) (l : LinkId) (q : Bool) :
    (s.disqualified l q).tb.revertive = s.tb.revertive := by
  rcases disqualified_cases s l q with e | e <;> simp [e]
@[simp] theorem disqualified_tb_follow (s : State) (l : LinkId) (q : Bool) :
    (s.disqualified l q).tb.follow = s.tb.follow := by
  rcases disqualified_cases s l q with e | e <;> simp [e]
@[simp] theorem disqualified_tb_frameIndex (s : State) (l : LinkId) (q : Bool) :
    (s.disqualified l q).tb.frameIndex = s.tb.frameIndex := by
  rcases disqualified_cases s l q with e | e <;> simp [e]
@[simp] theorem disqualified_tb_number (s : State) (l : LinkId) (q : Bool) :
    (s.disqualified l q).tb.number = s.tb.number := by
  rcases disqualified_cases s l q with e | e <;> simp [e]
@[simp] theorem disqualified_tb_pendingSet (s : State) (l : LinkId) (q : Bool) :
    (s.disqualified l q).tb.pendingSet = s.tb.pendingSet := by
  rcases disqualified_cases s l q with e | e <;> simp [e]
@[simp] theorem disqualified_tb_started (s : State) (l : LinkId) (q : Bool) :
    (s.disqualified l q).tb.started = s.tb.started := by
  rcases disqualified_cases s l q with e | e <;> simp [e]

/-! ## Leaving and entering SYNC -/

@[simp] theorem leaveSync_pending (s : State) (l : LinkId) (a : Align) (c : DownCause) (rf : Bool) :
    (s.leaveSync l a c rf).pending = s.pending := by unfold State.leaveSync; simp only; split <;> simp
@[simp] theorem leaveSync_map (s : State) (l : LinkId) (a : Align) (c : DownCause) (rf : Bool) :
    (s.leaveSync l a c rf).map = s.map := by unfold State.leaveSync; simp only; split <;> simp
@[simp] theorem leaveSync_bank (s : State) (l : LinkId) (a : Align) (c : DownCause) (rf : Bool) :
    (s.leaveSync l a c rf).bank = s.bank := by unfold State.leaveSync; simp only; split <;> simp
@[simp] theorem leaveSync_bridges (s : State) (l : LinkId) (a : Align) (c : DownCause) (rf : Bool) :
    (s.leaveSync l a c rf).bridges = s.bridges := by unfold State.leaveSync; simp only; split <;> simp
@[simp] theorem leaveSync_agent (s : State) (l : LinkId) (a : Align) (c : DownCause) (rf : Bool) :
    (s.leaveSync l a c rf).agent = s.agent := by unfold State.leaveSync; simp only; split <;> simp
@[simp] theorem leaveSync_tb_refList (s : State) (l : LinkId) (a : Align) (c : DownCause) (rf : Bool) :
    (s.leaveSync l a c rf).tb.refList = s.tb.refList := by unfold State.leaveSync; simp only; split <;> simp
@[simp] theorem leaveSync_tb_revertive (s : State) (l : LinkId) (a : Align) (c : DownCause) (rf : Bool) :
    (s.leaveSync l a c rf).tb.revertive = s.tb.revertive := by unfold State.leaveSync; simp only; split <;> simp
@[simp] theorem leaveSync_tb_follow (s : State) (l : LinkId) (a : Align) (c : DownCause) (rf : Bool) :
    (s.leaveSync l a c rf).tb.follow = s.tb.follow := by unfold State.leaveSync; simp only; split <;> simp
@[simp] theorem leaveSync_tb_frameIndex (s : State) (l : LinkId) (a : Align) (c : DownCause) (rf : Bool) :
    (s.leaveSync l a c rf).tb.frameIndex = s.tb.frameIndex := by unfold State.leaveSync; simp only; split <;> simp
@[simp] theorem leaveSync_tb_number (s : State) (l : LinkId) (a : Align) (c : DownCause) (rf : Bool) :
    (s.leaveSync l a c rf).tb.number = s.tb.number := by unfold State.leaveSync; simp only; split <;> simp
@[simp] theorem leaveSync_tb_pendingSet (s : State) (l : LinkId) (a : Align) (c : DownCause) (rf : Bool) :
    (s.leaveSync l a c rf).tb.pendingSet = s.tb.pendingSet := by unfold State.leaveSync; simp only; split <;> simp
@[simp] theorem leaveSync_tb_started (s : State) (l : LinkId) (a : Align) (c : DownCause) (rf : Bool) :
    (s.leaveSync l a c rf).tb.started = s.tb.started := by unfold State.leaveSync; simp only; split <;> simp
theorem leaveSync_link_config (s : State) (l k : LinkId) (a : Align) (c : DownCause) (rf : Bool) :
    ((s.leaveSync l a c rf).link k).config = ((s.updLink l (·.outOfSync a c)).link k).config := by
  unfold State.leaveSync; simp only; split <;> simp
theorem leaveSync_link_rx (s : State) (l k : LinkId) (a : Align) (c : DownCause) (rf : Bool) :
    ((s.leaveSync l a c rf).link k).rx = ((s.updLink l (·.outOfSync a c)).link k).rx := by
  unfold State.leaveSync; simp only; split <;> simp
theorem leaveSync_link_tx (s : State) (l k : LinkId) (a : Align) (c : DownCause) (rf : Bool) :
    ((s.leaveSync l a c rf).link k).tx = ((s.updLink l (·.outOfSync a c)).link k).tx := by
  unfold State.leaveSync; simp only; split <;> simp
theorem leaveSync_link_assembler (s : State) (l k : LinkId) (a : Align) (c : DownCause) (rf : Bool) :
    ((s.leaveSync l a c rf).link k).assembler = ((s.updLink l (·.outOfSync a c)).link k).assembler := by
  unfold State.leaveSync; simp only; split <;> simp
theorem leaveSync_link_rxCount (s : State) (l k : LinkId) (a : Align) (c : DownCause) (rf : Bool) :
    ((s.leaveSync l a c rf).link k).rxCount = ((s.updLink l (·.outOfSync a c)).link k).rxCount := by
  unfold State.leaveSync; simp only; split <;> simp
theorem leaveSync_link_mgmtCount (s : State) (l k : LinkId) (a : Align) (c : DownCause) (rf : Bool) :
    ((s.leaveSync l a c rf).link k).mgmtCount = ((s.updLink l (·.outOfSync a c)).link k).mgmtCount := by
  unfold State.leaveSync; simp only; split <;> simp
@[simp] theorem leaveSync_config (s : State) (l k : LinkId) (a : Align) (c : DownCause) (rf : Bool) :
    ((s.leaveSync l a c rf).link k).config = (s.link k).config := by
  rw [leaveSync_link_config]; exact updLink_read (fun y : Link => y.config) s l k _ rfl
@[simp] theorem leaveSync_tx (s : State) (l k : LinkId) (a : Align) (c : DownCause) (rf : Bool) :
    ((s.leaveSync l a c rf).link k).tx = (s.link k).tx := by
  rw [leaveSync_link_tx]; exact updLink_read (fun y : Link => y.tx) s l k _ rfl
@[simp] theorem leaveSync_mgmtCount (s : State) (l k : LinkId) (a : Align) (c : DownCause) (rf : Bool) :
    ((s.leaveSync l a c rf).link k).mgmtCount = (s.link k).mgmtCount := by
  rw [leaveSync_link_mgmtCount]; exact updLink_read (fun y : Link => y.mgmtCount) s l k _ rfl
theorem leaveSync_rx_ne (s : State) {l k : LinkId} (h : k ≠ l) (a : Align) (c : DownCause) (rf : Bool) :
    ((s.leaveSync l a c rf).link k).rx = (s.link k).rx := by
  rw [leaveSync_link_rx, link_updLink_ne _ h]
theorem leaveSync_rx_self (s : State) (l : LinkId) (a : Align) (c : DownCause) (rf : Bool) :
    ((s.leaveSync l a c rf).link l).rx = ((s.link l).outOfSync a c).rx := by
  rw [leaveSync_link_rx, link_updLink_self]
theorem leaveSync_assembler_ne (s : State) {l k : LinkId} (h : k ≠ l) (a : Align) (c : DownCause) (rf : Bool) :
    ((s.leaveSync l a c rf).link k).assembler = (s.link k).assembler := by
  rw [leaveSync_link_assembler, link_updLink_ne _ h]
theorem leaveSync_assembler_self (s : State) (l : LinkId) (a : Align) (c : DownCause) (rf : Bool) :
    ((s.leaveSync l a c rf).link l).assembler = ((s.link l).outOfSync a c).assembler := by
  rw [leaveSync_link_assembler, link_updLink_self]
theorem leaveSync_rxCount_ne (s : State) {l k : LinkId} (h : k ≠ l) (a : Align) (c : DownCause) (rf : Bool) :
    ((s.leaveSync l a c rf).link k).rxCount = (s.link k).rxCount := by
  rw [leaveSync_link_rxCount, link_updLink_ne _ h]
theorem leaveSync_rxCount_self (s : State) (l : LinkId) (a : Align) (c : DownCause) (rf : Bool) :
    ((s.leaveSync l a c rf).link l).rxCount = ((s.link l).outOfSync a c).rxCount := by
  rw [leaveSync_link_rxCount, link_updLink_self]

/-- The stores after an exit from SYNC: the link's own emptied, and any re-centred at most (R39, R40). -/
theorem leaveSync_link_store (s : State) (l k : LinkId) (a : Align) (c : DownCause) (rf : Bool) :
    ((s.leaveSync l a c rf).link k).store = ((s.updLink l (·.outOfSync a c)).link k).store ∨
    ((s.leaveSync l a c rf).link k).store = ((s.updLink l (·.outOfSync a c)).link k).store.recentre := by
  unfold State.leaveSync; simp only
  split
  · rw [report_link_store]
    rcases disqualified_cases (s.updLink l (·.outOfSync a c)) l
      (decide ((s.link l).rx.qualCount = Config.qualifiedCount)) with e | e <;> rw [e]
    · exact .inl rfl
    · exact select_link_store ..
  · rcases disqualified_cases ((s.updLink l (·.outOfSync a c)).report .linkDown (linkSubject l) (downCode c)) l
      (decide ((s.link l).rx.qualCount = Config.qualifiedCount)) with e | e <;> rw [e]
    · exact .inl (by simp)
    · simpa using select_link_store ((s.updLink l (·.outOfSync a c)).report .linkDown (linkSubject l) (downCode c)) k

theorem leaveSync_store_self (s : State) (l : LinkId) (a : Align) (c : DownCause) (rf : Bool) :
    ((s.leaveSync l a c rf).link l).store = (s.link l).store.emptied := by
  have h : ((s.updLink l (·.outOfSync a c)).link l).store = (s.link l).store.emptied := by
    rw [link_updLink_self]; rfl
  rcases leaveSync_link_store s l l a c rf with e | e <;> rw [e, h]
  simp [Store.recentre, Store.emptied, Config.storeCapacity]


@[simp] theorem enterSync_pending (s : State) (l : LinkId) (w : Word) : (s.enterSync l w).pending = s.pending := by
  simp [State.enterSync]
@[simp] theorem enterSync_map (s : State) (l : LinkId) (w : Word) : (s.enterSync l w).map = s.map := by
  simp [State.enterSync]
@[simp] theorem enterSync_bank (s : State) (l : LinkId) (w : Word) : (s.enterSync l w).bank = s.bank := by
  simp [State.enterSync]
@[simp] theorem enterSync_bridges (s : State) (l : LinkId) (w : Word) : (s.enterSync l w).bridges = s.bridges := by
  simp [State.enterSync]
@[simp] theorem enterSync_agent (s : State) (l : LinkId) (w : Word) : (s.enterSync l w).agent = s.agent := by
  simp [State.enterSync]
@[simp] theorem enterSync_tb (s : State) (l : LinkId) (w : Word) : (s.enterSync l w).tb = s.tb := by
  simp [State.enterSync]
@[simp] theorem enterSync_link_config (s : State) (l k : LinkId) (w : Word) :
    ((s.enterSync l w).link k).config = (s.link k).config := by
  simp only [State.enterSync, report_link_config]; exact updLink_read (fun y : Link => y.config) s l k _ rfl
@[simp] theorem enterSync_link_tx (s : State) (l k : LinkId) (w : Word) :
    ((s.enterSync l w).link k).tx = (s.link k).tx := by
  simp only [State.enterSync, report_link_tx]; exact updLink_read (fun y : Link => y.tx) s l k _ rfl
@[simp] theorem enterSync_link_assembler (s : State) (l k : LinkId) (w : Word) :
    ((s.enterSync l w).link k).assembler = (s.link k).assembler := by
  simp only [State.enterSync, report_link_assembler]; exact updLink_read (fun y : Link => y.assembler) s l k _ rfl
@[simp] theorem enterSync_link_rxCount (s : State) (l k : LinkId) (w : Word) :
    ((s.enterSync l w).link k).rxCount = (s.link k).rxCount := by
  simp only [State.enterSync, report_link_rxCount]; exact updLink_read (fun y : Link => y.rxCount) s l k _ rfl
@[simp] theorem enterSync_link_mgmtCount (s : State) (l k : LinkId) (w : Word) :
    ((s.enterSync l w).link k).mgmtCount = (s.link k).mgmtCount := by
  simp only [State.enterSync, report_link_mgmtCount]; exact updLink_read (fun y : Link => y.mgmtCount) s l k _ rfl
theorem enterSync_rx_ne (s : State) {l k : LinkId} (h : k ≠ l) (w : Word) :
    ((s.enterSync l w).link k).rx = (s.link k).rx := by simp [State.enterSync, link_updLink_ne _ h]
theorem enterSync_store_ne (s : State) {l k : LinkId} (h : k ≠ l) (w : Word) :
    ((s.enterSync l w).link k).store = (s.link k).store := by simp [State.enterSync, link_updLink_ne _ h]
theorem enterSync_rx_self (s : State) (l : LinkId) (w : Word) :
    ((s.enterSync l w).link l).rx =
      { (s.link l).rx with align := .sync (headerOf w).succ 0 (some ((s.link l).beginFrame w true)) } := by
  simp [State.enterSync]

theorem enterSync_store_self (s : State) (l : LinkId) (w : Word) :
    ((s.enterSync l w).link l).store = (s.link l).store.emptied := by simp [State.enterSync]

/-! ## The notice controller and the mask -/

theorem select_notice (s : State) (h : s.notice.state ≠ .quiet) : s.select.notice = s.notice := by
  rcases select_cases s with ⟨_, e⟩ | ⟨_, e⟩ <;> rw [e]
  unfold State.enterSource
  rw [report_notice _ _ _ _ (by simpa using h)]; simp

theorem leaveSync_notice (s : State) (l : LinkId) (a : Align) (d : DownCause) (rf : Bool) (h : s.notice.state ≠ .quiet) :
    (s.leaveSync l a d rf).notice = s.notice := by
  unfold State.leaveSync
  simp only
  have hd : ∀ u : State, ∀ q, u.notice = s.notice → (u.disqualified l q).notice = s.notice := by
    intro u q hu
    rcases disqualified_cases u l q with e | e <;> rw [e]
    · exact hu
    · rw [select_notice _ (by rwa [hu]), hu]
  split
  · rw [report_notice]
    · exact hd _ _ rfl
    · rw [hd _ _ (by rfl)]; exact h
  · exact hd _ _ (report_notice _ _ _ _ h)

@[simp] theorem select_mask (s : State) : s.select.events.mask = s.events.mask := by
  rcases select_cases s with ⟨_, e⟩ | ⟨_, e⟩ <;> simp [e, State.enterSource]

@[simp] theorem leaveSync_mask (s : State) (l : LinkId) (a : Align) (d : DownCause) (rf : Bool) :
    (s.leaveSync l a d rf).events.mask = s.events.mask := by
  unfold State.leaveSync; simp only
  split
  · rw [report_mask]
    rcases disqualified_cases (s.updLink l (·.outOfSync a d)) l
      (decide ((s.link l).rx.qualCount = Config.qualifiedCount)) with e | e <;> simp [e]
  · rcases disqualified_cases ((s.updLink l (·.outOfSync a d)).report .linkDown (linkSubject l) (downCode d)) l
      (decide ((s.link l).rx.qualCount = Config.qualifiedCount)) with e | e <;> simp [e]

/-! ## Quiet links -/

theorem updLink_quiet (s : State) (k l : LinkId) (f : Link → Link) (h : (s.link l).quiet)
    (hf : (s.link k).quiet → (f (s.link k)).quiet) :
   ((s.updLink k f).link l).quiet := by
  rw [link_updLink]; split
  · next e => subst e; exact hf h
  · exact h

theorem quiet_congr {x y : Link} (h1 : y.rx = x.rx) (h2 : y.store.queue = x.store.queue)
    (h2' : y.store.primed = x.store.primed) (h3 : y.assembler = x.assembler) : x.quiet → y.quiet := by
  unfold Link.quiet; rw [h1, h2, h2', h3]; exact id

theorem report_quiet (s : State) (k : EventKind) (a b : Byte) (l : LinkId) (h : (s.link l).quiet) :
    ((s.report k a b).link l).quiet :=
  quiet_congr (by simp) (by simp) (by simp) (by simp) h

theorem select_quiet (s : State) (l : LinkId) (h : (s.link l).quiet) : (s.select.link l).quiet := by
  rcases select_link_store s l with e | e
  · exact quiet_congr (by simp) (by rw [e]) (by rw [e]) (by simp) h
  · have : (s.link l).store.recentre = (s.link l).store := by unfold Store.recentre; rw [h.1]; simp [Config.storeCapacity]
    exact quiet_congr (by simp) (by rw [e, this]) (by rw [e, this]) (by simp) h

theorem outOfSync_quiet (x : Link) (a : Align) (d : DownCause) : (x.outOfSync a d).quiet := by
  simp [Link.outOfSync, Link.quiet, Store.emptied]

theorem leaveSync_quiet_self (s : State) (l : LinkId) (a : Align) (d : DownCause) (rf : Bool) :
    ((s.leaveSync l a d rf).link l).quiet :=
  quiet_congr (leaveSync_rx_self ..) (by rw [leaveSync_store_self]; rfl) (by rw [leaveSync_store_self]; rfl)
    (leaveSync_assembler_self ..)
    (outOfSync_quiet (s.link l) a d)

theorem leaveSync_quiet (s : State) (k l : LinkId) (a : Align) (d : DownCause) (rf : Bool) (h : (s.link l).quiet) :
    ((s.leaveSync k a d rf).link l).quiet := by
  by_cases e : l = k
  · subst e; exact leaveSync_quiet_self ..
  · have hs : ((s.leaveSync k a d rf).link l).store = (s.link l).store := by
      have : (s.link l).store.recentre = (s.link l).store := by unfold Store.recentre; rw [h.1]; simp [Config.storeCapacity]
      rcases leaveSync_link_store s k l a d rf with q | q <;> rw [q, link_updLink_ne _ e]
      exact this
    exact quiet_congr (leaveSync_rx_ne _ e ..) (by rw [hs]) (by rw [hs]) (leaveSync_assembler_ne _ e ..) h

/-- A selection never answers a link that is not qualified (R54). -/
theorem select_not_locked {s : State} {l : LinkId} (h : s.qualified (.link l) = false) :
    s.select.tb.source ≠ .locked l := by
  have hf : s.firstQualified ≠ .locked l := by
    unfold State.firstQualified
    split
    · next e he =>
      have hq := List.find?_some he
      cases e with
      | localClock => simp [RefEntry.source]
      | link k =>
        simp only [RefEntry.source, ne_eq, TimeSource.locked.injEq]
        rintro rfl
        simp [h] at hq
    · simp
  rw [select_source, State.chooseSource]
  split
  · exact hf
  · next e he =>
    split
    · exact hf
    · next hc =>
      intro hs
      rw [hs] at he
      cases he
      simp [h] at hc

/-- When a qualified link the timebase is LOCKED to leaves SYNC, the timebase leaves it at that moment (R54). -/
theorem leaveSync_not_locked (s : State) (l : LinkId) (a : Align) (d : DownCause) (rf : Bool)
    (hs : s.tb.source = .locked l) (hq : (s.link l).rx.qualCount = 16) :
    (s.leaveSync l a d rf).tb.source ≠ .locked l := by
  unfold State.leaveSync
  have hq' : decide ((s.link l).rx.qualCount = Config.qualifiedCount) = true := by rw [hq]; rfl
  simp only [hq']
  split
  · simp only [report_tb, State.disqualified]
    rw [if_pos (by simp [hs])]
    exact select_not_locked (by simp [State.qualified, Link.outOfSync, Config.qualifiedCount])
  · simp only [State.disqualified]
    rw [if_pos (by simp [hs])]
    exact select_not_locked (by simp [State.qualified, Link.outOfSync, Config.qualifiedCount])

/-! ## Records across a selection and the leaving of SYNC (R26, R55, R182) -/

theorem enterSource_report (s : State) (x : TimeSource) :
    ∃ u : State, s.enterSource x = u.report .refChange partWide (timeSourceCode x) ∧ u.events = s.events := by
  refine ⟨_, rfl, ?_⟩
  unfold State.recentreSource; split <;> rfl

/-- A selection gives up no record, and changes none that is not a SLIP record. -/
theorem select_keeps_record {r : EventRecord} (hk : r.kind ≠ .slip) (s : State) (h : r ∈ s.events.records) :
    r ∈ s.select.events.records := by
  rcases select_cases s with ⟨_, e⟩ | ⟨_, e⟩ <;> rw [e]
  · exact h
  · obtain ⟨u, e, he⟩ := enterSource_report s s.chooseSource
    rw [e]; exact report_keeps_record hk _ _ _ _ (by rw [he]; exact h)

theorem select_length (s : State) : s.select.events.records.length ≤ s.events.records.length + 1 := by
  rcases select_cases s with ⟨_, e⟩ | ⟨_, e⟩ <;> rw [e]
  · omega
  · obtain ⟨u, e, he⟩ := enterSource_report s s.chooseSource
    rw [e, ← he]; exact report_length _ _ _ _

theorem disqualified_keeps_record {r : EventRecord} (hk : r.kind ≠ .slip) (s : State) (l : LinkId) (q : Bool)
    (h : r ∈ s.events.records) : r ∈ (s.disqualified l q).events.records := by
  rcases disqualified_cases s l q with e | e <;> rw [e]
  · exact h
  · exact select_keeps_record hk _ h

theorem disqualified_length (s : State) (l : LinkId) (q : Bool) :
    (s.disqualified l q).events.records.length ≤ s.events.records.length + 1 := by
  rcases disqualified_cases s l q with e | e <;> rw [e]
  · omega
  · exact select_length _

/-- The leaving of SYNC gives up no record, and changes none that is not a SLIP record. -/
theorem leaveSync_keeps_record {r : EventRecord} (hk : r.kind ≠ .slip) (s : State) (l : LinkId) (a : Align)
    (d : DownCause) (rf : Bool) (h : r ∈ s.events.records) : r ∈ (s.leaveSync l a d rf).events.records := by
  unfold State.leaveSync
  simp only
  split
  · exact report_keeps_record hk _ _ _ _ (disqualified_keeps_record hk _ _ _ h)
  · exact disqualified_keeps_record hk _ _ _ (report_keeps_record hk _ _ _ _ h)

/-- The leaving of SYNC makes at most two records. -/
theorem leaveSync_length (s : State) (l : LinkId) (a : Align) (d : DownCause) (rf : Bool) :
    (s.leaveSync l a d rf).events.records.length ≤ s.events.records.length + 2 := by
  unfold State.leaveSync
  simp only
  split
  · exact (report_length _ _ _ _).trans (Nat.add_le_add_right (disqualified_length _ _ _) 1)
  · exact (disqualified_length _ _ _).trans (Nat.add_le_add_right (report_length _ _ _ _) 1)

/-! ## Which store a selection re-centres (R40, R54, R55) -/

/-- What a selection does to a store: the one of the link it newly locks to is re-centred (R40, R55). -/
theorem select_link_store_eq (s : State) (l : LinkId) :
    (s.select.link l).store = if s.select.tb.source = .locked l ∧ s.tb.source ≠ .locked l
      then (s.link l).store.recentre else (s.link l).store := by
  rw [select_source]
  rcases select_cases s with ⟨h, e⟩ | ⟨h, e⟩ <;> rw [e]
  · rw [h, if_neg (fun c => c.2 c.1)]
  · rw [enterSource_link_store]
    by_cases hc : s.chooseSource = .locked l
    · rw [if_pos hc, if_pos ⟨hc, fun q => h (hc.trans q.symm)⟩]
    · rw [if_neg hc, if_neg fun q => hc q.1]

/-- A selection locks the timebase anew to a listed link alone (R54). -/
theorem select_source_listed {s : State} {l : LinkId} (h : s.select.tb.source = .locked l)
    (hs : s.tb.source ≠ .locked l) : .link l ∈ s.tb.refList := by
  have hf : s.firstQualified = .locked l → .link l ∈ s.tb.refList := by
    unfold State.firstQualified
    split
    · next e he =>
      cases e with
      | localClock => simp [RefEntry.source]
      | link k =>
        simp only [RefEntry.source, TimeSource.locked.injEq]
        rintro rfl
        exact List.mem_of_find?_eq_some he
    · simp
  rw [select_source, State.chooseSource] at h
  split at h
  · exact hf h
  · split at h
    · exact hf h
    · exact absurd h hs

/-- `t` comes of `s` by at most a selection as far as the source, the list and the store of `l` are concerned: the store
is re-centred exactly where `l` became the source, which only a listed link does (R40, R54, R55). -/
def RecentredAsLocked (l : LinkId) (s t : State) : Prop :=
  t.tb.refList = s.tb.refList ∧
  (t.link l).store = (if t.tb.source = .locked l ∧ s.tb.source ≠ .locked l
    then (s.link l).store.recentre else (s.link l).store) ∧
  (t.tb.source = .locked l → s.tb.source ≠ .locked l → .link l ∈ s.tb.refList)

theorem recentredAsLocked_of_same {l : LinkId} {s t : State} (h : t.tb.source = s.tb.source)
    (hr : t.tb.refList = s.tb.refList) (hl : (t.link l).store = (s.link l).store) : RecentredAsLocked l s t := by
  refine ⟨hr, ?_, fun a b => absurd (h ▸ a) b⟩
  rw [hl, h, if_neg fun c => c.2 c.1]

theorem select_recentredAsLocked (l : LinkId) (s : State) : RecentredAsLocked l s s.select :=
  ⟨select_tb_refList s, select_link_store_eq s l, select_source_listed⟩

theorem recentredAsLocked_congr {l : LinkId} {s t s' t' : State} (h : RecentredAsLocked l s t)
    (a1 : s'.tb.source = s.tb.source) (a2 : s'.tb.refList = s.tb.refList) (a3 : (s'.link l).store = (s.link l).store)
    (b1 : t'.tb.source = t.tb.source) (b2 : t'.tb.refList = t.tb.refList) (b3 : (t'.link l).store = (t.link l).store) :
    RecentredAsLocked l s' t' := by
  unfold RecentredAsLocked at *
  rw [a1, a2, a3, b1, b2, b3]; exact h

theorem disqualified_recentredAsLocked (l k : LinkId) (s : State) (q : Bool) :
    RecentredAsLocked l s (s.disqualified k q) := by
  rcases disqualified_cases s k q with e | e <;> rw [e]
  · exact recentredAsLocked_of_same rfl rfl rfl
  · exact select_recentredAsLocked l s

/-- Leaving SYNC empties the store of the link itself and brings about a selection at most (R39, R40, R42). -/
theorem leaveSync_recentredAsLocked (l k : LinkId) (s : State) (a : Align) (d : DownCause) (rf : Bool) :
    RecentredAsLocked l (s.updLink k (·.outOfSync a d)) (s.leaveSync k a d rf) := by
  have h := disqualified_recentredAsLocked l k (q := decide ((s.link k).rx.qualCount = Config.qualifiedCount))
  unfold State.leaveSync
  simp only
  split
  · exact recentredAsLocked_congr (h (s.updLink k (·.outOfSync a d))) rfl rfl rfl (by simp) (by simp) (by simp)
  · exact recentredAsLocked_congr (h ((s.updLink k (·.outOfSync a d)).report .linkDown (linkSubject k) (downCode d)))
      (by simp) (by simp) (by simp) rfl rfl rfl

end Sys2Proof.Machine
end

