-- ==== Sys2Proof/Laws/Start.lean ====
section
/-!
SUPPORT. Local frame starts: the acts of a start are taken once each, whatever order is asked for; what each act leaves
alone; the timebase and the number at a start (R47, R58).
-/

namespace Sys2Proof.Machine

/-! ## The order of the acts -/

theorem mem_firstOccurrences {α : Type} [DecidableEq α] {x : α} : ∀ {as : List α}, x ∈ firstOccurrences as ↔ x ∈ as
  | [] => by simp [firstOccurrences]
  | a :: as => by
    simp only [firstOccurrences, List.mem_cons, List.mem_filter, decide_eq_true_eq, mem_firstOccurrences (as := as)]
    by_cases h : x = a <;> simp [h]

theorem nodup_firstOccurrences {α : Type} [DecidableEq α] : ∀ as : List α, (firstOccurrences as).Nodup
  | [] => by simp [firstOccurrences]
  | a :: as => by
    simp only [firstOccurrences, List.nodup_cons, List.mem_filter]
    exact ⟨by simp, (nodup_firstOccurrences as).filter _⟩

/-- A list is what stands before the first `b`, that `b`, and what follows. -/
theorem split_at_first {α : Type} [DecidableEq α] {b : α} {as : List α} (h : b ∈ as) :
    as = as.takeWhile (· ≠ b) ++ b :: (as.dropWhile (· ≠ b)).drop 1 := by
  induction as with
  | nil => simp at h
  | cons a as ih =>
    by_cases e : a = b
    · subst e; simp
    · have : b ∈ as := by simpa [Ne.symm e] using h
      simp only [List.takeWhile_cons, List.dropWhile_cons, e, ne_eq, not_false_eq_true, decide_true, if_true,
        List.cons_append]
      exact congrArg _ (ih this)

theorem bringForward_perm (p : StartAct → Bool) {b : StartAct} {acts : List StartAct} (h : b ∈ acts) :
    (bringForward p b acts).Perm acts := by
  conv => rhs; rw [split_at_first h]
  unfold bringForward
  simp only [List.append_assoc]
  refine List.Perm.append_left _ ?_
  simp only [List.singleton_append]
  exact List.perm_middle.trans (List.Perm.cons _ (List.filter_append_perm _ _))

theorem holdBack_perm (p : StartAct → Bool) {b : StartAct} {acts : List StartAct} (h : b ∈ acts) :
    (holdBack p b acts).Perm acts := by
  conv => rhs; rw [split_at_first h]
  unfold holdBack
  simp only [List.append_assoc, List.singleton_append]
  set pre := acts.takeWhile (· ≠ b)
  set post := (acts.dropWhile (· ≠ b)).drop 1
  refine List.perm_middle.trans (List.Perm.trans (List.Perm.cons _ ?_) List.perm_middle.symm)
  have := List.Perm.append_right post
    (List.perm_append_comm.trans (List.filter_append_perm p pre) : (pre.filter (!p ·) ++ pre.filter p).Perm pre)
  rwa [List.append_assoc] at this

theorem mem_allStartActs (a : StartAct) : a ∈ allStartActs := by
  cases a <;> simp [allStartActs]

/-- The acts of a start are taken once each, whatever order is asked for. -/
theorem startSequence_perm (r : Bool) (order : List StartAct) :
    (startSequence r order).Perm (firstOccurrences (order ++ allStartActs)) := by
  have ha : ∀ a, a ∈ firstOccurrences (order ++ allStartActs) := fun a =>
    mem_firstOccurrences.2 (List.mem_append_right _ (mem_allStartActs a))
  unfold startSequence
  simp only
  set all := firstOccurrences (order ++ allStartActs)
  set cut := r && (all.takeWhile (· ≠ .schedule)).contains .softReset
  set framed := bringForward (fun a => frameNeeds a && !(cut && a = .schedule)) .transmit all with hf
  have h1 : framed.Perm all := bringForward_perm _ (ha _)
  have h2 : (holdBack (· = .noticeTest) .management framed).Perm all :=
    (holdBack_perm _ (h1.mem_iff.2 (ha _))).trans h1
  have h3 := (holdBack_perm (· = .softReset) (h2.mem_iff.2 (ha StartAct.transmit))).trans h2
  split
  · exact (holdBack_perm _ (h3.mem_iff.2 (ha StartAct.softReset))).trans h3
  · exact h3

theorem mem_startSequence (r : Bool) (order : List StartAct) (a : StartAct) : a ∈ startSequence r order :=
  (startSequence_perm r order).mem_iff.2 (mem_firstOccurrences.2 (List.mem_append_right _ (mem_allStartActs a)))

theorem nodup_startSequence (r : Bool) (order : List StartAct) : (startSequence r order).Nodup :=
  (startSequence_perm r order).nodup_iff.2 (nodup_firstOccurrences _)

/-- The sequence of a start around one of its acts. -/
theorem startSequence_split (r : Bool) (order : List StartAct) (a : StartAct) :
    ∃ pre post, startSequence r order = pre ++ a :: post ∧ a ∉ pre ∧ a ∉ post := by
  obtain ⟨pre, post, h⟩ := List.append_of_mem (mem_startSequence r order a)
  have hn := nodup_startSequence r order
  rw [h] at hn
  have := List.nodup_middle.1 hn
  simp at this
  exact ⟨pre, post, h, by tauto, by tauto⟩

/-! ## What each act leaves alone -/

theorem bringForward_head (p : StartAct → Bool) {a b : StartAct} {as : List StartAct} (h : as.head? = some a)
    (hb : a ≠ b) : (bringForward p b as).head? = some a := by
  cases as with
  | nil => simp at h
  | cons x xs =>
    obtain rfl : x = a := by simpa using h
    simp [bringForward, hb]

theorem holdBack_head (p : StartAct → Bool) {a b : StartAct} {as : List StartAct} (h : as.head? = some a)
    (hb : a ≠ b) (hp : p a = false) : (holdBack p b as).head? = some a := by
  cases as with
  | nil => simp at h
  | cons x xs =>
    obtain rfl : x = a := by simpa using h
    simp [holdBack, hb, hp]

/-- Where the order asks for nothing first, or for the number first, the number is chosen first. -/
theorem startSequence_head {r : Bool} {order : List StartAct} (h : order = [] ∨ order.head? = some .number) :
    (startSequence r order).head? = some .number := by
  have h0 : (firstOccurrences (order ++ allStartActs)).head? = some .number := by
    rcases h with rfl | h
    · simp [allStartActs, firstOccurrences]
    · cases order with
      | nil => simp at h
      | cons a as => obtain rfl : a = .number := by simpa using h
                     rfl
  unfold startSequence
  simp only
  have h3 := fun p => holdBack_head (b := .transmit) (· = .softReset)
    (holdBack_head (b := .management) (· = .noticeTest) (bringForward_head (b := .transmit) p h0 (by decide))
      (by decide) (by decide)) (by decide) (by decide)
  split
  · exact holdBack_head (b := .softReset) (· = .schedule) (h3 _) (by decide) (by decide)
  · exact h3 _

/-! ## What the acts leave alone -/

@[simp] theorem fixManagement_pending (s : State) : s.fixManagement.pending = s.pending := rfl
@[simp] theorem fixManagement_tb (s : State) : s.fixManagement.tb = s.tb := rfl
@[simp] theorem fixManagement_map (s : State) : s.fixManagement.map = s.map := rfl
@[simp] theorem fixManagement_bank (s : State) : s.fixManagement.bank = s.bank := rfl
@[simp] theorem fixManagement_bridges (s : State) : s.fixManagement.bridges = s.bridges := rfl
@[simp] theorem fixManagement_agent (s : State) : s.fixManagement.agent = s.agent := rfl
@[simp] theorem fixManagement_events (s : State) : s.fixManagement.events = s.events := rfl
@[simp] theorem fixManagement_notice (s : State) : s.fixManagement.notice = s.notice := rfl
@[simp] theorem fixManagement_link (s : State) (l : LinkId) : s.fixManagement.link l = (s.link l).takeMgmtWord := by
  simp [State.fixManagement]

@[simp] theorem transmit_pending (s : State) : s.transmit.pending = s.pending := rfl
@[simp] theorem transmit_tb (s : State) : s.transmit.tb = s.tb := rfl
@[simp] theorem transmit_bank (s : State) : s.transmit.bank = s.bank := rfl
@[simp] theorem transmit_agent (s : State) : s.transmit.agent = s.agent := rfl
@[simp] theorem transmit_events (s : State) : s.transmit.events = s.events := rfl
@[simp] theorem transmit_notice (s : State) : s.transmit.notice = s.notice := rfl
@[simp] theorem transmit_entries (s : State) (k : Bank) :
    s.transmit.map.entries k = s.map.entries k := by
  cases k <;> simp [State.transmit, ConnMap.entries, State.evaluateBridges]
theorem transmit_link (s : State) (l : LinkId) : s.transmit.link l = s.evaluateBridges.sendLink l := by
  simp [State.transmit, State.link]
@[simp] theorem transmit_link_rx (s : State) (l : LinkId) : (s.transmit.link l).rx = (s.link l).rx := by
  rw [transmit_link]; rfl
@[simp] theorem transmit_link_config (s : State) (l : LinkId) : (s.transmit.link l).config = (s.link l).config := by
  rw [transmit_link]; rfl
@[simp] theorem transmit_link_store (s : State) (l : LinkId) : (s.transmit.link l).store = (s.link l).store := by
  rw [transmit_link]; rfl
@[simp] theorem transmit_link_assembler (s : State) (l : LinkId) :
    (s.transmit.link l).assembler = (s.link l).assembler := by rw [transmit_link]; rfl
@[simp] theorem transmit_link_queue (s : State) (l : LinkId) : (s.transmit.link l).queue = (s.link l).queue := by
  rw [transmit_link]; rfl

@[simp] theorem softReset_pending (s : State) : s.softReset.pending = s.pending := rfl
@[simp] theorem softReset_tb (s : State) : s.softReset.tb = s.tb := rfl
@[simp] theorem softReset_bank (s : State) : s.softReset.bank = .cleared := rfl
@[simp] theorem softReset_map (s : State) : s.softReset.map = .cleared := rfl
@[simp] theorem softReset_events (s : State) : s.softReset.events = .cleared := rfl
@[simp] theorem softReset_notice (s : State) : s.softReset.notice = .cleared := rfl
@[simp] theorem softReset_agent (s : State) :
    s.softReset.agent = { s.agent with resetPending := false, resetCause := .partReset } := rfl
@[simp] theorem softReset_link (s : State) (l : LinkId) : s.softReset.link l = (s.link l).partReset := by
  simp [State.softReset, State.link]

@[simp] theorem startAct_pending (x : StartCtx) (s : State) (a : StartAct) :
    (State.startAct x s a).pending = s.pending := by
  cases a <;> simp only [State.startAct, State.clockWatchAct, State.checkWindowAct, State.qualificationAct, State.timeStepAct,
    State.scheduleAct, State.fireSwitch, State.engineAct, State.processChunk, State.presentAct, State.noticeTimerAct,
    State.clearAllHolds] <;>
    (repeat' split) <;> simp_all

@[simp] theorem startAct_tb_frameIndex (x : StartCtx) (s : State) (a : StartAct) :
    (State.startAct x s a).tb.frameIndex = s.tb.frameIndex := by
  cases a <;> simp only [State.startAct, State.clockWatchAct, State.checkWindowAct, State.qualificationAct, State.timeStepAct,
    State.scheduleAct, State.fireSwitch, State.engineAct, State.processChunk, State.presentAct, State.noticeTimerAct,
    State.clearAllHolds] <;>
    (repeat' split) <;> simp_all

@[simp] theorem startAct_tb_number (x : StartCtx) (s : State) (a : StartAct) :
    (State.startAct x s a).tb.number = s.tb.number := by
  cases a <;> simp only [State.startAct, State.clockWatchAct, State.checkWindowAct, State.qualificationAct, State.timeStepAct,
    State.scheduleAct, State.fireSwitch, State.engineAct, State.processChunk, State.presentAct, State.noticeTimerAct,
    State.clearAllHolds] <;>
    (repeat' split) <;> simp_all

@[simp] theorem startAct_tb_pendingSet (x : StartCtx) (s : State) (a : StartAct) :
    (State.startAct x s a).tb.pendingSet = s.tb.pendingSet := by
  cases a <;> simp only [State.startAct, State.clockWatchAct, State.checkWindowAct, State.qualificationAct, State.timeStepAct,
    State.scheduleAct, State.fireSwitch, State.engineAct, State.processChunk, State.presentAct, State.noticeTimerAct,
    State.clearAllHolds] <;>
    (repeat' split) <;> simp_all

@[simp] theorem startAct_tb_started (x : StartCtx) (s : State) (a : StartAct) :
    (State.startAct x s a).tb.started = s.tb.started := by
  cases a <;> simp only [State.startAct, State.clockWatchAct, State.checkWindowAct, State.qualificationAct, State.timeStepAct,
    State.scheduleAct, State.fireSwitch, State.engineAct, State.processChunk, State.presentAct, State.noticeTimerAct,
    State.clearAllHolds] <;>
    (repeat' split) <;> simp_all

@[simp] theorem startAct_tb_refList (x : StartCtx) (s : State) (a : StartAct) :
    (State.startAct x s a).tb.refList = s.tb.refList := by
  cases a <;> simp only [State.startAct, State.clockWatchAct, State.checkWindowAct, State.qualificationAct, State.timeStepAct,
    State.scheduleAct, State.fireSwitch, State.engineAct, State.processChunk, State.presentAct, State.noticeTimerAct,
    State.clearAllHolds] <;>
    (repeat' split) <;> simp_all

@[simp] theorem startAct_tb_revertive (x : StartCtx) (s : State) (a : StartAct) :
    (State.startAct x s a).tb.revertive = s.tb.revertive := by
  cases a <;> simp only [State.startAct, State.clockWatchAct, State.checkWindowAct, State.qualificationAct, State.timeStepAct,
    State.scheduleAct, State.fireSwitch, State.engineAct, State.processChunk, State.presentAct, State.noticeTimerAct,
    State.clearAllHolds] <;>
    (repeat' split) <;> simp_all

@[simp] theorem startAct_tb_follow (x : StartCtx) (s : State) (a : StartAct) :
    (State.startAct x s a).tb.follow = s.tb.follow := by
  cases a <;> simp only [State.startAct, State.clockWatchAct, State.checkWindowAct, State.qualificationAct, State.timeStepAct,
    State.scheduleAct, State.fireSwitch, State.engineAct, State.processChunk, State.presentAct, State.noticeTimerAct,
    State.clearAllHolds] <;>
    (repeat' split) <;> simp_all

@[simp] theorem startAct_agent (x : StartCtx) (s : State) (a : StartAct) (h : a ≠ .softReset) :
    (State.startAct x s a).agent = s.agent := by
  cases a <;> simp only [State.startAct, State.clockWatchAct, State.checkWindowAct, State.qualificationAct, State.timeStepAct,
    State.scheduleAct, State.fireSwitch, State.engineAct, State.processChunk, State.presentAct, State.noticeTimerAct,
    State.clearAllHolds] <;>
    (repeat' split) <;> simp_all

@[simp] theorem startAct_bank (x : StartCtx) (s : State) (a : StartAct)
    (h : a ≠ .schedule ∧ a ≠ .engineChunk ∧ a ≠ .softReset) :
    (State.startAct x s a).bank = s.bank := by
  cases a <;> simp only [State.startAct, State.clockWatchAct, State.checkWindowAct, State.qualificationAct, State.timeStepAct,
    State.scheduleAct, State.fireSwitch, State.engineAct, State.processChunk, State.presentAct, State.noticeTimerAct,
    State.clearAllHolds] <;>
    (repeat' split) <;> simp_all

@[simp] theorem startAct_map (x : StartCtx) (s : State) (a : StartAct)
    (h : a ≠ .schedule ∧ a ≠ .engineChunk ∧ a ≠ .transmit ∧ a ≠ .softReset) :
    (State.startAct x s a).map = s.map := by
  cases a <;> simp only [State.startAct, State.clockWatchAct, State.checkWindowAct, State.qualificationAct, State.timeStepAct,
    State.scheduleAct, State.fireSwitch, State.engineAct, State.processChunk, State.presentAct, State.noticeTimerAct,
    State.clearAllHolds] <;>
    (repeat' split) <;> simp_all

@[simp] theorem startAct_bridges (x : StartCtx) (s : State) (a : StartAct) (h : a ≠ .transmit ∧ a ≠ .softReset) :
    (State.startAct x s a).bridges = s.bridges := by
  cases a <;> simp only [State.startAct, State.clockWatchAct, State.checkWindowAct, State.qualificationAct, State.timeStepAct,
    State.scheduleAct, State.fireSwitch, State.engineAct, State.processChunk, State.presentAct, State.noticeTimerAct,
    State.clearAllHolds] <;>
    (repeat' split) <;> simp_all

/-- A selection keeps the timebase or enters another source (R55). -/
theorem select_tb (s : State) : s.select.tb = s.tb ∨ ∃ new, s.select.tb = s.tb.enter new := by
  rcases select_cases s with ⟨_, e⟩ | ⟨_, e⟩ <;> rw [e]
  · exact .inl rfl
  · exact .inr ⟨_, enterSource_tb ..⟩

theorem leaveSync_tb (s : State) (l : LinkId) (a : Align) (d : DownCause) (rf : Bool) :
    (s.leaveSync l a d rf).tb = s.tb ∨ ∃ new, (s.leaveSync l a d rf).tb = s.tb.enter new := by
  unfold State.leaveSync
  simp only
  split
  · rw [report_tb]
    rcases disqualified_cases (s.updLink l (·.outOfSync a d)) l
      (decide ((s.link l).rx.qualCount = Config.qualifiedCount)) with e | e <;> rw [e]
    · exact .inl rfl
    · exact select_tb (s.updLink l _)
  · rcases disqualified_cases ((s.updLink l (·.outOfSync a d)).report .linkDown (linkSubject l) (downCode d)) l
      (decide ((s.link l).rx.qualCount = Config.qualifiedCount)) with e | e <;> rw [e]
    · exact .inl (report_tb ..)
    · have := select_tb ((s.updLink l (·.outOfSync a d)).report .linkDown (linkSubject l) (downCode d))
      rwa [report_tb] at this

/-- An act of a start keeps the timebase or enters another source. -/
theorem startAct_tb (x : StartCtx) (s : State) (a : StartAct) :
    (State.startAct x s a).tb = s.tb ∨ ∃ new, (State.startAct x s a).tb = s.tb.enter new := by
  cases a with
  | clockWatch l =>
    simp only [State.startAct, State.clockWatchAct]
    (repeat' split) <;> first | exact .inl rfl | exact leaveSync_tb (s.updLink l _) ..
  | qualification l =>
    simp only [State.startAct, State.qualificationAct]
    (repeat' split) <;> first | exact .inl rfl | exact select_tb (s.updLink l _)
  | _ =>
    left
    simp only [State.startAct, State.checkWindowAct, State.timeStepAct, State.scheduleAct, State.fireSwitch,
      State.engineAct, State.processChunk, State.presentAct, State.noticeTimerAct, State.clearAllHolds] <;>
    (repeat' split) <;> simp_all

/-! ## Starts -/

/-- Acts that each keep `p` keep it together. -/
theorem startFold_keeps {γ : Type} (p : State → γ) (x : StartCtx) :
    ∀ (acts : List StartAct) (s : State), (∀ a ∈ acts, ∀ u, p (State.startAct x u a) = p u) →
      p (acts.foldl (State.startAct x) s) = p s
  | [], _, _ => rfl
  | a :: as, s, h => by
    rw [List.foldl_cons, startFold_keeps p x as _ fun b hb => h b (List.mem_cons_of_mem _ hb)]
    exact h a List.mem_cons_self s

/-- What each act keeps true stays true. -/
theorem startFold_induct (P : State → Prop) (x : StartCtx) :
    ∀ (acts : List StartAct) (s : State), (∀ a ∈ acts, ∀ u, P u → P (State.startAct x u a)) → P s →
      P (acts.foldl (State.startAct x) s)
  | [], _, _, hs => hs
  | a :: as, s, h, hs => startFold_induct P x as _ (fun b hb => h b (List.mem_cons_of_mem _ hb))
      (h a List.mem_cons_self s hs)

/-- The start that comes, act by act. -/
theorem localFrameStart_eq {s : State} {i : StartInput} {k : Bool} (h : s.tb.startKind i.elapsed = some k) :
    s.localFrameStart i = (startSequence s.resetDue i.order).foldl (State.startAct (s.startCtx i))
      (s.withTb (s.tb.beginFrame (s.startCtx i).new k i.elapsed)) := by
  unfold State.localFrameStart; rw [h]; rfl

/-- Where the source gives no start, nothing happens (R49). -/
theorem localFrameStart_none {s : State} {i : StartInput} (h : s.tb.startKind i.elapsed = none) :
    s.localFrameStart i = s := by
  unfold State.localFrameStart; rw [h]

@[simp] theorem startCtx_superframe (s : State) (i : StartInput) : (s.startCtx i).superframe = s.tb.superframeDue := rfl
@[simp] theorem startCtx_old (s : State) (i : StartInput) : (s.startCtx i).old = s.tb.number := rfl
@[simp] theorem startCtx_rxc (s : State) (i : StartInput) : (s.startCtx i).rxc = i.rxc := rfl
@[simp] theorem startCtx_refFirst (s : State) (i : StartInput) : (s.startCtx i).refFirst = i.refFirst := rfl
@[simp] theorem startCtx_timerRunning (s : State) (i : StartInput) :
    (s.startCtx i).timerRunning = decide (s.notice.state = .wait) := rfl
@[simp] theorem startCtx_resetDue (s : State) (i : StartInput) : (s.startCtx i).resetDue = s.resetDue := rfl
@[simp] theorem startCtx_testsPlace (s : State) (i : StartInput) :
    (s.startCtx i).testsPlace = (s.uplinkDeparts && i.arrivals.isEmpty) := rfl

/-- The new number is the old one at a start that is no superframe start (R47). -/
theorem startCtx_new_of_not_due {s : State} {i : StartInput} (h : s.tb.superframeDue = false) :
    (s.startCtx i).new = s.tb.number := by
  simp [State.startCtx, State.startCtxOld, h]

/-- At a superframe start the number is chosen from a timebase that keeps number, set value and follow (R58). -/
theorem startCtx_new_of_due {s : State} {i : StartInput} (h : s.tb.superframeDue = true) :
    ∃ u : State, (s.startCtx i).new = u.tb.chooseNumber ∧ u.tb.number = s.tb.number ∧
      u.tb.pendingSet = s.tb.pendingSet ∧ u.tb.follow = s.tb.follow := by
  refine ⟨_, by simp only [State.startCtx, State.startCtxOld, h, if_true]; rfl, ?_, ?_, ?_⟩
  · exact startFold_keeps (·.tb.number) _ _ _ fun a _ u => startAct_tb_number _ u a
  · exact startFold_keeps (·.tb.pendingSet) _ _ _ fun a _ u => startAct_tb_pendingSet _ u a
  · exact startFold_keeps (·.tb.follow) _ _ _ fun a _ u => startAct_tb_follow _ u a
/-! ## Acts in detail -/

@[simp] theorem other_other (k : Bank) : k.other.other = k := by cases k <;> rfl

@[simp] theorem entries_setEntries_same (m : ConnMap) (k : Bank) (v : Vector Entry 512) :
    (m.setEntries k v).entries k = v := by
  cases k <;> rfl

@[simp] theorem entries_setEntries_other (m : ConnMap) (k : Bank) (v : Vector Entry 512) :
    (m.setEntries k v).entries k.other = m.entries k.other := by cases k <;> rfl

@[simp] theorem setEntries_holds (m : ConnMap) (k : Bank) (v : Vector Entry 512) :
    (m.setEntries k v).holds = m.holds := by
  cases k <;> rfl

@[simp] theorem withHolds_entries (m : ConnMap) (k : Bank) (v : Vector (Option Word) 512) :
    ConnMap.entries { m with holds := v } k = m.entries k := by cases k <;> rfl

theorem scheduleAct_bank (s : State) (x : StartCtx) : (s.scheduleAct x).bank =
    if (s.bank.scheduler.fires x.superframe x.old x.new).isSome
    then { active := s.bank.active.other, consistent := true, engine := s.bank.engine, scheduler := .idle } else s.bank := by
  unfold State.scheduleAct
  cases s.bank.scheduler.fires x.superframe x.old x.new <;> simp [State.fireSwitch, State.clearAllHolds, State.standby]

theorem scheduleAct_entries (s : State) (x : StartCtx) (k : Bank) :
    (s.scheduleAct x).map.entries k = s.map.entries k := by
  unfold State.scheduleAct
  cases s.bank.scheduler.fires x.superframe x.old x.new <;> simp [State.fireSwitch, State.clearAllHolds]

theorem scheduleAct_idle (s : State) (x : StartCtx) (h : s.bank.scheduler = .idle) : s.scheduleAct x = s := by
  unfold State.scheduleAct; rw [h]; rfl

theorem engineAct_idle (s : State) {a b c} (h : s.bank.engine = .idle a b c) : s.engineAct = s := by
  unfold State.engineAct; rw [h]

@[simp] theorem takeMgmtWord_rx (x : Link) : x.takeMgmtWord.rx = x.rx := by
  simp only [Link.takeMgmtWord, Link.advanceQueue]; (repeat' split) <;> rfl

@[simp] theorem takeMgmtWord_store (x : Link) : x.takeMgmtWord.store = x.store := by
  simp only [Link.takeMgmtWord, Link.advanceQueue]; (repeat' split) <;> rfl

@[simp] theorem takeMgmtWord_assembler (x : Link) : x.takeMgmtWord.assembler = x.assembler := by
  simp only [Link.takeMgmtWord, Link.advanceQueue]; (repeat' split) <;> rfl

@[simp] theorem takeMgmtWord_config (x : Link) : x.takeMgmtWord.config = x.config := by
  simp only [Link.takeMgmtWord, Link.advanceQueue]; (repeat' split) <;> rfl

@[simp] theorem takeMgmtWord_mgmtCount (x : Link) : x.takeMgmtWord.mgmtCount = x.mgmtCount := by
  simp only [Link.takeMgmtWord, Link.advanceQueue]; (repeat' split) <;> rfl

@[simp] theorem transmit_link_mgmtCount (s : State) (l : LinkId) :
    (s.transmit.link l).mgmtCount = (s.link l).mgmtCount := by
  rw [transmit_link]; rfl

@[simp] theorem presentAct_link_rx (s : State) (k l : LinkId) : ((s.presentAct k).link l).rx = (s.link l).rx := by
    simp only [State.presentAct]
    (repeat' split) <;> simp [link_updLink] <;> split <;> simp_all

theorem clockWatchAct_link_rx_ne (s : State) {l k : LinkId} (h : l ≠ k) (r : BitVec 8) (f : Bool) :
    ((s.clockWatchAct k r f).link l).rx = (s.link l).rx := by
    simp only [State.clockWatchAct]
    (repeat' split) <;> simp [link_updLink_ne, leaveSync_rx_ne, h]

theorem clockWatchAct_rx_kept (s : State) (l : LinkId) (r : BitVec 8) (f : Bool) (hy : (s.link l).inSync = true)
    (hc : s.clockLossDue l r = false) :
    ∃ w, ((s.clockWatchAct l r f).link l).rx = { (s.link l).rx with watch := w } := by
  obtain ⟨e, b, fr, h⟩ : ∃ e b fr, (s.link l).rx.align = .sync e b fr := by
    unfold Link.inSync at hy
    cases h : (s.link l).rx.align with
    | sync e b fr => exact ⟨e, b, fr, rfl⟩
    | _ => simp [h, Align.isSync] at hy
  simp [State.clockLossDue, h] at hc
  unfold State.clockWatchAct
  simp only [h]
  split
  · exact ⟨⟨true, false, false⟩, by simp [h]⟩
  · split
    · exact ⟨⟨true, false, true⟩, by simp [h]⟩
    · simp_all

@[simp] theorem checkWindowAct_align (s : State) (k l : LinkId) (f : Bool) :
    ((s.checkWindowAct k f).link l).rx.align = (s.link l).rx.align := by
  simp only [State.checkWindowAct]
  (repeat' split) <;> simp [link_updLink] <;> split <;> simp_all

@[simp] theorem checkWindowAct_watch (s : State) (k l : LinkId) (f : Bool) :
    ((s.checkWindowAct k f).link l).rx.watch = (s.link l).rx.watch := by
  simp only [State.checkWindowAct]
  (repeat' split) <;> simp [link_updLink] <;> split <;> simp_all

@[simp] theorem qualificationAct_align (s : State) (k l : LinkId) (f : Bool) :
    ((s.qualificationAct k f).link l).rx.align = (s.link l).rx.align := by
  simp only [State.qualificationAct]
  (repeat' split) <;> simp [link_updLink] <;> split <;> simp_all

@[simp] theorem qualificationAct_watch (s : State) (k l : LinkId) (f : Bool) :
    ((s.qualificationAct k f).link l).rx.watch = (s.link l).rx.watch := by
  simp only [State.qualificationAct]
  (repeat' split) <;> simp [link_updLink] <;> split <;> simp_all

@[simp] theorem startAct_link_config (x : StartCtx) (s : State) (a : StartAct) (l : LinkId) :
    ((State.startAct x s a).link l).config = (s.link l).config := by
  cases a with
  | softReset => simp only [State.startAct]; split <;> simp [Link.partReset]
  | _ =>
    simp only [State.startAct, State.clockWatchAct, State.checkWindowAct, State.qualificationAct,
      State.timeStepAct, State.scheduleAct, State.fireSwitch,
      State.engineAct, State.processChunk, State.presentAct, State.noticeTimerAct, State.clearAllHolds] <;>
    (repeat' split) <;> simp [link_updLink] <;> split <;> simp_all

theorem startAct_mgmtCount (x : StartCtx) (s : State) (a : StartAct) (l : LinkId) (h : a ≠ .softReset) :
    ((State.startAct x s a).link l).mgmtCount = (s.link l).mgmtCount := by
  cases a with
  | softReset => exact absurd rfl h
  | _ =>
    simp only [State.startAct, State.clockWatchAct, State.checkWindowAct, State.qualificationAct,
      State.timeStepAct, State.scheduleAct, State.fireSwitch,
      State.engineAct, State.processChunk, State.presentAct, State.noticeTimerAct, State.clearAllHolds] <;>
    (repeat' split) <;> simp [link_updLink] <;> split <;> simp_all

theorem startAct_mask (x : StartCtx) (s : State) (a : StartAct) (h : a ≠ .softReset) :
    (State.startAct x s a).events.mask = s.events.mask := by
  cases a with
  | softReset => exact absurd rfl h
  | _ =>
    simp only [State.startAct, State.clockWatchAct, State.checkWindowAct, State.qualificationAct,
      State.timeStepAct, State.scheduleAct, State.fireSwitch,
      State.engineAct, State.processChunk, State.presentAct, State.noticeTimerAct, State.clearAllHolds] <;>
    (repeat' split) <;> simp

theorem startAct_notice (x : StartCtx) (s : State) (a : StartAct) (h : s.notice.state ≠ .quiet) (h1 : a ≠ .noticeTimer)
    (h2 : a ≠ .softReset ∨ x.resetDue = false) :
    (State.startAct x s a).notice = s.notice ∨
      (s.notice.state = .due ∧ (State.startAct x s a).notice = ⟨.wait, s.notice.retry, 64⟩) := by
  cases a with
  | noticeTest =>
    simp only [State.startAct]
    split
    · rw [noticeTest_notice]; split
      · right; exact ⟨by tauto, rfl⟩
      · exact .inl rfl
    · exact .inl rfl
  | noticeTimer => exact absurd rfl h1
  | softReset =>
    rcases h2 with h2 | h2
    · exact absurd rfl h2
    · simp [State.startAct, h2]
  | clockWatch l =>
    left
    simp only [State.startAct, State.clockWatchAct]
    (repeat' split) <;> first | rfl | exact leaveSync_notice (s.updLink l _) _ _ _ _ h
  | qualification l =>
    left
    simp only [State.startAct, State.qualificationAct]
    (repeat' split) <;> first | rfl | exact select_notice (s.updLink l _) h
  | _ =>
    left
    simp only [State.startAct, State.checkWindowAct, State.timeStepAct, State.scheduleAct, State.fireSwitch,
      State.engineAct, State.processChunk, State.presentAct, State.clearAllHolds] <;>
    (repeat' split) <;> first | rfl | (rw [report_notice _ _ _ _ (by simpa using h)]; try rfl)

/-- The receiver of `l` under acts that are not its own. -/
theorem startAct_rx (x : StartCtx) (s : State) (a : StartAct) (l : LinkId) (h1 : a ≠ .clockWatch l) (h2 : a ≠ .checkWindow l)
    (h3 : a ≠ .qualification l) : ((State.startAct x s a).link l).rx = (s.link l).rx := by
  cases a with
  | clockWatch k =>
    have hk : l ≠ k := by rintro rfl; exact h1 rfl
    simp only [State.startAct, State.clockWatchAct]
    (repeat' split) <;> simp [link_updLink_ne, leaveSync_rx_ne, hk]
  | checkWindow k =>
    have hk : l ≠ k := by rintro rfl; exact h2 rfl
    simp only [State.startAct, State.checkWindowAct]
    (repeat' split) <;> simp [link_updLink_ne, hk]
  | qualification k =>
    have hk : l ≠ k := by rintro rfl; exact h3 rfl
    simp only [State.startAct, State.qualificationAct]
    (repeat' split) <;> simp [link_updLink_ne, hk]
  | present k =>
    simp only [State.startAct, State.presentAct]
    (repeat' split) <;> simp [link_updLink] <;> split <;> simp_all
  | management => simp only [State.startAct, fixManagement_link, Link.takeMgmtWord, Link.advanceQueue]; (repeat' split) <;> rfl
  | softReset => simp only [State.startAct]; split <;> simp [Link.partReset]
  | _ =>
    simp only [State.startAct, State.timeStepAct, State.scheduleAct, State.fireSwitch,
      State.engineAct, State.processChunk, State.noticeTimerAct, State.clearAllHolds] <;>
    (repeat' split) <;> simp

/-- Alignment and clock watch of `l` change only at its own clock watch (R20). -/
theorem startAct_align (x : StartCtx) (s : State) (a : StartAct) (l : LinkId) (h1 : a ≠ .clockWatch l) :
    ((State.startAct x s a).link l).rx.align = (s.link l).rx.align ∧
    ((State.startAct x s a).link l).rx.watch = (s.link l).rx.watch := by
  cases a with
  | clockWatch k =>
    have hk : l ≠ k := by rintro rfl; exact h1 rfl
    simp [State.startAct, clockWatchAct_link_rx_ne _ hk]
  | softReset => simp only [State.startAct]; split <;> simp [Link.partReset]
  | checkWindow k => simp [State.startAct]
  | qualification k => simp [State.startAct]
  | _ =>
    simp only [State.startAct, State.timeStepAct, State.scheduleAct, State.fireSwitch,
      State.engineAct, State.processChunk, State.noticeTimerAct, State.clearAllHolds]
    (repeat' split) <;> simp

/-- A link that is out of SYNC and quiet stays quiet through every act. -/
theorem startAct_quiet (x : StartCtx) (s : State) (a : StartAct) (l : LinkId)
    (hn : (s.link l).inSync = false) (h : (s.link l).quiet) :
    ((State.startAct x s a).link l).quiet := by
  cases a with
  | clockWatch k =>
    simp only [State.startAct, State.clockWatchAct]
    (repeat' split) <;> first
      | exact h
      | exact leaveSync_quiet _ _ _ _ _ _ (updLink_quiet _ _ _ _ h id)
      | exact updLink_quiet _ _ _ _ (updLink_quiet _ _ _ _ h id) id
      | exact updLink_quiet _ _ _ _ h id
  | checkWindow k =>
    by_cases hk : k = l
    · subst hk; simp [State.startAct, State.checkWindowAct, hn, h]
    · have : l ≠ k := fun e => hk e.symm
      simp only [State.startAct, State.checkWindowAct]
      (repeat' split) <;> first | exact h | (refine quiet_congr ?_ ?_ ?_ ?_ h <;> simp [link_updLink_ne _ this])
  | qualification k =>
    have hu : ∀ y : Link, ¬ y.inSync = true → y.quiet →
        (y.withRx { y.rx with qualCount := y.nextQual, wholeMark := y.inSync }).quiet := by
      intro y hy hq
      unfold Link.quiet Link.nextQual at *
      simp_all
    have h' : ((s.updLink k fun x => x.withRx { x.rx with qualCount := x.nextQual, wholeMark := x.inSync }).link l).quiet := by
      rw [link_updLink]; split
      · next e => subst e; exact hu _ (by simp [hn]) h
      · exact h
    simp only [State.startAct, State.qualificationAct]
    (repeat' split) <;> first | exact h | exact h' | exact select_quiet _ _ h'
  | present k =>
    simp only [State.startAct, State.presentAct]
    by_cases hk : k = l
    · subst hk; rw [h.1, hn]
      split
      · exact updLink_quiet _ _ _ _ h (fun h => h)
      · simp only [Bool.false_and, Bool.false_eq_true, if_false]; exact updLink_quiet _ _ _ _ h (fun h => h)
    · have : l ≠ k := fun e => hk e.symm
      (repeat' split) <;> refine quiet_congr ?_ ?_ ?_ ?_ h <;> simp [link_updLink_ne _ this]
  | softReset =>
    simp only [State.startAct]; split
    · rw [softReset_link]; exact h
    · exact h
  | _ =>
    simp only [State.startAct, State.timeStepAct, State.scheduleAct, State.fireSwitch,
      State.engineAct, State.processChunk, State.noticeTimerAct, State.clearAllHolds]
    (repeat' split) <;> refine quiet_congr ?_ ?_ ?_ ?_ h <;> simp

/-! ## One act of a start, and the soft reset after the frame -/

/-- The fold around one act. -/
theorem foldl_around (x : StartCtx) (r : Bool) (o : List StartAct) (a : StartAct) (s0 : State) :
    ∃ pre post : List StartAct, a ∉ pre ∧ a ∉ post ∧
      startSequence r o = pre ++ a :: post ∧ (startSequence r o).foldl (State.startAct x) s0 =
      post.foldl (State.startAct x) (State.startAct x (pre.foldl (State.startAct x) s0) a) := by
  obtain ⟨pre, post, h, h1, h2⟩ := startSequence_split r o a
  exact ⟨pre, post, h1, h2, h, by rw [h, List.foldl_append, List.foldl_cons]⟩

/-- `a` comes before `b`. -/
theorem holdBack_before (p : StartAct → Bool) {a b : StartAct} {acts pre post : List StartAct}
    (hp : p a = true) (hb : p b = false)
    (hn : acts.Nodup) (hmem : b ∈ acts) (h : holdBack p b acts = pre ++ a :: post) : b ∈ pre := by
  have hperm := holdBack_perm p hmem
  have hnd := hperm.nodup_iff.2 hn
  unfold holdBack at h hnd
  simp only [List.append_assoc, List.singleton_append] at h hnd
  set A := (acts.takeWhile (· ≠ b)).filter (!p ·)
  set B := (acts.takeWhile (· ≠ b)).filter p ++ (acts.dropWhile (· ≠ b)).drop 1
  have haA : a ∉ A := by simp [A, hp]
  rcases List.append_eq_append_iff.1 h with ⟨c, hc1, hc2⟩ | ⟨c, hc1, hc2⟩
  · cases c with
    | nil =>
      simp at hc2
      rw [hc2.1, hp] at hb; cases hb
    | cons y ys =>
      simp only [List.cons_append, List.cons.injEq] at hc2
      rw [hc1, hc2.1]; simp
  · cases c with
    | nil => simp at hc2; rw [← hc2.1, hp] at hb; cases hb
    | cons y ys =>
      simp at hc2
      rw [hc1, hc2.1] at haA
      simp at haA

theorem holdBack_keeps_before (p : StartAct → Bool) {a b : StartAct} {acts : List StartAct}
    (hp : p a = false) (hn : acts.Nodup)
    (hb : ∀ pre post, acts = pre ++ b :: post → a ∈ pre) (hm : b ∈ acts) :
    ∀ pre post, holdBack p b acts = pre ++ b :: post → a ∈ pre := by
  intro pre post h
  have hnd := (holdBack_perm p hm).nodup_iff.2 hn
  have ha := hb _ _ (split_at_first hm)
  unfold holdBack at h hnd
  simp only [List.append_assoc, List.singleton_append] at h hnd
  set A := (acts.takeWhile (· ≠ b)).filter (!p ·) with hA
  have haA : a ∈ A := by rw [hA, List.mem_filter]; exact ⟨ha, by simp [hp]⟩
  have hbA : b ∉ A := by
    intro hb
    have := (List.nodup_append.1 hnd).2.2 b hb b (by simp)
    exact this rfl
  rcases List.append_eq_append_iff.1 h with ⟨c, hc1, hc2⟩ | ⟨c, hc1, hc2⟩
  · rw [hc1]; exact List.mem_append_left _ haA
  · cases c with
    | nil => simp at hc1; rw [← hc1]; exact haA
    | cons y ys => simp at hc2; rw [hc1, hc2.1] at hbA; simp at hbA

/-- The frame is fixed before a soft reset is applied (R142). -/
theorem transmit_before_softReset {r : Bool} {order pre post : List StartAct}
    (h : startSequence r order = pre ++ .softReset :: post) : StartAct.transmit ∈ pre := by
  have ha : ∀ a, a ∈ firstOccurrences (order ++ allStartActs) := fun a =>
    mem_firstOccurrences.2 (List.mem_append_right _ (mem_allStartActs a))
  have hn0 := nodup_firstOccurrences (order ++ allStartActs)
  unfold startSequence at h
  simp only at h
  set all := firstOccurrences (order ++ allStartActs)
  set cut := r && (all.takeWhile (· ≠ .schedule)).contains .softReset
  set framed := bringForward (fun a => frameNeeds a && !(cut && a = .schedule)) .transmit all with hf
  have h1 : framed.Perm all := bringForward_perm _ (ha _)
  have h2 : (holdBack (· = .noticeTest) .management framed).Perm all :=
    (holdBack_perm _ (h1.mem_iff.2 (ha _))).trans h1
  have h3 := (holdBack_perm (· = .softReset) (h2.mem_iff.2 (ha StartAct.transmit))).trans h2
  have hb := fun pre post => holdBack_before (a := .softReset) (b := .transmit) (pre := pre) (post := post) (· = .softReset)
    (by decide) (by decide) (h2.nodup_iff.2 hn0) (h2.mem_iff.2 (ha StartAct.transmit))
  split at h
  · exact holdBack_keeps_before _ (by decide) (h3.nodup_iff.2 hn0) hb (h3.mem_iff.2 (ha _)) _ _ h
  · exact hb _ _ h

/-! ## Chunks (R86, R87) -/

@[simp] theorem processChunk_bank (s : State) (op : EngineOp) (pos : Nat) : (s.processChunk op pos).bank = s.bank := rfl

@[simp] theorem processChunk_holds (s : State) (op : EngineOp) (pos : Nat) :
    (s.processChunk op pos).map.holds = s.map.holds := by simp [State.processChunk]

/-- A chunk leaves the active bank alone (R86). -/
@[simp] theorem processChunk_active (s : State) (op : EngineOp) (pos : Nat) :
    (s.processChunk op pos).map.entries s.bank.active = s.map.entries s.bank.active := by
  have := fun v => entries_setEntries_other s.map s.bank.active.other v
  simp only [other_other] at this
  exact this _

/-- A chunk processes its eight standby entries (R86). -/
theorem processChunk_standby (s : State) (op : EngineOp) (pos : Nat) (j : Fin 512) :
    ((s.processChunk op pos).map.entries s.bank.active.other)[j.val] =
      if pos ≤ j.val ∧ j.val < pos + 8 then s.processedEntry op j else (s.map.entries s.bank.active.other)[j.val] := by
  have e : (s.processChunk op pos).map.entries s.bank.active.other = vecOf 512 fun i =>
      if pos ≤ i.val && i.val < pos + 8 then s.processedEntry op i else (s.map.entries s.bank.active.other)[i.val] :=
    entries_setEntries_same ..
  simp only [e, getElem_vecOf, Bool.and_eq_true, decide_eq_true_eq]

/-- A chunk that is not the last (R86). -/
theorem engineAct_goesOn {s : State} {op : EngineOp} {pos : Nat} (h : s.bank.engine = .running op pos) (hp : pos + 8 < 512) :
    s.engineAct = (s.processChunk op pos).withBank { s.bank with engine := .running op (pos + 8) } := by
  unfold State.engineAct; rw [h]; simp only; rw [if_pos hp]; rfl

/-- The last chunk (R87). -/
theorem engineAct_ends {s : State} {op : EngineOp} {pos : Nat} (h : s.bank.engine = .running op pos) (hp : 512 ≤ pos + 8) :
    s.engineAct = ((s.processChunk op pos).withBank
      { s.bank with engine := .idle (some op) .done 512, consistent := true }).report
      .engineEnd partWide (engineEndDetail op .done) := by
  unfold State.engineAct; rw [h]; simp only; rw [if_neg (by omega)]; rfl

/-! ## The frame (R113) -/

/-- Every slot but the check slot carries its slot word (R113). -/
theorem frameWords_get (s : State) (l : LinkId) (x : Link) (t : SlotId) (h : t.val < x.config.shape.slotCount.toNat)
    (hc : x.config.shape.isCheck t.val = false) : (s.frameWords l x)[t.val]? = some (s.slotWord l x t) := by
  have := t.isLt
  have e : ∀ n, t.val < n → (((List.finRange 64).take n).map (s.slotWord l x))[t.val]? = some (s.slotWord l x t) := by
    intro n hn
    rw [List.getElem?_map, List.getElem?_take, if_pos hn, List.getElem?_eq_getElem (by simp)]
    simp
  unfold State.frameWords; simp only
  split
  · next hce =>
    have hlt : t.val < x.config.shape.slotCount.toNat - 1 := by
      simp [Shape.isCheck, hce] at hc; omega
    rw [List.getElem?_append_left, e _ hlt]
    rw [List.length_map, List.length_take, List.length_finRange]; omega
  · exact e _ h

/-- A start changes no leg and no enable of a bridge, but for a soft reset (R99, R104). -/
theorem startAct_legs (x : StartCtx) (s : State) (a : StartAct) (h : a ≠ .softReset) (b : BridgeId) :
    ((State.startAct x s a).bridge b).enabled = (s.bridge b).enabled ∧
    ((State.startAct x s a).bridge b).legs = (s.bridge b).legs := by
  by_cases ht : a = .transmit
  · subst ht; simp [State.startAct, State.transmit, State.bridge, State.evaluateBridges]
  · unfold State.bridge; rw [startAct_bridges _ _ _ ⟨ht, h⟩]; exact ⟨rfl, rfl⟩

/-! ## Where a start comes in LOCKED (R49) -/

/-- The first usable completion: in the window, and no usable one before it. -/
theorem firstUsable_eq_some {t : Timebase} {d : Nat} : t.firstUsable = some d ↔
    d ∈ t.completions ∧ t.heldPeriod ≤ 2 * d ∧ 2 * d < 3 * t.heldPeriod ∧
      ∀ c ∈ t.completions, t.heldPeriod ≤ 2 * c → 2 * c < 3 * t.heldPeriod → d ≤ c := by
  unfold Timebase.firstUsable
  rw [List.min?_eq_some_iff]
  simp only [List.mem_filter, Bool.and_eq_true, decide_eq_true_eq]
  exact ⟨fun ⟨⟨h1, h2, h3⟩, h4⟩ => ⟨h1, h2, h3, fun c hc a b => h4 c ⟨hc, a, b⟩⟩,
    fun ⟨h1, h2, h3, h4⟩ => ⟨⟨h1, h2, h3⟩, fun c hc => h4 c hc.1 hc.2.1 hc.2.2⟩⟩

theorem firstUsable_eq_none {t : Timebase} : t.firstUsable = none ↔
    ∀ d ∈ t.completions, ¬(t.heldPeriod ≤ 2 * d ∧ 2 * d < 3 * t.heldPeriod) := by
  unfold Timebase.firstUsable
  rw [List.min?_eq_none_iff, List.filter_eq_nil_iff]
  simp

/-! ## A start with no order named -/

theorem startSequence_nil (r : Bool) : startSequence r [] = allStartActs := by cases r <;> decide

/-- The start that comes where the command names no order, act by act. -/
theorem localFrameStart_nil {s : State} {i : StartInput} {k : Bool} (ho : i.order = [])
    (h : s.tb.startKind i.elapsed = some k) :
    s.localFrameStart i = allStartActs.foldl (State.startAct (s.startCtx i))
      (s.withTb (s.tb.beginFrame (s.startCtx i).new k i.elapsed)) := by
  rw [localFrameStart_eq h, ho, startSequence_nil]

/-! ## A start at which no lane loses its clock -/

theorem clockLossDue_congr {s t : State} {l : LinkId} (h1 : (s.link l).rx.align = (t.link l).rx.align)
    (h2 : (s.link l).rx.watch = (t.link l).rx.watch) (rxc : BitVec 8) :
    s.clockLossDue l rxc = t.clockLossDue l rxc := by
  simp [State.clockLossDue, State.laneActive, h1, h2]

/-- Without a loss the clock watch touches watch and alignment of its receiver only, and those not in SYNC. -/
theorem clockWatchAct_noLoss {s : State} {l : LinkId} {rxc : BitVec 8} (f : Bool) (h : s.clockLossDue l rxc = false) :
    ∃ w a, s.clockWatchAct l rxc f = s.updLink l (fun x => x.withRx { x.rx with watch := w, align := a }) ∧
      a.isSync = (s.link l).inSync := by
  unfold State.clockWatchAct
  simp only
  split
  next => exact ⟨(s.link l).rx.watch, (s.link l).rx.align, (setLink_link s l).symm, rfl⟩
  next q =>
    split
    · exact ⟨⟨true, false, false⟩, .hunt [], updLink_updLink .., by simp [Link.inSync, q, Align.isSync]⟩
    · exact ⟨⟨true, false, false⟩, (s.link l).rx.align, rfl, rfl⟩
  next q1 q2 =>
    split
    · exact ⟨⟨true, false, false⟩, (s.link l).rx.align, rfl, rfl⟩
    · split
      · exact ⟨⟨true, false, true⟩, (s.link l).rx.align, rfl, rfl⟩
      next h3 h4 =>
        simp only [Bool.not_eq_true, Bool.or_eq_false_iff, Bool.not_eq_false'] at h3 h4
        simp [State.clockLossDue, h3, h4] at h
        exact absurd (h q1) q2

/-- Every act of a start but a clock loss and a selection keeps the timebase. -/
theorem startAct_keeps_tb {x : StartCtx} {s : State} {a : StartAct}
    (h1 : ∀ l, a = .clockWatch l → s.clockLossDue l x.rxc = false)
    (h2 : ∀ l, a = .qualification l → x.superframe = true → .link l ∈ s.tb.refList → (s.link l).qualifies = false) :
    (State.startAct x s a).tb = s.tb := by
  cases a with
  | clockWatch l =>
    obtain ⟨w, a, e, _⟩ := clockWatchAct_noLoss (x.refFirst.getLsbD l.val) (h1 l rfl)
    simp only [State.startAct, e, updLink_tb]
  | qualification l =>
    simp only [State.startAct, State.qualificationAct]
    split
    next hs =>
      rw [if_neg]
      · rfl
      · intro h
        simp only [Bool.and_eq_true, List.contains_iff_mem] at h
        rw [h2 l rfl hs h.2] at h
        exact Bool.false_ne_true h.1
    next => rfl
  | _ =>
    simp only [State.startAct, State.checkWindowAct, State.timeStepAct, State.scheduleAct, State.fireSwitch,
      State.engineAct, State.processChunk, State.presentAct, State.noticeTimerAct, State.clearAllHolds]
    all_goals ((repeat' split) <;> simp)

/-! ## Records across a start (R179, R182) -/

/-- Every act of a start but the soft reset gives up no record, and changes none that is not a SLIP record. -/
theorem startAct_keeps_record {r : EventRecord} (hk : r.kind ≠ .slip) (x : StartCtx) (s : State) (a : StartAct)
    (ha : a ≠ .softReset ∨ x.resetDue = false) (h : r ∈ s.events.records) :
    r ∈ (State.startAct x s a).events.records := by
  cases a
  case softReset =>
    simp only [State.startAct]
    rw [if_neg]
    · exact h
    · rcases ha with ha | ha
      · exact absurd rfl ha
      · simp [ha]
  all_goals
    simp only [State.startAct, State.clockWatchAct, State.checkWindowAct, State.qualificationAct, State.timeStepAct,
      State.scheduleAct, State.fireSwitch, State.clearAllHolds, State.engineAct, State.processChunk, State.presentAct,
      State.noticeTimerAct]
    (repeat' split)
    all_goals first
      | exact h
      | exact report_keeps_record hk _ _ _ _ h
      | exact select_keeps_record hk _ h
      | exact leaveSync_keeps_record hk _ _ _ _ _ h
      | (simp only [noticeTest_events, noticeExpiry_events]; exact h)

/-- How many records an act that comes before the switch makes at most, where no link loses its clock. -/
def recordsAtMost : StartAct → Nat
  | .checkWindow _ | .qualification _ | .timeStep => 1
  | _ => 0

theorem startAct_length {x : StartCtx} {s : State} {a : StartAct}
    (ha : a ∈ allStartActs.takeWhile (· ≠ .schedule)) (hl : ∀ l, a = .clockWatch l → s.clockLossDue l x.rxc = false) :
    (State.startAct x s a).events.records.length ≤ s.events.records.length + recordsAtMost a := by
  cases a with
  | clockWatch l =>
    obtain ⟨w, b, e, _⟩ := clockWatchAct_noLoss (x.refFirst.getLsbD l.val) (hl l rfl)
    simp only [State.startAct, e]
    exact Nat.le_refl _
  | number => exact Nat.le_refl _
  | checkWindow l =>
    simp only [State.startAct, State.checkWindowAct]
    (repeat' split) <;> first | exact report_length _ _ _ _ | exact Nat.le_add_right _ _
  | qualification l =>
    simp only [State.startAct, State.qualificationAct]
    (repeat' split) <;> first | exact select_length _ | exact Nat.le_add_right _ _
  | timeStep =>
    simp only [State.startAct, State.timeStepAct]
    (repeat' split) <;> first | exact report_length _ _ _ _ | exact Nat.le_add_right _ _
  | present l => exact absurd ha (by clear hl ha; revert l; decide)
  | _ => exact absurd ha (by decide)

/-! ## Counters across the management word and the frame -/

@[simp] theorem takeMgmtWord_rxCount (x : Link) : x.takeMgmtWord.rxCount = x.rxCount := by
  simp only [Link.takeMgmtWord, Link.advanceQueue]; (repeat' split) <;> rfl

@[simp] theorem transmit_link_rxCount (s : State) (l : LinkId) : (s.transmit.link l).rxCount = (s.link l).rxCount := by
  rw [transmit_link]; rfl

/-! ## Which store a start re-centres (R40, R55) -/

/-- The clock watch of a lane: of another link, or of one that is not lost, a selection at most; of a lost one, the
selection after the link left SYNC (R20, R40). -/
theorem clockWatchAct_recentredAsLocked (l k : LinkId) (s : State) (rxc : BitVec 8) (rf : Bool) :
    RecentredAsLocked l s (s.clockWatchAct k rxc rf) ∨
    (l = k ∧ (s.link l).inSync = true ∧ s.clockLossDue l rxc = true ∧ RecentredAsLocked l
      (s.updLink l (·.outOfSync .noclock .clockLoss)) (s.clockWatchAct k rxc rf)) := by
  have same : ∀ w : Link → Link, (∀ x, (w x).store = x.store) → RecentredAsLocked l s (s.updLink k w) := fun w hw =>
    recentredAsLocked_of_same (by simp) (by simp) (updLink_read (fun y : Link => y.store) s k l w (hw _))
  by_cases hd : s.clockLossDue k rxc = true ∧ (s.link k).inSync = true
  · obtain ⟨hd, hy⟩ := hd
    have e : ∃ w : Link → Link, (∀ x, (w x).store = x.store) ∧
        s.clockWatchAct k rxc rf = (s.updLink k w).leaveSync k .noclock .clockLoss rf := by
      refine ⟨(·.withWatch ⟨true, false, false⟩), fun _ => rfl, ?_⟩
      simp only [State.clockLossDue, Bool.and_eq_true, decide_eq_true_eq, Bool.not_eq_true'] at hd
      obtain ⟨⟨⟨⟨d1, d2⟩, d3⟩, d4⟩, d5⟩ := hd
      unfold State.clockWatchAct
      simp [d3, d4, d5, hy]
    obtain ⟨w, hw, e⟩ := e
    rw [e]
    have h := leaveSync_recentredAsLocked l k (s.updLink k w) .noclock .clockLoss rf
    by_cases c : l = k
    · subst c
      refine .inr ⟨rfl, hy, hd, recentredAsLocked_congr h (by simp) (by simp) ?_ rfl rfl rfl⟩
      simp [Link.outOfSync, hw]
    · refine .inl (recentredAsLocked_congr h (by simp) (by simp) ?_ rfl rfl rfl)
      rw [link_updLink_ne _ c, link_updLink_ne _ c]
  · left
    unfold State.clockWatchAct
    simp only
    split
    · exact recentredAsLocked_of_same rfl rfl rfl
    · split
      · rw [updLink_updLink]; exact same _ fun _ => rfl
      · exact same _ fun _ => rfl
    · split
      · exact same _ fun _ => rfl
      · split
        · exact same _ fun _ => rfl
        next q1 q2 q3 q4 =>
          split
          next hy =>
            simp only [Bool.not_eq_true, Bool.or_eq_false_iff, Bool.not_eq_false'] at q3 q4
            exact absurd ⟨by simpa [State.clockLossDue, q3, q4] using ⟨fun h => q1 h, fun h => q2 h⟩, hy⟩ hd
          next => rw [updLink_updLink]; exact same _ fun _ => rfl

/-- Of the acts of a start only a selection re-centres a store: of the link it newly locks to. The link's own presenting
and clock loss and the soft reset do more to its store (R40, R55). -/
theorem startAct_recentredAsLocked {x : StartCtx} {s : State} {a : StartAct} {l : LinkId} (h1 : a ≠ .present l)
    (h2 : a ≠ .softReset) (h3 : a = .clockWatch l → ¬((s.link l).inSync = true ∧ s.clockLossDue l x.rxc = true)) :
    RecentredAsLocked l s (State.startAct x s a) := by
  cases a with
  | softReset => exact absurd rfl h2
  | clockWatch k =>
    rcases clockWatchAct_recentredAsLocked l k s x.rxc (x.refFirst.getLsbD k.val) with h | ⟨e, hy, hd, _⟩
    · exact h
    · subst e; exact absurd ⟨hy, hd⟩ (h3 rfl)
  | qualification k =>
    simp only [State.startAct, State.qualificationAct]
    split
    · split
      · refine recentredAsLocked_congr (select_recentredAsLocked l _) (by simp) (by simp) ?_ rfl rfl rfl
        exact (updLink_read (fun y : Link => y.store) s k l _ rfl).symm
      · exact recentredAsLocked_of_same (by simp) (by simp) (updLink_read (fun y : Link => y.store) s k l _ rfl)
    · exact recentredAsLocked_of_same rfl rfl rfl
  | present k =>
    have hk : l ≠ k := fun e => h1 (e ▸ rfl)
    refine recentredAsLocked_of_same ?_ ?_ ?_ <;> simp only [State.startAct, State.presentAct] <;> (repeat' split) <;>
      simp [link_updLink_ne _ hk]
  | checkWindow k =>
    refine recentredAsLocked_of_same ?_ ?_ ?_ <;> simp only [State.startAct, State.checkWindowAct] <;>
      (repeat' split) <;> first
      | rfl
      | (simp; done)
      | exact updLink_read (fun y : Link => y.store) s k l _ rfl
      | exact (report_link_store ..).trans (updLink_read (fun y : Link => y.store) s k l _ rfl)
  | _ =>
    refine recentredAsLocked_of_same ?_ ?_ ?_ <;>
    simp only [State.startAct, State.timeStepAct, State.scheduleAct, State.fireSwitch,
      State.engineAct, State.processChunk, State.noticeTimerAct, State.clearAllHolds] <;> (repeat' split) <;> simp

end Sys2Proof.Machine
end

