-- ==== Sys2Proof/Laws/Taking.lean ====
section
/-!
SUPPORT. Everything the taking of a command can do, by the way it is taken: not at all, by unicast (answered, BUSY,
congested), by group or broadcast (R134, R137 to R142).
-/

namespace Sys2Proof.Machine

@[simp] theorem noteTaking_pending (s : State) (c : CommandCell) : (s.noteTaking c).pending = s.pending := rfl
@[simp] theorem noteTaking_links (s : State) (c : CommandCell) : (s.noteTaking c).links = s.links := rfl
@[simp] theorem noteTaking_link (s : State) (c : CommandCell) (l : LinkId) : (s.noteTaking c).link l = s.link l := rfl
@[simp] theorem noteTaking_tb (s : State) (c : CommandCell) : (s.noteTaking c).tb = s.tb := rfl
@[simp] theorem noteTaking_map (s : State) (c : CommandCell) : (s.noteTaking c).map = s.map := rfl
@[simp] theorem noteTaking_bank (s : State) (c : CommandCell) : (s.noteTaking c).bank = s.bank := rfl
@[simp] theorem noteTaking_bridges (s : State) (c : CommandCell) : (s.noteTaking c).bridges = s.bridges := rfl
@[simp] theorem noteTaking_events (s : State) (c : CommandCell) : (s.noteTaking c).events = s.events := rfl
@[simp] theorem noteTaking_notice (s : State) (c : CommandCell) : (s.noteTaking c).notice = s.notice := rfl
@[simp] theorem noteTaking_agent (s : State) (c : CommandCell) :
    (s.noteTaking c).agent = { s.agent with activeUplink := c.arrival, replyAddr := c.src } := rfl

@[simp] theorem holdPlace_pending (s : State) (l : LinkId) : (s.holdPlace l).pending = s.pending := rfl
@[simp] theorem holdPlace_links (s : State) (l : LinkId) : (s.holdPlace l).links = s.links := rfl
@[simp] theorem holdPlace_link (s : State) (l k : LinkId) : (s.holdPlace l).link k = s.link k := rfl
@[simp] theorem holdPlace_tb (s : State) (l : LinkId) : (s.holdPlace l).tb = s.tb := rfl
@[simp] theorem holdPlace_map (s : State) (l : LinkId) : (s.holdPlace l).map = s.map := rfl
@[simp] theorem holdPlace_bank (s : State) (l : LinkId) : (s.holdPlace l).bank = s.bank := rfl
@[simp] theorem holdPlace_bridges (s : State) (l : LinkId) : (s.holdPlace l).bridges = s.bridges := rfl
@[simp] theorem holdPlace_events (s : State) (l : LinkId) : (s.holdPlace l).events = s.events := rfl
@[simp] theorem holdPlace_notice (s : State) (l : LinkId) : (s.holdPlace l).notice = s.notice := rfl
@[simp] theorem holdPlace_agent (s : State) (l : LinkId) :
    (s.holdPlace l).agent = { s.agent with heldPlace := some l } := rfl

@[simp] theorem respond_pending (s : State) (k : BitVec 7) (c : CommandCell) (a : Answer) :
    (s.respond k c a).pending = s.pending := rfl
@[simp] theorem respond_tb (s : State) (k : BitVec 7) (c : CommandCell) (a : Answer) :
    (s.respond k c a).tb = s.tb := rfl
@[simp] theorem respond_map (s : State) (k : BitVec 7) (c : CommandCell) (a : Answer) :
    (s.respond k c a).map = s.map := rfl
@[simp] theorem respond_bank (s : State) (k : BitVec 7) (c : CommandCell) (a : Answer) :
    (s.respond k c a).bank = s.bank := rfl
@[simp] theorem respond_bridges (s : State) (k : BitVec 7) (c : CommandCell) (a : Answer) :
    (s.respond k c a).bridges = s.bridges := rfl
@[simp] theorem respond_events (s : State) (k : BitVec 7) (c : CommandCell) (a : Answer) :
    (s.respond k c a).events = s.events := rfl
@[simp] theorem respond_notice (s : State) (k : BitVec 7) (c : CommandCell) (a : Answer) :
    (s.respond k c a).notice = s.notice := rfl
@[simp] theorem respond_agent (s : State) (k : BitVec 7) (c : CommandCell) (a : Answer) :
    (s.respond k c a).agent = { s.agent with heldPlace := none } := rfl

/-- A response joins the arrival link's queue, and no other link is touched (R140). -/
theorem respond_link (s : State) (k : BitVec 7) (c : CommandCell) (a : Answer) (l : LinkId) :
    (s.respond k c a).link l = if l = c.arrival
      then { s.link c.arrival with queue := (s.link c.arrival).queue ++ [⟨responseCell k c a, a.resetResponse⟩] }
      else s.link l := link_updLink ..

theorem movedTest_only (s : State) (l : LinkId) : s.EventOnly (s.movedTest l) := by
  unfold State.movedTest; split
  · exact .refl s
  · exact noticeTest_only s

@[simp] theorem movedTest_events (s : State) (l : LinkId) : (s.movedTest l).events = s.events := by
  unfold State.movedTest; split <;> simp

/-- Where the active uplink has not moved, or no notice waits in DUE, the test changes nothing. -/
theorem movedTest_same (s : State) (l : LinkId) (h : s.notice.state ≠ .due ∨ s.agent.activeUplink = l) :
    s.movedTest l = s := by
  unfold State.movedTest
  split
  · rfl
  · next hne =>
    rcases h with h | h
    · simp [State.noticeTest, h]
    · exact absurd h hne

@[simp] theorem movedTest_resetPending (s : State) (l : LinkId) :
    (s.movedTest l).agent.resetPending = s.agent.resetPending := by rw [(movedTest_only s l).agent]

@[simp] theorem atTest_resetPending (s : State) (c : CommandCell) :
    (s.atTest c).agent.resetPending = s.agent.resetPending := by
  unfold State.atTest; split <;> simp

@[simp] theorem atTaking_resetPending (s : State) (c : CommandCell) :
    (s.atTaking c).agent.resetPending = s.agent.resetPending := by
  unfold State.atTaking; split <;> simp

/-- The agent during the examination of a unicast command (R131, R137). -/
@[simp] theorem atTaking_agent (s : State) (c : CommandCell) : (s.atTaking c).agent =
    { s.agent with activeUplink := c.arrival, replyAddr := c.src, heldPlace := some c.arrival } := by
  unfold State.atTaking State.atTest
  split
  · simp [(movedTest_only _ _).agent]
  · rw [(movedTest_only _ _).agent]; rfl

/-- The taking itself is an event-only change of the state with the active uplink, the reply address and the place
set. -/
theorem atTaking_only (s : State) (c : CommandCell) : ∃ u : State, u.links = s.links ∧ u.tb = s.tb ∧ u.map = s.map ∧
    u.bank = s.bank ∧ u.bridges = s.bridges ∧ u.pending = s.pending ∧ u.agent.activeUplink = c.arrival ∧
    u.EventOnly { s.atTaking c with agent := u.agent } := by
  unfold State.atTaking State.atTest
  split
  · have h := movedTest_only (s.noteTaking c) s.agent.activeUplink
    exact ⟨s.noteTaking c, rfl, rfl, rfl, rfl, rfl, rfl, rfl, h.pending, h.tb, h.map, h.bank, h.bridges, rfl,
      h.link, h.other, h.queue⟩
  · have h := movedTest_only ((s.noteTaking c).holdPlace c.arrival) s.agent.activeUplink
    exact ⟨(s.noteTaking c).holdPlace c.arrival, rfl, rfl, rfl, rfl, rfl, rfl, rfl, h.pending, h.tb, h.map, h.bank,
      h.bridges, rfl, h.link, h.other, h.queue⟩

@[simp] theorem atTaking_pending (s : State) (c : CommandCell) : (s.atTaking c).pending = s.pending := by
  obtain ⟨u, _, h1, h2, h3, h4, h5, _, h⟩ := atTaking_only s c
  exact h.pending.trans (by assumption)

@[simp] theorem atTaking_tb (s : State) (c : CommandCell) : (s.atTaking c).tb = s.tb := by
  obtain ⟨u, _, h1, h2, h3, h4, h5, _, h⟩ := atTaking_only s c
  exact h.tb.trans (by assumption)

@[simp] theorem atTaking_map (s : State) (c : CommandCell) : (s.atTaking c).map = s.map := by
  obtain ⟨u, _, h1, h2, h3, h4, h5, _, h⟩ := atTaking_only s c
  exact h.map.trans (by assumption)

@[simp] theorem atTaking_bank (s : State) (c : CommandCell) : (s.atTaking c).bank = s.bank := by
  obtain ⟨u, _, h1, h2, h3, h4, h5, _, h⟩ := atTaking_only s c
  exact h.bank.trans (by assumption)

@[simp] theorem atTaking_bridges (s : State) (c : CommandCell) : (s.atTaking c).bridges = s.bridges := by
  obtain ⟨u, _, h1, h2, h3, h4, h5, _, h⟩ := atTaking_only s c
  exact h.bridges.trans (by assumption)

@[simp] theorem atTaking_events (s : State) (c : CommandCell) : (s.atTaking c).events = s.events := by
  unfold State.atTaking State.atTest; split <;> simp

@[simp] theorem atTaking_bridge (s : State) (c : CommandCell) (b : BridgeId) :
    (s.atTaking c).bridge b = s.bridge b := by simp [State.bridge]

@[simp] theorem atTaking_link_config (s : State) (c : CommandCell) (l : LinkId) :
    ((s.atTaking c).link l).config = (s.link l).config := by
  obtain ⟨u, h0, _, _, _, _, _, _, h⟩ := atTaking_only s c
  have e : u.link l = s.link l := by simp [State.link, h0]
  have := congrArg Link.config (h.link l)
  rw [e] at this; exact this

@[simp] theorem atTaking_link_rx (s : State) (c : CommandCell) (l : LinkId) :
    ((s.atTaking c).link l).rx = (s.link l).rx := by
  obtain ⟨u, h0, _, _, _, _, _, _, h⟩ := atTaking_only s c
  have e : u.link l = s.link l := by simp [State.link, h0]
  have := congrArg Link.rx (h.link l)
  rw [e] at this; exact this

@[simp] theorem atTaking_link_store (s : State) (c : CommandCell) (l : LinkId) :
    ((s.atTaking c).link l).store = (s.link l).store := by
  obtain ⟨u, h0, _, _, _, _, _, _, h⟩ := atTaking_only s c
  have e : u.link l = s.link l := by simp [State.link, h0]
  have := congrArg Link.store (h.link l)
  rw [e] at this; exact this

@[simp] theorem atTaking_link_tx (s : State) (c : CommandCell) (l : LinkId) :
    ((s.atTaking c).link l).tx = (s.link l).tx := by
  obtain ⟨u, h0, _, _, _, _, _, _, h⟩ := atTaking_only s c
  have e : u.link l = s.link l := by simp [State.link, h0]
  have := congrArg Link.tx (h.link l)
  rw [e] at this; exact this

@[simp] theorem atTaking_link_assembler (s : State) (c : CommandCell) (l : LinkId) :
    ((s.atTaking c).link l).assembler = (s.link l).assembler := by
  obtain ⟨u, h0, _, _, _, _, _, _, h⟩ := atTaking_only s c
  have e : u.link l = s.link l := by simp [State.link, h0]
  have := congrArg Link.assembler (h.link l)
  rw [e] at this; exact this

@[simp] theorem atTaking_link_rxCount (s : State) (c : CommandCell) (l : LinkId) :
    ((s.atTaking c).link l).rxCount = (s.link l).rxCount := by
  obtain ⟨u, h0, _, _, _, _, _, _, h⟩ := atTaking_only s c
  have e : u.link l = s.link l := by simp [State.link, h0]
  have := congrArg Link.rxCount (h.link l)
  rw [e] at this; exact this

@[simp] theorem atTaking_link_mgmtCount (s : State) (c : CommandCell) (l : LinkId) :
    ((s.atTaking c).link l).mgmtCount = (s.link l).mgmtCount := by
  obtain ⟨u, h0, _, _, _, _, _, _, h⟩ := atTaking_only s c
  have e : u.link l = s.link l := by simp [State.link, h0]
  have := congrArg Link.mgmtCount (h.link l)
  rw [e] at this; exact this

/-- A command cell on a link without the UPLINK role is not taken (R134). -/
theorem take_of_not_arrives {s : State} {c : CommandCell} (h : ¬ s.arrives c) (code : BitVec 7) (r : Bool)
    (body : Body) : s.take code r body c = s := if_neg h

/-- A command cell that is not for this part is not taken (R134). -/
theorem take_of_other {s : State} {c : CommandCell} (h : s.agent.classify c.dest = .other) (code : BitVec 7) (r : Bool)
    (body : Body) : s.take code r body c = s := by
  unfold State.take; split
  · rw [h]
  · rfl

/-- A unicast command with a place for its response (R137, R142). -/
theorem take_of_placed {s : State} {c : CommandCell} (h : s.placed c) (code : BitVec 7) (r : Bool) (body : Body) :
    s.take code r body c =
      if s.agent.resetPending then (s.atTaking c).respond code c (.refusal .busy)
      else (body true c (s.atTaking c)).1.respond code c (body true c (s.atTaking c)).2 := by
  obtain ⟨ha, hu, hp⟩ := h
  have e3 : (if c.noticeFirst then (s.atTest c).holdPlace c.arrival
      else ((s.atTest c).holdPlace c.arrival).movedTest s.agent.activeUplink) = s.atTaking c := rfl
  unfold State.take
  rw [if_pos (show (s.link c.arrival).config.shape.role = .uplink from ha), show s.agent.classify c.dest = .unicast from hu]
  simp only [State.takeUnicast]
  rw [show (if c.noticeFirst then (s.noteTaking c).movedTest s.agent.activeUplink else s.noteTaking c) = s.atTest c
    from rfl, if_pos hp, e3, atTaking_resetPending]

/-- A unicast command that is examined (R137). -/
theorem take_of_examines {s : State} {c : CommandCell} (h : s.examines c) (code : BitVec 7) (r : Bool) (body : Body) :
    s.take code r body c = (body true c (s.atTaking c)).1.respond code c (body true c (s.atTaking c)).2 := by
  rw [take_of_placed h.1, h.2]; rfl

/-- A unicast command that finds no place (R139). -/
theorem take_of_full {s : State} {c : CommandCell} (ha : s.arrives c) (hu : s.matchesUnicast c)
    (hp : (s.atTest c).hasRoom c.arrival = false) (code : BitVec 7) (r : Bool) (body : Body) :
    s.take code r body c = (s.atTest c).congested c.arrival := by
  unfold State.take
  rw [if_pos (show (s.link c.arrival).config.shape.role = .uplink from ha), show s.agent.classify c.dest = .unicast from hu]
  simp only [State.takeUnicast]
  rw [show (if c.noticeFirst then (s.noteTaking c).movedTest s.agent.activeUplink else s.noteTaking c) = s.atTest c
    from rfl, hp]
  rfl

theorem relayTo_agent (s : State) (l : LinkId) (x : Cell) : (s.relayTo l x).agent = s.agent := by
  unfold State.relayTo; split <;> rfl

/-- A fold over the links keeps what each of its steps keeps. -/
theorem foldl_keeps {α β γ : Type} (p : β → γ) (f : β → α → β) (h : ∀ b a, p (f b a) = p b) :
    ∀ (as : List α) (b : β), p (as.foldl f b) = p b
  | [], _ => rfl
  | a :: as, b => (foldl_keeps p f h as (f b a)).trans (h b a)

/-- The same for a relation that is transitive along the steps. -/
theorem foldl_induct {α β : Type} (P : β → Prop) (f : β → α → β) (h : ∀ b a, P b → P (f b a)) :
    ∀ (as : List α) (b : β), P b → P (as.foldl f b)
  | [], _, hb => hb
  | a :: as, b, hb => foldl_induct P f h as (f b a) (h b a hb)

@[simp] theorem relayOutbound_agent (s : State) (x : Cell) : (s.relayOutbound x).agent = s.agent :=
  foldl_keeps State.agent _ (fun s l => by split <;> simp [relayTo_agent]) _ s

/-- A group or broadcast command (R134, R138, R142). -/
theorem take_of_shared {s : State} {c : CommandCell} (ha : s.arrives c) (hm : s.matchesShared c) (code : BitVec 7)
    (r : Bool) (body : Body) :
    s.take code r body c = if s.agent.resetPending || r then s.atSharedTaking code c
      else (body false c (s.atSharedTaking code c)).1 := by
  have e : ((s.relayOutbound (outboundCell code c)).noteTaking c).takeShared r body c s.agent.activeUplink =
      if s.agent.resetPending || r then s.atSharedTaking code c
      else (body false c (s.atSharedTaking code c)).1 := by
    simp only [State.takeShared]
    rw [show ((s.relayOutbound (outboundCell code c)).noteTaking c).movedTest s.agent.activeUplink =
      s.atSharedTaking code c from rfl]
    have : (s.atSharedTaking code c).agent.resetPending = s.agent.resetPending := by
      unfold State.atSharedTaking; simp
    rw [this]
  unfold State.take
  rw [if_pos (show (s.link c.arrival).config.shape.role = .uplink from ha)]
  rcases hm with h | h <;> rw [h] <;> exact e

/-- Taking by code is taking with the code's kind and body. -/
theorem takeByCode_eq (s : State) (code : BitVec 7) (c : CommandCell) :
    s.takeByCode code c = s.take code (readingCodes.contains code) (bodyOf code) c := by
  rcases Decidable.em (code = 0x01#7) with rfl | h1
  · rfl
  rcases Decidable.em (code = 0x02#7) with rfl | h2
  · rfl
  rcases Decidable.em (code = 0x03#7) with rfl | h3
  · rfl
  rcases Decidable.em (code = 0x04#7) with rfl | h4
  · rfl
  rcases Decidable.em (code = 0x10#7) with rfl | h5
  · rfl
  rcases Decidable.em (code = 0x11#7) with rfl | h6
  · rfl
  rcases Decidable.em (code = 0x12#7) with rfl | h7
  · rfl
  rcases Decidable.em (code = 0x13#7) with rfl | h8
  · rfl
  rcases Decidable.em (code = 0x20#7) with rfl | h9
  · rfl
  rcases Decidable.em (code = 0x21#7) with rfl | h10
  · rfl
  rcases Decidable.em (code = 0x22#7) with rfl | h11
  · rfl
  rcases Decidable.em (code = 0x30#7) with rfl | h12
  · rfl
  rcases Decidable.em (code = 0x31#7) with rfl | h13
  · rfl
  rcases Decidable.em (code = 0x32#7) with rfl | h14
  · rfl
  rcases Decidable.em (code = 0x33#7) with rfl | h15
  · rfl
  rcases Decidable.em (code = 0x34#7) with rfl | h16
  · rfl
  rcases Decidable.em (code = 0x35#7) with rfl | h17
  · rfl
  rcases Decidable.em (code = 0x36#7) with rfl | h18
  · rfl
  rcases Decidable.em (code = 0x37#7) with rfl | h19
  · rfl
  rcases Decidable.em (code = 0x38#7) with rfl | h20
  · rfl
  rcases Decidable.em (code = 0x40#7) with rfl | h21
  · rfl
  rcases Decidable.em (code = 0x41#7) with rfl | h22
  · rfl
  rcases Decidable.em (code = 0x42#7) with rfl | h23
  · rfl
  rcases Decidable.em (code = 0x43#7) with rfl | h24
  · rfl
  rcases Decidable.em (code = 0x50#7) with rfl | h25
  · rfl
  rcases Decidable.em (code = 0x51#7) with rfl | h26
  · rfl
  rcases Decidable.em (code = 0x52#7) with rfl | h27
  · rfl
  have hr : readingCodes.contains code = false := by simp [readingCodes, h1, h6, h7, h8, h10, h13, h17, h23, h25]
  rw [hr]
  simp only [State.takeByCode, bodyOf, h1, h2, h3, h4, h5, h6, h7, h8, h9, h10, h11, h12, h13, h14, h15, h16,
    h17, h18, h19, h20, h21, h22, h23, h24, h25, h26, h27, if_false]
  rfl

/-! ## Relaying -/

theorem relayTo_link (s : State) (l k : LinkId) (x : Cell) (h : s.agent.heldPlace = none) : (s.relayTo l x).link k =
    if k = l then (if (s.link l).queue.length < 4 then { s.link l with queue := (s.link l).queue ++ [⟨x, false⟩] }
        else { s.link l with mgmtCount := { (s.link l).mgmtCount with
          relayDrops := satAdd16 (s.link l).mgmtCount.relayDrops 1 } }) else s.link k := by
  unfold State.relayTo State.hasRoom State.enqueue
  simp only [h, Config.cellQueueCapacity, reduceCtorEq, if_false, Nat.add_zero, decide_eq_true_eq]
  split <;> rw [link_updLink]

@[simp] theorem relayOutbound_pending (s : State) (x : Cell) : (s.relayOutbound x).pending = s.pending :=
  foldl_keeps State.pending _ (fun s l => by
    split
    · unfold State.relayTo; split <;> rfl
    · rfl) _ s
@[simp] theorem relayOutbound_tb (s : State) (x : Cell) : (s.relayOutbound x).tb = s.tb :=
  foldl_keeps State.tb _ (fun s l => by
    split
    · unfold State.relayTo; split <;> rfl
    · rfl) _ s
@[simp] theorem relayOutbound_map (s : State) (x : Cell) : (s.relayOutbound x).map = s.map :=
  foldl_keeps State.map _ (fun s l => by
    split
    · unfold State.relayTo; split <;> rfl
    · rfl) _ s
@[simp] theorem relayOutbound_bank (s : State) (x : Cell) : (s.relayOutbound x).bank = s.bank :=
  foldl_keeps State.bank _ (fun s l => by
    split
    · unfold State.relayTo; split <;> rfl
    · rfl) _ s
@[simp] theorem relayOutbound_bridges (s : State) (x : Cell) : (s.relayOutbound x).bridges = s.bridges :=
  foldl_keeps State.bridges _ (fun s l => by
    split
    · unfold State.relayTo; split <;> rfl
    · rfl) _ s
@[simp] theorem relayOutbound_events (s : State) (x : Cell) : (s.relayOutbound x).events = s.events :=
  foldl_keeps State.events _ (fun s l => by
    split
    · unfold State.relayTo; split <;> rfl
    · rfl) _ s
@[simp] theorem relayOutbound_notice (s : State) (x : Cell) : (s.relayOutbound x).notice = s.notice :=
  foldl_keeps State.notice _ (fun s l => by
    split
    · unfold State.relayTo; split <;> rfl
    · rfl) _ s

/-! ## The shell of a taking -/

/-- What the taking of a command leaves alone around its body: all but the notice controller, the cell queues, the
counters of relay drops and congestion, and three fields of the agent (R131, R134, R136, R137, R139). -/
structure State.Shell (s u : State) : Prop where
  pending : u.pending = s.pending
  tb : u.tb = s.tb
  map : u.map = s.map
  bank : u.bank = s.bank
  bridges : u.bridges = s.bridges
  events : u.events = s.events
  agent : ∃ up a held, u.agent = { s.agent with activeUplink := up, replyAddr := a, heldPlace := held }
  link : ∀ l, ∃ q d g, u.link l = { s.link l with queue := q, mgmtCount :=
    { (s.link l).mgmtCount with relayDrops := d, congestion := g } }

theorem State.Shell.refl (s : State) : State.Shell s s :=
  ⟨rfl, rfl, rfl, rfl, rfl, rfl, ⟨_, _, _, rfl⟩, fun _ => ⟨_, _, _, rfl⟩⟩

theorem State.Shell.trans {s u v : State} (h : State.Shell s u) (g : State.Shell u v) : State.Shell s v := by
  refine ⟨g.pending.trans h.pending, g.tb.trans h.tb, g.map.trans h.map, g.bank.trans h.bank, g.bridges.trans h.bridges,
    g.events.trans h.events, ?_, fun l => ?_⟩
  · obtain ⟨_, _, _, e⟩ := h.agent; obtain ⟨_, _, _, e'⟩ := g.agent
    exact ⟨_, _, _, by rw [e', e]⟩
  · obtain ⟨_, _, _, e⟩ := h.link l; obtain ⟨_, _, _, e'⟩ := g.link l
    exact ⟨_, _, _, by rw [e', e]⟩

theorem State.Shell.of_only {s u : State} (h : s.EventOnly u) (he : u.events = s.events) : State.Shell s u :=
  ⟨h.pending, h.tb, h.map, h.bank, h.bridges, he, ⟨_, _, _, h.agent⟩, fun l => ⟨_, _, _, h.link l⟩⟩

theorem movedTest_shell (s : State) (l : LinkId) : State.Shell s (s.movedTest l) :=
  .of_only (movedTest_only s l) (movedTest_events s l)

theorem noteTaking_shell (s : State) (c : CommandCell) : State.Shell s (s.noteTaking c) :=
  ⟨rfl, rfl, rfl, rfl, rfl, rfl, ⟨_, _, _, rfl⟩, fun _ => ⟨_, _, _, rfl⟩⟩

theorem holdPlace_shell (s : State) (l : LinkId) : State.Shell s (s.holdPlace l) :=
  ⟨rfl, rfl, rfl, rfl, rfl, rfl, ⟨_, _, _, rfl⟩, fun _ => ⟨_, _, _, rfl⟩⟩

theorem updLink_shell (s : State) (l : LinkId) (f : Link → Link) (h : ∃ q d g, f (s.link l) = { s.link l with
    queue := q, mgmtCount := { (s.link l).mgmtCount with relayDrops := d, congestion := g } }) :
    State.Shell s (s.updLink l f) := by
  refine ⟨rfl, rfl, rfl, rfl, rfl, rfl, ⟨_, _, _, rfl⟩, fun k => ?_⟩
  rw [link_updLink]; split
  · next e => rw [e]; exact h
  · exact ⟨_, _, _, rfl⟩

theorem congested_shell (s : State) (l : LinkId) : State.Shell s (s.congested l) := updLink_shell _ _ _ ⟨_, _, _, rfl⟩

theorem respond_shell (s : State) (code : BitVec 7) (c : CommandCell) (a : Answer) :
    State.Shell s (s.respond code c a) :=
  have h : State.Shell s s.releasePlace := ⟨rfl, rfl, rfl, rfl, rfl, rfl, ⟨_, _, _, rfl⟩, fun _ => ⟨_, _, _, rfl⟩⟩
  h.trans (updLink_shell s.releasePlace c.arrival
    (fun k => { k with queue := k.queue ++ [⟨responseCell code c a, a.resetResponse⟩] }) ⟨_, _, _, rfl⟩)

theorem relayTo_shell (s : State) (l : LinkId) (x : Cell) : State.Shell s (s.relayTo l x) := by
  unfold State.relayTo; split
  · exact updLink_shell _ _ _ ⟨_, _, _, rfl⟩
  · exact updLink_shell _ _ _ ⟨_, _, _, rfl⟩

theorem relayOutbound_shell (s : State) (x : Cell) : State.Shell s (s.relayOutbound x) :=
  foldl_induct (fun u => State.Shell s u) _ (fun u l hu => by
    split
    · exact hu.trans (relayTo_shell ..)
    · exact hu) _ _ (.refl s)

/-- Everything the taking of a command can do: nothing, the shell alone, a BUSY answer, a congestion count, or the
command's body in the shell, answered when taken by unicast (R134, R137 to R142). -/
theorem take_cases (s : State) (code : BitVec 7) (r : Bool) (body : Body) (c : CommandCell) :
    s.take code r body c = s ∨ ∃ u, State.Shell s u ∧
      (s.take code r body c = u ∨ s.take code r body c = (body false c u).1 ∨
       s.take code r body c = (body true c u).1.respond code c (body true c u).2) := by
  have hu : ∀ u : State, State.Shell s u → ∀ old, u.takeUnicast code body c old = s ∨ ∃ v, State.Shell s v ∧
      (u.takeUnicast code body c old = v ∨ u.takeUnicast code body c old = (body false c v).1 ∨
       u.takeUnicast code body c old = (body true c v).1.respond code c (body true c v).2) := by
    intro u h old
    right
    unfold State.takeUnicast
    simp only
    set s1 := if c.noticeFirst then u.movedTest old else u
    have h1 : State.Shell s s1 := by
      simp only [s1]; split; exacts [h.trans (movedTest_shell ..), h]
    split
    · set s3 := if c.noticeFirst then s1.holdPlace c.arrival else (s1.holdPlace c.arrival).movedTest old
      have h3 : State.Shell s s3 := by
        simp only [s3]; split
        · exact h1.trans (holdPlace_shell ..)
        · exact (h1.trans (holdPlace_shell ..)).trans (movedTest_shell ..)
      split
      · exact ⟨_, h3.trans (respond_shell ..), .inl rfl⟩
      · exact ⟨_, h3, .inr (.inr rfl)⟩
    · exact ⟨_, h1.trans (congested_shell ..), .inl rfl⟩
  have hs : ∀ u : State, State.Shell s u → ∀ old, u.takeShared r body c old = s ∨ ∃ v, State.Shell s v ∧
      (u.takeShared r body c old = v ∨ u.takeShared r body c old = (body false c v).1 ∨
       u.takeShared r body c old = (body true c v).1.respond code c (body true c v).2) := by
    intro u h old
    right
    unfold State.takeShared
    simp only
    have h1 := h.trans (movedTest_shell u old)
    split
    · exact ⟨_, h1, .inl rfl⟩
    · exact ⟨_, h1, .inr (.inl rfl)⟩
  unfold State.take
  split
  · split
    · exact .inl rfl
    · exact hu _ (noteTaking_shell ..) _
    · exact hs _ ((relayOutbound_shell ..).trans (noteTaking_shell ..)) _
    · exact hs _ ((relayOutbound_shell ..).trans (noteTaking_shell ..)) _
  · exact .inl rfl

/-- What the shell and the body keep, the taking keeps. -/
theorem take_keeps (P : State → Prop) {s : State} (hs : P s) (hsh : ∀ u v, P u → State.Shell u v → P v)
    {body : Body} (hb : ∀ b c u, P u → P (body b c u).1) (code : BitVec 7) (r : Bool) (c : CommandCell) :
    P (s.take code r body c) := by
  rcases take_cases s code r body c with e | ⟨u, h, e | e | e⟩ <;> rw [e]
  · exact hs
  · exact hsh _ _ hs h
  · exact hb _ _ _ (hsh _ _ hs h)
  · exact hsh _ _ (hb _ _ _ (hsh _ _ hs h)) (respond_shell ..)

/-- A unicast command that is examined answers what its body answers. -/
theorem exec_of_examines {s : State} {c : CommandCell} (h : s.examines c) {code : BitVec 7} {r : Bool} {body : Body}
    {i : Instr} {u : State} {a : Answer} (hi : exec i s = .next (s.take code r body c))
    (hb : body true c (s.atTaking c) = (u, a)) : exec i s = .next (u.respond code c a) := by
  rw [hi, take_of_examines h, hb]

end Sys2Proof.Machine
end

