-- ==== Sys2Proof/Laws/Exec.lean ====
section
/-!
SUPPORT. The 44 rows of the table as ten things that can happen to a state, and the bodies of the commands, so that a
proof about every command has few cases.
-/

namespace Sys2Proof.Machine

@[simp] theorem reconfigureRx_pending (s : State) (l : LinkId) (o n : LinkConfig) (rf : Bool) :
    (s.reconfigureRx l o n rf).pending = s.pending := by
  unfold State.reconfigureRx; (repeat' split) <;> simp
@[simp] theorem writeLink_pending (s : State) (l : LinkId) (n : LinkConfig) (rf : Bool) :
    (s.writeLink l n rf).pending = s.pending := by
  unfold State.writeLink; simp only [reconfigureRx_pending]; split <;> simp [State.clearLinkHolds]
@[simp] theorem setBridge_pending (s : State) (b : BridgeId) (x : Bridge) : (s.setBridge b x).pending = s.pending := rfl
@[simp] theorem writeStandby_pending (s : State) (i : Fin 512) (e : Entry) : (s.writeStandby i e).pending = s.pending :=
  rfl

/-- What holds of every command's body holds of the body of every code. -/
theorem bodyOf_induct (P : Body → Prop)
    (identify : P identifyBody)
    (addrSet : P addrSetBody)
    (groupSet : P groupSetBody)
    (partReset : P partResetBody)
    (linkSet : P linkSetBody)
    (linkGet : P linkGetBody)
    (linkStatus : P linkStatusBody)
    (countRead : P countReadBody)
    (refSet : P refSetBody)
    (refStatus : P refStatusBody)
    (timeSet : P timeSetBody)
    (mapWrite : P mapWriteBody)
    (mapRead : P mapReadBody)
    (bankCopy : P bankCopyBody)
    (bankClear : P bankClearBody)
    (bankAbort : P bankAbortBody)
    (bankStatus : P bankStatusBody)
    (switchAt : P switchAtBody)
    (switchNow : P switchNowBody)
    (switchCancel : P switchCancelBody)
    (legSet : P legSetBody)
    (legClear : P legClearBody)
    (legRead : P legReadBody)
    (bridgeSet : P bridgeSetBody)
    (eventRead : P eventReadBody)
    (eventMask : P eventMaskBody)
    (noticeSet : P noticeSetBody)
    (badCommand : P badCommandBody)
    (code : BitVec 7) : P (bodyOf code) := by
  have h : ∀ {q : Prop} [Decidable q] {x y : Body}, P x → P y → P (if q then x else y) := by
    intro q _ x y hx hy; split; exacts [hx, hy]
  unfold bodyOf
  exact h identify <| h addrSet <| h groupSet <| h partReset <| h linkSet <| h linkGet <| h linkStatus <| h
    countRead <| h refSet <| h refStatus <| h timeSet <| h mapWrite <| h mapRead <| h bankCopy <| h bankClear <| h
    bankAbort <| h bankStatus <| h switchAt <| h switchNow <| h switchCancel <| h legSet <| h legClear <| h
    legRead <| h bridgeSet <| h eventRead <| h eventMask <| h noticeSet <| badCommand

theorem bodies_pending (code : BitVec 7) : ∀ b c s, (bodyOf code b c s).1.pending = s.pending := by
  apply bodyOf_induct (fun body => ∀ b c s, (body b c s).1.pending = s.pending) <;> intro b c s <;>
  simp only [identifyBody, addrSetBody, groupSetBody, partResetBody, linkSetBody, linkGetBody, linkStatusBody, countReadBody,
    refSetBody, refStatusBody, timeSetBody, mapWriteBody, mapReadBody, bankCopyBody, bankClearBody, bankAbortBody,
    bankStatusBody, switchAtBody,
    switchNowBody, switchCancelBody, legSetBody, legClearBody, legReadBody, bridgeSetBody, eventReadBody,
    eventMaskBody, noticeSetBody, badCommandBody, State.startEngine] <;>
  (repeat' split) <;> first | rfl | simp

/-! ## A start, with and without frames that complete together with it -/

theorem frameStart_alone {s : State} {i : StartInput} (h : i.arrivals = []) : s.frameStart i = s.localFrameStart i := by
  simp [State.frameStart, h]

theorem exec_alone {s : State} {i : StartInput} (h : i.arrivals = []) :
    exec (.localFrameStart i) s = .next (s.localFrameStart i) := by
  rw [← frameStart_alone h]; rfl

theorem frameStart_none {s : State} {i : StartInput} (h : s.tb.startKind i.elapsed = none) : s.frameStart i = s := by
  simp [State.frameStart, h, localFrameStart_none h]

theorem frameStart_joined {s : State} {i : StartInput} {k : Bool} (h : s.tb.startKind i.elapsed = some k)
    (ha : i.arrivals ≠ []) : s.frameStart i =
      if s.uplinkDeparts then (s.throughArrivals i).noticeTest else s.throughArrivals i := by
  simp [State.frameStart, h, ha]

/-- What the rows that are no local frame start can do to a state. -/
inductive State.Did (s : State) : State → Prop
  | same : State.Did s s
  | powerOn (addr : BitVec 4) (upl : LinkId) : State.Did s (State.powerOn addr upl s.pending)
  | notice : State.Did s s.noticeTest
  | taken (code : BitVec 7) (c : CommandCell) : State.Did s (s.takeByCode code c)
  | clockReturn (l : LinkId) (h : (s.link l).rx.align = .noclock) :
      State.Did s (s.updLink l fun x => x.withRx (x.rx.clockSeen.aligned (.hunt [])))
  | bits (l : LinkId) (old new : List Bool) (h : (s.link l).rx.align = .hunt old ∨ (s.link l).rx.align = .confirm old) :
      State.Did s (s.receiveBits l old new)
  | header (l : LinkId) (e : Header) (b : Nat) (w : Word) (rf : Bool) (h : (s.link l).rx.align = .sync e b none) :
      State.Did s (s.judgeHeader l e b w rf)
  | frame (l : LinkId) (e : Header) (b : Nat) (f : FrameInProgress) (ws : Vector Word 63) (d : Nat)
      (acts : List ReceiveAct) (rf nf : Bool) (h : (s.link l).rx.align = .sync e b (some f)) :
      State.Did s (acts.foldl (State.receiveAct l f ws d rf nf) (s.updLink l (·.frameEnds e b)))

/-- The rows of the table as ten things that can happen to a state: those eight, a start by itself, and a start with
frames that complete together with it. -/
inductive State.Became (s : State) : State → Prop
  | did {t : State} (h : s.Did t) : State.Became s t
  | start (i : StartInput) (h : i.arrivals = []) : State.Became s (s.localFrameStart i)
  | joined (i : StartInput) (h : i.arrivals ≠ []) (k : Bool) (hk : s.tb.startKind i.elapsed = some k) :
      State.Became s (if s.uplinkDeparts then (s.throughArrivals i).noticeTest else s.throughArrivals i)

theorem frameCompletes_did (s : State) (x : FrameArrival) : s.Did (s.frameCompletes x) := by
  unfold State.frameCompletes; split
  · next h => exact .frame x.link _ _ _ x.words _ _ x.refFirst x.noticeFirst h
  · exact .same

/-- What the acts of a start and every completion keep, a start with completions keeps up to the notice's test. -/
theorem throughArrivals_keeps {P : State → Prop} {s : State} {i : StartInput} (h0 : P (s.localFrameStart i))
    (h : ∀ u x, P u → P (u.frameCompletes x)) : P (s.throughArrivals i) := by
  unfold State.throughArrivals
  generalize s.localFrameStart i = u at h0 ⊢
  induction i.arrivals generalizing u with
  | nil => exact h0
  | cons x xs ih => exact ih _ (h u x h0)

/-- What the acts of a start keep, and what the other rows keep, every row keeps. -/
theorem became_keeps {P : State → Prop} (did : ∀ s t, P s → s.Did t → P t)
    (start : ∀ s i, P s → P (s.localFrameStart i)) (s t : State) (hs : P s) (h : s.Became t) : P t := by
  cases h with
  | did h => exact did _ _ hs h
  | start i => exact start s i hs
  | joined i =>
    have hu := throughArrivals_keeps (start s i hs) fun u x hu => did u _ hu (frameCompletes_did u x)
    split
    · exact did _ _ hu .notice
    · exact hu

theorem takeBadCommand_eq (s : State) (code : BitVec 7) (c : CommandCell) (h : commandCodes.contains code = false) :
    s.takeBadCommand code c = s.takeByCode code c := by
  simp [commandCodes] at h
  simp [State.takeByCode, h]

theorem frameStart_became (s : State) (i : StartInput) : s.Became (s.frameStart i) := by
  by_cases h : i.arrivals = []
  · rw [frameStart_alone h]; exact .start i h
  · cases hk : s.tb.startKind i.elapsed with
    | none => rw [frameStart_none hk]; exact .did .same
    | some k => rw [frameStart_joined hk h]; exact .joined i h k hk

theorem startWhen_became (s : State) (d : Bool) (i : StartInput) : s.Became (s.startWhen d i) := by
  unfold State.startWhen; split
  · exact frameStart_became s i
  · exact .did .same

/-- Every command answers a next state that one of the ten things makes. -/
theorem exec_became (i : Instr) (s : State) : ∃ t, exec i s = .next t ∧ s.Became t := by
  cases i with
  | powerOnReset a u => exact ⟨_, rfl, .did (.powerOn a u)⟩
  | localFrameStart i => exact ⟨_, rfl, frameStart_became s i⟩
  | lockedStartTimeout i => exact ⟨_, rfl, startWhen_became ..⟩
  | localSuperframeStart i => exact ⟨_, rfl, startWhen_became ..⟩
  | noticeTimerExpiry i => exact ⟨_, rfl, startWhen_became ..⟩
  | clockLoss l i => exact ⟨_, rfl, startWhen_became ..⟩
  | engineEnd i => exact ⟨_, rfl, startWhen_became ..⟩
  | linkQualified l i => exact ⟨_, rfl, startWhen_became ..⟩
  | bankSwitch i => exact ⟨_, rfl, startWhen_became ..⟩
  | softResetApplied i => exact ⟨_, rfl, startWhen_became ..⟩
  | noticePlaced i =>
    refine ⟨_, rfl, ?_⟩
    split
    · exact .did .notice
    · exact startWhen_became ..
  | clockReturn l =>
    refine ⟨_, rfl, ?_⟩
    split
    · next h => exact .did (.clockReturn l h)
    · exact .did .same
  | huntCandidate l bits =>
    refine ⟨_, rfl, ?_⟩
    split
    · next h => exact .did (.bits l _ bits (.inl h))
    · exact .did .same
  | confirmationHeader l bits =>
    refine ⟨_, rfl, ?_⟩
    split
    · next h => exact .did (.bits l _ bits (.inr h))
    · exact .did .same
  | syncHeaderArrival l w rf =>
    refine ⟨_, rfl, ?_⟩
    split
    · next h => exact .did (.header l _ _ w rf h)
    · exact .did .same
  | receiveFrameComplete l ws o rf nf => exact ⟨_, rfl, (.did (frameCompletes_did ..))⟩
  | badCommand code c =>
    refine ⟨_, rfl, ?_⟩
    split
    · exact .did .same
    · next h => rw [takeBadCommand_eq s code c (by simpa using h)]; exact .did (.taken code c)
  | identify c => exact ⟨_, rfl, .did (.taken 0x01#7 c)⟩
  | addrSet c => exact ⟨_, rfl, .did (.taken 0x02#7 c)⟩
  | groupSet c => exact ⟨_, rfl, .did (.taken 0x03#7 c)⟩
  | partReset c => exact ⟨_, rfl, .did (.taken 0x04#7 c)⟩
  | linkSet c => exact ⟨_, rfl, .did (.taken 0x10#7 c)⟩
  | linkGet c => exact ⟨_, rfl, .did (.taken 0x11#7 c)⟩
  | linkStatus c => exact ⟨_, rfl, .did (.taken 0x12#7 c)⟩
  | countRead c => exact ⟨_, rfl, .did (.taken 0x13#7 c)⟩
  | refSet c => exact ⟨_, rfl, .did (.taken 0x20#7 c)⟩
  | refStatus c => exact ⟨_, rfl, .did (.taken 0x21#7 c)⟩
  | timeSet c => exact ⟨_, rfl, .did (.taken 0x22#7 c)⟩
  | mapWrite c => exact ⟨_, rfl, .did (.taken 0x30#7 c)⟩
  | mapRead c => exact ⟨_, rfl, .did (.taken 0x31#7 c)⟩
  | bankCopy c => exact ⟨_, rfl, .did (.taken 0x32#7 c)⟩
  | bankClear c => exact ⟨_, rfl, .did (.taken 0x33#7 c)⟩
  | bankAbort c => exact ⟨_, rfl, .did (.taken 0x34#7 c)⟩
  | bankStatus c => exact ⟨_, rfl, .did (.taken 0x35#7 c)⟩
  | switchAt c => exact ⟨_, rfl, .did (.taken 0x36#7 c)⟩
  | switchNow c => exact ⟨_, rfl, .did (.taken 0x37#7 c)⟩
  | switchCancel c => exact ⟨_, rfl, .did (.taken 0x38#7 c)⟩
  | legSet c => exact ⟨_, rfl, .did (.taken 0x40#7 c)⟩
  | legClear c => exact ⟨_, rfl, .did (.taken 0x41#7 c)⟩
  | legRead c => exact ⟨_, rfl, .did (.taken 0x42#7 c)⟩
  | bridgeSet c => exact ⟨_, rfl, .did (.taken 0x43#7 c)⟩
  | eventRead c => exact ⟨_, rfl, .did (.taken 0x50#7 c)⟩
  | eventMask c => exact ⟨_, rfl, .did (.taken 0x51#7 c)⟩
  | noticeSet c => exact ⟨_, rfl, .did (.taken 0x52#7 c)⟩
end Sys2Proof.Machine
end

