-- ==== Sys2Proof/Laws/Operands.lean ====
section
/-!
SUPPORT. How coded values are read back from bytes (R197, R198): a value in range is read as itself, a value out of
range is not read.
-/

namespace Sys2Proof.Machine

theorem finOf_eq_some {n : Nat} {b : Byte} {i : Fin n} (h : b.toNat = i.val) : finOf n b = some i := by
  unfold finOf; rw [dif_pos (by omega)]; congr 1; exact Fin.ext h

theorem finOf_eq_none {n : Nat} {b : Byte} (h : n ≤ b.toNat) : finOf n b = none := by
  unfold finOf; rw [dif_neg (by omega)]

theorem byteOf_eq {b : Byte} {n : Nat} (h : b.toNat = n) : byteOf n = b := by
  subst h; simp [byteOf]

theorem finOf_byteOf {n : Nat} (i : Fin n) (h : n ≤ 256) : finOf n (byteOf i.val) = some i := by
  apply finOf_eq_some
  have : (byteOf i.val).toNat = i.val % 256 := by simp [byteOf]
  omega

@[simp] theorem flagOf_flagCode (x : Bool) : flagOf (flagCode x) = some x := by cases x <;> rfl

theorem flagOf_eq_none {b : Byte} (h : 2 ≤ b.toNat) : flagOf b = none := by
  unfold flagOf
  rw [if_neg (by rintro rfl; simp at h), if_neg (by rintro rfl; simp at h)]

@[simp] theorem bankOf_bankCode (k : Bank) : bankOf (bankCode k) = some k := by cases k <;> rfl

theorem bankOf_eq_none {b : Byte} (h : 2 ≤ b.toNat) : bankOf b = none := by
  unfold bankOf
  rw [if_neg (by rintro rfl; simp at h), if_neg (by rintro rfl; simp at h)]

@[simp] theorem refEntryOf_refEntryCode (e : RefEntry) : refEntryOf (refEntryCode e) = some e := by
  cases e with
  | link l => revert l; decide
  | localClock => rfl

theorem refEntryOf_eq_none {b : Byte} (h : 9 ≤ b.toNat) : refEntryOf b = none := by
  unfold refEntryOf
  rw [if_neg (by rintro rfl; simp at h), finOf_eq_none (by omega)]; rfl

@[simp] theorem slotCountOf_code (n : SlotCount) : slotCountOf (slotCountCode n) = some n := by cases n <;> rfl
@[simp] theorem roleOf_code (r : Role) : roleOf (roleCode r) = some r := by cases r <;> rfl
@[simp] theorem faultOf_code (f : FaultAction) : faultOf (faultCode f) = some f := by cases f <;> rfl

@[simp] theorem high_low (w : Word) : wordOfBytes (highByte w) (lowByte w) = w := by
  apply BitVec.eq_of_toNat_eq
  simp only [wordOfBytes, highByte, lowByte, BitVec.toNat_append, BitVec.extractLsb'_toNat, Nat.shiftRight_zero]
  rw [← Nat.shiftLeft_add_eq_or_of_lt (Nat.mod_lt _ (by decide))]
  have := w.isLt
  simp only [Nat.shiftLeft_eq, Nat.shiftRight_eq_div_pow]
  omega

theorem highByte_of (x y : Byte) : highByte (wordOfBytes x y) = x := by
  apply BitVec.eq_of_toNat_eq
  simp only [wordOfBytes, highByte, BitVec.toNat_append, BitVec.extractLsb'_toNat]
  rw [← Nat.shiftLeft_add_eq_or_of_lt y.isLt]
  have := x.isLt; have := y.isLt
  simp only [Nat.shiftLeft_eq, Nat.shiftRight_eq_div_pow]
  omega

theorem lowByte_of (x y : Byte) : lowByte (wordOfBytes x y) = y := by
  apply BitVec.eq_of_toNat_eq
  simp only [wordOfBytes, lowByte, BitVec.toNat_append, BitVec.extractLsb'_toNat, Nat.shiftRight_zero]
  rw [← Nat.shiftLeft_add_eq_or_of_lt y.isLt]
  have := x.isLt; have := y.isLt
  simp only [Nat.shiftLeft_eq]
  omega

@[simp] theorem highByte_pWord (c : CommandCell) (i j : Fin 8) : highByte (pWord c i j) = pByte c i := highByte_of ..
@[simp] theorem lowByte_pWord (c : CommandCell) (i j : Fin 8) : lowByte (pWord c i j) = pByte c j := lowByte_of ..

/-- The check of a cell in the other words of R127: the sum of its eight words is 0xFFFF. -/
theorem cellGood_iff (x : Cell) :
    cellGood x = true ↔ x[0] + x[1] + x[2] + x[3] + x[4] + x[5] + x[6] + x[7] = 0xFFFF#16 := by
  have this : ∀ t y : Word, y = ~~~t ↔ t + y = 0xFFFF#16 := by
    intro t y
    rw [← BitVec.toNat_inj, ← BitVec.toNat_inj]
    simp [BitVec.toNat_not, BitVec.toNat_add]
    have := t.isLt; have := y.isLt
    omega
  exact decide_eq_true_iff.trans (this _ _)

theorem w3_built (w : Word) : (w.extractLsb' 13 3 ++ w.extractLsb' 6 7 ++ w.extractLsb' 0 6 : BitVec 16) = w := by
  apply BitVec.eq_of_getLsbD_eq
  intro i hi
  simp only [BitVec.getLsbD_append, BitVec.getLsbD_extractLsb']
  interval_cases i <;> simp

theorem check_of_sum {t y : Word} (h : t + y = 0xFFFF#16) : ~~~t = y := by
  rw [← BitVec.toNat_inj] at h ⊢
  simp [BitVec.toNat_not, BitVec.toNat_add] at h ⊢
  have := t.isLt; have := y.isLt
  omega

/-! ## Bits of a lane -/

theorem length_bitsOfWord (w : Word) : (bitsOfWord w).length = 16 := by simp [bitsOfWord]

theorem wordOfBits_bitsOfWord (w : Word) : wordOfBits (bitsOfWord w) = w := by
  simp [wordOfBits, bitsOfWord, List.range_succ]
  ext i hi
  interval_cases i <;> simp [BitVec.getElem_or, BitVec.getElem_shiftLeft, BitVec.getElem_setWidth]

theorem firstWord_bitsOfWord (w : Word) : firstWord? (bitsOfWord w) = some w := by
  unfold firstWord?
  have : (bitsOfWord w).take 16 = bitsOfWord w := List.take_of_length_le (by simp [length_bitsOfWord])
  rw [this, if_pos (length_bitsOfWord w), wordOfBits_bitsOfWord]

theorem bitsOfWord_cons (w : Word) : ∃ b rest, bitsOfWord w = b :: rest := by
  cases h : bitsOfWord w with
  | nil => have := length_bitsOfWord w; simp [h] at this
  | cons b rest => exact ⟨b, rest, rfl⟩

theorem firstWord_none {bits : List Bool} (h : bits.length < 16) : firstWord? bits = none := by
  unfold firstWord?; rw [if_neg]; simp; omega

theorem bit_at (b : Bool) (k i : Nat) (h : i < 16) :
    ((if b then 1#16 <<< k else 0#16) : Word)[i] = (b && decide (i = k)) := by
  cases b
  · simp
  · simp only [if_true, BitVec.getElem_shiftLeft, Bool.true_and]
    by_cases e : i = k
    · subst e; simp
    · simp [e]; intros; omega

/-! ## Headers and slot roles -/

theorem succ_wf {h : Header} : h.wellFormed = true → h.succ.wellFormed = true := by
  have : ∀ c i : BitVec 6, (Header.mk c i).wellFormed = true → (Header.mk c i).succ.wellFormed = true := by decide +kernel
  exact this h.code h.index

theorem isPayload_iff (sh : Shape) (t : Nat) : sh.isPayload t = true ↔ t < sh.slotCount.toNat ∧ t ≠ 0 ∧
    ¬(sh.checkEnable = true ∧ t + 1 = sh.slotCount.toNat) ∧ ¬(sh.role ≠ .none ∧ t = sh.mgmtSlot.val) := by
  simp [Shape.isPayload, Shape.isCheck, Shape.isMgmt, and_assoc]
  cases sh.checkEnable <;> cases sh.role <;> simp

theorem xorWords_append (ws : List Word) (w : Word) : xorWords (ws ++ [w]) = xorWords ws ^^^ w := by
  simp [xorWords]

/-! ## Superframe numbers -/

theorem stepOf_none {old new : Word} (h : new = old + 1#16) : stepOf old new = none := by
  subst h; simp [stepOf, distance]

theorem stepOf_forward {old new : Word} (h1 : 1 ≤ distance new (old + 1#16)) (h2 : distance new (old + 1#16) ≤ 32767) :
    stepOf old new = some true := by
  unfold stepOf; rw [if_neg (by omega), decide_eq_true h2]

theorem stepOf_backward {old new : Word} (h1 : 32768 ≤ distance new (old + 1#16)) :
    stepOf old new = some false := by
  unfold stepOf; rw [if_neg (by omega), decide_eq_false (by omega)]

theorem inFuture_iff (a b : Word) : inFuture a b = true ↔ 1 ≤ (a - b).toNat ∧ (a - b).toNat ≤ 32767 := by
  unfold inFuture distance; rw [Bool.and_eq_true, decide_eq_true_iff, decide_eq_true_iff]

theorem finOf_iff {n : Nat} {b : Byte} {i : Fin n} : finOf n b = some i ↔ b.toNat = i.val := by
  unfold finOf
  split
  · simp [Fin.ext_iff]
  · simp; have := i.isLt; omega

theorem finOf_none_iff {n : Nat} {b : Byte} : finOf n b = none ↔ n ≤ b.toNat := by
  unfold finOf; split <;> simp <;> omega

theorem faultOf_iff {b : Byte} {f : FaultAction} :
    faultOf b = some f ↔ b = match f with | .idle => 0#8 | .hold => 1#8 := by
  unfold faultOf
  by_cases h0 : b = 0#8
  · subst h0; cases f <;> simp
  · by_cases h1 : b = 1#8
    · subst h1; cases f <;> simp
    · cases f <;> simp [h0, h1]

theorem faultOf_none_iff {b : Byte} : faultOf b = none ↔ 2 ≤ b.toNat := by
  unfold faultOf
  by_cases h0 : b = 0#8
  · subst h0; simp
  · by_cases h1 : b = 1#8
    · subst h1; simp
    · simp only [h0, h1, if_false, true_iff]
      have h0 : b.toNat ≠ 0 := fun h => h0 (BitVec.eq_of_toNat_eq h)
      have h1 : b.toNat ≠ 1 := fun h => h1 (BitVec.eq_of_toNat_eq h)
      omega

/-- The entry a MAP-WRITE names, byte by byte (R163, checks 3 and 4). -/
theorem entryOf_iff {c : CommandCell} {e : Entry} : entryOf c = some e ↔
    pByte c 3 = (match e.fault with | .idle => 0#8 | .hold => 1#8) ∧
      match e.source with
      | .idle => pByte c 2 = 0#8
      | .slot k p => pByte c 2 = 1#8 ∧ (pByte c 4).toNat = k.val ∧ (pByte c 5).toNat = p.val
      | .leg b k => pByte c 2 = 2#8 ∧ (pByte c 4).toNat = b.val ∧ (pByte c 5).toNat = k.val
      | .const w => pByte c 2 = 3#8 ∧ pWord c 4 5 = w := by
  obtain ⟨src, flt⟩ := e
  unfold entryOf
  simp only [← faultOf_iff, ← finOf_iff]
  cases hf : faultOf (pByte c 3) with
  | none => simp
  | some f =>
    simp only
    by_cases h0 : pByte c 2 = 0#8
    · cases src <;> simp [h0, and_comm]
    by_cases h1 : pByte c 2 = 1#8
    · cases src <;> cases finOf 8 (pByte c 4) <;> cases finOf 64 (pByte c 5) <;> simp [h1, and_comm]
    by_cases h2 : pByte c 2 = 2#8
    · cases src <;> cases finOf 16 (pByte c 4) <;> cases finOf 8 (pByte c 5) <;> simp [h2, and_comm]
    by_cases h3 : pByte c 2 = 3#8
    · cases src <;> simp [h3, and_comm]
    cases src <;> simp [h0, h1, h2, h3]

/-- No entry is named where the fault action or the kind is out of range, or a slot or a leg of that kind (R163). -/
theorem entryOf_none_iff {c : CommandCell} : entryOf c = none ↔ 2 ≤ (pByte c 3).toNat ∨ 4 ≤ (pByte c 2).toNat ∨
    (pByte c 2 = 1#8 ∧ (8 ≤ (pByte c 4).toNat ∨ 64 ≤ (pByte c 5).toNat)) ∨
    (pByte c 2 = 2#8 ∧ (16 ≤ (pByte c 4).toNat ∨ 8 ≤ (pByte c 5).toNat)) := by
  unfold entryOf
  rw [← faultOf_none_iff, ← finOf_none_iff (n := 8) (b := pByte c 4), ← finOf_none_iff (n := 64) (b := pByte c 5),
    ← finOf_none_iff (n := 16) (b := pByte c 4), ← finOf_none_iff (n := 8) (b := pByte c 5)]
  cases faultOf (pByte c 3) with
  | none => simp
  | some f =>
    simp only
    by_cases h0 : pByte c 2 = 0#8
    · simp [h0]
    by_cases h1 : pByte c 2 = 1#8
    · cases finOf 8 (pByte c 4) <;> cases finOf 64 (pByte c 5) <;> simp [h1]
    by_cases h2 : pByte c 2 = 2#8
    · cases finOf 16 (pByte c 4) <;> cases finOf 8 (pByte c 5) <;> simp [h2]
    by_cases h3 : pByte c 2 = 3#8
    · simp [h3]
    simp only [h0, h1, h2, h3, if_false, false_and, or_false, true_iff]
    have h0 : (pByte c 2).toNat ≠ 0 := fun h => h0 (BitVec.eq_of_toNat_eq h)
    have h1 : (pByte c 2).toNat ≠ 1 := fun h => h1 (BitVec.eq_of_toNat_eq h)
    have h2 : (pByte c 2).toNat ≠ 2 := fun h => h2 (BitVec.eq_of_toNat_eq h)
    have h3 : (pByte c 2).toNat ≠ 3 := fun h => h3 (BitVec.eq_of_toNat_eq h)
    right; omega

end Sys2Proof.Machine
end

