-- ==== Sys2Proof/Laws/Commands.lean ====
section
/-!
SUPPORT. The commands' own operations: what a written link record changes and what it leaves (R156), and the tests of the
map, bank, switch, bridge, timing and address commands.
-/

namespace Sys2Proof.Machine

/-! ## LINK-SET (R156) -/

@[simp] theorem written_config (x : Link) (n : LinkConfig) : (x.written n).config = n := rfl
@[simp] theorem written_store (x : Link) (n : LinkConfig) : (x.written n).store = x.store := by
  unfold Link.written; simp only; split <;> rfl
@[simp] theorem written_rxCount (x : Link) (n : LinkConfig) : (x.written n).rxCount = x.rxCount := by
  unfold Link.written; simp only; split <;> rfl
theorem written_rx (x : Link) (n : LinkConfig) : (x.written n).rx =
    if x.config.shape.checkEnable && !n.shape.checkEnable then { x.rx with checkAlarm := false, window := 0#8 }
    else x.rx := rfl
@[simp] theorem written_align (x : Link) (n : LinkConfig) : (x.written n).rx.align = x.rx.align := by
  rw [written_rx]; split <;> rfl
theorem written_assembler (x : Link) (n : LinkConfig) :
    (x.written n).assembler = if n.shape.role = .none then [] else x.assembler := rfl
theorem written_flushed {x : Link} {n : LinkConfig} (h : flushNeeded x.config n = true) : (x.written n).queue = [] ∧
    (x.written n).tx = { x.tx with wordCount := 0 } ∧
    (x.written n).mgmtCount = { x.mgmtCount with flushed := satAdd16 x.mgmtCount.flushed x.queue.length } := by
  unfold Link.written; simp [h, Link.flush]
theorem written_kept {x : Link} {n : LinkConfig} (h : flushNeeded x.config n = false) : (x.written n).queue = x.queue ∧
    (x.written n).tx = x.tx ∧ (x.written n).mgmtCount = x.mgmtCount := by
  unfold Link.written; simp [h]

@[simp] theorem clearLinkHolds_link (s : State) (l k : LinkId) : (s.clearLinkHolds l).link k = s.link k := by
  simp [State.clearLinkHolds]
@[simp] theorem clearLinkHolds_entries (s : State) (l : LinkId) (k : Bank) :
    (s.clearLinkHolds l).map.entries k = s.map.entries k := by simp [State.clearLinkHolds]
/-- The 64 hold values of the link are none, every other is kept (R76). -/
theorem clearLinkHolds_holds (s : State) (l k : LinkId) (t : SlotId) :
    (s.clearLinkHolds l).map.holds[(slotIndex k t).val] =
    if k = l then none else s.map.holds[(slotIndex k t).val] := by
  have e : (s.clearLinkHolds l).map.holds = vecOf 512 fun i => if i.val / 64 = l.val then none else s.map.holds[i.val] := rfl
  simp only [e, getElem_vecOf]
  have : (slotIndex k t).val / 64 = k.val := by simp [slotIndex]; omega
  simp only [this, Fin.ext_iff]

@[simp] theorem reconfigureRx_map (s : State) (l : LinkId)
    (o n : LinkConfig) (rf : Bool) :
    (s.reconfigureRx l o n rf).map = s.map := by unfold State.reconfigureRx; (repeat' split) <;> simp
@[simp] theorem reconfigureRx_bank (s : State) (l : LinkId)
    (o n : LinkConfig) (rf : Bool) :
    (s.reconfigureRx l o n rf).bank = s.bank := by unfold State.reconfigureRx; (repeat' split) <;> simp
@[simp] theorem reconfigureRx_bridges (s : State) (l : LinkId)
    (o n : LinkConfig) (rf : Bool) :
    (s.reconfigureRx l o n rf).bridges = s.bridges := by unfold State.reconfigureRx; (repeat' split) <;> simp
@[simp] theorem reconfigureRx_agent (s : State) (l : LinkId)
    (o n : LinkConfig) (rf : Bool) :
    (s.reconfigureRx l o n rf).agent = s.agent := by unfold State.reconfigureRx; (repeat' split) <;> simp
@[simp] theorem reconfigureRx_config (s : State) (l k : LinkId) (o n : LinkConfig) (rf : Bool) :
    ((s.reconfigureRx l o n rf).link k).config = (s.link k).config := by
  unfold State.reconfigureRx; (repeat' split) <;> simp [link_updLink, Link.watchReset] <;> (repeat' split) <;> simp_all
@[simp] theorem reconfigureRx_tx (s : State) (l k : LinkId) (o n : LinkConfig) (rf : Bool) :
    ((s.reconfigureRx l o n rf).link k).tx = (s.link k).tx := by
  unfold State.reconfigureRx; (repeat' split) <;> simp [link_updLink, Link.watchReset] <;> (repeat' split) <;> simp_all
@[simp] theorem reconfigureRx_mgmtCount (s : State) (l k : LinkId) (o n : LinkConfig) (rf : Bool) :
    ((s.reconfigureRx l o n rf).link k).mgmtCount = (s.link k).mgmtCount := by
  unfold State.reconfigureRx; (repeat' split) <;> simp [link_updLink, Link.watchReset] <;> (repeat' split) <;> simp_all
theorem reconfigureRx_rx_ne (s : State) {l k : LinkId} (h : k ≠ l) (o n : LinkConfig) (rf : Bool) :
    ((s.reconfigureRx l o n rf).link k).rx = (s.link k).rx := by
  unfold State.reconfigureRx; (repeat' split) <;> simp [link_updLink_ne _ h, leaveSync_rx_ne _ h]
theorem reconfigureRx_assembler_ne (s : State) {l k : LinkId} (h : k ≠ l) (o n : LinkConfig) (rf : Bool) :
    ((s.reconfigureRx l o n rf).link k).assembler = (s.link k).assembler := by
  unfold State.reconfigureRx; (repeat' split) <;> simp [link_updLink_ne _ h, leaveSync_assembler_ne _ h]

/-- An exit from SYNC gives no queue but the active uplink's a cell. -/
theorem leaveSync_queue_ne (s : State) {k : LinkId} (h : k ≠ s.agent.activeUplink) (l : LinkId)
    (a : Align) (d : DownCause) (rf : Bool) :
    ((s.leaveSync l a d rf).link k).queue = (s.link k).queue := by
  have hs : ∀ u : State, k ≠ u.agent.activeUplink → (u.select.link k).queue = (u.link k).queue := by
    intro u hu
    rcases select_cases u with ⟨_, e⟩ | ⟨_, e⟩ <;> rw [e]
    unfold State.enterSource
    rw [(report_only _ _ _ _).other k (by simpa using hu)]; simp
  have h0 : ((s.updLink l (·.outOfSync a d)).link k).queue = (s.link k).queue :=
    updLink_read (fun y : Link => y.queue) s l k _ rfl
  unfold State.leaveSync
  simp only
  split
  · rw [(report_only _ _ _ _).other k (by simpa using h)]
    rcases disqualified_cases (s.updLink l (·.outOfSync a d)) l
      (decide ((s.link l).rx.qualCount = Config.qualifiedCount)) with e | e <;> rw [e]
    · exact h0
    · rw [hs _ (by simpa using h), h0]
  · rcases disqualified_cases ((s.updLink l (·.outOfSync a d)).report .linkDown (linkSubject l) (downCode d)) l
      (decide ((s.link l).rx.qualCount = Config.qualifiedCount)) with e | e <;> rw [e]
    · rw [(report_only _ _ _ _).other k (by simpa using h), h0]
    · rw [hs _ (by simpa using h), (report_only _ _ _ _).other k (by simpa using h), h0]

theorem reconfigureRx_queue_ne (s : State) {k : LinkId} (h : k ≠ s.agent.activeUplink) (l : LinkId)
    (o n : LinkConfig) (rf : Bool) :
    ((s.reconfigureRx l o n rf).link k).queue = (s.link k).queue := by
  have hu : ∀ (u : State) (f : Link → Link), (∀ x, (f x).queue = x.queue) →
      ((u.updLink l f).link k).queue = (u.link k).queue :=
    fun u f hf => updLink_read (fun y : Link => y.queue) u l k f (hf _)
  unfold State.reconfigureRx
  (repeat' split) <;> first
    | rfl
    | exact leaveSync_queue_ne s h ..
    | (refine (hu _ _ ?_).trans ?_
       · intro x; rfl
       · first
           | exact leaveSync_queue_ne s h ..
           | rfl
           | (refine hu _ _ ?_; intro x; rfl))

/-- What an accepted LINK-SET leaves: the record, and the receiver's state as its fields changed (R19, R44). -/
theorem reconfigureRx_align (s : State) (l : LinkId)
    (o n : LinkConfig) (rf : Bool) :
    ((s.reconfigureRx l o n rf).link l).rx.align =
      if o.rxEnable && !n.rxEnable then .off
      else if !o.rxEnable && n.rxEnable then .hunt []
      else if n.rxEnable && decide (o.shape.slotCount ≠ n.shape.slotCount) then
        if (s.link l).rx.align = .noclock then .noclock else .hunt []
      else (s.link l).rx.align := by
  unfold State.reconfigureRx
  by_cases h1 : (o.rxEnable && !n.rxEnable) = true
  · simp only [if_pos h1]
    rw [link_updLink_self]
    split
    · simp [Link.watchReset, leaveSync_rx_self, Link.outOfSync]
    · simp [Link.watchReset]
  · simp only [if_neg h1]
    by_cases h2 : (!o.rxEnable && n.rxEnable) = true
    · simp only [if_pos h2]; simp [Link.watchReset]
    · simp only [if_neg h2]
      by_cases h3 : (n.rxEnable && decide (o.shape.slotCount ≠ n.shape.slotCount)) = true
      · simp only [if_pos h3]
        by_cases h4 : (s.link l).inSync = true
        · have : (s.link l).rx.align ≠ .noclock := by intro e; simp [Link.inSync, e, Align.isSync] at h4
          rw [if_pos h4, if_neg this, leaveSync_rx_self]; rfl
        · rw [if_neg h4]
          split
          · next e => exact e
          · simp
      · simp only [if_neg h3]

/-! ## The tests of the other commands -/

theorem scheduled_iff (x : Scheduler) : x.scheduled = true ↔ x ≠ .idle := by cases x <;> simp [Scheduler.scheduled]

theorem isRunning_iff (x : Engine) : x.isRunning = true ↔ ∃ op pos, x = .running op pos :=
  by cases x <;> simp [Engine.isRunning]

theorem not_running {x : Engine} (h : ∀ op pos, x ≠ .running op pos) : x.isRunning = false := by
  rw [Bool.eq_false_iff, ne_eq, isRunning_iff]; rintro ⟨op, pos, e⟩; exact h _ _ e

theorem inputTaken_iff (x : Bridge) (k : LegId) (l : LinkId) (t : SlotId) : x.inputTaken k l t = true ↔
    ∃ j, j ≠ k ∧ ∃ g, x.legs[j.val] = some g ∧ g.link = l ∧ g.slot = t := by
  simp only [Bridge.inputTaken, List.any_eq_true, List.mem_finRange, true_and, Bool.and_eq_true, decide_eq_true_eq]
  refine exists_congr fun j => and_congr_right fun _ => ?_
  cases hl : x.legs[j.val] <;> simp [sameInput]

theorem presentLegs_eq (x : Bridge) :
    x.presentLegs = ((List.finRange 8).filter fun k : LegId => (x.legs[k.val]).isSome).length := by
  unfold Bridge.presentLegs
  have : x.legs.toList = (List.finRange 8).map fun k : LegId => x.legs[k.val] := by
    apply List.ext_getElem
    · simp
    · intro n h1 h2; simp
  rw [this, List.filter_map, List.length_map]; rfl

theorem aliasIndex_some {b : Byte} {i : Fin 3} (h : b.toNat = i.val + 1) : aliasIndex b = some i := by
  unfold aliasIndex
  rw [if_neg (by rintro rfl; simp at h)]
  apply finOf_eq_some
  rw [BitVec.toNat_sub]; simp; omega

theorem aliasIndex_none {b : Byte} (h : b = 0#8 ∨ 4 ≤ b.toNat) : aliasIndex b = none := by
  unfold aliasIndex
  split
  · rfl
  · rcases h with h | h
    · contradiction
    · apply finOf_eq_none; rw [BitVec.toNat_sub]; simp; omega

theorem refEntriesOf_code (es : List RefEntry) : refEntriesOf (es.map refEntryCode) = some es := by
  induction es with
  | nil => rfl
  | cons e es ih => simp [refEntriesOf, ih]

theorem noRepeats_iff {α} [DecidableEq α] (l : List α) : noRepeats l = true ↔ l.Nodup := by
  induction l with
  | nil => simp [noRepeats]
  | cons a l ih => simp [noRepeats, ih]

theorem refEntriesOf_none : ∀ (bs : List Byte), (∃ b ∈ bs, 9 ≤ b.toNat) → refEntriesOf bs = none
  | [], h => by simp at h
  | b :: bs, h => by
    unfold refEntriesOf
    rcases h with ⟨x, hx, h9⟩
    rcases List.mem_cons.1 hx with rfl | hx
    · rw [refEntryOf_eq_none h9]
    · rw [refEntriesOf_none bs ⟨x, hx, h9⟩]; cases refEntryOf b <;> rfl

theorem qualifiedMarks_at (s : State) (c) : (s.atTaking c).qualifiedMarks = s.qualifiedMarks := by
  have : (s.atTaking c).qualified = s.qualified := by
    funext e; exact qualified_congr (fun l => by simp) e
  simp [State.qualifiedMarks, this]

end Sys2Proof.Machine
end

