-- ==== Sys2Proof/Laws/Receive.lean ====
section
/-!
SUPPORT. The receive side: the bit search, the things handed over at a completion, and what every operation keeps of the
receive side of a link (R19, R22, R26, R34, R41).
-/

namespace Sys2Proof.Machine

/-! ## Search -/

theorem searchBits_short {n : Nat} {bits : List Bool} (h : bits.length < 16) : searchBits n bits = .hunt bits := by
  cases bits with
  | nil => rfl
  | cons b rest => unfold searchBits; rw [firstWord_none h]

theorem frameBits_ge (x : Link) : 128 ≤ x.frameBits := by
  unfold Link.frameBits; cases x.config.shape.slotCount <;> simp [SlotCount.toNat]

theorem searchBits_word (x : Link) (w : Word) : searchBits x.frameBits (bitsOfWord w) =
    if (headerOf w).wellFormed then .confirm (bitsOfWord w) else .hunt ((bitsOfWord w).drop 1) := by
  obtain ⟨b, rest, h⟩ := bitsOfWord_cons w
  have hl := length_bitsOfWord w
  have hw := firstWord_bitsOfWord w
  rw [h] at hl hw ⊢
  simp at hl
  have hd : firstWord? ((b :: rest).drop x.frameBits) = none := by
    apply firstWord_none; have := frameBits_ge x; simp; omega
  unfold searchBits
  simp only [hw, hd]
  split
  · rfl
  · rw [searchBits_short (by omega)]; rfl

/-- A search enters SYNC at a well-formed header only (R22). -/
theorem searchBits_sync (n : Nat) {w : Word} :
    ∀ bits : List Bool, searchBits n bits = .sync w → (headerOf w).wellFormed = true
  | [], h => by simp [searchBits] at h
  | b :: rest, h => by
    have ih := searchBits_sync n rest (w := w)
    unfold searchBits at h
    split at h
    · cases h
    · split at h
      · split at h
        · cases h
        · split at h
          · split at h
            · cases h
            · split at h
              · next hs => cases h; simp [isSuccessor] at hs; exact hs.1
              · exact ih h
          · exact ih h
      · exact ih h

/-! ## Completions -/

theorem mem_receiveActs (order : List ReceiveAct) (a : ReceiveAct) : a ∈ firstOccurrences (order ++ allReceiveActs) :=
  mem_firstOccurrences.2 (List.mem_append_right _ (by cases a <;> simp [allReceiveActs]))

/-- What the counters of the management channel, the shell and the takings keep, a completed cell keeps (R133 to R135). -/
theorem completeCell_keeps (P : State → Prop)
    (hm : ∀ (u : State) (l : LinkId) (g : MgmtCounters → MgmtCounters), P u →
      P (u.updLink l fun x => { x with mgmtCount := g x.mgmtCount }))
    (hsh : ∀ u v, P u → State.Shell u v → P v) (ht : ∀ u code c, P u → P (State.takeByCode u code c)) {s : State}
    (h : P s) (l : LinkId) (x : Cell) (rf nf : Bool) : P (s.completeCell l x rf nf) := by
  have hd : ∀ u : State, P u → P (u.dispatch l x rf nf) := by
    intro u hu
    have he : P (u.directionError l) := hm u l (fun m => { m with directionErrors := satAdd16 m.directionErrors 1 }) hu
    have ho : P (u.dispatchOutbound l x rf nf) := by
      unfold State.dispatchOutbound; split
      · exact hsh _ _ hu (relayOutbound_shell ..)
      · exact ht _ _ _ hu
    unfold State.dispatch
    split
    · exact hu
    · split; exacts [ho, he]
    · split
      · exact he
      · exact hsh _ _ hu (relayTo_shell ..)
  unfold State.completeCell
  split
  · exact hd _ (hm s l (fun m => { m with goodCells := satAdd16 m.goodCells 1 }) h)
  · exact hm s l (fun m => { m with checkFailures := satAdd16 m.checkFailures 1 }) h

/-! ## What keeps the receive side in order -/

/-- What `Link.receiveOk` looks at is the same. -/
structure SameRx (x y : Link) : Prop where
  rxe : y.config.rxEnable = x.config.rxEnable
  ce : y.config.shape.checkEnable = x.config.shape.checkEnable
  rx : y.rx = x.rx
  q : y.store.queue = x.store.queue
  p : y.store.primed = x.store.primed
  asm : y.assembler = x.assembler

theorem SameRx.ok {x y : Link} (h : SameRx x y) (hx : x.receiveOk) : y.receiveOk := by
  unfold Link.receiveOk Link.inSync Link.quiet at *
  rw [h.rxe, h.ce, h.rx, h.q, h.p, h.asm]; exact hx

theorem sameRx_shell {s u : State} (h : State.Shell s u) (l) : SameRx (s.link l) (u.link l) := by
  obtain ⟨q, d, g, e⟩ := h.link l
  rw [e]; exact ⟨rfl, rfl, rfl, rfl, rfl, rfl⟩

theorem sameRx_only {s u : State} (h : s.EventOnly u) (l) : SameRx (s.link l) (u.link l) := by
  rw [h.link l]; exact ⟨rfl, rfl, rfl, rfl, rfl, rfl⟩

theorem ok_report {s : State} (h : s.receiveOk) (k a b) : (s.report k a b).receiveOk :=
  fun l => (sameRx_only (report_only s k a b) l).ok (h l)

theorem ok_upd {s : State} (h : s.receiveOk) (l) (f : Link → Link)
    (hf : (s.link l).receiveOk → (f (s.link l)).receiveOk) : (s.updLink l f).receiveOk := by
  intro k
  rw [link_updLink]; split
  · exact hf (h l)
  · exact h k

theorem ok_links {s t : State} (h : s.receiveOk) (e : ∀ l, SameRx (s.link l) (t.link l)) : t.receiveOk :=
  fun l => (e l).ok (h l)

theorem recentre_ok {x y : Link} (hx : x.receiveOk) (h : SameRx x { y with store := x.store })
    (hs : y.store = x.store ∨ y.store = x.store.recentre) : y.receiveOk := by
  obtain ⟨h1, h2, h3, h4, h5, h6, h7⟩ := hx
  have r : x.store.recentre.queue.length ≤ 2 ∧
      (x.store.queue = [] → x.store.recentre.queue = []) ∧ x.store.recentre.primed = x.store.primed := by
    unfold Store.recentre; split
    · refine ⟨by simp; omega, fun h => by simp [h], rfl⟩
    · exact ⟨h1, id, rfl⟩
  have hy : y.store.queue.length ≤ 2 ∧ (x.store.queue = [] → y.store.queue = []) ∧ y.store.primed = x.store.primed := by
    rcases hs with e | e <;> rw [e]
    · exact ⟨h1, id, rfl⟩
    · exact r
  obtain ⟨a1, a2, a3, _, _, a6⟩ := h
  simp only at a1 a2 a3 a6
  unfold Link.receiveOk Link.inSync Link.quiet at *
  rw [a1, a2, a3, a6]
  refine ⟨hy.1, h2, h3, h4, h5, fun hn => ?_, h7⟩
  obtain ⟨q1, q2, q3⟩ := h6 hn
  exact ⟨hy.2.1 q1, by rw [hy.2.2]; exact q2, q3⟩

theorem ok_select {s : State} (h : s.receiveOk) : s.select.receiveOk := fun l =>
  recentre_ok (h l) ⟨by simp, by simp, by simp, rfl, rfl, by simp⟩ (select_link_store s l)

theorem ok_leave {s : State} (l a d rf) (h : ∀ k, k ≠ l → (s.link k).receiveOk)
    (ha : a.isSync = false) (ho : a = .off ↔ (s.link l).config.rxEnable = false) :
    (s.leaveSync l a d rf).receiveOk := by
  intro k
  by_cases e : k = l
  · subst e
    have hq := leaveSync_quiet_self s k a d rf
    have hal : ((s.leaveSync k a d rf).link k).rx.align = a := by rw [leaveSync_rx_self]; rfl
    have hc := leaveSync_config s k k a d rf
    have q := hq
    obtain ⟨q1, q2, q3, q4, q5, q6, q7, q8, q9, q10, q11⟩ := q
    refine ⟨by simp [q1], by simp [q3], by simp [q7], ?_, by rw [hal, hc]; exact ho, fun _ => hq, fun _ => ⟨q8, q9⟩⟩
    rw [hal]; cases a <;> trivial
  · refine recentre_ok (h k e) ⟨by simp, by simp, leaveSync_rx_ne _ e .., rfl, rfl, leaveSync_assembler_ne _ e ..⟩ ?_
    rcases leaveSync_link_store s l k a d rf with q | q <;> rw [q, link_updLink_ne _ e]
    · exact .inl rfl
    · exact .inr rfl

theorem ok_alignOut {s : State} (h : s.receiveOk) (l) (a : Align) (ha : a.isSync = false)
    (hn : (s.link l).inSync = false) (ho : a = .off ↔ (s.link l).config.rxEnable = false) :
    (s.updLink l (·.withAlign a)).receiveOk := by
  refine ok_upd h l _ fun hx => ?_
  obtain ⟨h1, h2, h3, h4, h5, h6, h7⟩ := hx
  refine ⟨h1, h2, h3, ?_, ho, fun _ => h6 hn, h7⟩
  cases a <;> trivial

theorem ok_watch {s : State} (h : s.receiveOk) (l w) : (s.updLink l (·.withWatch w)).receiveOk :=
  ok_upd h l _ fun hx => hx

theorem notoff {x : Link} (h : x.receiveOk) (ho : x.rx.align ≠ .off) : x.config.rxEnable = true := by
  have := h.2.2.2.2.1
  cases hr : x.config.rxEnable
  · exact absurd (this.2 hr) ho
  · rfl

theorem ok_clockWatch {s : State} (h : s.receiveOk) (l r f) : (s.clockWatchAct l r f).receiveOk := by
  unfold State.clockWatchAct
  simp only
  split
  · exact h
  · next ha =>
    split
    · refine ok_alignOut (ok_watch h _ _) l _ rfl ?_ ?_
      · simp [Link.inSync, ha, Align.isSync]
      · simp [notoff (h l) (by rw [ha]; simp)]
    · exact ok_watch h _ _
  · next h1 h2 =>
    have ho : (s.link l).rx.align ≠ .off := fun e => h1 e
    split
    · exact ok_watch h _ _
    · split
      · exact ok_watch h _ _
      · split
        · refine ok_leave _ _ _ _ (fun k _ => ok_watch h _ _ k) rfl ?_
          simp [notoff (h l) ho]
        · next hn =>
          refine ok_alignOut (ok_watch h _ _) l _ rfl ?_ ?_
          · simpa [Link.inSync] using hn
          · simp [notoff (h l) ho]

theorem ok_start {s : State} (x) (a) (h : s.receiveOk) : (State.startAct x s a).receiveOk := by
  cases a with
  | clockWatch l => exact ok_clockWatch h _ _ _
  | checkWindow l =>
    simp only [State.startAct, State.checkWindowAct]
    split
    · next hc =>
      simp only [Bool.and_eq_true] at hc
      have h1 : (s.updLink l fun y => y.withRx { y.rx with
          checkAlarm := evaluateWindow (s.link l).rx.checkAlarm (s.link l).rx.window, window := 0#8 }).receiveOk := by
        refine ok_upd h l _ fun hx => ?_
        obtain ⟨h1, h2, h3, h4, h5, h6, h7⟩ := hx
        have hs : (s.link l).inSync = true := hc.1.2
        refine ⟨h1, h2, h3, h4, h5, fun hn => ?_, fun hn => ?_⟩
        · have : (s.link l).inSync = false := hn
          simp [this] at hs
        · have hn : (s.link l).config.shape.checkEnable = false := hn
          simp [hn] at hc
      split
      · exact h1
      · exact ok_report h1 _ _ _
    · exact h
  | qualification l =>
    simp only [State.startAct, State.qualificationAct]
    have h1 : (s.updLink l fun y => y.withRx { y.rx with qualCount := y.nextQual, wholeMark := y.inSync }).receiveOk := by
      refine ok_upd h l _ fun hx => ?_
      obtain ⟨h1, h2, h3, h4, h5, h6, h7⟩ := hx
      refine ⟨h1, ?_, h3, h4, h5, fun hn => ?_, h7⟩
      · simp only [withRx_rx, Link.nextQual, Config.qualifiedCount]; split
        · exact min_le_right _ _
        · exact h2
      · have hn : (s.link l).inSync = false := hn
        have := h6 hn
        unfold Link.quiet Link.nextQual at *
        simp_all
    split
    · split
      · exact ok_select h1
      · exact h1
    · exact h
  | present l =>
    simp only [State.startAct, State.presentAct]
    split
    · exact ok_upd h l _ fun hx => hx
    · split
      · next f rest e =>
        refine ok_upd h l _ fun hx => ?_
        obtain ⟨h1, h2, h3, h4, h5, h6, h7⟩ := hx
        refine ⟨by rw [e] at h1; simp at h1 ⊢; omega, h2, h3, h4, h5, fun hn => ?_, h7⟩
        have hn : (s.link l).inSync = false := hn
        have := (h6 hn).1
        simp [e] at this
      · split
        · refine ok_report (ok_upd h l _ fun hx => ?_) _ _ _
          exact hx
        · exact ok_upd h l _ fun hx => hx
  | management =>
    refine ok_links h fun l => ?_
    rw [show State.startAct x s .management = s.fixManagement from rfl, fixManagement_link]
    exact ⟨by simp, by simp, by simp, by simp, by simp, by simp⟩
  | transmit =>
    refine ok_links h fun l => ⟨?_, ?_, ?_, ?_, ?_, ?_⟩ <;> simp [State.startAct]
  | softReset =>
    simp only [State.startAct]; split
    · exact ok_links h fun l => by rw [softReset_link]; exact ⟨rfl, rfl, rfl, rfl, rfl, rfl⟩
    · exact h
  | noticeTest =>
    simp only [State.startAct]; split
    · exact ok_links h (sameRx_only (noticeTest_only s))
    · exact h
  | _ =>
    simp only [State.startAct, State.timeStepAct, State.scheduleAct, State.fireSwitch,
      State.engineAct, State.processChunk, State.noticeTimerAct, State.clearAllHolds]
    (repeat' split) <;> refine ok_links h fun l => ⟨?_, ?_, ?_, ?_, ?_, ?_⟩ <;> simp

theorem bits_ok {s : State} (h : s.receiveOk) (l old new) (ha : (s.link l).inSync = false)
    (ho : (s.link l).rx.align ≠ .off) : (s.receiveBits l old new).receiveOk := by
  unfold State.receiveBits
  simp only
  set s1 := if new = [] then s else s.updLink l fun x => x.withRx x.rx.clockSeen
  have h1 : s1.receiveOk := by simp only [s1]; split; exacts [h, ok_upd h l _ fun hx => hx]
  have e1 : (s1.link l).inSync = false := by
    simp only [s1]; split; exacts [ha, by simpa [Link.inSync, Receiver.clockSeen] using ha]
  have e2 : (s1.link l).config = (s.link l).config := by simp only [s1]; split <;> simp
  have e3 : (s1.link l).config.rxEnable = true := by rw [e2]; exact notoff (h l) ho
  split
  · exact ok_alignOut h1 l _ rfl e1 (by simp [e3])
  · exact ok_alignOut h1 l _ rfl e1 (by simp [e3])
  · next w hw =>
    unfold State.enterSync
    refine ok_report (ok_upd h1 l _ fun hx => ?_) _ _ _
    obtain ⟨g1, g2, g3, g4, g5, g6, g7⟩ := hx
    exact ⟨by simp [Store.emptied], g2, g3, ⟨succ_wf (searchBits_sync _ _ hw), by simp⟩, by simp [e3],
      fun hn => by simp [Link.inSync, Align.isSync] at hn, g7⟩

theorem judge_ok {s : State} (h : s.receiveOk) (l e b w rf) (ha : (s.link l).rx.align = .sync e b none) :
    (s.judgeHeader l e b w rf).receiveOk := by
  unfold State.judgeHeader
  simp only
  have hsy : (s.link l).inSync = true := by simp [Link.inSync, ha, Align.isSync]
  have hc : ∀ g, ((s.link l).countHeader g).config = (s.link l).config ∧ ((s.link l).countHeader g).rx = (s.link l).rx ∧
      ((s.link l).countHeader g).store = (s.link l).store ∧ ((s.link l).countHeader g).assembler = (s.link l).assembler := by
    intro g; unfold Link.countHeader; split <;> simp
  have h1 : ∀ g, (s.updLink l fun x => (x.countHeader g).withRx x.rx.clockSeen).receiveOk := by
    intro g
    refine ok_upd h l _ fun hx => ?_
    obtain ⟨h1, h2, h3, h4, h5, h6, h7⟩ := hx
    obtain ⟨c1, c2, c3, c4⟩ := hc g
    refine ⟨by simp [c3, h1], h2, h3, h4, by simp [c1]; exact h5, fun hn => ?_, by simp [c1]; exact h7⟩
    have hn : (s.link l).inSync = false := hn
    simp [hsy] at hn
  have hr : (s.link l).config.rxEnable = true := notoff (h l) (by rw [ha]; simp)
  have hok := (h l).2.2.2.1
  rw [ha] at hok
  split
  · next hlt =>
    refine ok_upd (h1 _) l _ fun hx => ?_
    obtain ⟨g1, g2, g3, g4, g5, g6, g7⟩ := hx
    exact ⟨g1, g2, g3, ⟨succ_wf hok.1, by omega⟩, by simp [(hc _).1, hr],
      fun hn => by simp [Link.inSync, Align.isSync] at hn, g7⟩
  · exact ok_leave _ _ _ _ (fun k _ => h1 _ k) rfl (by simp [(hc _).1, hr])

theorem ok_bank {s : State} (h : s.receiveOk) {t : State} (e : t.links = s.links) : t.receiveOk := fun l => by
  have : t.link l = s.link l := by simp [State.link, e]
  rw [this]; exact h l

/-! ## A completion at the timebase (R49) -/

/-- A completion reaches the timebase only in SYNC and on its source, and adds the start it would give. -/
theorem timingAct_eq (s : State) (l : LinkId) (startAt : Nat) :
    s.timingAct l startAt = if (s.link l).inSync = true ∧ s.tb.source = .locked l
      then s.withTb { s.tb with completions := s.tb.completions ++ [startAt] } else s := by
  unfold State.timingAct Timebase.noteCompletion
  by_cases h1 : (s.link l).inSync = true <;> by_cases h2 : s.tb.source = .locked l <;> simp [h1, h2]
  rfl

end Sys2Proof.Machine
end

