-- ==== Sys2Proof/Tests/Slice0.lean ====
section
/-!
SUPPORT. The model's own tests: the smoke test of WellFormed, the datasheet's worked values, and for every statement
that has hypotheses a state and operands that meet them together, each clause at the ends of its range.
-/

namespace Sys2Proof.Tests

open Sys2Proof.Machine

/-! ## Small states and operands -/

/-- The part at strap address 0x41 with strap uplink L3, one command waiting. -/
def base : State := State.powerOn 1#4 3 [.clockReturn 0]

/-- A command cell for the part, on L3, from address 0x10, with these payload bytes. -/
def cmd (p : Vector Byte 8) : CommandCell := ⟨3, 0x41#8, 0x10#8, 0#8, 5#3, 0#6, p, false, false⟩

/-- A start after this many REFCLK periods, RXC silent, in the order the model uses where none is named. -/
def after (elapsed : Nat) : StartInput := ⟨elapsed, 0#8, [], 0#8, []⟩

/-- A frame whose words after the header are all this one, completing on `l` in the order of the list, LINK_DOWN before
REF_CHANGE. -/
def arrival (l : LinkId) (w : Word) : FrameArrival := ⟨l, Vector.replicate 63 w, ⟨512, []⟩, false, false⟩

/-- `s` with another timebase. -/
def withTimebase (s : State) (f : Timebase → Timebase) : State := s.withTb (f s.tb)

/-- `base` in its frame of this index, FREE. -/
def running (index : Fin 48) : State :=
  withTimebase base fun t => { t with started := true, frameIndex := index }

/-- `s` with the receiver of `l` in SYNC, this header expected next, this many bad headers in a row. -/
def inSync (s : State) (l : LinkId) (expected : Header) (run : Nat) (f : Option FrameInProgress) : State :=
  s.updLink l (·.withAlign (.sync expected run f))

def header0 : Header := ⟨0x2D#6, 0#6⟩

/-- An 8-slot shape without check or role. -/
def shape8 : Shape := ⟨.n8, false, .none, 1⟩

/-- A received frame of eight words, all this one. -/
def frameOf (w : Word) (valid : Bool) : RxFrame := ⟨List.replicate 8 w, valid, shape8⟩

/-- `s` with this queue and current input frame in the store of `l`. -/
def withStore (s : State) (l : LinkId) (x : Store) : State := s.updLink l fun k => { k with store := x }

def record (seq : Byte) (k : EventKind) (delivered : Bool) : EventRecord :=
  ⟨seq, k, 4#8, 1#8, 0#16, 0, 1#8, 0#8, delivered⟩

def withRecords (s : State) (rs : List EventRecord) : State :=
  s.withEvents { s.events with records := rs, nextSeq := BitVec.ofNat 8 rs.length }

/-! ## WellFormed refuses what it must -/

theorem test_wf_refuses_an_act_named_twice :
    let i : StartInput := { after 512 with order := [.schedule, .softReset, .schedule] }
    ([.localFrameStart i, .lockedStartTimeout i, .localSuperframeStart i, .noticeTimerExpiry i, .clockLoss 0 i,
      .engineEnd i, .linkQualified 0 i, .bankSwitch i, .noticePlaced i, .softResetApplied i] : List Instr).all
        (fun c => !c.wf) = true := by decide

theorem test_wf_refuses_an_arrival_that_names_an_act_twice :
    (Instr.localFrameStart { after 512 with
      arrivals := [{ arrival 5 0#16 with input := ⟨512, [.timing, .timing]⟩ }] }).wf = false := by decide

theorem test_wf_refuses_two_arrivals_of_one_link :
    (Instr.noticePlaced { after 512 with arrivals := [arrival 5 0#16, arrival 5 0#16] }).wf = false := by decide

theorem test_wf_refuses_a_receive_act_named_twice :
    (Instr.receiveFrameComplete 0 (Vector.replicate 63 0#16) ⟨0, [.cell, .cell]⟩ false false).wf = false := by decide

theorem test_wf_refuses_a_bad_command_with_a_named_code :
    (Instr.badCommand 0x52#7 (cmd (Vector.replicate 8 0#8))).wf = false := by decide

theorem test_wf_admits_an_order_and_an_unnamed_code :
    (Instr.localFrameStart { after 512 with
      order := [.softReset, .schedule], arrivals := [arrival 5 0#16, arrival 6 0#16] }).wf = true ∧
    (Instr.badCommand 0x7F#7 (cmd (Vector.replicate 8 0#8))).wf = true := by decide

/-! ## Values the datasheet works out -/

/-- R196: the headers of frame 13 without bits, and of frame 0 with RAI and S. -/
theorem test_header_words : headerWord 13 false false = 0x120D#16 ∧ headerWord 0 true true = 0x2DC0#16 := by decide

/-- The Note under R127: words 1 to 7 summing to 0x3A5C give the check 0xC5A3. -/
theorem test_cell_check : cellCheck #v[0x3A5C#16, 0#16, 0#16, 0#16, 0#16, 0#16, 0#16, 0#16] = 0xC5A3#16 := by decide

/-- The example under R197: SWITCH-AT 0x0310 to 0x41, its response OK, and the check of the response TOO_LATE. -/
theorem test_switch_at_cells :
    let c : CommandCell := ⟨3, 0x41#8, 0x00#8, 0#8, 3#3, 0#6, payloadOf [3#8, 0x10#8], false, false⟩
    outboundCell 0x36#7 c = #v[0xC541#16, 0#16, 0x6D80#16, 0x0310#16, 0#16, 0#16, 0#16, 0xCA2E#16] ∧
    responseCell 0x36#7 c ⟨.ok, 0#8, [3#8, 0x10#8, 3#8, 0#8], false⟩ =
      #v[0xCA00#16, 0x4100#16, 0x6D80#16, 0x0310#16, 0x0300#16, 0#16, 0#16, 0x816F#16] ∧
    (responseCell 0x36#7 c ⟨.tooLate, 0#8, [3#8, 0x10#8, 3#8, 0#8], false⟩)[7] = 0x814C#16 := by decide

/-- The list under R101. -/
theorem test_attenuation :
    attenuate 0x7FFF#16 1 = 16383 ∧ attenuate 0x0007#16 3 = 0 ∧ attenuate 0xFFFF#16 3 = -1 ∧
    attenuate 0xFFFD#16 2 = -1 ∧ attenuate 0x8000#16 3 = -4096 ∧ attenuate 0x1234#16 0 = 4660 := by decide

/-- The list under R93, a switch armed for 0x0100. -/
theorem test_armed_switch :
    armedFires 0x100#16 0x00FF#16 0x0100#16 = some false ∧ armedFires 0x100#16 0x00F0#16 0x0100#16 = some true ∧
    armedFires 0x100#16 0x00F0#16 0x0200#16 = some true ∧ armedFires 0x100#16 0x0050#16 0x00F0#16 = none ∧
    armedFires 0x100#16 0x00F0#16 0x0050#16 = none ∧ armedFires 0x100#16 0x0180#16 0x0100#16 = some true ∧
    armedFires 0x100#16 0x00FE#16 0x00FF#16 = none := by decide
/-- The list under R60. -/
theorem test_step_of_number :
    stepOf 0x0005#16 0x0201#16 = some true ∧ stepOf 0x0300#16 0x0201#16 = some false ∧
    stepOf 0xFFFF#16 0x0000#16 = none ∧ stepOf 0x1234#16 0x9235#16 = some false := by decide

/-! ## The queue, and states from which the invariants are kept -/

theorem test_command_waits : base.pending = .clockReturn 0 :: [] ∧ State.reset.pending = [] := ⟨rfl, rfl⟩

/-- Some step of `s` gives a next state. -/
theorem answersNext (s : State) (h : s.pending = [.clockReturn 0]) : ∃ t, step s = .next t :=
  ⟨if ((s.withPending []).link 0).rx.align = .noclock then
      (s.withPending []).updLink 0 fun x => x.withRx (x.rx.clockSeen.aligned (.hunt []))
    else s.withPending [], by simp only [step, h]; rfl⟩

/-- L4 in SYNC with three bad headers in a row and a full store, the others in HUNT. -/
def receiving : State :=
  withStore (inSync base 4 header0 3 (some ⟨0x2D00#16, true, shape8, false⟩)) 4
    ⟨[frameOf 1#16 true, frameOf 2#16 false], some (frameOf 0#16 true), true⟩

theorem test_receive_side_premises : receiving.receiveOk ∧ ∃ t, step receiving = .next t := by
  refine ⟨fun l => ?_, answersNext _ rfl⟩
  fin_cases l <;>
    simp [Link.receiveOk, Align.ok, Link.quiet, receiving, base, withStore, inSync, State.link, State.updLink,
      State.setLink, State.powerOn, Link.powerOn, Receiver.powerOn, LinkConfig.powerOn, Link.inSync, Align.isSync,
      Link.withAlign, Link.withRx, shape8, header0, Header.wellFormed, codeForIndex]

/-- The strap uplink with a full queue, its head at the last word. -/
def queueing : State :=
  base.updLink 3 fun x => { x with queue := List.replicate 4 ⟨Vector.replicate 8 0#16, false⟩,
                                   tx := { x.tx with wordCount := 7 }, assembler := List.replicate 7 0#16 }

theorem queueing_manageOk : queueing.manageOk := by
  refine ⟨fun l => ?_, rfl, rfl⟩
  fin_cases l <;>
    simp [Link.manageOk, queueing, base, State.link, State.updLink, State.setLink, State.powerOn, Link.powerOn,
      LinkConfig.powerOn, Shape.mgmtSlotLegal, Shape.isCheck, SlotCount.toNat]

theorem test_management_premises : queueing.manageOk ∧ ∃ t, step queueing = .next t :=
  ⟨queueing_manageOk, answersNext _ rfl⟩

/-- LOCKED to L4, which is qualified and first of four entries. -/
def following : State :=
  withTimebase (receiving.updLink 4 fun x => x.withRx { x.rx with qualCount := 16, wholeMark := true }) fun t =>
    { t with source := .locked 4, refList := [.link 4, .link 0, .localClock, .link 1], revertive := true,
             follow := true, started := true, frameIndex := 47, pendingAdoption := some 7#16, completions := [512] }

theorem test_reference_premises : following.timebaseOk ∧ ∃ t, step following = .next t :=
  ⟨⟨by decide, by decide, by decide, ⟨by decide, rfl⟩, fun _ => rfl⟩, answersNext _ rfl⟩

/-- The engine at its last chunk. -/
def copying : State := base.withBank { base.bank with engine := .running .copy 504 }

theorem test_bank_control_premises : copying.bank.ok ∧ ∃ t, step copying = .next t := by
  refine ⟨⟨fun op pos h => ?_, fun h => absurd rfl h⟩, answersNext _ rfl⟩
  cases h
  decide

theorem test_map_premises : base.mapOk ∧ ∃ t, step base = .next t := by
  refine ⟨⟨fun l => ?_, fun l t _ => ?_⟩, answersNext _ rfl⟩ <;> simp [base, State.powerOn, ConnMap.cleared]

/-- Bridge 15 on, with legs of one link and two slots. -/
def mixing : State :=
  base.setBridge 15 { base.bridge 15 with
    enabled := true, legs := #v[some ⟨4, 1, 0⟩, some ⟨4, 7, 3⟩, none, none, none, none, none, some ⟨5, 1, 0⟩] }

theorem test_legs_premises : mixing.bridgesOk ∧ ∃ t, step mixing = .next t := by
  refine ⟨fun b j k hn g h hg hh => ?_, answersNext _ rfl⟩
  by_cases hb : b = 15
  · subst hb
    have key : ∀ j k : LegId, j ≠ k → ∀ g ∈ (mixing.bridge 15).legs[j.val], ∀ h ∈ (mixing.bridge 15).legs[k.val],
        ¬(g.link = h.link ∧ g.slot = h.slot) := by decide
    exact key j k hn g hg h hh
  · have e : mixing.bridge b = base.bridge b := by
      simp only [mixing, State.bridge, State.setBridge, State.withBridges]
      rw [Vector.getElem_set_ne]
      exact fun h => hb (Fin.ext h.symm)
    rw [e] at hg
    simp [base, State.bridge, State.powerOn, Bridge.powerOn] at hg

/-- A full event queue, its head delivered. -/
def eventful : State :=
  withRecords base ((List.range 32).map fun i => record (BitVec.ofNat 8 i) .linkUp (decide (i = 0)))

theorem test_event_queue_premises : eventful.events.ok ∧ ∃ t, step eventful = .next t := by
  refine ⟨⟨by decide, by decide, by decide, ?_⟩, answersNext _ rfl⟩
  have key : eventful.events.records.Pairwise fun r q => ¬(r.kind = .slip ∧ q.kind = .slip) := by decide
  exact key.imp fun h t => h ⟨t.1, t.2.1⟩

/-- WAIT at the last superframe of the third resend. -/
def waiting : State := (withRecords (running 47) [record 0#8 .slip true]).withNotice ⟨.wait, 3, 1⟩

/-- DUE with a full queue, whose head leaves at the next start. -/
def blocked : State := (withRecords queueing [record 0#8 .slip false]).withNotice ⟨.due, 3, 0⟩

theorem test_notice_premises :
    blocked.manageOk ∧ blocked.noticeOk ∧ waiting.noticeOk ∧ ∃ t, step blocked = .next t :=
  ⟨queueing_manageOk, ⟨by decide, by decide, by decide, by decide, by decide, by decide⟩,
    ⟨by decide, by decide, by decide, by decide, by decide, by decide⟩, answersNext _ rfl⟩

/-! ## Local frame starts -/

/-- Every start after `n` periods is one by itself, with no order named. -/
theorem test_start_by_itself (n : Nat) : (after n).arrivals = [] ∧ (after n).order = [] := ⟨rfl, rfl⟩

/-- A superframe start with nothing pending, with a set value, and one that adopts; and a start that is none. -/
theorem test_frame_start_premises :
    (running 47).tb.startKind 512 = some false ∧ (running 47).tb.superframeDue = true ∧
    (running 47).tb.pendingSet = none ∧ (running 46).tb.superframeDue = false ∧
    (running 46).tb.startKind 512 = some false ∧
    (withTimebase (running 47) fun t => { t with pendingSet := some 9#16 }).tb.pendingSet = some 9#16 ∧
    following.tb.startKind 512 = some true ∧ following.tb.superframeDue = true ∧ following.tb.follow = true ∧
    following.tb.source = .locked 4 ∧ following.tb.pendingAdoption = some 7#16 ∧ following.tb.pendingSet = none ∧
    base.tb.started = false ∧ base.tb.startKind 0 = some false := by decide

theorem test_superframe_start_premises :
    (running 47).tb.started = true ∧ (running 47).tb.frameIndex = 47 ∧ (running 47).tb.startKind 512 = some false ∧
    ¬((running 46).tb.started = true ∧ (running 46).tb.frameIndex = 47) ∧
    ¬(base.tb.started = true ∧ base.tb.frameIndex = 47) := by decide

/-- A start that adopts the number of the reference, one at which the number goes from 65535 to 0, and the first start
after reset. -/
theorem test_frame_start_runs :
    (following.localFrameStart (after 512)).tb.number = 7#16 ∧
    ((withTimebase (running 47) fun t => { t with number := 0xFFFF#16 }).localFrameStart (after 512)).tb.number = 0#16 ∧
    (base.localFrameStart (after 0)).tb.frameIndex = 0 := by decide +kernel

/-- The ends of every window of R48 to R51; held periods of 512 and of 511, completions at the ends of the window, one
too early, one too late, and two in it. -/
theorem test_start_windows :
    let free := (running 5).tb
    let moved := { free with divider := 256 }
    let late := { free with divider := 257 }
    let locked (ds : List Nat) : Timebase := { free with source := .locked 7, completions := ds }
    let odd (ds : List Nat) : Timebase := { locked ds with heldPeriod := 511 }
    let held : Timebase := { odd [] with source := .holdover }
    (free.startKind 511 = none ∧ free.startKind 512 = some false ∧ free.startKind 513 = none) ∧
    (moved.startKind 256 = some false ∧ moved.startKind 768 = none ∧ late.startKind 255 = none ∧
      late.startKind 767 = some false) ∧
    ((locked [255]).startKind 255 = none ∧ (locked [256]).startKind 256 = some true ∧
      (locked [767]).startKind 767 = some true ∧ (locked [768]).startKind 768 = some false ∧
      (locked [767]).startKind 768 = none ∧ (locked []).startKind 512 = none ∧ (locked []).startKind 768 = some false ∧
      (locked []).startKind 769 = none) ∧
    ((locked [255, 600, 500]).startKind 500 = some true ∧ (locked [255, 600, 500]).startKind 600 = none) ∧
    ((odd [255]).startKind 255 = none ∧ (odd [256]).startKind 256 = some true ∧ (odd [766]).startKind 766 = some true ∧
      (odd [767]).startKind 767 = some false) ∧
    (held.startKind 510 = none ∧ held.startKind 511 = some false) := by decide

/-- LOCKED to L7 with completions none of which is usable, and with one that is; a superframe start with L4 qualified
and two other links listed, at which nothing is selected; and the second of two starts taken from completions. -/
theorem test_source_start_premises :
    let s (ds : List Nat) := withTimebase (running 5) fun t => { t with source := .locked 7, completions := ds }
    let second := withTimebase following fun t => { t with fromCompletion := true, completions := [511, 700] }
    (s []).tb.started = true ∧ (s []).tb.source = .locked 7 ∧ (after 768).elapsed = (3 * (s []).tb.heldPeriod + 1) / 2 ∧
    (∀ d ∈ (s [255, 768]).tb.completions, ¬(512 ≤ 2 * d ∧ 2 * d < 3 * 512)) ∧
    (767 ∈ (s [767]).tb.completions ∧ 512 ≤ 2 * 767 ∧ 2 * 767 < 3 * 512) ∧
    following.tb.startKind 512 = some true ∧ (∀ l, following.clockLossDue l (after 512).rxc = false) ∧
    (∀ l, RefEntry.link l ∈ following.tb.refList →
      (following.link l).rx.qualCount = 16 ∨ (following.link l).rx.qualCount < 15) ∧
    second.tb.startKind 511 = some true ∧ (second.localFrameStart (after 511)).tb.heldPeriod = 511 ∧
    (second.localFrameStart (after 511)).tb.completions = [189] := by decide +kernel

theorem test_notice_timer_premises :
    (running 47).tb.started = true ∧ waiting.tb.frameIndex = 47 ∧ waiting.notice.state = .wait ∧
    waiting.notice.timer = 1 ∧ waiting.notice.retry = 3 ∧ waiting.tb.startKind 512 = some false ∧
    waiting.resetDue = false ∧
    (waiting.withNotice ⟨.wait, 2, 1⟩).notice.retry < 3 ∧ (waiting.withNotice ⟨.wait, 0, 1⟩).notice.retry < 3 ∧
    (waiting.withNotice ⟨.wait, 2, 1⟩).resetDue = false ∧
    (waiting.withNotice ⟨.wait, 2, 1⟩).tb.startKind 512 = some false := by decide

/-- `waiting` for the third resend, with this many cells in the active uplink's queue and its word count at `n`. -/
def expiring (cells : Nat) (n : Fin 8) : State :=
  (waiting.withNotice ⟨.wait, 2, 1⟩).updLink 3 fun x =>
    { x with queue := List.replicate cells ⟨Vector.replicate 8 0#16, false⟩, tx := { x.tx with wordCount := n } }

/-- A queue that is empty, one with three cells, one that is full and whose head leaves, and one that is full and whose
head stays: the notice is placed, and in the last it waits for a place. -/
theorem test_notice_timer_runs :
    (expiring 3 7).agent.heldPlace = none ∧ (expiring 3 7).resetDue = false ∧ (expiring 0 0).notice.retry < 3 ∧
    (expiring 0 0).tb.startKind 512 = some false ∧ ((expiring 0 0).link 3).tx.wordCount = 0 ∧
    ((expiring 4 7).link 3).config.txEnable = true ∧ ((expiring 4 7).link 3).config.shape.role ≠ .none ∧
    [expiring 0 0, expiring 3 7, expiring 4 7, expiring 4 6].map
      (fun s => ((s.link 3).queue.length, ((s.localFrameStart (after 512)).link 3).queue.length,
        (s.localFrameStart (after 512)).notice)) =
      [(0, 1, ⟨.wait, 3, 64⟩), (3, 3, ⟨.wait, 3, 64⟩), (4, 4, ⟨.wait, 3, 64⟩), (4, 4, ⟨.due, 3, 0⟩)] := by
  decide +kernel

/-- One silent interval of L4 has closed, in SYNC, and of L5, in HUNT. -/
def silent : State :=
  ((withTimebase receiving fun t => { t with started := true }).updLink 4 (·.withWatch ⟨true, false, true⟩)).updLink 5
    (·.withWatch ⟨true, false, true⟩)

theorem test_clock_loss_premises :
    (silent.link 4).rx.align ≠ .off ∧ (silent.link 4).rx.align ≠ .noclock ∧ (silent.link 4).inSync = true ∧
    (silent.link 4).rx.watch = ⟨true, false, true⟩ ∧ (silent.link 5).rx.align = .hunt [] ∧
    (silent.link 5).rx.watch = ⟨true, false, true⟩ ∧ (after 512).rxc.getLsbD 4 = false ∧
    silent.tb.startKind 512 = some false ∧ silent.resetDue = false ∧ (after 512).order = [] ∧
    silent.events.mask.getLsbD 1 = true ∧ silent.events.records.length ≤ 16 := by decide

theorem test_clock_loss_runs :
    ((silent.localFrameStart (after 512)).link 4).rx.align = .noclock ∧
    ((silent.localFrameStart (after 512)).link 5).rx.align = .noclock ∧
    ((silent.localFrameStart { after 512 with rxc := 0x10#8 }).link 4).inSync = true := by decide +kernel

theorem test_engine_end_premises :
    copying.bank.engine = .running .copy 504 ∧ copying.tb.startKind 0 = some false ∧ copying.resetDue = false ∧
    copying.bank.scheduler = .idle ∧ (after 0).order = [] ∧ copying.tb.superframeDue = false ∧
    (∀ l, copying.clockLossDue l (after 0).rxc = false) ∧ copying.events.mask.getLsbD 8 = true ∧
    copying.events.records.length < 32 := by decide

theorem test_operation_premises :
    (base.withBank { base.bank with engine := .running .clear 0 }).bank.engine = .running .clear 0 ∧
    (base.withBank { base.bank with engine := .running .copy 0 }).bank.engine = .running .copy 0 := ⟨rfl, rfl⟩

/-- The first chunk, one in the middle and the last but one; the entries of the chunk change and the next one stays. -/
theorem test_chunk_premises :
    let s (pos : Nat) := base.withBank { base.bank with engine := .running .clear pos }
    (s 0).bank.engine = .running .clear 0 ∧ 0 + 8 < 512 ∧ 496 + 8 < 512 ∧ (s 496).bank.scheduler = .idle ∧
    (s 496).tb.startKind 0 = some false ∧ (s 496).resetDue = false ∧
    ((s 248).localFrameStart (after 0)).bank.engine = .running .clear 256 ∧
    ((s 496).localFrameStart (after 0)).bank.engine = .running .clear 504 := by decide +kernel

/-- L4 one superframe short of qualifying. -/
def qualifying : State :=
  withTimebase (receiving.updLink 4 fun x => x.withRx { x.rx with qualCount := 15, wholeMark := true }) fun t =>
    { t with started := true, frameIndex := 47 }

theorem test_qualification_premises :
    qualifying.tb.started = true ∧ qualifying.tb.frameIndex = 47 ∧ (qualifying.link 4).inSync = true ∧
    (qualifying.link 4).rx.wholeMark = true ∧ (qualifying.link 4).rx.qualCount = 15 ∧
    qualifying.clockLossDue 4 (after 512).rxc = false ∧ qualifying.tb.startKind 512 = some false := by decide

/-- In HOLDOVER with L4 and L0 listed; counts that rise, that stay at 16, and that stay without the mark or out of
SYNC. -/
theorem test_qualification_selects_premises :
    let s := withTimebase qualifying fun t => { t with source := .holdover, refList := [.link 0, .link 4] }
    let at16 := qualifying.updLink 4 fun x => x.withRx { x.rx with qualCount := 16 }
    let fresh := qualifying.updLink 4 fun x => x.withRx { x.rx with qualCount := 3, wholeMark := false }
    s.tb.source = .holdover ∧ .link 4 ∈ s.tb.refList ∧ (∀ j, s.clockLossDue j (after 512).rxc = false) ∧
    (s.link 0).rx.qualCount < 15 ∧ (s.link 4).nextQual = 16 ∧ (s.link 4).rx.qualCount ≠ 16 ∧
    (s.localFrameStart (after 512)).tb.source = .locked 4 ∧
    ((at16.localFrameStart (after 512)).link 4).rx.qualCount = 16 ∧
    ((fresh.localFrameStart (after 512)).link 4).rx.qualCount = 3 ∧
    ((fresh.localFrameStart (after 512)).link 4).rx.wholeMark = true ∧
    ((qualifying.localFrameStart (after 512)).link 5).rx.wholeMark = false := by decide +kernel

/-- `running 47` of superframe 0x00FF with a switch in this state. -/
def switching (x : Scheduler) : State :=
  withTimebase ((running 47).withBank { base.bank with scheduler := x }) fun t => { t with number := 0xFF#16 }

theorem test_switch_premises :
    (switching .immediate).tb.startKind 512 = some false ∧ (switching .immediate).resetDue = false ∧
    (switching .immediate).bank.scheduler = .immediate ∧
    (switching (.armed 0x100#16)).tb.startKind 512 = some false ∧ (switching (.armed 0x100#16)).resetDue = false ∧
    (switching (.armed 0x100#16)).tb.superframeDue = true ∧
    (armedFires 0x100#16 (switching (.armed 0x100#16)).tb.number
      ((switching (.armed 0x100#16)).startCtx (after 512)).new).isSome = true := by decide

/-- A switch that fires at once, one on target and one that a set number jumps over, the kind enabled, with 14 records
queued. -/
theorem test_switch_record_premises :
    let full (x : Scheduler) := withRecords (switching x) (List.replicate 14 (record 0#8 .linkUp false))
    let jump := withTimebase (full (.armed 0x100#16)) fun t => { t with pendingSet := some 0x101#16 }
    (full .immediate).bank.scheduler = .immediate ∧ (full .immediate).tb.startKind 512 = some false ∧
    jump.tb.superframeDue = true ∧ jump.resetDue = false ∧ (∀ l, jump.clockLossDue l (after 512).rxc = false) ∧
    armedFires 0x100#16 (full .idle).tb.number ((full .idle).startCtx (after 512)).new = some false ∧
    armedFires 0x100#16 jump.tb.number (jump.startCtx (after 512)).new = some true ∧
    jump.events.mask.getLsbD 7 = true ∧ jump.events.records.length ≤ 14 := by decide

/-- Each outcome of R93 at the ends of its ranges: old 5; on target, passed by the least and the greatest forward
step, not passed, and a backward step over the target. -/
theorem test_armed_switch_premises :
    armedFires 6#16 5#16 6#16 = some false ∧ armedFires 7#16 5#16 7#16 = some true ∧
    armedFires 6#16 5#16 7#16 = some true ∧ armedFires 0x8004#16 5#16 0x8005#16 = some true ∧
    armedFires 0x8004#16 5#16 0x8003#16 = none ∧ armedFires 5#16 5#16 7#16 = none ∧
    armedFires 0x8005#16 5#16 0x8006#16 = none := by decide

/-- No step; the least and the greatest forward and backward ones, from number 0xFFFF. -/
theorem test_step_premises :
    let d := fun new : Word => (new - (0xFFFF#16 + 1#16)).toNat
    d 0#16 = 0 ∧ d 1#16 = 1 ∧ d 0x7FFF#16 = 32767 ∧ d 0x8000#16 = 32768 ∧ d 0xFFFF#16 = 65535 := by decide

/-- A set number one beyond the next and one before it, with 15 records queued: the step is recorded with its
direction. -/
theorem test_step_record_premises :
    let s (v : Word) := withTimebase (withRecords (running 47) (List.replicate 15 (record 0#8 .linkUp false))) fun t =>
      { t with number := 4#16, pendingSet := some v }
    (s 6#16).tb.startKind 512 = some false ∧ (s 6#16).tb.superframeDue = true ∧ (s 6#16).resetDue = false ∧
    (∀ l, (s 6#16).clockLossDue l (after 512).rxc = false) ∧ (s 6#16).events.mask.getLsbD 6 = true ∧
    (s 6#16).events.records.length ≤ 15 ∧
    [s 6#16, s 4#16, s 5#16].map (fun s => ((s.localFrameStart (after 512)).events.records.drop 15).map (·.detail)) =
      [[0#8], [1#8], []] := by decide +kernel

/-- A record, and the notice not yet placed; three cells stand in the queue. -/
def due : State :=
  ((withRecords base [record 0#8 .linkUp false]).withNotice ⟨.due, 3, 0⟩).updLink 3 fun x =>
    { x with queue := List.replicate 3 ⟨Vector.replicate 8 0#16, false⟩ }

/-- With a place, and with a full queue whose head leaves at this start. -/
theorem test_notice_placed_premises :
    (due.notice.state = .due ∧ due.hasRoom due.agent.activeUplink = true) ∧
    blocked.notice.state = .due ∧ blocked.agent.heldPlace = none ∧ blocked.agent.activeUplink = 3 ∧
    (blocked.link 3).queue.length = 4 ∧ (blocked.link 3).config.txEnable = true ∧
    (blocked.link 3).config.shape.role ≠ .none ∧ (blocked.link 3).tx.wordCount = 7 ∧ (after 0).order = [] ∧
    blocked.tb.startKind 0 = some false ∧ blocked.resetDue = false := by decide

/-- `blocked` with L5 a DOWNLINK that holds seven words of an inbound cell, all but the last 0, and a frame in SYNC. -/
def relaying : State :=
  let shape : Shape := { shape8 with role := .downlink }
  inSync (blocked.updLink 5 fun x => { x with
    config := { x.config with shape := shape }, assembler := 0xCA00#16 :: List.replicate 6 0#16 }) 5 header0 0
    (some ⟨0x2D00#16, true, shape, false⟩)

/-- A start at which the head of the full queue leaves while a frame completes that brings L5 its cell's last word, the
check: the cell takes the place and the notice stays DUE (R139, R189). With another last word the notice is placed. -/
theorem test_place_is_taken :
    let start (w : Word) : StartInput := { after 0 with arrivals := [arrival 5 w] }
    let cell := cellOfWords ((relaying.link 5).assembler ++ [0x35FF#16])
    relaying.notice.state = .due ∧ relaying.agent.heldPlace = none ∧ relaying.agent.activeUplink = 3 ∧
    (relaying.link 3).queue.length = 4 ∧ (relaying.link 3).config.txEnable = true ∧
    (relaying.link 3).config.shape.role ≠ .none ∧ (relaying.link 3).tx.wordCount = 7 ∧
    (start 0x35FF#16).order = [] ∧ (arrival 5 0x35FF#16).input.order = [] ∧ relaying.tb.startKind 0 = some false ∧
    relaying.resetDue = false ∧ relaying.clockLossDue 5 (after 0).rxc = false ∧
    (relaying.link 5).config.shape.role = .downlink ∧ (relaying.link 5).assembler.length = 7 ∧
    cell[0] + cell[1] + cell[2] + cell[3] + cell[4] + cell[5] + cell[6] + cell[7] = 0xFFFF#16 ∧
    highByte cell[0] = 0xCA#8 ∧
    (relaying.frameStart (start 0x35FF#16)).notice = ⟨.due, 3, 0⟩ ∧
    ((relaying.frameStart (start 0x35FF#16)).link 3).queue.getLast? = some ⟨cell, false⟩ ∧
    (relaying.frameStart (start 0#16)).notice = ⟨.wait, 3, 64⟩ := by decide +kernel

theorem test_place_is_taken_in_sync :
    (relaying.link 5).rx.align = .sync header0 0 (some ⟨0x2D00#16, true, { shape8 with role := .downlink }, false⟩) ∧
    (relaying.link 5).config.shape.role ≠ .none := by decide

/-- The reset response at its last word. -/
def resetting : State :=
  (base.updLink 3 fun x =>
    { x with queue := [⟨Vector.replicate 8 0#16, true⟩], tx := { x.tx with wordCount := 7 } }).withAgent
    { base.agent with resetPending := true }

theorem test_soft_reset_premises :
    resetting.resetDue = true ∧ resetting.tb.startKind 0 = some false ∧ (after 0).order = [] := by decide

/-- The soft reset with a scheduled switch, before it and after it in the order: the response leaves, the switch is
idle, the flag clear (R97, R142). -/
theorem test_soft_reset_runs :
    let s := resetting.withBank { resetting.bank with scheduler := .immediate }
    ([{ after 0 with order := [.softReset, .schedule] }, after 0] : List StartInput).all (fun i =>
      ((s.localFrameStart i).link 3).queue.all (!·.resetResponse) && (s.localFrameStart i).events.records = [] &&
      (s.localFrameStart i).bank = .cleared && !(s.localFrameStart i).agent.resetPending) = true := by
  decide +kernel

/-- The reset and the reports of its start, L4 in SYNC: a SLIP repeat is discarded in every order, a LINK_DOWN stands as
the record of sequence 0 where its act comes after the frame and the reset, and else not (notes/assumptions/29.md). -/
theorem test_soft_reset_and_reports :
    let due (s : State) : State := (s.setLink 3 (resetting.link 3)).withAgent resetting.agent
    let primed := due (withStore receiving 4 ⟨[], some (frameOf 0#16 true), true⟩)
    let records (s : State) (elapsed : Nat) (order : List StartAct) :=
      (s.localFrameStart { after elapsed with order := order }).events.records.map fun r => (r.seq, r.kind)
    primed.resetDue = true ∧ (primed.presentAct 4).events.records.length = 1 ∧
    records primed 0 [] = [] ∧ records primed 0 [.transmit, .softReset, .present 4] = [] ∧
    records (due silent) 512 [.softReset, .clockWatch 4] = [] ∧
    records (due silent) 512 [.transmit, .softReset, .clockWatch 4] = [(0#8, .linkDown)] := by decide +kernel

/-! ## The frame that starts -/

/-- L4 with one frame, empty and primed in SYNC, empty and not primed, and OFF; a full store. -/
theorem test_store_premises :
    let one := withStore receiving 4 ⟨[frameOf 1#16 true], none, false⟩
    let primed := withStore receiving 4 ⟨[], some (frameOf 0#16 true), true⟩
    let fresh := withStore receiving 4 ⟨[], none, false⟩
    (one.link 4).rx.align ≠ .off ∧ (one.link 4).store.queue = frameOf 1#16 true :: [] ∧
    (one.link 4).inSync = true ∧ (one.link 4).store.queue.length < 2 ∧
    (primed.link 4).rx.align ≠ .off ∧ (primed.link 4).store.queue = [] ∧ (primed.link 4).inSync = true ∧
    (primed.link 4).store.primed = true ∧
    (fresh.link 4).store.queue = [] ∧ ¬((fresh.link 4).inSync = true ∧ (fresh.link 4).store.primed = true) ∧
    (receiving.link 4).store.queue = [frameOf 1#16 true, frameOf 2#16 false] ∧
    ((receiving.updLink 4 (·.withAlign .off)).link 4).rx.align = .off := by decide

/-- A start with no order named and no soft reset due, L4 in SYNC without and with a clock loss, with two frames held and
with none, primed or not; it presents, repeats, or gives the store up. -/
theorem test_start_store_premises :
    let primed := withStore receiving 4 ⟨[], some (frameOf 0#16 true), true⟩
    (after 0).order = [] ∧ receiving.tb.startKind 0 = some false ∧ receiving.resetDue = false ∧
    (∀ j, receiving.clockLossDue j (after 0).rxc = false) ∧ receiving.tb.superframeDue = false ∧
    (silent.link 4).inSync = true ∧ silent.clockLossDue 4 (after 512).rxc = true ∧
    ((receiving.localFrameStart (after 0)).link 4).store =
      ⟨[frameOf 2#16 false], some (frameOf 1#16 true), true⟩ ∧
    ((silent.localFrameStart (after 512)).link 4).store = ⟨[], none, false⟩ ∧
    ((primed.localFrameStart (after 0)).link 4).store.current = some (frameOf 0#16 true) ∧
    ((primed.localFrameStart (after 0)).link 4).rxCount.repeatSlips = 1#16 := by decide +kernel

/-- A superframe start at which L4, with two frames held, becomes the source and is re-centred, while the full store of
L5, which is not listed, is not. -/
theorem test_start_recentre_premises :
    let full : Store := ⟨[frameOf 1#16 true, frameOf 2#16 false], some (frameOf 0#16 true), true⟩
    let s := withTimebase (withStore qualifying 5 full) fun t =>
      { t with source := .holdover, refList := [.link 0, .link 4] }
    let t := s.localFrameStart (after 512)
    s.tb.startKind 512 = some false ∧ s.resetDue = false ∧ (s.link 4).store = full ∧ (s.link 5).store = full ∧
    s.tb.source ≠ .locked 4 ∧ t.tb.source = .locked 4 ∧ .link 5 ∉ s.tb.refList ∧
    (t.link 4).store = ⟨[], some (frameOf 2#16 false), true⟩ ∧
    (t.link 5).store = ⟨[frameOf 2#16 false], some (frameOf 1#16 true), true⟩ := by decide +kernel

/-- The payload slots 1 to 7 of eight, a header and a slot beyond the frame; one with check, one with a role. -/
theorem test_source_premises :
    let s := withStore receiving 4 ⟨[], some (frameOf 5#16 true), true⟩
    s.slotSource 4 1 = some 5#16 ∧ s.slotSource 4 7 = some 5#16 ∧ s.slotSource 4 0 = none ∧ s.slotSource 4 8 = none ∧
    (withStore s 4 ⟨[], some { frameOf 5#16 true with shape := ⟨.n8, true, .uplink, 1⟩ }, true⟩).slotSource 4 7 = none ∧
    (withStore s 4 ⟨[], some { frameOf 5#16 true with shape := ⟨.n8, true, .uplink, 1⟩ }, true⟩).slotSource 4 1 = none ∧
    (withStore s 4 ⟨[], some (frameOf 5#16 false), true⟩).slotSource 4 1 = none := by decide

/-- A valid and an invalid SLOT source, an invalid LEG source, IDLE and CONST; payload slots of a link and a slot that
is none. -/
theorem test_payload_word_premises :
    let s := withStore receiving 4 ⟨[], some (frameOf 5#16 true), true⟩
    s.sourceWord (.slot 4 7) = some 5#16 ∧ s.sourceWord (.slot 5 7) = none ∧ s.sourceWord (.leg 15 7) = none ∧
    s.sourceWord .idle = none ∧ s.sourceWord (.const 3#16) = none ∧
    s.fixedWord ⟨.slot 5 7, .hold⟩ (some 4#16) 1#16 = 4#16 ∧ s.fixedWord ⟨.slot 5 7, .hold⟩ none 1#16 = 1#16 ∧
    (s.link 4).config.txEnable = true ∧ (s.link 4).config.shape.isPayload 31 = true ∧
    (s.link 4).config.shape.isPayload 32 = false := by decide

/-- The strap uplink sends its header, its management word in slot 1 and payload from slot 2 on; L4 has its check word
on; a link with tx off is silent. -/
theorem test_transmitter_premises :
    let s := base.updLink 4 fun x => { x with config := { x.config with shape := ⟨.n8, true, .none, 1⟩ } }
    (base.link 3).config.txEnable = true ∧ (base.link 3).config.shape.isMgmt 1 = true ∧
    (base.link 3).config.shape.isCheck 1 = false ∧ (base.link 3).config.shape.isPayload 31 = true ∧
    (s.link 4).config.txEnable = true ∧ (s.link 4).config.shape.checkEnable = true ∧
    (s.link 4).config.shape.isPayload 6 = true ∧ (s.link 4).config.shape.isPayload 7 = false ∧
    ((base.updLink 5 fun x => { x with config := { x.config with txEnable := false } }).link 5).config.txEnable =
      false := by decide

/-- Queues with no cell, at the first word, at the seventh and at the eighth; no role, and tx off. -/
theorem test_management_word_premises :
    let x := base.link 3
    let q : QueuedCell := ⟨Vector.replicate 8 1#16, false⟩
    let y (n : Fin 8) : Link := { x with queue := [q], tx := { x.tx with wordCount := n } }
    x.config.txEnable = true ∧ x.config.shape.role ≠ .none ∧ x.queue = [] ∧ (y 0).queue = q :: [] ∧
    (y 7).tx.wordCount = 7 ∧ (y 6).tx.wordCount ≠ 7 ∧ (y 0).tx.wordCount ≠ 7 ∧
    (base.link 4).config.shape.role = .none ∧
    ({ x with config := { x.config with txEnable := false } } : Link).config.txEnable = false ∧
    base.agent.activeUplink = 3 ∧ x.tx.wordCount = 0 ∧ (queueing.link 3).queue ≠ [] ∧ (after 0).order = [] ∧
    base.tb.startKind 0 = some false ∧ base.resetDue = false := by decide

/-- The report of the engine's end, out of QUIET, places its notice in the empty queue of the active uplink, and the
word of the same start is the notice's first. -/
theorem test_notice_gives_the_word :
    copying.notice.state = .quiet ∧ (copying.link 3).queue = [] ∧ (copying.link 3).tx.wordCount = 0 ∧
    ((copying.localFrameStart (after 0)).link 3).queue = [⟨copying.firstNotice, false⟩] ∧
    ((copying.localFrameStart (after 0)).link 3).tx.mgmtWord = 0xCA00#16 ∧
    (copying.localFrameStart (after 0)).notice = ⟨.wait, 0, 64⟩ := by decide +kernel

/-- A bridge that is on, with a present and an absent leg, one that is off, and an input that is valid. -/
theorem test_bridge_premises :
    (mixing.bridge 15).enabled = true ∧ (mixing.bridge 15).legs[(0 : LegId).val] ≠ none ∧
    (mixing.bridge 15).legs[(7 : LegId).val] ≠ none ∧ (mixing.bridge 15).legs[(2 : LegId).val] = none ∧
    (mixing.bridge 14).enabled = false ∧ mixing.slotSource 4 1 = none ∧
    (withStore mixing 4 ⟨[], some (frameOf 0x8000#16 true), true⟩).slotSource 4 7 = some 0x8000#16 := by decide

/-- R102 at the clamps: two legs of −32768 each reach a third clamped, and a leg does not hear itself. -/
theorem test_mix_minus :
    mixMinus #v[-32768, -32768, 5, 0, 0, 0, 0, 0] 2 = 0x8000#16 ∧
    mixMinus #v[-32768, -32768, 5, 0, 0, 0, 0, 0] 0 = 0x8005#16 ∧
    mixMinus #v[32767, 32767, 0, 0, 0, 0, 0, 1] 7 = 0x7FFF#16 := by decide

/-! ## Receive lanes -/

/-- The bits of one frame of eight slots with this header, its other words 0. -/
def frameBits (header : Word) : List Bool := bitsOfWord header ++ List.replicate 112 false

/-- L5 with eight slots, in this alignment state. -/
def searching (a : Align) : State :=
  base.updLink 5 fun x => { x with config := { x.config with shape := shape8 }, rx := { x.rx with align := a } }

theorem test_search_premises :
    ((searching .noclock).link 5).rx.align = .noclock ∧ ((searching (.hunt [])).link 5).rx.align ≠ .noclock ∧
    ((searching (.hunt [])).link 5).rx.align = .hunt [] ∧
    (headerOf 0x2D00#16).wellFormed = true ∧ (headerOf 0x122F#16).wellFormed = true ∧
    (headerOf 0x2D30#16).wellFormed = false ∧ (headerOf 0x2D01#16).wellFormed = false := by decide

/-- A candidate with two successors, one with one, and one whose next word is no successor. -/
theorem test_confirmation_premises :
    let old := bitsOfWord 0x2D2E#16
    let bits := (frameBits 0x2D2E#16).drop 16 ++ frameBits 0x122F#16 ++ bitsOfWord 0x2D00#16
    let bad := (frameBits 0x2D2E#16).drop 16 ++ bitsOfWord 0x1200#16
    ((searching (.confirm old)).link 5).rx.align = .confirm old ∧ bits ≠ [] ∧
    ((searching (.confirm old)).link 5).frameBits = 128 ∧
    firstWord? (old ++ bits) = some 0x2D2E#16 ∧ (headerOf 0x2D2E#16).wellFormed = true ∧
    firstWord? ((old ++ bits).drop 128) = some 0x122F#16 ∧ isSuccessor 0x2D2E#16 0x122F#16 = true ∧
    firstWord? ((old ++ bits).drop (2 * 128)) = some 0x2D00#16 ∧ isSuccessor 0x122F#16 0x2D00#16 = true ∧
    firstWord? ((old ++ bad).drop 128) = some 0x1200#16 ∧ isSuccessor 0x2D2E#16 0x1200#16 = false ∧
    searchBits 128 ((old ++ bad).drop 1) = .hunt ((bitsOfWord 0x1200#16).drop 1) := by decide +kernel

/-- In HUNT with bits held: a position passed over and too few bits after it, a candidate alone, one with its first
confirmation, and one with both; a first and a second confirmation that fail pass their position over. -/
theorem test_search_goes_premises :
    let b := frameBits 0x2D2E#16 ++ frameBits 0x122F#16 ++ bitsOfWord 0x2D00#16
    let bad := frameBits 0x2D2E#16 ++ frameBits 0x122F#16 ++ bitsOfWord 0x2D02#16
    ((searching (.hunt [true])).link 5).rx.align = .hunt [true] ∧ ((searching (.hunt [true])).link 5).frameBits = 128 ∧
    failsAt 128 (bitsOfWord 0x2D30#16) 0 ∧ firstWord? ((bitsOfWord 0x2D30#16).drop 1) = none ∧
    failsAt 128 (true :: b) 0 ∧ firstWord? ((true :: b).drop 1) = some 0x2D2E#16 ∧
    firstWord? ((true :: bitsOfWord 0x2D2E#16).drop (1 + 128)) = none ∧
    firstWord? ((true :: b).drop (1 + 128)) = some 0x122F#16 ∧
    firstWord? ((true :: b.take 200).drop (1 + 2 * 128)) = none ∧
    firstWord? ((true :: b).drop (1 + 2 * 128)) = some 0x2D00#16 ∧
    failsAt 128 bad 0 ∧ failsAt 128 (frameBits 0x2D2E#16 ++ bitsOfWord 0x1200#16) 0 := by
  intro b bad
  have h : firstWord? (bitsOfWord 0x2D30#16) = some 0x2D30#16 ∧ (headerOf 0x2D30#16).wellFormed = false ∧
      firstWord? ((bitsOfWord 0x2D30#16).drop 1) = none ∧
      firstWord? (true :: b) = some 0x9697#16 ∧ (headerOf 0x9697#16).wellFormed = false ∧
      firstWord? b = some 0x2D2E#16 ∧
      firstWord? ((true :: bitsOfWord 0x2D2E#16).drop (1 + 128)) = none ∧
      firstWord? ((true :: b).drop (1 + 128)) = some 0x122F#16 ∧
      firstWord? ((true :: b.take 200).drop (1 + 2 * 128)) = none ∧
      firstWord? ((true :: b).drop (1 + 2 * 128)) = some 0x2D00#16 ∧
      firstWord? bad = some 0x2D2E#16 ∧ firstWord? (bad.drop (0 + 128)) = some 0x122F#16 ∧
      firstWord? (bad.drop (0 + 2 * 128)) = some 0x2D02#16 ∧
      isSuccessor 0x122F#16 0x2D02#16 = false ∧ firstWord? (frameBits 0x2D2E#16 ++ bitsOfWord 0x1200#16) = some 0x2D2E#16 ∧
      firstWord? ((frameBits 0x2D2E#16 ++ bitsOfWord 0x1200#16).drop (0 + 128)) = some 0x1200#16 ∧
      isSuccessor 0x2D2E#16 0x1200#16 = false := by decide
  obtain ⟨f, f', p, g, g', c0, n1, c1, n2, c2, k0, k1, k2, k2', m0, m1, m1'⟩ := h
  exact ⟨rfl, rfl, ⟨_, f, .inl f'⟩, p, ⟨_, g, .inl g'⟩, c0, n1, c1, n2, c2,
    ⟨_, k0, .inr ⟨_, k1, .inr ⟨_, k2, k2'⟩⟩⟩, ⟨_, m0, .inr ⟨_, m1, .inl m1'⟩⟩⟩

/-- A failed first confirmation whose search ends at once in CONFIRM, at the word that failed it (R22). -/
theorem test_failed_confirmation_runs :
    searchBits 128 (frameBits 0x2D2E#16 ++ bitsOfWord 0x2D04#16) = .confirm (bitsOfWord 0x2D04#16) := by
  decide

/-- A good header, a bad one as the third in a row and as the fourth, the second for its index and for its code. -/
theorem test_header_premises :
    ((inSync base 5 header0 0 none).link 5).rx.align = .sync header0 0 none ∧
    (headerOf 0x2D00#16).wellFormed = true ∧ (headerOf 0x2D00#16).index = header0.index ∧
    ¬((headerOf 0x2D02#16).wellFormed = true ∧ (headerOf 0x2D02#16).index = header0.index) ∧
    ¬((headerOf 0x1200#16).wellFormed = true ∧ (headerOf 0x1200#16).index = header0.index) ∧
    ((inSync base 5 header0 2 none).link 5).rx.align = .sync header0 2 none ∧
    ((inSync base 5 header0 3 none).link 5).rx.align = .sync header0 3 none ∧
    ((inSync following 4 header0 3 none).link 4).rx.align = .sync header0 3 none ∧
    (inSync following 4 header0 3 none).tb.source = .locked 4 ∧
    ((inSync following 4 header0 3 none).link 4).rx.qualCount = 16 := by decide

/-- Frames in progress without a role on L4, whose store is full, and with one on the strap uplink, with no word and
with seven words of a cell held. -/
theorem test_completion_premises :
    let f : FrameInProgress := ⟨0x2D00#16, true, shape8, false⟩
    let g : FrameInProgress := ⟨0x2D00#16, true, (base.link 3).config.shape, false⟩
    (receiving.link 4).rx.align = .sync header0 3 (some f) ∧ f.shape.role = .none ∧
    2 ≤ (receiving.link 4).store.queue.length ∧
    ((inSync base 3 header0 0 (some g)).link 3).rx.align = .sync header0 0 (some g) ∧ g.shape.role ≠ .none ∧
    (base.link 3).config.shape.role ≠ .none ∧ ((inSync base 3 header0 0 (some g)).link 3).assembler.length < 7 ∧
    7 ≤ ((inSync queueing 3 header0 0 (some g)).link 3).assembler.length := by decide

/-- The slip of the full store is reported in QUIET: with a place its notice is placed, and without one it is DUE. -/
theorem test_completion_brings_notice :
    let full := receiving.updLink 3 fun x => { x with queue := List.replicate 4 ⟨Vector.replicate 8 0#16, false⟩ }
    receiving.notice.state = .quiet ∧ receiving.hasRoom 3 = true ∧ full.hasRoom 3 = false ∧
    [receiving, full].map (fun s => (s.frameCompletes (arrival 4 0#16)).notice) = [⟨.wait, 0, 64⟩, ⟨.due, 0, 0⟩] ∧
    ((receiving.frameCompletes (arrival 4 0#16)).link 3).queue = [⟨receiving.firstNotice, false⟩] := by
  decide +kernel

/-- A frame completed on the source gives the start at the time it carries, and one on another link does not (R49). -/
theorem test_completion_gives_start :
    let s := withTimebase following fun t => { t with completions := [] }
    let start (l : LinkId) : Option Bool :=
      match exec (.receiveFrameComplete l (Vector.replicate 63 0#16) ⟨600, []⟩ false false)
          (inSync s l header0 0 (some ⟨0x2D00#16, true, shape8, false⟩)) with
      | .next t => t.tb.startKind 600
      | _ => none
    start 4 = some true ∧ start 5 = none := by decide

/-- R13: the check slot makes the exclusive OR zero, or the frame has a check error; with discard on it is invalid. -/
theorem test_check_word :
    let f : FrameInProgress := ⟨0x2D00#16, true, ⟨.n8, true, .none, 1⟩, true⟩
    let rest (c : Word) : Vector Word 63 := vecOf 63 fun i => if i.val = 6 then c else 0#16
    f.checkError (rest 0x2D00#16) = false ∧ (f.received (rest 0x2D00#16)).valid = true ∧
    f.checkError (rest 0x2D01#16) = true ∧ (f.received (rest 0x2D01#16)).valid = false := by decide

theorem test_remote_alarm_premises :
    let s := receiving.updLink 4 fun x => x.withRx { x.rx with raiRun := 3 }
    (s.link 4).inSync = true ∧ (s.link 4).rx.raiRun = 3 ∧ headerRai 0x2D80#16 = !(s.link 4).rx.remoteAlarm ∧
    integrateRai false 2 true = (false, 3, false) ∧ integrateRai false 3 true = (true, 0, true) := by decide

/-- Windows with four check errors, with three, with one and with none, the alarm off and on; check enable off. -/
theorem test_check_window_premises :
    let s (n : Byte) (on : Bool) := (inSync (running 47) 4 header0 0 none).updLink 4 fun x =>
      { x with config := { x.config with shape := { x.config.shape with checkEnable := true } }
               rx := { x.rx with window := n, checkAlarm := on } }
    let alarm (n : Byte) (on : Bool) := (((s n on).localFrameStart (after 512)).link 4).rx.checkAlarm
    (s 4#8 false).tb.superframeDue = true ∧ ((s 4#8 false).link 4).inSync = true ∧
    ((s 4#8 false).link 4).config.shape.checkEnable = true ∧ (s 4#8 false).tb.startKind 512 = some false ∧
    (s 4#8 false).clockLossDue 4 (after 512).rxc = false ∧ alarm 4#8 false = true ∧ alarm 3#8 false = false ∧
    alarm 0#8 true = false ∧ alarm 1#8 true = true ∧ (running 46).tb.superframeDue = false ∧
    ((running 47).link 4).inSync = false ∧ ((inSync base 4 header0 0 none).link 4).config.shape.checkEnable = false := by
  decide +kernel

/-- The sixteen frames that carry 0xA5C3, and the last of them at a link the timebase is LOCKED to. -/
theorem test_number_premises :
    let f (i : Fin 16) : FrameInProgress :=
      ⟨headerWord ⟨i.val, by omega⟩ false ((0xA5C3#16).getLsbD (15 - i.val)), true, shape8, false⟩
    let s := following.updLink 4 fun x => x.withRx { x.rx with collector := .collecting 0xA5C2#16 15 }
    (∀ i, (f i).good = true ∧ (headerOf (f i).header).index = BitVec.ofNat 6 i.val ∧
      headerS (f i).header = (0xA5C3#16).getLsbD (15 - i.val)) ∧
    (s.link 4).inSync = true ∧ (collect (s.link 4).rx.collector (f 15)).2 = some 0xA5C3#16 ∧
    s.tb.source = .locked 4 ∧ ¬(running 0).tb.source = .locked 4 := by decide

/-! ## Cells -/

/-- An outbound cell with this destination and this command code. -/
def outbound (dest : Byte) (code : BitVec 7) : Cell := buildCell 0xC5#8 dest 0x10#8 0#8 1#3 code 0#6 (payloadOf [])

/-- `base` with L5 a DOWNLINK. -/
def chained : State :=
  base.updLink 5 fun x => { x with config := { x.config with shape := { x.config.shape with role := .downlink } } }

theorem test_cell_premises :
    let x := outbound 0x41#8 1#7
    let y := buildCell 0xCA#8 0x10#8 0x41#8 0#8 1#3 1#7 0#6 (payloadOf [])
    highByte y[0] = 0xCA#8 ∧ (chained.link chained.agent.activeUplink).queue.length < 4 ∧
    4 ≤ (queueing.link queueing.agent.activeUplink).queue.length ∧ chained.agent.heldPlace = none ∧
    highByte 0xC541#16 = 0xC5#8 ∧ highByte 0xCA00#16 = 0xCA#8 ∧ highByte 0xC641#16 ≠ 0xC5#8 ∧
    highByte 0xC641#16 ≠ 0xCA#8 ∧ cellGood x = true ∧
    x[0] + x[1] + x[2] + x[3] + x[4] + x[5] + x[6] + x[7] = 0xFFFF#16 ∧
    (x.set 7 0#16)[0] + x[1] + x[2] + x[3] + x[4] + x[5] + x[6] + 0#16 ≠ 0xFFFF#16 ∧
    (chained.link 3).config.shape.role = .uplink ∧ highByte x[0] = 0xC5#8 ∧
    chained.agent.classify (lowByte x[0]) = .unicast ∧ chained.agent.classify 0x42#8 = .other ∧
    chained.agent.classify 0xFF#8 = .broadcast ∧ (chained.link 5).config.shape.role = .downlink := by decide

/-- A cell that completes on the strap uplink is answered; one for another part goes to the DOWNLINK. -/
theorem test_cell_dispatch_runs :
    (((chained.completeCell 3 (outbound 0x41#8 1#7) false false).link 3).queue.map fun q => lowByte q.cell[0]) =
      [0x10#8] ∧
    ((chained.completeCell 3 (outbound 0x42#8 1#7) false false).link 5).queue = [⟨outbound 0x42#8 1#7, false⟩] ∧
    ((chained.completeCell 5 (outbound 0x41#8 1#7) false false).link 5).mgmtCount.directionErrors = 1#16 := by
  decide

/-- A DOWNLINK with an empty queue, one with three cells and one with four. -/
theorem test_relay_premises :
    let s (n : Nat) := chained.updLink 5 fun x => { x with queue := List.replicate n ⟨outbound 0x42#8 1#7, false⟩ }
    (s 0).agent.heldPlace = none ∧ ((s 3).link 5).queue.length < 4 ∧ ¬((s 4).link 5).queue.length < 4 ∧
    ((s 0).link 5).config.shape.role = .downlink := by decide

theorem test_cell_rebuild_premises :
    let x := buildCell 0xC5#8 0xFF#8 0xFF#8 0xFF#8 7#3 0x7F#7 0x3F#6 (Vector.replicate 8 0xFF#8)
    highByte x[0] = 0xC5#8 ∧ x[0] + x[1] + x[2] + x[3] + x[4] + x[5] + x[6] + x[7] = 0xFFFF#16 := by decide

/-- Legal records and entries with the bytes that carry them, at the ends of the ranges. -/
theorem test_layout_premises :
    let x : LinkConfig := ⟨true, true, true, 0xFFFF#16, ⟨.n64, true, .downlink, 62⟩⟩
    let y : LinkConfig := ⟨false, false, false, 0#16, ⟨.n8, false, .none, 7⟩⟩
    let z : Entry := ⟨.slot 7 63, .hold⟩
    (x.shape.mgmtSlotLegal = true ∧ x.roleLegal = true ∧
      ∀ i : Fin 6, (cmd (payloadOf (0#8 :: x.bytes))).payload[i.val + 1] = x.bytes.getD i.val 0#8) ∧
    (y.shape.mgmtSlotLegal = true ∧ y.roleLegal = true ∧
      ∀ i : Fin 6, (cmd (payloadOf (0#8 :: y.bytes))).payload[i.val + 1] = y.bytes.getD i.val 0#8) ∧
    ∀ i : Fin 4, (cmd (payloadOf (0#8 :: 1#8 :: z.bytes))).payload[i.val + 2] = z.bytes.getD i.val 0#8 := by
  decide

/-! ## Taking a command -/

theorem test_command_is_examined (p : Vector Byte 8) : base.examines (cmd p) := ⟨⟨rfl, rfl, rfl⟩, rfl⟩

/-- With another bank control, timebase, event queue, notice controller or set of bridges, too. -/
theorem test_command_is_examined_elsewhere (p : Vector Byte 8) (b : BankCtl) (t : Timebase) (q : EventQueue)
    (g : Vector Bridge 16) : ((((base.withBank b).withTb t).withEvents q).withBridges g).examines (cmd p) :=
  ⟨⟨rfl, rfl, rfl⟩, rfl⟩

/-- A link without the role, an address of another part, a full queue, a reset pending, a group and the broadcast
address. -/
theorem test_turned_away_premises (p : Vector Byte 8) :
    let full := base.updLink 3 fun x => { x with queue := List.replicate 4 ⟨outbound 0#8 1#7, false⟩ }
    let pend := base.withAgent { base.agent with resetPending := true, groups := #v[none, some 0xF0#8] }
    ¬ base.arrives { cmd p with arrival := 4 } ∧ base.agent.classify 0x40#8 = .other ∧
    full.arrives (cmd p) ∧ full.matchesUnicast (cmd p) ∧ (full.atTest (cmd p)).hasRoom (cmd p).arrival = false ∧
    pend.placed (cmd p) ∧ pend.agent.resetPending = true ∧
    pend.arrives { cmd p with dest := 0xF0#8 } ∧ pend.matchesShared { cmd p with dest := 0xF0#8 } :=
  ⟨(fun h : Role.none = Role.uplink => by cases h), rfl, rfl, rfl, rfl, ⟨rfl, rfl, rfl⟩, rfl, rfl, Or.inl rfl⟩

theorem test_shared_premises (p : Vector Byte 8) :
    base.arrives { cmd p with dest := 0xFF#8 } ∧ base.matchesShared { cmd p with dest := 0xFF#8 } ∧
    base.agent.resetPending = false ∧ readingCodes.contains 0x01#7 = true ∧ readingCodes.contains 0x02#7 = false :=
  ⟨rfl, Or.inr rfl, rfl, by decide, by decide⟩

/-- The active uplink stands still without a notice in DUE, and moves with one. -/
theorem test_taking_premises (p : Vector Byte 8) :
    base.notice.state ≠ .due ∧ base.agent.activeUplink = (cmd p).arrival ∧ due.notice.state = .due ∧
    due.agent.activeUplink ≠ (5 : LinkId) := ⟨by decide, rfl, rfl, by decide⟩

/-! ## Commands -/

/-- A command cell with these payload bytes, the rest 0. -/
def pay (bytes : List Byte) : CommandCell := cmd (payloadOf bytes)

theorem test_part_reading_premises :
    base.examines (pay []) ∧ pByte (pay []) 0 = 0#8 ∧ pByte (pay [1#8]) 0 = 1#8 ∧ 2 ≤ (pByte (pay [2#8]) 0).toNat ∧
    ((pByte (pay [7#8, 63#8, 1#8]) 0).toNat = (7 : LinkId).val ∧
      (pByte (pay [7#8, 63#8, 1#8]) 1).toNat = (63 : SlotId).val ∧ pByte (pay [7#8, 63#8, 1#8]) 2 = bankCode .b) ∧
    8 ≤ (pByte (pay [8#8]) 0).toNat ∧ 64 ≤ (pByte (pay [7#8, 64#8]) 1).toNat ∧
    2 ≤ (pByte (pay [7#8, 63#8, 2#8]) 2).toNat ∧
    commandCodes.contains 0x7F#7 = false ∧ commandCodes.contains 0x00#7 = false :=
  ⟨test_command_is_examined _, by decide⟩

theorem test_link_reading_premises :
    base.examines (pay [7#8, 1#8, 1#8, 1#8]) ∧ (pByte (pay [7#8]) 0).toNat = (7 : LinkId).val ∧
    pByte (pay [7#8, 1#8, 1#8, 1#8]) 1 = flagCode true ∧ pByte (pay [7#8, 1#8, 1#8, 1#8]) 2 = flagCode true ∧
    pByte (pay [7#8, 1#8, 1#8, 1#8]) 3 = flagCode true ∧ pByte (pay [7#8]) 3 = flagCode false ∧
    8 ≤ (pByte (pay [8#8]) 0).toNat ∧ 2 ≤ (pByte (pay [7#8, 2#8]) 1).toNat ∧
    2 ≤ (pByte (pay [7#8, 0#8, 2#8]) 2).toNat ∧ 2 ≤ (pByte (pay [7#8, 0#8, 0#8, 2#8]) 3).toNat ∧
    (pByte (pay [15#8, 7#8]) 0).toNat = (15 : BridgeId).val ∧ (pByte (pay [15#8, 7#8]) 1).toNat = (7 : LegId).val ∧
    16 ≤ (pByte (pay [16#8]) 0).toNat ∧ 8 ≤ (pByte (pay [15#8, 8#8]) 1).toNat :=
  ⟨test_command_is_examined _, by decide⟩

/-- The part with alias slot 1 and membership slot 0 in use. -/
def named : State :=
  base.withAgent { base.agent with aliases := #v[some 0x50#8, none, none], groups := #v[some 0xF0#8, none] }

theorem test_address_slot_premises :
    named.examines (pay [3#8, 0x50#8]) ∧
    pByte (pay [0#8]) 0 = 0#8 ∧ 4 ≤ (pByte (pay [4#8]) 0).toNat ∧ 0xF0 ≤ (pByte (pay [3#8, 0xF0#8]) 1).toNat ∧
    ((pByte (pay [3#8, 0x50#8]) 0).toNat = (2 : Fin 3).val + 1 ∧ (pByte (pay [3#8, 0x50#8]) 1).toNat < 0xF0 ∧
      ∃ j : Fin 3, j ≠ 2 ∧ named.agent.aliases[j.val] = some (pByte (pay [3#8, 0x50#8]) 1)) ∧
    pByte (pay [3#8, 0x41#8]) 1 = named.agent.strapAddr ∧
    ((pByte (pay [1#8, 0xEF#8]) 0).toNat = (0 : Fin 3).val + 1 ∧ (pByte (pay [1#8, 0xEF#8]) 1).toNat < 0xF0 ∧
      ¬(pByte (pay [1#8, 0xEF#8]) 1 = named.agent.strapAddr ∨
        ∃ j : Fin 3, j ≠ 0 ∧ named.agent.aliases[j.val] = some (pByte (pay [1#8, 0xEF#8]) 1))) ∧
    2 ≤ (pByte (pay [2#8]) 0).toNat ∧
    (pByte (pay [1#8, 0xEF#8]) 1 ≠ 0#8 ∧ (pByte (pay [1#8, 0xEF#8]) 1).toNat < 0xF0) ∧
    pByte (pay [1#8, 0xFF#8]) 1 = 0xFF#8 ∧
    ((pByte (pay [1#8, 0xF0#8]) 0).toNat = (1 : Fin 2).val ∧ 0xF0 ≤ (pByte (pay [1#8, 0xF0#8]) 1).toNat ∧
      ∃ j : Fin 2, j ≠ 1 ∧ named.agent.groups[j.val] = some (pByte (pay [1#8, 0xF0#8]) 1)) ∧
    (pByte (pay [1#8, 0xFE#8]) 1 ≠ 0xFF#8 ∧
      ¬∃ j : Fin 2, j ≠ 1 ∧ named.agent.groups[j.val] = some (pByte (pay [1#8, 0xFE#8]) 1)) ∧
    ¬∃ j : Fin 2, j ≠ 1 ∧ named.agent.groups[j.val] = some (pByte (pay [1#8, 0#8]) 1) :=
  ⟨⟨⟨rfl, rfl, rfl⟩, rfl⟩, by decide⟩

/-- A record for L3, the arrival link, that cuts its own path, and one that only turns its check word on. -/
theorem test_link_record_premises :
    let cut := pay [3#8, 3#8, 3#8, 1#8, 1#8, 0#8, 0#8]
    let ok := pay [3#8, 7#8, 2#8, 1#8, 1#8, 0#8, 0#8]
    base.examines cut ∧ base.examines ok ∧ (pByte cut 0).toNat = (3 : LinkId).val ∧ (3 : LinkId) = cut.arrival ∧
    8 ≤ (pByte (pay [8#8, 3#8, 2#8, 0#8, 1#8]) 0).toNat ∧ recordOf (pay [7#8, 3#8, 4#8, 0#8, 1#8]) = none ∧
    ((recordOf cut).map fun new => decide (new.shape.slotCount ≠ (base.link 3).config.shape.slotCount)) = some true ∧
    ((recordOf ok).map fun new => decide (new.shape.role = .uplink ∧ new.rxEnable = true ∧ new.txEnable = true ∧
      new.shape.slotCount = (base.link 3).config.shape.slotCount ∧
      new.shape.mgmtSlot = (base.link 3).config.shape.mgmtSlot)) = some true ∧
    ((recordOf ok).map fun new => decide (new.shape ≠ (base.link 3).config.shape)) = some true :=
  ⟨test_command_is_examined _, test_command_is_examined _, by decide⟩

/-- Records for L5, a DOWNLINK: rx off, another slot count with role NONE and tx off, and on again; another slot count in
NOCLOCK; check enable turned off. -/
theorem test_link_record_effects :
    let off : LinkConfig := ⟨false, true, false, 0#16, ⟨.n32, false, .none, 1⟩⟩
    let short : LinkConfig := ⟨true, false, false, 0#16, ⟨.n8, false, .none, 1⟩⟩
    let old := (chained.link 5).config
    let was (x : LinkConfig) : State := chained.updLink 5 fun k => { k with config := x }
    recordOf (pay [5#8, 2#8, 2#8, 0#8, 1#8]) = some off ∧ recordOf (pay [5#8, 1#8, 0#8, 0#8, 1#8]) = some short ∧
    old.rxEnable = true ∧ off.rxEnable = false ∧ short.rxEnable = true ∧
    short.shape.slotCount ≠ old.shape.slotCount ∧ (chained.link 5).rx.align ≠ .noclock ∧
    (old.shape.role ≠ .none ∧ off.shape.role = .none) ∧ (old.txEnable = true ∧ short.txEnable = false) ∧
    old.shape ≠ off.shape ∧ old.txEnable ≠ short.txEnable ∧
    ((was off).link 5).config.rxEnable = false ∧
    ((chained.updLink 5 (·.withAlign .noclock)).link 5).rx.align = .noclock ∧
    ((was { old with shape := { old.shape with checkEnable := true } }).link 5).config.shape.checkEnable = true := by
  decide

/-- The current source not listed, HOLDOVER, revertive on, and a source lost; a qualified entry second in the list, and
none qualified. -/
theorem test_selection_premises :
    let lost := withTimebase base fun t => { t with source := .locked 4, refList := [.link 4, .localClock] }
    let none' := withTimebase base fun t => { t with source := .holdover, refList := [.link 4, .link 0] }
    let kept := withTimebase base fun t => { t with refList := [.link 4, .localClock] }
    let unlisted := withTimebase base fun t => { t with refList := [.link 4] }
    lost.tb.source.entry = some (.link 4) ∧ lost.qualified (.link 4) = false ∧ lost.qualified .localClock = true ∧
    lost.tb.refList = [.link 4] ++ .localClock :: [] ∧ (∀ x ∈ [RefEntry.link 4], lost.qualified x = false) ∧
    none'.tb.source = .holdover ∧ (∀ x ∈ none'.tb.refList, none'.qualified x = false) ∧
    kept.tb.revertive = false ∧ kept.tb.source.entry = some .localClock ∧ .localClock ∈ kept.tb.refList ∧
    kept.qualified .localClock = true ∧
    unlisted.tb.source.entry = some .localClock ∧ .localClock ∉ unlisted.tb.refList ∧
    following.tb.revertive = true ∧ following.qualified (.link 4) = true ∧ following.tb.source = .locked 4 ∧
    (following.link 4).rx.qualCount = 16 := by decide

theorem test_recentre_premises :
    (receiving.link 4).store.queue = [frameOf 1#16 true, frameOf 2#16 false] ∧
    (base.link 4).store.queue.length ≤ 1 ∧
    ((withStore base 4 ⟨[frameOf 1#16 true], none, false⟩).link 4).store.queue.length ≤ 1 := by decide

/-- REF-SET with no entry, with five, with the byte 9, with a repeated entry and with four; TIME-SET while the part
follows L4, and FREE with follow on. -/
theorem test_timing_premises :
    let four := pay [4#8, 8#8, 7#8, 0#8, 4#8, 3#8]
    let list : List RefEntry := [.localClock, .link 7, .link 0, .link 4]
    let twice := pay [2#8, 8#8, 8#8]
    base.examines four ∧ following.examines four ∧
    (pByte (pay [0#8]) 0 = 0#8 ∧ 4 < (pByte (pay [5#8]) 0).toNat ∧
      (pByte (pay [1#8, 9#8]) 0).toNat = 1 ∧ 9 ≤ ((pay [1#8, 9#8]).payload[(0 : Fin 4).val + 1]).toNat ∧
      9 ≤ ((pay [4#8, 0#8, 1#8, 2#8, 9#8]).payload[(3 : Fin 4).val + 1]).toNat) ∧
    ((pByte four 0).toNat = list.length ∧
      (∀ i : Fin 4, (h : i.val < list.length) → four.payload[i.val + 1] = refEntryCode list[i.val]) ∧ list.Nodup) ∧
    ((pByte twice 0).toNat = 2 ∧ (∀ i : Fin 2, twice.payload[i.val + 1] = refEntryCode .localClock) ∧
      ¬[RefEntry.localClock, .localClock].Nodup) ∧
    (following.tb.follow = true ∧ following.tb.source = .locked 4) ∧
    ¬((withTimebase base fun t => { t with follow := true }).tb.source = .locked 4) :=
  ⟨test_command_is_examined _, ⟨⟨rfl, rfl, rfl⟩, rfl⟩, by decide⟩

/-- MAP-WRITE out of range in each byte; a SLOT source that is no payload slot, and one that is; the standby held by a
switch and by the engine. -/
theorem test_map_write_premises :
    let bad := pay [7#8, 63#8, 1#8, 1#8, 4#8, 32#8]
    let good := pay [7#8, 63#8, 1#8, 1#8, 4#8, 31#8]
    base.examines good ∧ (base.withBank { base.bank with scheduler := .immediate }).examines good ∧
    (base.withBank { base.bank with engine := .running .copy 0 }).examines good ∧
    (8 ≤ (pByte (pay [8#8, 1#8]) 0).toNat ∧ 64 ≤ (pByte (pay [7#8, 64#8]) 1).toNat ∧
      pByte (pay [7#8, 0#8]) 1 = 0#8 ∧ entryOf (pay [7#8, 1#8, 4#8]) = none ∧
      entryOf (pay [7#8, 1#8, 0#8, 2#8]) = none ∧ entryOf (pay [7#8, 1#8, 1#8, 0#8, 8#8]) = none ∧
      entryOf (pay [7#8, 1#8, 2#8, 0#8, 16#8]) = none) ∧
    ((pByte good 0).toNat = (7 : LinkId).val ∧ (pByte good 1).toNat = (63 : SlotId).val ∧
      entryOf bad = some ⟨.slot 4 32, .hold⟩ ∧ (base.link 4).config.shape.isPayload 32 = false ∧
      entryOf good = some ⟨.slot 4 31, .hold⟩ ∧ (base.link 4).config.shape.isPayload 31 = true ∧
      entryOf (pay [7#8, 1#8, 3#8, 0#8, 1#8, 2#8]) = some ⟨.const 0x0102#16, .idle⟩) ∧
    base.bank.scheduler = .idle ∧ base.bank.engine = .idle none .done 0 :=
  ⟨test_command_is_examined _, ⟨⟨rfl, rfl, rfl⟩, rfl⟩, ⟨⟨rfl, rfl, rfl⟩, rfl⟩, by decide⟩

/-- MAP-WRITE's source and fault bytes at the ends of their ranges: the last values that name an entry, and the first
that name none. -/
theorem test_entry_boundaries :
    ([[7#8, 63#8, 0#8, 1#8], [7#8, 63#8, 1#8, 0#8, 7#8, 63#8], [7#8, 63#8, 2#8, 1#8, 15#8, 7#8],
        [7#8, 63#8, 3#8, 0#8, 255#8, 255#8]].map fun b => entryOf (pay b)) =
      [some ⟨.idle, .hold⟩, some ⟨.slot 7 63, .idle⟩, some ⟨.leg 15 7, .hold⟩, some ⟨.const 0xFFFF#16, .idle⟩] ∧
    ([[7#8, 63#8, 0#8, 2#8], [7#8, 63#8, 4#8], [7#8, 63#8, 1#8, 0#8, 8#8], [7#8, 63#8, 1#8, 0#8, 7#8, 64#8],
        [7#8, 63#8, 2#8, 0#8, 16#8], [7#8, 63#8, 2#8, 0#8, 15#8, 8#8]].all fun b => entryOf (pay b) = none) = true := by
  decide

/-- The engine and the scheduler in each state in which a bank command answers differently. -/
theorem test_bank_command_premises (p : Vector Byte 8) :
    let held := base.withBank { base.bank with scheduler := .immediate }
    let armed := base.withBank { base.bank with scheduler := .armed 0x7FFF#16 }
    let torn := base.withBank { base.bank with consistent := false }
    held.examines (cmd p) ∧ armed.examines (cmd p) ∧ torn.examines (cmd p) ∧ copying.examines (cmd p) ∧
    held.bank.scheduler ≠ .idle ∧ copying.bank.scheduler = .idle ∧ copying.bank.engine = .running .copy 504 ∧
    (∀ op pos, base.bank.engine ≠ .running op pos) ∧ torn.bank.consistent = false ∧ base.bank.consistent = true ∧
    armed.bank.scheduler = .armed 0x7FFF#16 :=
  ⟨⟨⟨rfl, rfl, rfl⟩, rfl⟩, ⟨⟨rfl, rfl, rfl⟩, rfl⟩, ⟨⟨rfl, rfl, rfl⟩, rfl⟩, ⟨⟨rfl, rfl, rfl⟩, rfl⟩, nofun, rfl, rfl,
    nofun, rfl, rfl, rfl⟩

/-- Targets of SWITCH-AT at number 0: the one armed already, the nearest and the farthest in the future, and the nearest
and the farthest that are not. -/
theorem test_switch_at_premises :
    let d := fun c : CommandCell => (pWord c 0 1 - base.tb.number).toNat
    pWord (pay [0x7F#8, 0xFF#8]) 0 1 = 0x7FFF#16 ∧ d (pay [0#8, 1#8]) = 1 ∧ d (pay [0x7F#8, 0xFF#8]) = 32767 ∧
    d (pay []) = 0 ∧ d (pay [0x80#8, 0#8]) = 32768 := by decide

/-- LEG-SET out of range in each byte; a slot that is no payload slot, an input held by another leg, by the leg itself,
and by none; BRIDGE-SET at both flags. -/
theorem test_bridge_command_premises :
    let at' (bytes : List Byte) (l t : Nat) : Prop :=
      (pByte (pay bytes) 0).toNat = 15 ∧ (pByte (pay bytes) 2).toNat = l ∧ (pByte (pay bytes) 3).toNat = t
    mixing.examines (pay [15#8, 7#8, 4#8, 7#8, 3#8]) ∧
    (16 ≤ (pByte (pay [16#8]) 0).toNat ∧ 8 ≤ (pByte (pay [15#8, 8#8]) 1).toNat ∧
      8 ≤ (pByte (pay [15#8, 7#8, 8#8]) 2).toNat ∧ 64 ≤ (pByte (pay [15#8, 7#8, 7#8, 64#8]) 3).toNat ∧
      4 ≤ (pByte (pay [15#8, 7#8, 7#8, 63#8, 4#8]) 4).toNat) ∧
    (at' [15#8, 7#8, 4#8, 0#8] 4 0 ∧ (mixing.link 4).config.shape.isPayload 0 = false) ∧
    (at' [15#8, 7#8, 4#8, 7#8] 4 7 ∧ (mixing.link 4).config.shape.isPayload 7 = true ∧
      ∃ j : LegId, j ≠ 7 ∧ (mixing.bridge 15).legs[j.val] = some ⟨4, 7, 3⟩) ∧
    (at' [15#8, 1#8, 4#8, 7#8] 4 7 ∧
      ∀ j : LegId, j ≠ 1 → ∀ g ∈ (mixing.bridge 15).legs[j.val], ¬(g.link = 4 ∧ g.slot = 7)) ∧
    (at' [15#8, 7#8, 7#8, 31#8] 7 31 ∧ (mixing.link 7).config.shape.isPayload 31 = true ∧
      ∀ j : LegId, j ≠ 7 → ∀ g ∈ (mixing.bridge 15).legs[j.val], ¬(g.link = 7 ∧ g.slot = 31)) ∧
    (pByte (pay [15#8, 1#8]) 1 = flagCode true ∧ pByte (pay [15#8]) 1 = flagCode false ∧
      2 ≤ (pByte (pay [15#8, 2#8]) 1).toNat) :=
  ⟨⟨⟨rfl, rfl, rfl⟩, rfl⟩, by decide⟩

/-- EVENT-READ with an empty queue, with an acknowledgement that removes the last record, and with one that does not. -/
theorem test_event_read_premises :
    let one := withRecords base [record 0xFF#8 .slip true]
    let two := withRecords base [record 0#8 .linkUp false, record 1#8 .slip false]
    let c := pay [1#8, 0xFF#8]
    base.examines c ∧ one.examines c ∧ two.examines c ∧ base.events.records = [] ∧
    one.events.records = record 0xFF#8 .slip true :: [] ∧ (pByte c 0).getLsbD 0 = true ∧
    (record 0xFF#8 .slip true).delivered = true ∧ (record 0xFF#8 .slip true).seq = pByte c 1 ∧
    two.events.records = record 0#8 .linkUp false :: [record 1#8 .slip false] ∧
    ¬((pByte c 0).getLsbD 0 = true ∧ (record 0#8 .linkUp false).delivered = true ∧
      (record 0#8 .linkUp false).seq = pByte c 1) :=
  ⟨test_command_is_examined _, ⟨⟨rfl, rfl, rfl⟩, rfl⟩, ⟨⟨rfl, rfl, rfl⟩, rfl⟩, by decide⟩

theorem test_mask_and_notice_premises :
    let some' := withRecords base [record 0#8 .linkUp false]
    base.examines (pay [1#8]) ∧ some'.examines (pay [1#8]) ∧
    (512 ≤ (pWord (pay [2#8, 0#8]) 0 1).toNat ∧ pWord (pay [1#8, 0xFF#8]) 0 1 = (0x1FF#9).zeroExtend 16 ∧
      pWord (pay []) 0 1 = (0#9).zeroExtend 16) ∧
    2 ≤ (pByte (pay [2#8]) 0).toNat ∧ pByte (pay []) 0 = 0#8 ∧ pByte (pay [1#8]) 0 = 1#8 ∧
    base.events.records = [] ∧ some'.events.records ≠ [] :=
  ⟨test_command_is_examined _, ⟨⟨rfl, rfl, rfl⟩, rfl⟩, by decide⟩

/-- A masked kind; a slip with a twin behind another record, and one without; 31 records in QUIET and not, and 32. -/
theorem test_report_premises :
    let masked := base.withEvents { base.events with mask := 0x0FF#9 }
    let pre := [record 0#8 .slip true, record 1#8 .linkUp false]
    let twin := record 2#8 .slip false
    let two := withRecords base (pre ++ twin :: [])
    let short := withRecords base ((List.range 31).map fun i => record (BitVec.ofNat 8 i) .linkUp false)
    masked.events.mask.getLsbD (eventKindCode .engineEnd - 1) = false ∧
    base.events.mask.getLsbD (eventKindCode .engineEnd - 1) = true ∧
    two.events.mask.getLsbD (eventKindCode .slip - 1) = true ∧
    two.events.records = pre ++ twin :: [] ∧
    (twin.kind = .slip ∧ twin.delivered = false ∧ twin.subject = 4#8 ∧ twin.detail = 1#8) ∧
    (∀ x ∈ pre, ¬(x.kind = .slip ∧ x.delivered = false ∧ x.subject = 4#8 ∧ x.detail = 1#8)) ∧
    (∀ x ∈ two.events.records, ¬(x.kind = .slip ∧ x.delivered = false ∧ x.subject = 4#8 ∧ x.detail = 0#8)) ∧
    short.events.records.length < 32 ∧ short.notice.state = .quiet ∧ short.hasRoom short.agent.activeUplink = true ∧
    queueing.notice.state = .quiet ∧ queueing.hasRoom queueing.agent.activeUplink = false ∧
    queueing.events.records.length < 32 ∧
    (short.withNotice ⟨.wait, 0, 64⟩).notice.state ≠ .quiet ∧
    32 ≤ eventful.events.records.length := by decide

end Sys2Proof.Tests
end

section
/-!
PROOFS. Reference selection and the leaving of SYNC (R26, R42, R52 to R55).
-/

namespace Sys2Proof.Machine

/-! ### The first qualified entry -/

/-- The first qualified entry is the one that no qualified entry precedes in the list (R54). -/
theorem firstQualified_eq_source {s : State} {e : RefEntry} {pre post : List RefEntry}
    (hl : s.tb.refList = pre ++ e :: post) (hpre : ∀ x ∈ pre, s.qualified x = false) (he : s.qualified e = true) :
    s.firstQualified = e.source := by
  have hfind : s.tb.refList.find? s.qualified = some e :=
    List.find?_eq_some_iff_append.2 ⟨he, pre, post, hl, fun x hx => by simp [hpre x hx]⟩
  simp only [State.firstQualified, hfind]

theorem firstQualified_eq_holdover {s : State} (h : ∀ x ∈ s.tb.refList, s.qualified x = false) :
    s.firstQualified = .holdover := by
  have hfind : s.tb.refList.find? s.qualified = none := List.find?_eq_none.2 fun x hx => by simp [h x hx]
  simp only [State.firstQualified, hfind]

/-! ### When a selection looks for a source, and when it keeps the present one -/

/-- With revertive on, in HOLDOVER, or with a current source not listed or not qualified, a selection goes through the
list from its head (R54). -/
theorem chooseSource_eq_firstQualified {s : State}
    (h : s.tb.revertive = true ∨ s.tb.source = .holdover ∨
      ∃ e, s.tb.source.entry = some e ∧ (e ∉ s.tb.refList ∨ s.qualified e = false)) :
    s.chooseSource = s.firstQualified := by
  unfold State.chooseSource
  split
  · rfl
  · next e he =>
    refine if_pos ?_
    rcases h with hrev | hhold | ⟨e', he', hbad⟩
    · simp [hrev]
    · simp [hhold, TimeSource.entry] at he
    · obtain rfl : e = e' := Option.some.inj (he.symm.trans he')
      rcases hbad with hout | hunq
      · simp [hout]
      · simp [hunq]

/-- With revertive off, a current source that is listed and qualified stays (R54). -/
theorem select_eq_self {s : State} {e : RefEntry} (hrev : s.tb.revertive = false) (he : s.tb.source.entry = some e)
    (hin : e ∈ s.tb.refList) (hq : s.qualified e = true) : s.select = s := by
  have hkeep : s.chooseSource = s.tb.source := by simp [State.chooseSource, he, hrev, hin, hq]
  simp [State.select, hkeep]

/-- A selection that changes the state enters a source other than the present one (R55). -/
theorem select_eq_self_or_enters (s : State) :
    s.select = s ∨ ∃ new, new ≠ s.tb.source ∧ s.select = s.enterSource new := by
  rcases select_cases s with ⟨_, e⟩ | ⟨hne, e⟩
  · exact .inl e
  · exact .inr ⟨_, hne, e⟩

/-! ### The leaving of SYNC -/

/-- The link after the leaving of SYNC, field by field: only the count of sync losses depends on the cause (R26). -/
theorem outOfSync_eq (x : Link) (next : Align) (cause : DownCause) :
    x.outOfSync next cause = { x with
      rx := { x.rx with align := next, remoteAlarm := false, raiRun := 0, checkAlarm := false, window := 0#8,
                        collector := .idle, numberValid := false, qualCount := 0, wholeMark := false },
      store := { x.store with queue := [], primed := false }, assembler := [],
      rxCount := { x.rxCount with
        syncLosses := if cause = .headerErrors ∨ cause = .clockLoss then satAdd16 x.rxCount.syncLosses 1
          else x.rxCount.syncLosses } } := by
  cases cause <;> simp [Link.outOfSync, DownCause.fromLine, Store.emptied]

/-- A disqualification brings about a selection when the link was qualified and is the source, and nothing else
(R42, R53). -/
theorem disqualified_eq (s : State) (l : LinkId) (wasQualified : Bool) :
    s.disqualified l wasQualified =
      if wasQualified = true ∧ s.tb.source = .locked l then s.select else s := by
  simp [State.disqualified]

/-- A link that is not the qualified source leaves SYNC with the one report and no selection (R26, R42). -/
theorem leaveSync_eq_report {s : State} {l : LinkId} (h : ¬(s.tb.source = .locked l ∧ (s.link l).rx.qualCount = 16))
    (next : Align) (cause : DownCause) (refFirst : Bool) :
    s.leaveSync l next cause refFirst =
      (s.updLink l (·.outOfSync next cause)).report .linkDown (linkSubject l) (downCode cause) := by
  have hstay (u : State) (hu : u.tb = s.tb) :
      u.disqualified l (decide ((s.link l).rx.qualCount = Config.qualifiedCount)) = u :=
    (disqualified_eq u l _).trans <| if_neg fun ⟨hq, hs⟩ => h ⟨hu ▸ hs, of_decide_eq_true hq⟩
  unfold State.leaveSync
  cases refFirst
  · exact hstay _ (report_tb ..)
  · exact congrArg (·.report .linkDown (linkSubject l) (downCode cause))
      (hstay _ (updLink_tb s l (·.outOfSync next cause)))

/-- The qualified source leaves SYNC with the report and a selection, either first (R26, R42, R53). -/
theorem leaveSync_eq_select {s : State} {l : LinkId} (hs : s.tb.source = .locked l)
    (hq : (s.link l).rx.qualCount = 16) (next : Align) (cause : DownCause) (refFirst : Bool) :
    s.leaveSync l next cause refFirst =
      if refFirst then
        (s.updLink l (·.outOfSync next cause)).select.report .linkDown (linkSubject l) (downCode cause)
      else ((s.updLink l (·.outOfSync next cause)).report .linkDown (linkSubject l) (downCode cause)).select := by
  have hgo (u : State) (hu : u.tb = s.tb) :
      u.disqualified l (decide ((s.link l).rx.qualCount = Config.qualifiedCount)) = u.select :=
    (disqualified_eq u l _).trans <| if_pos ⟨decide_eq_true hq, hu ▸ hs⟩
  unfold State.leaveSync
  cases refFirst
  · exact hgo _ (report_tb ..)
  · exact congrArg (·.report .linkDown (linkSubject l) (downCode cause))
      (hgo _ (updLink_tb s l (·.outOfSync next cause)))

/-! ### The obligation -/

/-- Settles O51: the outcome of a selection from `chooseSource`, and the leaving of SYNC by whether the link is the
qualified source. -/
theorem selectionChooses : Obligations.SelectionChooses := by
  intro s
  refine ⟨fun hlook => ⟨fun e pre post hl hpre he => ?first, fun hnone => ?holdover⟩,
    fun _ hrev he hin hq => select_eq_self hrev he hin hq, rfl, fun _ => rfl,
    fun l next cause refFirst hs hq => leaveSync_not_locked s l next cause refFirst hs hq,
    select_eq_self_or_enters s, fun l next cause refFirst =>
      ⟨downCode cause, s.updLink l (·.outOfSync next cause), ?code, ?link,
        fun h => leaveSync_eq_report h next cause refFirst,
        fun hs hq => leaveSync_eq_select hs hq next cause refFirst⟩⟩
  case first =>
    rw [select_source, chooseSource_eq_firstQualified hlook, firstQualified_eq_source hl hpre he]
    cases e <;> rfl
  case holdover => rw [select_source, chooseSource_eq_firstQualified hlook, firstQualified_eq_holdover hnone]
  case code => cases cause <;> rfl
  case link => exact congrArg (s.updLink l) (funext fun x => outOfSync_eq x next cause)

end Sys2Proof.Machine
end

section
/-!
PROOFS. The Bridge Unit and its outputs at a local frame start (R101 to R104).
-/

namespace Sys2Proof.Machine

/-! ### Contributions (R101) -/

/-- The shifted sample, scaled back, is the greatest multiple of 2 ^ `att` that is no more than the sample. -/
theorem attenuate_bounds (w : Word) (att : Fin 4) :
    attenuate w att * 2 ^ att.val ≤ w.toInt ∧ w.toInt < (attenuate w att + 1) * 2 ^ att.val := by
  have hpos : (0 : Int) < 2 ^ att.val := by positivity
  rw [attenuate, Int.fdiv_eq_ediv_of_nonneg _ hpos.le]
  exact ⟨Int.ediv_mul_le _ hpos.ne', Int.lt_ediv_add_one_mul_self _ hpos⟩

theorem contribution_of_invalid {s : State} {g : Leg} (h : s.slotSource g.link g.slot = none) :
    s.contribution (some g) = 0 := by simp only [State.contribution, h]

theorem contribution_of_valid {s : State} {g : Leg} {w : Word} (h : s.slotSource g.link g.slot = some w) :
    s.contribution (some g) = attenuate w g.attenuation := by simp only [State.contribution, h]

/-! ### Leg outputs (R102, R103) -/

theorem bridgeOutputs_disabled (s : State) {b : Bridge} (h : b.enabled = false) (k : LegId) :
    (s.bridgeOutputs b)[k.val] = none := by simp [State.bridgeOutputs, h]

/-- Of an enabled bridge, the present legs have an output and the absent ones have none. -/
theorem bridgeOutputs_enabled (s : State) {b : Bridge} (h : b.enabled = true) (k : LegId) :
    (s.bridgeOutputs b)[k.val] =
      b.legs[k.val].map fun _ => mixMinus (vecOf 8 fun j => s.contribution b.legs[j.val]) k := by
  simp [State.bridgeOutputs, h]

theorem bridgeOutputs_absent (s : State) {b : Bridge} {k : LegId} (h : b.legs[k.val] = none) :
    (s.bridgeOutputs b)[k.val] = none := by
  cases he : b.enabled with
  | false => exact bridgeOutputs_disabled s he k
  | true => rw [bridgeOutputs_enabled s he, h]; rfl

theorem bridgeOutputs_present (s : State) {b : Bridge} {k : LegId} (he : b.enabled = true)
    (hk : b.legs[k.val] ≠ none) :
    (s.bridgeOutputs b)[k.val] = some (mixMinus (vecOf 8 fun j => s.contribution b.legs[j.val]) k) := by
  obtain ⟨g, hg⟩ := Option.ne_none_iff_exists'.1 hk
  rw [bridgeOutputs_enabled s he, hg]; rfl

/-- The output of leg `k` from a function that gives every position's contribution. -/
theorem mixMinus_vecOf (f : LegId → Int) (k : LegId) :
    mixMinus (vecOf 8 f) k = clamp16 (((List.finRange 8).filter (· ≠ k)).map f).sum := by simp [mixMinus]

/-! ### What the outputs are read from (R104) -/

theorem contribution_congr {s t : State} (h : ∀ l, (t.link l).store = (s.link l).store) (g : Option Leg) :
    t.contribution g = s.contribution g := by
  cases g with
  | none => rfl
  | some g => simp only [State.contribution, State.slotSource, h]

/-- The outputs of a bridge follow from its own record and the elastic stores alone. -/
theorem bridgeOutputs_congr {s t : State} (h : ∀ l, (t.link l).store = (s.link l).store) (b : Bridge) :
    t.bridgeOutputs b = s.bridgeOutputs b := by
  simp only [State.bridgeOutputs, contribution_congr h]

/-- The frame fixes every output from the stores as they stand, and keeps legs and enables. -/
theorem transmit_bridge (s : State) (b : BridgeId) :
    s.transmit.bridge b = { s.bridge b with outputs := s.bridgeOutputs (s.bridge b) } := by
  simp [State.transmit, State.bridge, State.evaluateBridges]

/-! ### The frame among the acts of a start -/

/-- With no order named, the soft reset and the notice's test are all that comes after the frame. -/
theorem allStartActs_around_transmit : ∃ pre, allStartActs = pre ++ [.transmit, .softReset, .noticeTest] ∧
    ∀ a ∈ pre, a ≠ .transmit ∧ a ≠ .softReset :=
  ⟨allStartActs.takeWhile (· ≠ .transmit), by decide, by decide⟩

/-- The acts that come before the frame leave every bridge as it is. -/
theorem bridge_before_frame {pre : List StartAct} (h : ∀ a ∈ pre, a ≠ .transmit ∧ a ≠ .softReset) (x : StartCtx)
    (s : State) (b : BridgeId) : (pre.foldl (State.startAct x) s).bridge b = s.bridge b :=
  congrArg (·[b.val]) (startFold_keeps State.bridges x pre s fun a ha u => startAct_bridges x u a (h a ha))

/-- Where no soft reset is due, the acts after the frame touch no bridge and no store. -/
theorem afterFrame_only {x : StartCtx} (h : x.resetDue = false) (s : State) :
    s.EventOnly ([StartAct.softReset, .noticeTest].foldl (State.startAct x) s) := by
  simp only [List.foldl_cons, List.foldl_nil, State.startAct, h, Bool.false_eq_true, if_false]
  split
  · exact noticeTest_only s
  · exact .refl s

theorem State.EventOnly.link_store {s t : State} (h : s.EventOnly t) (l : LinkId) :
    (t.link l).store = (s.link l).store := by rw [h.link]

/-- A state reached from the frame with every bridge and store kept holds the outputs that its own stores give. -/
theorem bridge_of_frame {u t : State} (h : u.transmit.EventOnly t) (b : BridgeId) :
    t.bridge b = { u.bridge b with outputs := t.bridgeOutputs (u.bridge b) } := by
  have hstore (l : LinkId) : (t.link l).store = (u.link l).store := (h.link_store l).trans (transmit_link_store u l)
  calc t.bridge b = u.transmit.bridge b := congrArg (·[b.val]) h.bridges
    _ = { u.bridge b with outputs := u.bridgeOutputs (u.bridge b) } := transmit_bridge u b
    _ = { u.bridge b with outputs := t.bridgeOutputs (u.bridge b) } := by rw [bridgeOutputs_congr hstore]

/-- A start with no order named keeps legs and enables, and its outputs are those of the stores it leaves. -/
theorem localFrameStart_bridge {s : State} {i : StartInput} {k : Bool} (ho : i.order = [])
    (hk : s.tb.startKind i.elapsed = some k) (hr : s.resetDue = false) (b : BridgeId) :
    (s.localFrameStart i).bridge b =
      { s.bridge b with outputs := (s.localFrameStart i).bridgeOutputs (s.bridge b) } := by
  obtain ⟨pre, hsplit, hpre⟩ := allStartActs_around_transmit
  rw [localFrameStart_nil ho hk, hsplit, List.foldl_append, List.foldl_cons]
  refine (bridge_of_frame (afterFrame_only ((startCtx_resetDue s i).trans hr) _) b).trans ?_
  rw [bridge_before_frame hpre]
  rfl

/-! ### The obligation -/

/-- Settles O31: the outputs by whether the bridge is enabled and the leg present, the contributions by whether the
input is valid, and the start by what comes before and after the act that fixes the frame. -/
theorem bridgeGivesMixMinus : Obligations.BridgeGivesMixMinus := by
  refine ⟨fun s b k => ⟨fun hoff => bridgeOutputs_disabled s hoff k, fun habs => bridgeOutputs_absent s habs,
    fun hon hk => ?output⟩, fun s g => ⟨rfl, contribution_of_invalid, fun w hw => ?bounds⟩,
    fun i s k ho ha hk hr => ⟨_, exec_alone ha, localFrameStart_bridge ho hk hr⟩⟩
  case output => rw [bridgeOutputs_present s hon hk, mixMinus_vecOf]; rfl
  case bounds => rw [contribution_of_valid hw]; exact attenuate_bounds w g.attenuation

end Sys2Proof.Machine
end

section
/-!
PROOFS. A report taken into the event queue, and what an append does to the notice controller (R182 to R184, R188 to
R190).
-/

namespace Sys2Proof.Machine

/-! ### An append and the notice controller (R188, R189) -/

theorem recordAppended_of_not_quiet (s : State) (h : s.notice.state ≠ .quiet) : s.recordAppended = s := if_neg h

theorem recordAppended_of_quiet {s : State} (h : s.notice.state = .quiet) :
    s.recordAppended = (s.withNotice ⟨.due, 0, 0⟩).noticeTest := if_pos h

/-- Out of QUIET and with no place, the notice stays due. -/
theorem recordAppended_waits (s : State) (h : s.notice.state = .quiet)
    (hroom : s.hasRoom s.agent.activeUplink = false) : s.recordAppended = s.withNotice ⟨.due, 0, 0⟩ :=
  (recordAppended_of_quiet h).trans (noticeTest_waits (.inr hroom))

/-- Out of QUIET and with a place, the notice is placed at once and the wait begins. -/
theorem recordAppended_places (s : State) (h : s.notice.state = .quiet)
    (hroom : s.hasRoom s.agent.activeUplink = true) :
    s.recordAppended = (s.enqueue s.agent.activeUplink ⟨s.agent.noticeFor s.events 0, false⟩).withNotice
      ⟨.wait, 0, 64⟩ :=
  (recordAppended_of_quiet h).trans (noticeTest_places rfl hroom)

/-! ### Steps 3 and 4 (R182, R184) -/

/-- The event queue once a report of this kind has been appended to it. -/
def State.queueAppended (s : State) (k : EventKind) (subject detail : Byte) : EventQueue :=
  { s.events with records := s.events.records ++ [s.newRecord k subject detail],
                  nextSeq := s.events.nextSeq + 1#8, pendingLost := 0#8 }

theorem appendOrLose_of_room {s : State} (h : s.events.records.length < 32) (k : EventKind) (a b : Byte) :
    s.appendOrLose k a b = (s.withEvents (s.queueAppended k a b)).recordAppended := if_pos h

theorem appendOrLose_of_full {s : State} (h : 32 ≤ s.events.records.length) (k : EventKind) (a b : Byte) :
    s.appendOrLose k a b = s.withEvents { s.events with pendingLost := satInc8 s.events.pendingLost } :=
  if_neg h.not_gt

/-! ### The step that applies (R182) -/

theorem not_absorbs_iff {r : EventRecord} {a b : Byte} :
    r.absorbs a b = false ↔ ¬(r.kind = .slip ∧ r.delivered = false ∧ r.subject = a ∧ r.detail = b) := by
  rw [← absorbs_iff, Bool.not_eq_true]

theorem report_of_masked {s : State} {k : EventKind} (h : s.events.enabled k = false) (a b : Byte) :
    s.report k a b = s := by simp [State.report, h]

theorem report_of_coalesced {s : State} {a b : Byte} {rs : List EventRecord} (h : s.events.enabled .slip = true)
    (hc : coalesce a b s.events.records = some rs) :
    s.report .slip a b = s.withEvents { s.events with records := rs } := by simp [State.report, h, hc]

/-- An enabled report that no record absorbs goes on to the append. -/
theorem report_of_unabsorbed {s : State} {k : EventKind} {a b : Byte} (h : s.events.enabled k = true)
    (hc : k = .slip → coalesce a b s.events.records = none) : s.report k a b = s.appendOrLose k a b := by
  by_cases hk : k = .slip
  · subst hk; simp [State.report, h, hc rfl]
  · simp [State.report, h, hk]

/-! ### The obligation -/

/-- Settles O60: the step of R182 that applies is found first, by the mask, by the first record that absorbs the slip
and by the length of the queue; an append is then followed into the notice controller. -/
theorem reportIsTaken : Obligations.ReportIsTaken := by
  refine fun s k a b => ⟨fun hoff => report_of_masked hoff a b, fun hon =>
    ⟨fun pre r post hk hq hr hpre => ?coalesced, fun hno => ?unabsorbed⟩⟩
  case coalesced =>
    subst hk
    have hc : coalesce a b s.events.records = some (pre ++ { r with count := satInc8 r.count } :: post) :=
      hq ▸ coalesce_some post ((absorbs_iff r a b).2 hr) pre fun x hx => not_absorbs_iff.2 (hpre x hx)
    exact report_of_coalesced hon hc
  case unabsorbed =>
    have hreport : s.report k a b = s.appendOrLose k a b :=
      report_of_unabsorbed hon fun hk => coalesce_none fun x hx => not_absorbs_iff.2 (hno hk x hx)
    rw [hreport]
    refine ⟨fun hroom => ⟨s.queueAppended k a b, rfl, ?appended⟩, fun hfull => appendOrLose_of_full hfull k a b⟩
    case appended =>
      rw [appendOrLose_of_room hroom]
      let t := s.withEvents (s.queueAppended k a b)
      exact ⟨recordAppended_of_not_quiet t, recordAppended_waits t, recordAppended_places t⟩

end Sys2Proof.Machine
end

section
/-!
PROOFS. Every step as one of the things that can happen to a state, and the receive side under each of them (R19, R26,
R34, R41).
-/

namespace Sys2Proof.Machine

/-! ### Invariants of the step -/

/-- What does not look at the queue of commands, and what each row keeps, every step keeps. -/
theorem step_keeps {P : State → Prop} (hqueue : ∀ s q, P s → P (s.withPending q))
    (hdid : ∀ s t, P s → s.Did t → P t) (hstart : ∀ s i, P s → P (s.localFrameStart i)) {s t : State} (hs : P s)
    (h : step s = .next t) : P t := by
  unfold step at h
  split at h
  · cases h; exact hs
  · next i rest _ =>
    obtain ⟨u, hu, hb⟩ := exec_became i (s.withPending rest)
    rw [hu] at h; cases h
    exact became_keeps hdid hstart _ _ (hqueue s rest hs) hb

/-- What each act of a start keeps, and what does not look at the frame's number and times, a start keeps. -/
theorem localFrameStart_keeps {P : State → Prop} (hframe : ∀ (s : State) (n : Word) (k : Bool) (e : Nat), P s →
      P (s.withTb (s.tb.beginFrame n k e)))
    (hact : ∀ x s a, P s → P (State.startAct x s a)) (s : State) (i : StartInput) (hs : P s) :
    P (s.localFrameStart i) := by
  cases hk : s.tb.startKind i.elapsed with
  | none => rwa [localFrameStart_none hk]
  | some k =>
    rw [localFrameStart_eq hk]
    exact startFold_induct P _ _ _ (fun a _ u => hact _ u a) (hframe s _ _ _ hs)

/-- What the shell and every command's body keep, the taking of a cell keeps. -/
theorem takeByCode_keeps (P : State → Prop) (hshell : ∀ u v, P u → State.Shell u v → P v)
    (hbody : ∀ code b c u, P u → P (bodyOf code b c u).1) (s : State) (code : BitVec 7) (c : CommandCell) (hs : P s) :
    P (s.takeByCode code c) := by
  rw [takeByCode_eq]
  exact take_keeps P hs hshell (hbody code) _ _ _

/-- A management word reaches the assembler, and the cell it completes is counted and dispatched (R28, R132, R133). -/
theorem cellAct_keeps (P : State → Prop)
    (hassemble : ∀ (u : State) (l : LinkId) (w : Word), P u → (u.link l).inSync = true →
      (u.link l).config.shape.role ≠ .none →
      P (u.updLink l fun x => { x with assembler := (assemble (u.link l).assembler w).1 }))
    (hcount : ∀ (u : State) (l : LinkId) (g : MgmtCounters → MgmtCounters), P u →
      P (u.updLink l fun x => { x with mgmtCount := g x.mgmtCount }))
    (hshell : ∀ u v, P u → State.Shell u v → P v)
    (htake : ∀ u code c, P u → P (State.takeByCode u code c)) {s : State} (hs : P s) (l : LinkId) (w : Option Word)
    (rf nf : Bool) : P (s.cellAct l w rf nf) := by
  unfold State.cellAct State.assembleWord
  split
  · exact hs
  · next w =>
    split
    · next hsync =>
      split
      · exact hs
      · next hrole =>
        have h1 := hassemble s l w hs hsync hrole
        simp only
        split
        · exact h1
        · exact completeCell_keeps P hcount hshell htake h1 _ _ _ _
    · exact hs

/-! ### What a command's body can do -/

/-- What the body of a command can do to the state in which it is examined, with the checks it has passed: taken by
unicast or not, with the cell `c` (R147). -/
inductive State.BodyDid (s : State) (unicast : Bool) (c : CommandCell) : State → Prop
  | same : State.BodyDid s unicast c s
  | aliases (v : Vector (Option Byte) 3) : State.BodyDid s unicast c (s.withAgent { s.agent with aliases := v })
  | groups (v : Vector (Option Byte) 2) : State.BodyDid s unicast c (s.withAgent { s.agent with groups := v })
  | resetPends (h : unicast = true) : State.BodyDid s unicast c (s.withAgent { s.agent with resetPending := true })
  | softReset (h : unicast = false) : State.BodyDid s unicast c s.softReset
  | linkSet (l : LinkId) (new : LinkConfig) (hnew : recordOf c = some new)
      (hkeeps : ¬(l = c.arrival ∧ severs (s.link l).config new = true)) :
      State.BodyDid s unicast c (s.writeLink l new c.refFirst)
  | clearCounters (l : LinkId) (mgmt page1 : Bool) :
      State.BodyDid s unicast c (s.updLink l (·.clearCounters mgmt page1))
  | refSet (es : List RefEntry) (revertive follow : Bool) (hlen : 1 ≤ es.length ∧ es.length ≤ 4) (hd : es.Nodup) :
      State.BodyDid s unicast c
        (s.withTb { s.tb with refList := es, revertive := revertive, follow := follow }).select
  | timeSet (v : Word) : State.BodyDid s unicast c (s.withTb { s.tb with pendingSet := some v })
  | mapWrite (l : LinkId) (t : SlotId) (e : Entry) (ht : t ≠ 0) : State.BodyDid s unicast c (s.writeStandby (slotIndex l t) e)
  | engine (op : EngineOp) (hs : s.bank.scheduler = .idle) :
      State.BodyDid s unicast c (s.withBank { s.bank with engine := .running op 0 })
  | abort (op : EngineOp) (pos : Nat) (h : s.bank.engine = .running op pos) : State.BodyDid s unicast c
      ((s.withBank { s.bank with engine := .idle (some op) .aborted pos, consistent := false }).report
        .engineEnd partWide (engineEndDetail op .aborted))
  | switch (x : Scheduler) (he : s.bank.engine.isRunning = false) (hc : s.bank.consistent = true) :
      State.BodyDid s unicast c (s.withBank { s.bank with scheduler := x })
  | cancel : State.BodyDid s unicast c (s.withBank { s.bank with scheduler := .idle })
  | leg (b : BridgeId) (k : LegId) (g : Option Leg)
      (h : ∀ x, g = some x → (s.bridge b).inputTaken k x.link x.slot = false) :
      State.BodyDid s unicast c (s.setBridge b { s.bridge b with legs := (s.bridge b).legs.set k.val g })
  | bridge (b : BridgeId) (on : Bool) : State.BodyDid s unicast c (s.setBridge b { s.bridge b with enabled := on })
  | eventRead (ack : Bool) (seq : Byte) (left : List EventRecord) (h : left = acknowledge ack seq s.events.records) :
      State.BodyDid s unicast c
        ((s.withEvents { s.events with records := deliverHead left }).withNotice (s.notice.afterRead left))
  | mask (m : BitVec 9) : State.BodyDid s unicast c (s.withEvents { s.events with mask := m })
  | notices (on : Bool) : State.BodyDid s unicast c (s.setNotices on)

theorem refEntriesOf_length : ∀ {bs : List Byte} {es : List RefEntry}, refEntriesOf bs = some es → es.length = bs.length
  | [], es, h => by simp [refEntriesOf] at h; simp [← h]
  | b :: bs, es, h => by
    unfold refEntriesOf at h
    split at h
    · next hb => injection h with h; subst h; simp [refEntriesOf_length hb]
    · cases h

theorem not_scheduled {x : Scheduler} (h : ¬x.scheduled = true) : x = .idle := by
  by_contra hc; exact h ((scheduled_iff x).2 hc)

theorem startEngine_did (s : State) (b : Bool) (c : CommandCell) (op : EngineOp) :
    s.BodyDid b c (s.startEngine op).1 := by
  unfold State.startEngine
  split
  · exact .same
  · next hs =>
    split
    · exact .same
    · exact .engine op (not_scheduled hs)

/-- Every command's body does one of these things. -/
theorem bodyOf_did (code : BitVec 7) : ∀ b c (s : State), s.BodyDid b c (bodyOf code b c s).1 := by
  apply bodyOf_induct (fun body => ∀ b c (s : State), s.BodyDid b c (body b c s).1)
  case bankCopy => exact fun b c s => startEngine_did s b c .copy
  case bankClear => exact fun b c s => startEngine_did s b c .clear
  case partReset =>
    intro b c s
    cases b
    · exact .softReset rfl
    · exact .resetPends rfl
  case addrSet =>
    intro b c s
    simp only [addrSetBody]
    (repeat' split) <;> first | exact .same | exact .aliases _
  case groupSet =>
    intro b c s
    simp only [groupSetBody]
    (repeat' split) <;> first | exact .same | exact .groups _
  case linkSet =>
    intro b c s
    simp only [linkSetBody]
    split
    · next l new _ hnew =>
      split
      · exact .same
      · next hk => exact .linkSet l new hnew (by simpa using hk)
    · exact .same
  case countRead =>
    intro b c s
    simp only [countReadBody]
    (repeat' split) <;> first | exact .same | exact .clearCounters _ _ _
  case refSet =>
    intro b c s
    simp only [refSetBody]
    split
    · exact .same
    · next hn =>
      simp only [Bool.or_eq_true, decide_eq_true_eq, not_or] at hn
      split
      · exact .same
      · next es he =>
        have hlen := refEntriesOf_length he
        split
        · exact .same
        · next hr =>
          refine .refSet es _ _ ?_ ((noRepeats_iff es).1 (by simpa using hr))
          simp only [List.length_take, List.length_cons, List.length_nil] at hlen
          omega
  case timeSet =>
    intro b c s
    simp only [timeSetBody]
    split
    · exact .same
    · exact .timeSet _
  case mapWrite =>
    intro b c s
    simp only [mapWriteBody]
    split
    · split
      · exact .same
      · next ht => (repeat' split) <;> first | exact .same | exact .mapWrite _ _ _ ht
    · exact .same
  case bankAbort =>
    intro b c s
    simp only [bankAbortBody]
    split
    · exact .same
    · next op pos he => exact .abort op pos he
  case switchAt =>
    intro b c s
    simp only [switchAtBody]
    split
    · exact .same
    · split
      · exact .same
      · next hr =>
        split
        · exact .same
        · split
          · exact .same
          · next hc =>
            split
            · exact .same
            · exact .switch _ (by simpa using hr) (by simpa using hc)
  case switchNow =>
    intro b c s
    simp only [switchNowBody]
    split
    · exact .same
    · next hr =>
      split
      · exact .same
      · split
        · exact .same
        · next hc => exact .switch _ (by simpa using hr) (by simpa using hc)
  case switchCancel =>
    intro b c s
    simp only [switchCancelBody]
    split
    · exact .cancel
    · exact .same
  case legSet =>
    intro b c s
    simp only [legSetBody]
    split
    · split
      · exact .same
      · split
        · exact .same
        · next ht =>
          refine .leg _ _ _ ?_
          rintro x ⟨⟩
          simpa using ht
    · exact .same
  case legClear =>
    intro b c s
    simp only [legClearBody]
    split
    · exact .leg _ _ none nofun
    · exact .same
  case bridgeSet =>
    intro b c s
    simp only [bridgeSetBody]
    split
    · exact .bridge _ _
    · exact .same
  case eventRead =>
    intro b c s
    have h := State.BodyDid.eventRead (s := s) (unicast := b) (c := c) _ _ _
      (rfl : acknowledge ((pByte c 0).getLsbD 0) (pByte c 1) s.events.records = _)
    simp only [eventReadBody]
    split <;> exact h
  case eventMask =>
    intro b c s
    simp only [eventMaskBody]
    split
    · exact .same
    · exact .mask _
  case noticeSet =>
    intro b c s
    simp only [noticeSetBody]
    split
    · exact .same
    · exact .notices _
  case linkGet => intro b c s; simp only [linkGetBody]; split <;> exact .same
  case linkStatus => intro b c s; simp only [linkStatusBody]; split <;> exact .same
  case refStatus => intro b c s; simp only [refStatusBody]; split <;> exact .same
  case mapRead => intro b c s; simp only [mapReadBody]; split <;> exact .same
  case legRead => intro b c s; simp only [legReadBody]; split <;> exact .same
  case identify => exact fun _ _ _ => .same
  case bankStatus => exact fun _ _ _ => .same
  case badCommand => exact fun _ _ _ => .same

/-! ### The receive side under a command -/

/-- The release of RST_N gives every link its power-on values, the strapped one the role UPLINK (R17, R144). -/
theorem powerOn_link (addr : BitVec 4) (upl : LinkId) (q : List Instr) (l : LinkId) :
    (State.powerOn addr upl q).link l = Link.powerOn (if l = upl then .uplink else .none) := by
  simp [State.powerOn, State.link]

theorem receiveOk_powerOn (addr : BitVec 4) (upl : LinkId) (q : List Instr) :
    (State.powerOn addr upl q).receiveOk := by
  intro l
  rw [powerOn_link]
  simp [Link.receiveOk, Link.powerOn, LinkConfig.powerOn, Receiver.powerOn, Align.ok, Link.quiet]

theorem receiveOk_softReset {s : State} (h : s.receiveOk) : s.softReset.receiveOk :=
  ok_links h fun l => by rw [softReset_link]; exact ⟨rfl, rfl, rfl, rfl, rfl, rfl⟩

theorem receiveOk_shell (s u : State) (h : s.receiveOk) (hu : State.Shell s u) : u.receiveOk :=
  ok_links h (sameRx_shell hu)

/-- The receive side of a link but for the agreement of OFF with rx enable off. -/
def Link.receivesInOrder (x : Link) : Prop :=
  x.store.queue.length ≤ 2 ∧ x.rx.qualCount ≤ 16 ∧ x.rx.raiRun ≤ 3 ∧ x.rx.align.ok ∧
  (x.inSync = false → x.quiet) ∧
  (x.config.shape.checkEnable = false → x.rx.checkAlarm = false ∧ x.rx.window = 0#8)

theorem receiveOk_iff (x : Link) :
    x.receiveOk ↔ x.receivesInOrder ∧ (x.rx.align = .off ↔ x.config.rxEnable = false) := by
  unfold Link.receiveOk Link.receivesInOrder; tauto

/-- A new record keeps the link in order, its check alarm and assembler being cleared with it (R31, R133). -/
theorem written_receivesInOrder {x : Link} (hx : x.receivesInOrder) (new : LinkConfig) :
    (x.written new).receivesInOrder := by
  obtain ⟨hstore, hqual, hrai, halign, hquiet, hcheck⟩ := hx
  refine ⟨by simpa using hstore, ?_, ?_, by simpa using halign, fun hn => ?_, fun hc => ?_⟩
  · rw [written_rx]; split <;> exact hqual
  · rw [written_rx]; split <;> exact hrai
  · have hq : x.quiet := hquiet (by simpa [Link.inSync] using hn)
    unfold Link.quiet at *
    rw [written_store, written_rx, written_assembler]
    split <;> simp_all
  · rw [written_config] at hc
    rw [written_rx]
    cases hold : x.config.shape.checkEnable
    · simpa [hc] using hcheck hold
    · simp [hc]

/-- A link out of SYNC is in order at any other place out of SYNC. -/
theorem withAlign_receivesInOrder {x : Link} (hx : x.receivesInOrder) (hn : x.inSync = false) {a : Align}
    (ha : a.isSync = false) : (x.withAlign a).receivesInOrder := by
  obtain ⟨hstore, hqual, hrai, -, hquiet, hcheck⟩ := hx
  refine ⟨hstore, hqual, hrai, ?_, fun _ => hquiet hn, hcheck⟩
  cases a with
  | sync => cases ha
  | _ => trivial

/-- The receiver moves to where the new record wants it (R19, R44, R45). -/
theorem reconfigureRx_receiveOk {s : State} {l : LinkId} {old new : LinkConfig} (rf : Bool)
    (hother : ∀ k, k ≠ l → (s.link k).receiveOk) (hl : (s.link l).receivesInOrder)
    (hoff : (s.link l).rx.align = .off ↔ old.rxEnable = false) (hnew : (s.link l).config = new) :
    (s.reconfigureRx l old new rf).receiveOk := by
  have move {a : Align} (hn : (s.link l).inSync = false) (ha : a.isSync = false)
      (hao : a = .off ↔ new.rxEnable = false) : (s.updLink l fun x => x.withRx { x.rx with align := a }).receiveOk := by
    intro k
    by_cases e : k = l
    · subst e
      rw [link_updLink_self, receiveOk_iff]
      exact ⟨withAlign_receivesInOrder hl hn ha, by simpa [hnew] using hao⟩
    · rw [link_updLink_ne _ e]; exact hother k e
  have leave {a : Align} (d : DownCause) (ha : a.isSync = false) (hao : a = .off ↔ new.rxEnable = false) :
      (s.leaveSync l a d rf).receiveOk := ok_leave _ _ _ _ hother ha (by rw [hnew]; exact hao)
  have outOf (h : ¬(s.link l).inSync = true) : (s.link l).inSync = false := by simpa using h
  unfold State.reconfigureRx
  split
  · next h =>
    simp only [Bool.and_eq_true, Bool.not_eq_true'] at h
    refine ok_watch ?_ l _
    split
    · exact leave _ rfl (by simp [h.2])
    · next hn => exact move (outOf hn) rfl (by simp [h.2])
  · split
    · next h =>
      simp only [Bool.and_eq_true, Bool.not_eq_true'] at h
      refine ok_watch (move ?_ rfl (by simp [h.2])) l _
      simp [Link.inSync, hoff.2 h.1, Align.isSync]
    · split
      · next h =>
        simp only [Bool.and_eq_true] at h
        split
        · exact leave _ rfl (by simp [h.1])
        · next hn =>
          split
          · next hc =>
            intro k
            by_cases e : k = l
            · subst e; rw [receiveOk_iff]; exact ⟨hl, by simp [hc, hnew, h.1]⟩
            · exact hother k e
          · exact move (outOf hn) rfl (by simp [h.1])
      · next h1 h2 _ =>
        intro k
        by_cases e : k = l
        · subst e
          rw [receiveOk_iff, hoff, hnew]
          refine ⟨hl, ?_⟩
          cases ho : old.rxEnable <;> cases hn : new.rxEnable <;> simp_all
        · exact hother k e

theorem writeLink_receiveOk {s : State} (h : s.receiveOk) (l : LinkId) (new : LinkConfig) (rf : Bool) :
    (s.writeLink l new rf).receiveOk := by
  have hl := (receiveOk_iff _).1 (h l)
  have hlinks : ∀ k, ((if holdsCleared (s.link l).config new then (s.updLink l (·.written new)).clearLinkHolds l
      else s.updLink l (·.written new)).link k) = (s.updLink l (·.written new)).link k := by
    intro k; split <;> simp
  unfold State.writeLink
  refine reconfigureRx_receiveOk rf (fun k hk => ?_) ?_ ?_ ?_
  · rw [hlinks, link_updLink_ne _ hk]; exact h k
  · rw [hlinks, link_updLink_self]; exact written_receivesInOrder hl.1 new
  · rw [hlinks, link_updLink_self, written_align]; exact hl.2
  · rw [hlinks, link_updLink_self, written_config]

/-- Every command's body keeps the receive side: a soft reset, a link record, cleared counters, reports and selections by
the lemmas about them; the others touch no link. -/
theorem bodyOf_receiveOk (code : BitVec 7) (b : Bool) (c : CommandCell) (s : State) (h : s.receiveOk) :
    (bodyOf code b c s).1.receiveOk := by
  obtain ⟨t, e, hd⟩ : ∃ t, (bodyOf code b c s).1 = t ∧ s.BodyDid b c t := ⟨_, rfl, bodyOf_did code b c s⟩
  rw [e]
  cases hd with
  | same => exact h
  | softReset => exact receiveOk_softReset h
  | linkSet => exact writeLink_receiveOk h _ _ _
  | clearCounters l m p =>
    refine ok_upd h l _ fun hx => SameRx.ok ?_ hx
    cases m <;> cases p <;> exact ⟨rfl, rfl, rfl, rfl, rfl, rfl⟩
  | refSet => exact ok_select (ok_bank h (withTb_links s _))
  | abort => exact ok_report (ok_bank h (withBank_links s _)) _ _ _
  | notices on => exact ok_links h (sameRx_only (setNotices_only s on))
  | _ => exact ok_bank h rfl

theorem takeByCode_receiveOk (s : State) (code : BitVec 7) (c : CommandCell) (h : s.receiveOk) :
    (s.takeByCode code c).receiveOk :=
  takeByCode_keeps State.receiveOk receiveOk_shell bodyOf_receiveOk s code c h

/-! ### The receive side at a completed frame -/

/-- A link in SYNC stays in order where its store, its counts and what it collects change within their bounds. -/
theorem receiveOk_of_inSync {x y : Link} (hx : x.receiveOk) (hs : y.inSync = true)
    (hstore : y.store.queue.length ≤ 2) (hrai : y.rx.raiRun ≤ 3) (hqual : y.rx.qualCount = x.rx.qualCount)
    (halign : y.rx.align = x.rx.align) (hen : y.config = x.config)
    (hcheck : x.config.shape.checkEnable = false → y.rx.checkAlarm = x.rx.checkAlarm ∧ y.rx.window = x.rx.window) :
    y.receiveOk := by
  obtain ⟨-, h2, -, h4, h5, -, h7⟩ := hx
  refine ⟨hstore, by rw [hqual]; exact h2, hrai, by rw [halign]; exact h4, by rw [halign, hen]; exact h5,
    fun hn => ?_, fun hc => ?_⟩
  · rw [hs] at hn; cases hn
  · rw [hen] at hc
    rw [(hcheck hc).1, (hcheck hc).2]; exact h7 hc

theorem integrateRai_run_le (alarm : Bool) (run : Nat) (rai : Bool) : (integrateRai alarm run rai).2.1 ≤ 3 := by
  unfold integrateRai; (repeat' split) <;> simp only <;> omega

theorem receiveAct_receiveOk (l : LinkId) (f : FrameInProgress) (rest : Vector Word 63) (startAt : Nat) (rf nf : Bool)
    (s : State) (a : ReceiveAct) (h : s.receiveOk) : (State.receiveAct l f rest startAt rf nf s a).receiveOk := by
  have hsync (g : Link → Link) (hs : (g (s.link l)).inSync = true) (hstore : (g (s.link l)).store.queue.length ≤ 2)
      (hrai : (g (s.link l)).rx.raiRun ≤ 3) (hqual : (g (s.link l)).rx.qualCount = (s.link l).rx.qualCount)
      (halign : (g (s.link l)).rx.align = (s.link l).rx.align) (hen : (g (s.link l)).config = (s.link l).config)
      (hcheck : (s.link l).config.shape.checkEnable = false →
        (g (s.link l)).rx.checkAlarm = (s.link l).rx.checkAlarm ∧ (g (s.link l)).rx.window = (s.link l).rx.window) :
      (s.updLink l g).receiveOk :=
    ok_upd h l g fun hx => receiveOk_of_inSync hx hs hstore hrai hqual halign hen hcheck
  obtain ⟨hstore, -, hrai, -⟩ := h l
  cases a with
  | store =>
    simp only [State.receiveAct, State.storeAct]
    split
    · next hs =>
      split
      · next hroom =>
        simp only [Config.storeCapacity] at hroom
        exact hsync _ hs (by simpa using hroom) hrai rfl rfl rfl fun _ => ⟨rfl, rfl⟩
      · exact ok_report (hsync _ hs (by simp; omega) hrai rfl rfl rfl fun _ => ⟨rfl, rfl⟩) _ _ _
    · exact h
  | check =>
    simp only [State.receiveAct, State.checkAct]
    split
    · by_cases hc : ((s.link l).inSync && (s.link l).config.shape.checkEnable) = true
      · have hc' := hc
        simp only [Bool.and_eq_true] at hc'
        refine hsync _ ?_ hstore ?_ ?_ ?_ rfl fun hn => ?_
        all_goals simp_all [Link.countCheckError, Link.inSync]
      · refine ok_upd h l _ fun hx => SameRx.ok (x := s.link l) ⟨rfl, rfl, ?_, rfl, rfl, rfl⟩ hx
        simp only [Link.countCheckError, if_neg hc]
    · exact h
  | remoteAlarm =>
    simp only [State.receiveAct, State.remoteAlarmAct]
    split
    · next hc =>
      simp only [Bool.and_eq_true] at hc
      have h1 := hsync (fun x => x.withRx { x.rx with
          remoteAlarm := (integrateRai (s.link l).rx.remoteAlarm (s.link l).rx.raiRun (headerRai f.header)).1,
          raiRun := (integrateRai (s.link l).rx.remoteAlarm (s.link l).rx.raiRun (headerRai f.header)).2.1 })
        hc.1 hstore (integrateRai_run_le _ _ _) rfl rfl rfl fun _ => ⟨rfl, rfl⟩
      split
      · exact ok_report h1 _ _ _
      · exact h1
    · exact h
  | collector =>
    simp only [State.receiveAct, State.collectorAct]
    split
    · next hs =>
      split
      · exact hsync _ hs hstore hrai rfl rfl rfl fun _ => ⟨rfl, rfl⟩
      · exact ok_bank (hsync (fun x => x.withRx { x.rx with
          collector := (collect (s.link l).rx.collector f).1, number := _, numberValid := true })
          hs hstore hrai rfl rfl rfl fun _ => ⟨rfl, rfl⟩) rfl
    · exact h
  | timing =>
    simp only [State.receiveAct, State.timingAct]
    split
    · exact ok_bank h rfl
    · exact h
  | cell =>
    refine cellAct_keeps State.receiveOk (fun u k w hu hs _ => ?_) (fun u k g hu => ok_upd hu k _ fun hx => hx)
      receiveOk_shell takeByCode_receiveOk h l _ rf nf
    exact ok_upd hu k _ fun hx => receiveOk_of_inSync hx hs hx.1 hx.2.2.1 rfl rfl rfl fun _ => ⟨rfl, rfl⟩

/-- A frame in progress ends: the receiver stays in SYNC and waits for a header (R24). -/
theorem frameEnds_receiveOk {s : State} (h : s.receiveOk) {l : LinkId} {e : Header} {b : Nat} {f : FrameInProgress}
    (ha : (s.link l).rx.align = .sync e b (some f)) : (s.updLink l (·.frameEnds e b)).receiveOk := by
  refine ok_upd h l _ fun hx => ?_
  obtain ⟨h1, h2, h3, h4, h5, h6, h7⟩ := hx
  rw [ha] at h4 h5
  exact ⟨h1, h2, h3, h4, by simpa [Link.frameEnds, Receiver.aligned] using h5,
    fun hn => by simp [Link.inSync, Link.frameEnds, Receiver.aligned, Align.isSync] at hn, h7⟩

/-! ### The obligation -/

theorem did_receiveOk (s t : State) (h : s.receiveOk) (hd : s.Did t) : t.receiveOk := by
  have outOf {l : LinkId} {a : Align} (ha : (s.link l).rx.align = a) (hn : a.isSync = false) :
      (s.link l).inSync = false := by simp [Link.inSync, ha, hn]
  cases hd with
  | same => exact h
  | powerOn addr upl => exact receiveOk_powerOn addr upl _
  | notice => exact ok_links h (sameRx_only (noticeTest_only s))
  | taken code c => exact takeByCode_receiveOk s code c h
  | clockReturn l ha =>
    have hseen : (s.updLink l fun x => x.withRx x.rx.clockSeen).receiveOk := ok_upd h l _ fun hx => hx
    have hhunt := ok_alignOut hseen l (.hunt []) rfl (by rw [link_updLink_self]; exact outOf ha rfl)
      (by simp [notoff (h l) (by rw [ha]; simp)])
    rwa [updLink_updLink] at hhunt
  | bits l old new ha =>
    rcases ha with ha | ha
    · exact bits_ok h l old new (outOf ha rfl) (by rw [ha]; simp)
    · exact bits_ok h l old new (outOf ha rfl) (by rw [ha]; simp)
  | header l e b w rf ha => exact judge_ok h l e b w rf ha
  | frame l e b f ws d acts rf nf ha =>
    exact foldl_induct State.receiveOk _ (fun u a hu => receiveAct_receiveOk l f ws d rf nf u a hu) acts _
      (frameEnds_receiveOk h ha)

theorem localFrameStart_receiveOk (s : State) (i : StartInput) (h : s.receiveOk) : (s.localFrameStart i).receiveOk :=
  localFrameStart_keeps (P := State.receiveOk) (fun _ _ _ _ hs => ok_bank hs rfl) (fun x _ a hs => ok_start x a hs) s i h

/-- Settles O6: by the kinds of thing a row can do, each of which keeps the receive side of every link. -/
theorem stepKeepsReceiveSide : Obligations.StepKeepsReceiveSide := fun _ _ hs hstep =>
  step_keeps (P := State.receiveOk) (fun _ _ h => ok_bank h rfl) did_receiveOk localFrameStart_receiveOk hs hstep

end Sys2Proof.Machine
end

section
/-!
PROOFS. Banks, map and bridges: what leaves them alone, and what every step keeps of them (R63, R67, R84, R96, R100).
-/

namespace Sys2Proof.Machine

/-! ### What the map, the banks and the bridges are seen by -/

/-- `t` has the map, the bank control, the bridges and the link records of `s`. -/
structure State.SameControl (s t : State) : Prop where
  map : t.map = s.map
  bank : t.bank = s.bank
  bridges : t.bridges = s.bridges
  config : ∀ l, (t.link l).config = (s.link l).config

theorem State.SameControl.of_only {s t : State} (h : s.EventOnly t) : s.SameControl t :=
  ⟨h.map, h.bank, h.bridges, fun l => by rw [h.link]⟩

theorem State.SameControl.of_shell {s t : State} (h : State.Shell s t) : s.SameControl t :=
  ⟨h.map, h.bank, h.bridges, fun l => by obtain ⟨_, _, _, e⟩ := h.link l; rw [e]⟩

theorem State.SameControl.updLink (s : State) (l : LinkId) {f : Link → Link}
    (h : (f (s.link l)).config = (s.link l).config) : s.SameControl (s.updLink l f) :=
  ⟨rfl, rfl, rfl, fun k => updLink_read (fun y : Link => y.config) s l k f h⟩

theorem State.SameControl.updLink_withTb (s : State) (l : LinkId) {f : Link → Link} (x : Timebase)
    (h : (f (s.link l)).config = (s.link l).config) : s.SameControl ((s.updLink l f).withTb x) :=
  ⟨rfl, rfl, rfl, (State.SameControl.updLink s l h).config⟩

theorem State.SameControl.trans {s t u : State} (h : s.SameControl t) (g : t.SameControl u) : s.SameControl u :=
  ⟨g.map.trans h.map, g.bank.trans h.bank, g.bridges.trans h.bridges, fun l => (g.config l).trans (h.config l)⟩

theorem State.SameControl.report (s : State) (k : EventKind) (a b : Byte) : s.SameControl (s.report k a b) :=
  .of_only (report_only s k a b)

theorem leaveSync_sameControl (s : State) (l : LinkId) (a : Align) (d : DownCause) (rf : Bool) :
    s.SameControl (s.leaveSync l a d rf) :=
  ⟨leaveSync_map .., leaveSync_bank .., leaveSync_bridges .., fun k => leaveSync_config s l k a d rf⟩

theorem enterSync_sameControl (s : State) (l : LinkId) (w : Word) : s.SameControl (s.enterSync l w) :=
  ⟨enterSync_map .., enterSync_bank .., enterSync_bridges .., fun k => enterSync_link_config s l k w⟩

theorem receiveBits_sameControl (s : State) (l : LinkId) (old new : List Bool) :
    s.SameControl (s.receiveBits l old new) := by
  have hseen : s.SameControl (if new = [] then s else s.updLink l fun x => x.withRx x.rx.clockSeen) := by
    split
    · exact ⟨rfl, rfl, rfl, fun _ => rfl⟩
    · exact .updLink s l rfl
  unfold State.receiveBits
  simp only
  split
  · exact hseen.trans (.updLink _ l rfl)
  · exact hseen.trans (.updLink _ l rfl)
  · exact hseen.trans (enterSync_sameControl ..)

theorem countHeader_config (x : Link) (good : Bool) : (x.countHeader good).config = x.config := by
  unfold Link.countHeader; split <;> rfl

theorem judgeHeader_sameControl (s : State) (l : LinkId) (e : Header) (b : Nat) (w : Word) (rf : Bool) :
    s.SameControl (s.judgeHeader l e b w rf) := by
  unfold State.judgeHeader
  simp only
  split
  · exact (State.SameControl.updLink s l (countHeader_config _ _)).trans (.updLink _ l rfl)
  · exact (State.SameControl.updLink s l (countHeader_config _ _)).trans (leaveSync_sameControl ..)

/-- What a completed frame hands over beside its management word touches neither map nor banks nor bridges. -/
theorem receiveAct_sameControl (l : LinkId) (f : FrameInProgress) (rest : Vector Word 63) (startAt : Nat) (rf nf : Bool)
    (s : State) {a : ReceiveAct} (ha : a ≠ .cell) : s.SameControl (State.receiveAct l f rest startAt rf nf s a) := by
  have refl : s.SameControl s := ⟨rfl, rfl, rfl, fun _ => rfl⟩
  cases a with
  | store =>
    simp only [State.receiveAct, State.storeAct]
    (repeat' split) <;> first
      | exact refl
      | exact .updLink s l rfl
      | exact (State.SameControl.updLink s l rfl).trans (.report ..)
  | check =>
    simp only [State.receiveAct, State.checkAct]
    split
    · exact .updLink s l rfl
    · exact refl
  | remoteAlarm =>
    simp only [State.receiveAct, State.remoteAlarmAct]
    (repeat' split) <;> first
      | exact refl
      | exact .updLink s l rfl
      | exact (State.SameControl.updLink s l rfl).trans (.report ..)
  | collector =>
    simp only [State.receiveAct, State.collectorAct]
    (repeat' split) <;> first
      | exact refl
      | exact .updLink s l rfl
      | exact .updLink_withTb s l _ rfl
  | timing =>
    simp only [State.receiveAct, State.timingAct]
    split
    · exact ⟨rfl, rfl, rfl, fun _ => rfl⟩
    · exact refl
  | cell => exact absurd rfl ha

/-- Of the acts of a start the switch, the engine, the frame and the soft reset touch map, banks or bridges. -/
theorem startAct_sameControl (x : StartCtx) (s : State) {a : StartAct} (h1 : a ≠ .schedule) (h2 : a ≠ .engineChunk)
    (h3 : a ≠ .transmit) (h4 : a ≠ .softReset) : s.SameControl (State.startAct x s a) :=
  ⟨startAct_map x s a ⟨h1, h2, h3, h4⟩, startAct_bank x s a ⟨h1, h2, h4⟩, startAct_bridges x s a ⟨h3, h4⟩,
    startAct_link_config x s a⟩

/-! ### Invariants of map, banks and bridges -/

section
variable {P : State → Prop} (hsame : ∀ s t : State, P s → s.SameControl t → P t)
include hsame

theorem did_keeps_of_sameControl (hpower : ∀ addr upl q, P (State.powerOn addr upl q))
    (hbody : ∀ code b c u, P u → P (bodyOf code b c u).1) (s t : State) (hs : P s) (hd : s.Did t) : P t := by
  have htake := takeByCode_keeps P (fun u v hu h => hsame u v hu (.of_shell h)) hbody
  cases hd with
  | same => exact hs
  | powerOn addr upl => exact hpower addr upl _
  | notice => exact hsame s _ hs (.of_only (noticeTest_only s))
  | taken code c => exact htake s code c hs
  | clockReturn l => exact hsame s _ hs (.updLink s l rfl)
  | bits l old new => exact hsame s _ hs (receiveBits_sameControl s l old new)
  | header l e b w rf => exact hsame s _ hs (judgeHeader_sameControl s l e b w rf)
  | frame l e b f ws d acts rf nf =>
    refine foldl_induct P _ (fun u a hu => ?_) acts _ (hsame s _ hs (.updLink s l rfl))
    by_cases ha : a = .cell
    · subst ha
      exact cellAct_keeps P (fun u k w hu _ _ => hsame u _ hu (.updLink u k rfl))
        (fun u k g hu => hsame u _ hu (.updLink u k rfl)) (fun u v hu h => hsame u v hu (.of_shell h)) htake hu _ _ _ _
    · exact hsame u _ hu (receiveAct_sameControl l f ws d rf nf u ha)

theorem start_keeps_of_sameControl (hschedule : ∀ x s, P s → P (State.scheduleAct s x))
    (hengine : ∀ s, P s → P s.engineAct) (htransmit : ∀ s, P s → P s.transmit) (hreset : ∀ s, P s → P s.softReset)
    (s : State) (i : StartInput) (hs : P s) : P (s.localFrameStart i) := by
  refine localFrameStart_keeps (fun s _ _ _ h => hsame s _ h ⟨rfl, rfl, rfl, fun _ => rfl⟩) (fun x s a h => ?_) s i hs
  cases a with
  | schedule => exact hschedule x s h
  | engineChunk => exact hengine s h
  | transmit => exact htransmit s h
  | softReset =>
    simp only [State.startAct]
    split
    · exact hreset s h
    · exact h
  | _ => exact hsame s _ h (startAct_sameControl x s (by simp) (by simp) (by simp) (by simp))

end

/-! ### Engine and scheduled switch (R84, R96) -/

theorem bankOk_cleared : BankCtl.cleared.ok := ⟨nofun, fun h => absurd rfl h⟩

/-- With the engine idle and the standby CONSISTENT any schedule is in order. -/
theorem bankOk_of_consistent {x : BankCtl} (he : ∀ op pos, x.engine ≠ .running op pos) (hc : x.consistent = true) : x.ok :=
  ⟨fun op pos h => absurd h (he op pos), fun _ => hc⟩

theorem bankOk_of_unscheduled {x : BankCtl} (hs : x.scheduler = .idle)
    (he : ∀ op pos, x.engine = .running op pos → pos ≤ 504 ∧ pos % 8 = 0) : x.ok :=
  ⟨fun op pos h => ⟨hs, he op pos h⟩, fun h => absurd hs h⟩

theorem scheduleAct_bankOk (x : StartCtx) (s : State) (h : s.bank.ok) : (s.scheduleAct x).bank.ok := by
  rw [scheduleAct_bank]
  split
  · exact bankOk_of_unscheduled rfl fun op pos he => (h.1 op pos he).2
  · exact h

theorem engineAct_bankOk (s : State) (h : s.bank.ok) : s.engineAct.bank.ok := by
  cases he : s.bank.engine with
  | idle a b c => rwa [engineAct_idle s he]
  | running op pos =>
    obtain ⟨hidle, hle, hmod⟩ := h.1 op pos he
    by_cases hp : pos + 8 < 512
    · rw [engineAct_goesOn he hp]
      refine bankOk_of_unscheduled hidle fun op' pos' he' => ?_
      cases he'
      omega
    · rw [engineAct_ends he (by omega), report_bank]
      exact bankOk_of_consistent nofun rfl

theorem linkSet_sameButHolds (s : State) (l : LinkId) (new : LinkConfig) (rf : Bool) :
    (s.writeLink l new rf).bank = s.bank ∧ (s.writeLink l new rf).bridges = s.bridges := by
  unfold State.writeLink
  simp only [reconfigureRx_bank, reconfigureRx_bridges]
  split <;> exact ⟨rfl, rfl⟩

theorem bodyOf_bankOk (code : BitVec 7) (b : Bool) (c : CommandCell) (s : State) (h : s.bank.ok) :
    (bodyOf code b c s).1.bank.ok := by
  obtain ⟨t, e, hd⟩ : ∃ t, (bodyOf code b c s).1 = t ∧ s.BodyDid b c t := ⟨_, rfl, bodyOf_did code b c s⟩
  rw [e]
  cases hd with
  | softReset => exact bankOk_cleared
  | linkSet l new => rw [(linkSet_sameButHolds ..).1]; exact h
  | refSet => rw [select_bank]; exact h
  | engine op hs =>
    refine bankOk_of_unscheduled hs fun op' pos' he => ?_
    cases he
    omega
  | abort op pos he =>
    rw [report_bank]
    exact bankOk_of_unscheduled (h.1 op pos he).1 nofun
  | switch x he hc =>
    refine bankOk_of_consistent (fun op pos hr => ?_) hc
    have hrun := (isRunning_iff s.bank.engine).2 ⟨op, pos, hr⟩
    rw [he] at hrun
    cases hrun
  | cancel => exact bankOk_of_unscheduled rfl fun op pos he => (h.1 op pos he).2
  | notices on => rw [setNotices_bank]; exact h
  | _ => exact h

/-- Settles O9: by the things that touch the bank control at all, the switch, the engine, the soft reset and the bank
commands. -/
theorem stepKeepsBankControl : Obligations.StepKeepsBankControl := by
  have hsame (s t : State) (hs : s.bank.ok) (h : s.SameControl t) : t.bank.ok := by rw [h.bank]; exact hs
  intro s t hs hstep
  exact step_keeps (P := fun u => u.bank.ok) (fun _ _ h => h)
    (did_keeps_of_sameControl hsame (fun _ _ _ => bankOk_cleared) bodyOf_bankOk)
    (start_keeps_of_sameControl hsame scheduleAct_bankOk engineAct_bankOk (fun _ h => h) fun _ _ => bankOk_cleared)
    hs hstep

/-! ### Legs (R100) -/

theorem bridgesOk_of_legs {s t : State} (hs : s.bridgesOk) (h : ∀ b, (t.bridge b).legs = (s.bridge b).legs) :
    t.bridgesOk := by
  intro b
  have := hs b
  unfold Bridge.ok at *
  rwa [h b]

theorem bridgeOk_of_noLegs {x : Bridge} (h : ∀ k : LegId, x.legs[k.val] = none) : x.ok :=
  fun j _ _ g _ hg _ => by rw [h j] at hg; cases hg

theorem softReset_bridge (s : State) (b : BridgeId) : s.softReset.bridge b = (s.bridge b).partReset := by
  simp [State.softReset, State.bridge]

theorem softReset_bridgesOk (s : State) : s.softReset.bridgesOk := fun b =>
  bridgeOk_of_noLegs fun k => by simp [softReset_bridge, Bridge.partReset]

theorem powerOn_bridge (addr : BitVec 4) (upl : LinkId) (q : List Instr) (b : BridgeId) :
    (State.powerOn addr upl q).bridge b = .powerOn := by simp [State.powerOn, State.bridge]

theorem bridgesOk_powerOn (addr : BitVec 4) (upl : LinkId) (q : List Instr) : (State.powerOn addr upl q).bridgesOk :=
  fun b => bridgeOk_of_noLegs fun k => by simp [powerOn_bridge, Bridge.powerOn]

theorem bridge_setBridge (s : State) (b j : BridgeId) (x : Bridge) :
    (s.setBridge b x).bridge j = if j = b then x else s.bridge j := by
  simp only [State.setBridge, State.bridge, withBridges_bridges, Vector.getElem_set, Fin.ext_iff, eq_comm]

/-- A leg whose input no other leg has leaves the legs of the bridge distinct (R106). -/
theorem setLeg_ok {x : Bridge} (hx : x.ok) (k : LegId) (g : Option Leg)
    (h : ∀ y, g = some y → x.inputTaken k y.link y.slot = false) : Bridge.ok { x with legs := x.legs.set k.val g } := by
  have hget (j : LegId) : (x.legs.set k.val g)[j.val] = if j = k then g else x.legs[j.val] := by
    simp only [Vector.getElem_set, Fin.ext_iff, eq_comm]
  have hfree {j : LegId} (hj : j ≠ k) {y z : Leg} (hy : g = some y) (hz : x.legs[j.val] = some z) :
      ¬(z.link = y.link ∧ z.slot = y.slot) := by
    rintro ⟨hl, ht⟩
    have htaken := (inputTaken_iff x k y.link y.slot).2 ⟨j, hj, z, hz, hl, ht⟩
    rw [h y hy] at htaken
    cases htaken
  intro i j hij y z hy hz
  simp only [hget] at hy hz
  by_cases hi : i = k
  · have hj : j ≠ k := fun e => hij (hi.trans e.symm)
    rw [if_pos hi] at hy; rw [if_neg hj] at hz
    exact fun ⟨e1, e2⟩ => hfree hj hy hz ⟨e1.symm, e2.symm⟩
  · rw [if_neg hi] at hy
    by_cases hj : j = k
    · rw [if_pos hj] at hz
      exact hfree hi hz hy
    · rw [if_neg hj] at hz
      exact hx i j hij y z hy hz

theorem bodyOf_bridgesOk (code : BitVec 7) (b : Bool) (c : CommandCell) (s : State) (h : s.bridgesOk) :
    (bodyOf code b c s).1.bridgesOk := by
  have hset {j : BridgeId} {x : Bridge} (hx : x.ok) : (s.setBridge j x).bridgesOk := by
    intro i
    rw [bridge_setBridge]; split
    · exact hx
    · exact h i
  have hkeep {t : State} (ht : t.bridges = s.bridges) : t.bridgesOk :=
    bridgesOk_of_legs h fun i => by simp [State.bridge, ht]
  obtain ⟨t, e, hd⟩ : ∃ t, (bodyOf code b c s).1 = t ∧ s.BodyDid b c t := ⟨_, rfl, bodyOf_did code b c s⟩
  rw [e]
  cases hd with
  | softReset => exact softReset_bridgesOk s
  | linkSet l new => exact hkeep (linkSet_sameButHolds ..).2
  | refSet => exact hkeep (by simp)
  | abort => exact hkeep (by simp)
  | leg i k g hg => exact hset (setLeg_ok (h i) k g hg)
  | bridge i on => exact hset (h i)
  | notices on => exact hkeep (by simp)
  | _ => exact h

/-- Settles O11: by the things that touch a bridge at all, the frame, which changes no leg, the soft reset and the
bridge commands. -/
theorem stepKeepsLegsDistinct : Obligations.StepKeepsLegsDistinct := by
  have hsame (s t : State) (hs : s.bridgesOk) (h : s.SameControl t) : t.bridgesOk :=
    bridgesOk_of_legs hs fun b => by simp [State.bridge, h.bridges]
  have hbridges {s t : State} (e : t.bridges = s.bridges) (hs : s.bridgesOk) : t.bridgesOk :=
    bridgesOk_of_legs hs fun b => by simp [State.bridge, e]
  intro s t hs hstep
  exact step_keeps (P := State.bridgesOk) (fun _ _ h => h) (did_keeps_of_sameControl hsame bridgesOk_powerOn bodyOf_bridgesOk)
    (start_keeps_of_sameControl hsame
      (fun x s h => hbridges (startAct_bridges x s .schedule (by simp)) h)
      (fun s h => hbridges (startAct_bridges ⟨false, 0, 0, 0, 0, false, false, false⟩ s .engineChunk (by simp)) h)
      (fun s h => bridgesOk_of_legs h fun b => by rw [transmit_bridge])
      fun s _ => softReset_bridgesOk s) hs hstep

/-! ### The entries of slot 0 and the hold values of a silent lane (R63, R67) -/

theorem mapOk_cleared (s : State) (h : s.map = .cleared) : s.mapOk := by
  unfold State.mapOk
  rw [h]
  simp [ConnMap.cleared]

theorem mapOk_iff (s : State) : s.mapOk ↔
    (∀ (k : Bank) (l : LinkId), (s.map.entries k)[(slotIndex l 0).val] = .reset) ∧
    ∀ l t, (s.link l).config.txEnable = false → s.map.holds[(slotIndex l t).val] = none := by
  refine and_congr_left fun _ => ⟨fun h k l => ?_, fun h l => ⟨h .a l, h .b l⟩⟩
  cases k
  · exact (h l).1
  · exact (h l).2

/-- The index of an output slot names its link and slot, and slot 0 of a link stands at a multiple of 64 (R63). -/
theorem slotIndex_inj {l k : LinkId} {t p : SlotId} (h : slotIndex l t = slotIndex k p) : l = k ∧ t = p := by
  have hv : l.val * 64 + t.val = k.val * 64 + p.val := congrArg Fin.val h
  have := t.isLt; have := p.isLt
  exact ⟨Fin.ext (by omega), Fin.ext (by omega)⟩

theorem indexLink_slotIndex (l : LinkId) (t : SlotId) : indexLink (slotIndex l t) = l := by
  have := t.isLt
  exact Fin.ext (by simp [indexLink, slotIndex]; omega)

theorem indexSlot_slotIndex (l : LinkId) (t : SlotId) : indexSlot (slotIndex l t) = t := by
  have := t.isLt
  exact Fin.ext (by simp [indexSlot, slotIndex])

theorem scheduleAct_mapOk (x : StartCtx) (s : State) (h : s.mapOk) : (s.scheduleAct x).mapOk := by
  rw [mapOk_iff] at *
  refine ⟨fun k l => by rw [scheduleAct_entries]; exact h.1 k l, fun l t htx => ?_⟩
  have hc : ((s.scheduleAct x).link l).config = (s.link l).config := startAct_link_config x s .schedule l
  rw [hc] at htx
  unfold State.scheduleAct
  split
  · exact h.2 l t htx
  · simp [State.fireSwitch, State.clearAllHolds]

theorem processChunk_entries_ok {s : State} (h : ∀ (k : Bank) (l : LinkId), (s.map.entries k)[(slotIndex l 0).val] = .reset)
    (op : EngineOp) (pos : Nat) (k : Bank) (l : LinkId) :
    ((s.processChunk op pos).map.entries k)[(slotIndex l 0).val] = .reset := by
  by_cases hk : k = s.bank.active.other
  · rw [hk, processChunk_standby]
    split
    · cases op
      · exact h _ l
      · rfl
    · exact h _ l
  · have hact : k = s.bank.active := by cases k <;> cases hb : s.bank.active <;> simp_all [Bank.other]
    rw [hact, processChunk_active]; exact h _ l

theorem engineAct_mapOk (s : State) (h : s.mapOk) : s.engineAct.mapOk := by
  rw [mapOk_iff] at *
  have hc (l : LinkId) : (s.engineAct.link l).config = (s.link l).config :=
    startAct_link_config ⟨false, 0, 0, 0, 0, false, false, false⟩ s .engineChunk l
  have hmap : s.engineAct.map = s.map ∨ ∃ op pos, s.engineAct.map = (s.processChunk op pos).map := by
    cases he : s.bank.engine with
    | idle a b c => rw [engineAct_idle s he]; exact .inl rfl
    | running op pos =>
      refine .inr ⟨op, pos, ?_⟩
      by_cases hp : pos + 8 < 512
      · rw [engineAct_goesOn he hp]; rfl
      · rw [engineAct_ends he (by omega), report_map]; rfl
  simp only [hc]
  rcases hmap with e | ⟨op, pos, e⟩ <;> rw [e]
  · exact h
  · exact ⟨processChunk_entries_ok h.1 op pos, fun l t htx => by rw [processChunk_holds]; exact h.2 l t htx⟩

theorem transmit_holds (s : State) (i : Fin 512) : s.transmit.map.holds[i.val] = s.evaluateBridges.nextHold i := by
  simp [State.transmit]

/-- A silent lane's hold values stay as they are (R67). -/
theorem nextHold_silent {s : State} {l : LinkId} (h : (s.link l).config.txEnable = false) (t : SlotId) :
    s.nextHold (slotIndex l t) = s.map.holds[(slotIndex l t).val] := by
  simp [State.nextHold, indexLink_slotIndex, h]

theorem transmit_mapOk (s : State) (h : s.mapOk) : s.transmit.mapOk := by
  rw [mapOk_iff] at *
  refine ⟨fun k l => by rw [transmit_entries]; exact h.1 k l, fun l t htx => ?_⟩
  rw [transmit_link_config] at htx
  rw [transmit_holds, nextHold_silent (s := s.evaluateBridges) htx]
  exact h.2 l t htx

/-- MAP-WRITE writes one entry of the standby bank and leaves the active one (R163). -/
theorem writeStandby_standby (s : State) (i : Fin 512) (e : Entry) :
    (s.writeStandby i e).map.entries s.bank.active.other = (s.map.entries s.bank.active.other).set i.val e :=
  entries_setEntries_same ..

theorem writeStandby_active (s : State) (i : Fin 512) (e : Entry) :
    (s.writeStandby i e).map.entries s.bank.active = s.map.entries s.bank.active := by
  have h := entries_setEntries_other s.map s.standby ((s.map.entries s.standby).set i.val e)
  rw [show s.standby.other = s.bank.active from other_other _] at h
  exact h

theorem writeStandby_holds (s : State) (i : Fin 512) (e : Entry) : (s.writeStandby i e).map.holds = s.map.holds :=
  setEntries_holds ..

theorem eq_or_eq_other (k j : Bank) : k = j ∨ k = j.other := by cases k <;> cases j <;> simp [Bank.other]

theorem writeStandby_mapOk {s : State} (h : s.mapOk) {l : LinkId} {t : SlotId} (ht : t ≠ 0) (e : Entry) :
    (s.writeStandby (slotIndex l t) e).mapOk := by
  rw [mapOk_iff] at *
  refine ⟨fun k j => ?_, fun j p htx => ?_⟩
  · rcases eq_or_eq_other k s.bank.active with rfl | rfl
    · simp only [writeStandby_active]; exact h.1 _ j
    · simp only [writeStandby_standby, Vector.getElem_set]
      split
      · next heq => exact absurd (slotIndex_inj (Fin.ext heq)).2 ht
      · exact h.1 _ j
  · simp only [writeStandby_holds]
    exact h.2 j p htx

theorem writeLink_config (s : State) (l k : LinkId) (new : LinkConfig) (rf : Bool) :
    ((s.writeLink l new rf).link k).config = if k = l then new else (s.link k).config := by
  unfold State.writeLink
  simp only [reconfigureRx_config]
  split <;> simp only [clearLinkHolds_link, link_updLink] <;> split <;> simp

theorem writeLink_map (s : State) (l : LinkId) (new : LinkConfig) (rf : Bool) :
    (s.writeLink l new rf).map = (if holdsCleared (s.link l).config new then s.clearLinkHolds l else s).map := by
  unfold State.writeLink
  simp only [reconfigureRx_map]
  split <;> rfl

/-- A link record that turns tx enable off clears the link's hold values (R76). -/
theorem writeLink_mapOk {s : State} (h : s.mapOk) (l : LinkId) (new : LinkConfig) (rf : Bool) :
    (s.writeLink l new rf).mapOk := by
  rw [mapOk_iff] at *
  simp only [writeLink_map, writeLink_config]
  by_cases hc : holdsCleared (s.link l).config new = true
  · simp only [hc, if_true, clearLinkHolds_entries, clearLinkHolds_holds]
    refine ⟨h.1, fun j t htx => ?_⟩
    by_cases hj : j = l
    · rw [if_pos hj]
    · rw [if_neg hj] at htx ⊢; exact h.2 j t htx
  · simp only [hc, Bool.false_eq_true, if_false]
    refine ⟨h.1, fun j t htx => h.2 j t ?_⟩
    by_cases hj : j = l
    · subst hj
      rw [if_pos rfl] at htx
      simp only [holdsCleared, htx, Bool.or_eq_true, decide_eq_true_eq, not_or, not_not] at hc
      exact hc.1
    · rwa [if_neg hj] at htx

theorem bodyOf_mapOk (code : BitVec 7) (b : Bool) (c : CommandCell) (s : State) (h : s.mapOk) :
    (bodyOf code b c s).1.mapOk := by
  have hsame {t : State} (hm : t.map = s.map) (hc : ∀ l, (t.link l).config = (s.link l).config) : t.mapOk := by
    unfold State.mapOk at *
    simpa only [hm, hc] using h
  obtain ⟨t, e, hd⟩ : ∃ t, (bodyOf code b c s).1 = t ∧ s.BodyDid b c t := ⟨_, rfl, bodyOf_did code b c s⟩
  rw [e]
  cases hd with
  | softReset => exact mapOk_cleared _ rfl
  | linkSet l new => exact writeLink_mapOk h l new _
  | clearCounters l m p =>
    refine hsame rfl fun k => updLink_read (fun y : Link => y.config) s l k _ ?_
    cases m <;> cases p <;> rfl
  | refSet => exact hsame (by simp) (by simp)
  | abort => exact hsame (by simp) (by simp)
  | mapWrite l t e ht => exact writeStandby_mapOk h ht _
  | notices on => exact hsame (by simp) (by simp)
  | _ => exact h

/-- Settles O10: by the things that touch the map or a link record at all, the switch, the engine, the frame, the soft
reset, MAP-WRITE and LINK-SET. -/
theorem stepKeepsMap : Obligations.StepKeepsMap := by
  have hsame (s t : State) (hs : s.mapOk) (h : s.SameControl t) : t.mapOk := by
    unfold State.mapOk at *
    simpa only [h.map, h.config] using hs
  intro s t hs hstep
  exact step_keeps (P := State.mapOk) (fun _ _ h => h)
    (did_keeps_of_sameControl hsame (fun _ _ _ => mapOk_cleared _ rfl) bodyOf_mapOk)
    (start_keeps_of_sameControl hsame scheduleAct_mapOk engineAct_mapOk transmit_mapOk fun _ _ => mapOk_cleared _ rfl)
    hs hstep

end Sys2Proof.Machine
end

section
/-!
PROOFS. The event queue: its bound, its sequences and its SLIP records under reports, EVENT-READ and every step (R181 to
R183, R187).
-/

namespace Sys2Proof.Machine

/-! ### The clock watch -/

/-- What the clock watch of a receiver can do: it moves watch and alignment, not between SYNC and elsewhere but to
NOCLOCK from outside SYNC; or, a second silent interval closing in SYNC, the link leaves SYNC (R20). -/
theorem clockWatchAct_cases (s : State) (l : LinkId) (rxc : BitVec 8) (rf : Bool) :
    (∃ w a, s.clockWatchAct l rxc rf = s.updLink l (fun x => x.withRx { x.rx with watch := w, align := a }) ∧
      a.isSync = (s.link l).inSync) ∨
    ((s.link l).inSync = true ∧ s.clockLossDue l rxc = true ∧ s.clockWatchAct l rxc rf =
      (s.updLink l (·.withWatch ⟨true, false, false⟩)).leaveSync l .noclock .clockLoss rf) := by
  by_cases hd : s.clockLossDue l rxc = true
  · have hd' := hd
    simp only [State.clockLossDue, Bool.and_eq_true, decide_eq_true_eq, Bool.not_eq_true'] at hd'
    obtain ⟨⟨⟨⟨hoff, hno⟩, hbegun⟩, hsilent⟩, hactive⟩ := hd'
    have e : s.clockWatchAct l rxc rf = if (s.link l).inSync
        then (s.updLink l (·.withWatch ⟨true, false, false⟩)).leaveSync l .noclock .clockLoss rf
        else (s.updLink l (·.withWatch ⟨true, false, false⟩)).updLink l (·.withAlign .noclock) := by
      unfold State.clockWatchAct
      simp [hbegun, hsilent, hactive]
    rw [e]
    split
    · next hy => exact .inr ⟨hy, hd, rfl⟩
    · next hn => exact .inl ⟨_, _, updLink_updLink .., by simp [Bool.not_eq_true] at hn; rw [hn]; rfl⟩
  · exact .inl (clockWatchAct_noLoss rf (by simpa using hd))

/-! ### What leaves the management channel alone -/

/-- `t` has events, notices, agent and link records of `s`, its cell queues and word counts; an assembler is as it was or
idle. -/
structure State.SameChannel (s t : State) : Prop where
  events : t.events = s.events
  notice : t.notice = s.notice
  agent : t.agent = s.agent
  config : ∀ l, (t.link l).config = (s.link l).config
  queue : ∀ l, (t.link l).queue = (s.link l).queue
  wordCount : ∀ l, (t.link l).tx.wordCount = (s.link l).tx.wordCount
  assembler : ∀ l, (t.link l).assembler = (s.link l).assembler ∨ (t.link l).assembler = []

theorem State.SameChannel.of_links {s t : State} (he : t.events = s.events) (hn : t.notice = s.notice)
    (ha : t.agent = s.agent) (hl : t.links = s.links) : s.SameChannel t := by
  have h (l : LinkId) : t.link l = s.link l := by simp [State.link, hl]
  exact ⟨he, hn, ha, fun l => by rw [h], fun l => by rw [h], fun l => by rw [h], fun l => .inl (by rw [h])⟩

theorem State.SameChannel.refl (s : State) : s.SameChannel s := .of_links rfl rfl rfl rfl

theorem State.SameChannel.updLink (s : State) (l : LinkId) {f : Link → Link}
    (hc : (f (s.link l)).config = (s.link l).config) (hq : (f (s.link l)).queue = (s.link l).queue)
    (hw : (f (s.link l)).tx.wordCount = (s.link l).tx.wordCount)
    (ha : (f (s.link l)).assembler = (s.link l).assembler ∨ (f (s.link l)).assembler = []) :
    s.SameChannel (s.updLink l f) := by
  refine ⟨rfl, rfl, rfl, fun k => updLink_read (fun y : Link => y.config) s l k f hc,
    fun k => updLink_read (fun y : Link => y.queue) s l k f hq,
    fun k => updLink_read (fun y : Link => y.tx.wordCount) s l k f hw, fun k => ?_⟩
  rw [link_updLink]
  split
  · next e => rw [e]; exact ha
  · exact .inl rfl

theorem State.SameChannel.withRx (s : State) (l : LinkId) (f : Link → Receiver) :
    s.SameChannel (s.updLink l fun x => x.withRx (f x)) := .updLink s l rfl rfl rfl (.inl rfl)

/-- An exit from SYNC, a selection and a change of source are changes of this kind and reports. -/
theorem enterSource_eq_report (s : State) (x : TimeSource) : ∃ u : State, s.SameChannel u ∧
    s.enterSource x = u.report .refChange partWide (timeSourceCode x) := by
  refine ⟨_, ⟨?_, ?_, ?_, fun l => ?_, fun l => ?_, fun l => ?_, fun l => .inl ?_⟩, rfl⟩ <;> simp

theorem outOfSync_sameChannel (s : State) (l : LinkId) (a : Align) (d : DownCause) :
    s.SameChannel (s.updLink l (·.outOfSync a d)) := .updLink s l rfl rfl rfl (.inr rfl)

/-! ### What reports keep -/

section
variable {P : State → Prop} (hsame : ∀ s t : State, P s → s.SameChannel t → P t)
  (hreport : ∀ (s : State) k a b, P s → P (s.report k a b))
include hsame hreport

theorem select_keeps_of_report {s : State} (h : P s) : P s.select := by
  rcases select_cases s with ⟨_, e⟩ | ⟨_, e⟩ <;> rw [e]
  · exact h
  · obtain ⟨u, hu, e⟩ := enterSource_eq_report s s.chooseSource
    rw [e]
    exact hreport _ _ _ _ (hsame s u h hu)

theorem disqualified_keeps_of_report {s : State} (h : P s) (l : LinkId) (q : Bool) : P (s.disqualified l q) := by
  rcases disqualified_cases s l q with e | e <;> rw [e]
  · exact h
  · exact select_keeps_of_report hsame hreport h

theorem leaveSync_keeps_of_report {s : State} (h : P s) (l : LinkId) (a : Align) (d : DownCause) (rf : Bool) :
    P (s.leaveSync l a d rf) := by
  have h1 : P (s.updLink l (·.outOfSync a d)) := hsame s _ h (outOfSync_sameChannel s l a d)
  unfold State.leaveSync
  simp only
  split
  · exact hreport _ _ _ _ (disqualified_keeps_of_report hsame hreport h1 _ _)
  · exact disqualified_keeps_of_report hsame hreport (hreport _ _ _ _ h1) _ _

theorem receiveBits_keeps_of_report {s : State} (h : P s) (l : LinkId) (old new : List Bool) :
    P (s.receiveBits l old new) := by
  have h1 : P (if new = [] then s else s.updLink l fun x => x.withRx x.rx.clockSeen) := by
    split
    · exact h
    · exact hsame s _ h (.withRx s l _)
  unfold State.receiveBits
  simp only
  split
  · exact hsame _ _ h1 (.withRx _ l _)
  · exact hsame _ _ h1 (.withRx _ l _)
  · exact hreport _ _ _ _ (hsame _ _ h1 (.updLink _ l rfl rfl rfl (.inl rfl)))

theorem judgeHeader_keeps_of_report {s : State} (h : P s) (l : LinkId) (e : Header) (b : Nat) (w : Word) (rf : Bool) :
    P (s.judgeHeader l e b w rf) := by
  have hcount (x : Link) (g : Bool) : (x.countHeader g).config = x.config ∧ (x.countHeader g).queue = x.queue ∧
      (x.countHeader g).tx = x.tx ∧ (x.countHeader g).assembler = x.assembler := by
    unfold Link.countHeader; split <;> exact ⟨rfl, rfl, rfl, rfl⟩
  have h1 : P (s.updLink l fun x => (x.countHeader (goodHeader e w)).withRx x.rx.clockSeen) := by
    obtain ⟨hc, hq, ht, ha⟩ := hcount (s.link l) (goodHeader e w)
    exact hsame s _ h (.updLink s l hc hq (by rw [withRx_tx, ht]) (.inl ha))
  unfold State.judgeHeader
  simp only
  split
  · exact hsame _ _ h1 (.withRx _ l _)
  · exact leaveSync_keeps_of_report hsame hreport h1 _ _ _ _

theorem reconfigureRx_keeps_of_report {s : State} (h : P s) (l : LinkId) (old new : LinkConfig) (rf : Bool) :
    P (s.reconfigureRx l old new rf) := by
  unfold State.reconfigureRx
  split
  · refine hsame _ _ ?_ (.withRx _ l _)
    split
    · exact leaveSync_keeps_of_report hsame hreport h _ _ _ _
    · exact hsame s _ h (.withRx s l _)
  · split
    · refine hsame _ _ ?_ (.withRx _ l _)
      exact hsame s _ h (.withRx s l _)
    · split
      · split
        · exact leaveSync_keeps_of_report hsame hreport h _ _ _ _
        · split
          · exact h
          · exact hsame s _ h (.withRx s l _)
      · exact h

theorem receiveAct_keeps_of_report {s : State} (h : P s) (l : LinkId) (f : FrameInProgress) (rest : Vector Word 63)
    (startAt : Nat) (rf nf : Bool) {a : ReceiveAct} (ha : a ≠ .cell) :
    P (State.receiveAct l f rest startAt rf nf s a) := by
  have htb (x : Timebase) (u : State) (hu : P u) : P (u.withTb x) := hsame u _ hu (.of_links rfl rfl rfl rfl)
  cases a with
  | cell => exact absurd rfl ha
  | store =>
    simp only [State.receiveAct, State.storeAct]
    (repeat' split) <;> first
      | exact h
      | exact hreport _ _ _ _ (hsame s _ h (.updLink s l rfl rfl rfl (.inl rfl)))
      | exact hsame s _ h (.updLink s l rfl rfl rfl (.inl rfl))
  | check =>
    simp only [State.receiveAct, State.checkAct]
    split
    · exact hsame s _ h (.updLink s l rfl rfl rfl (.inl rfl))
    · exact h
  | remoteAlarm =>
    simp only [State.receiveAct, State.remoteAlarmAct]
    (repeat' split) <;> first
      | exact h
      | exact hreport _ _ _ _ (hsame s _ h (.withRx s l _))
      | exact hsame s _ h (.withRx s l _)
  | collector =>
    simp only [State.receiveAct, State.collectorAct]
    (repeat' split) <;> first
      | exact h
      | exact htb _ _ (hsame s _ h (.withRx s l _))
      | exact hsame s _ h (.withRx s l _)
  | timing =>
    simp only [State.receiveAct, State.timingAct]
    split
    · exact htb _ s h
    · exact h

/-- Acts of a start but the management words, the soft reset and what the notice controller does by itself. -/
theorem startAct_keeps_of_report (x : StartCtx) {s : State} (h : P s) {a : StartAct} (h1 : a ≠ .management)
    (h2 : a ≠ .softReset) (h3 : a ≠ .noticeTimer) (h4 : a ≠ .noticeTest) : P (State.startAct x s a) := by
  have haside {u t : State} (hu : P u) (he : t.events = u.events) (hn : t.notice = u.notice) (ha : t.agent = u.agent)
      (hl : t.links = u.links) : P t := hsame u t hu (.of_links he hn ha hl)
  cases a with
  | number => exact h
  | management => exact absurd rfl h1
  | softReset => exact absurd rfl h2
  | noticeTimer => exact absurd rfl h3
  | noticeTest => exact absurd rfl h4
  | clockWatch l =>
    simp only [State.startAct]
    rcases clockWatchAct_cases s l x.rxc (x.refFirst.getLsbD l.val) with ⟨w, a, e, -⟩ | ⟨-, -, e⟩ <;> rw [e]
    · exact hsame s _ h (.withRx s l _)
    · refine leaveSync_keeps_of_report hsame hreport ?_ _ _ _ _
      exact hsame s _ h (.withRx s l _)
  | checkWindow l =>
    simp only [State.startAct, State.checkWindowAct]
    (repeat' split) <;> first
      | exact h
      | exact hreport _ _ _ _ (hsame s _ h (.withRx s l _))
      | exact hsame s _ h (.withRx s l _)
  | qualification l =>
    simp only [State.startAct, State.qualificationAct]
    split
    · split
      · refine select_keeps_of_report hsame hreport ?_
        exact hsame s _ h (.withRx s l _)
      · exact hsame s _ h (.withRx s l _)
    · exact h
  | timeStep =>
    simp only [State.startAct, State.timeStepAct]
    (repeat' split) <;> first
      | exact h
      | exact hreport _ _ _ _ h
  | schedule =>
    simp only [State.startAct, State.scheduleAct]
    split
    · exact h
    · exact hreport _ _ _ _ (haside h rfl rfl rfl rfl)
  | engineChunk =>
    simp only [State.startAct]
    cases he : s.bank.engine with
    | idle a b c => rwa [engineAct_idle s he]
    | running op pos =>
      by_cases hp : pos + 8 < 512
      · rw [engineAct_goesOn he hp]; exact haside h rfl rfl rfl rfl
      · rw [engineAct_ends he (by omega)]
        exact hreport _ _ _ _ (haside h rfl rfl rfl rfl)
  | present l =>
    simp only [State.startAct, State.presentAct]
    (repeat' split) <;> first
      | exact hreport _ _ _ _ (hsame s _ h (.updLink s l rfl rfl rfl (.inl rfl)))
      | exact hsame s _ h (.updLink s l rfl rfl rfl (.inl rfl))
  | transmit =>
    refine hsame s _ h ⟨rfl, rfl, rfl, fun l => ?_, fun l => ?_, fun l => ?_, fun l => .inl ?_⟩
    · exact transmit_link_config s l
    · exact transmit_link_queue s l
    · rw [show State.startAct x s .transmit = s.transmit from rfl, transmit_link]; rfl
    · exact transmit_link_assembler s l

end

/-! ### A report and the event queue -/

/-- A record without its repeat count, all that a coalescing changes. -/
def EventRecord.uncounted (r : EventRecord) : EventRecord := { r with count := 0#8 }

theorem coalesce_uncounted {a b : Byte} : ∀ {rs ts : List EventRecord}, coalesce a b rs = some ts →
    ts.map EventRecord.uncounted = rs.map EventRecord.uncounted
  | [], _, h => by simp [coalesce] at h
  | r :: rs, ts, h => by
    unfold coalesce at h
    split at h
    · injection h with h; subst h; rfl
    · cases hc : coalesce a b rs with
      | none => rw [hc] at h; cases h
      | some us => rw [hc] at h; injection h with h; subst h; simp [coalesce_uncounted hc]

/-- The order of the queue does not look at repeat counts. -/
theorem eventsOk_iff_uncounted (q : EventQueue) :
    q.ok ↔ EventQueue.ok { q with records := q.records.map EventRecord.uncounted } := by
  have hseq : q.records.map (fun r => r.uncounted.seq) = q.records.map (·.seq) := rfl
  simp only [EventQueue.ok, List.length_map, List.map_map, Function.comp_def, hseq, ← List.map_tail, List.mem_map,
    List.pairwise_map]
  simp [EventRecord.uncounted, EventRecord.twin]

theorem coalesce_eq_none_iff {a b : Byte} : ∀ {rs : List EventRecord},
    coalesce a b rs = none ↔ ∀ r ∈ rs, r.absorbs a b = false
  | [] => by simp [coalesce]
  | r :: rs => by
    unfold coalesce
    split
    · next h => simp [h]
    · next h => simp [coalesce_eq_none_iff (rs := rs), h]

/-- A record appended with the next sequence keeps the queue in order where there is a place and no twin (R181, R183). -/
theorem eventsOk_append {q : EventQueue} (h : q.ok) {r : EventRecord} (lost : Byte) (hroom : q.records.length < 32)
    (hseq : r.seq = q.nextSeq) (hnew : r.delivered = false) (htwin : ∀ x ∈ q.records, ¬x.twin r) :
    EventQueue.ok { q with records := q.records ++ [r], nextSeq := q.nextSeq + 1#8, pendingLost := lost } := by
  obtain ⟨-, hseqs, htail, hpair⟩ := h
  refine ⟨by simpa using hroom, ?_, fun x hx => ?_, ?_⟩
  · simp only [List.map_append, hseqs, List.length_append, List.length_singleton, List.range_succ, List.map_cons,
      List.map_nil, hseq]
    refine congrArg₂ _ (List.map_congr_left fun i hi => ?_) ?_
    · have hi : i < q.records.length := List.mem_range.1 hi
      have hn : q.records.length + 1 - i = q.records.length - i + 1 := by omega
      rw [hn, BitVec.ofNat_add]
      bv_omega
    · simp
  · cases hr : q.records with
    | nil => simp [hr] at hx
    | cons y ys =>
      simp only [hr, List.cons_append, List.tail_cons, List.mem_append, List.mem_singleton] at hx htail
      rcases hx with hx | rfl
      · exact htail x hx
      · exact hnew
  · rw [List.pairwise_append]
    refine ⟨hpair, List.pairwise_singleton _ _, fun x hx y hy => ?_⟩
    rw [List.mem_singleton] at hy
    subst hy
    exact htwin x hx

theorem report_eventsOk (s : State) (k : EventKind) (a b : Byte) (h : s.events.ok) : (s.report k a b).events.ok := by
  rw [report_events]
  split
  · exact h
  · split
    · next rs hc =>
      by_cases hk : k = .slip
      · rw [if_pos hk] at hc
        rw [eventsOk_iff_uncounted] at h ⊢
        simpa only [coalesce_uncounted hc] using h
      · rw [if_neg hk] at hc; cases hc
    · next hc =>
      split
      · next hroom =>
        refine eventsOk_append h _ hroom rfl rfl fun x hx ht => ?_
        obtain ⟨hxk, hk, hxd, -, hxa, hxb⟩ := ht
        have hk : k = .slip := hk
        rw [if_pos hk] at hc
        have := coalesce_eq_none_iff.1 hc x hx
        rw [(absorbs_iff x a b).2 ⟨hxk, hxd, hxa, hxb⟩] at this
        cases this
      · exact h

/-! ### EVENT-READ (R187) -/

theorem acknowledge_cases (ack : Bool) (seq : Byte) (rs : List EventRecord) :
    acknowledge ack seq rs = rs ∨ acknowledge ack seq rs = rs.tail := by
  cases rs with
  | nil => exact .inl rfl
  | cons r rs =>
    by_cases h : (ack && r.delivered && decide (r.seq = seq)) = true
    · exact .inr (if_pos h)
    · exact .inl (if_neg h)

/-- The head of the queue can leave it. -/
theorem eventsOk_tail {q : EventQueue} (h : q.ok) : EventQueue.ok { q with records := q.records.tail } := by
  obtain ⟨hlen, hseqs, htail, hpair⟩ := h
  cases hr : q.records with
  | nil => exact ⟨by simp, by simp, by simp, by simp⟩
  | cons r rs =>
    simp only [hr, List.length_cons, List.tail_cons, List.map_cons, List.range_succ_eq_map, List.cons.injEq,
      List.pairwise_cons, List.map_map, Function.comp_def] at hlen hseqs htail hpair
    refine ⟨by simp; omega, ?_, fun x hx => htail x (List.mem_of_mem_tail hx), hpair.2⟩
    simp only [List.tail_cons, hseqs.2]
    exact List.map_congr_left fun i _ => by rw [Nat.succ_eq_add_one, Nat.add_sub_add_right]

/-- The head of the queue can be marked delivered. -/
theorem eventsOk_deliverHead {q : EventQueue} (h : q.ok) : EventQueue.ok { q with records := deliverHead q.records } := by
  obtain ⟨hlen, hseqs, htail, hpair⟩ := h
  cases hr : q.records with
  | nil => exact ⟨by simp [deliverHead], by simp [deliverHead], by simp [deliverHead], by simp [deliverHead]⟩
  | cons r rs =>
    simp only [hr, List.pairwise_cons] at hlen hseqs htail hpair
    refine ⟨hlen, hseqs, htail, ?_⟩
    simp only [deliverHead, List.pairwise_cons]
    exact ⟨fun x _ ht => by simp [EventRecord.twin] at ht, hpair.2⟩

/-! ### The obligation -/

theorem eventsOk_same (s t : State) (h : s.events.ok) (hst : s.SameChannel t) : t.events.ok := by rwa [hst.events]

theorem eventsOk_cleared : EventQueue.cleared.ok := by simp [EventQueue.ok, EventQueue.cleared]

theorem bodyOf_eventsOk (code : BitVec 7) (b : Bool) (c : CommandCell) (s : State) (h : s.events.ok) :
    (bodyOf code b c s).1.events.ok := by
  obtain ⟨t, e, hd⟩ : ∃ t, (bodyOf code b c s).1 = t ∧ s.BodyDid b c t := ⟨_, rfl, bodyOf_did code b c s⟩
  rw [e]
  cases hd with
  | softReset => exact eventsOk_cleared
  | linkSet l new =>
    unfold State.writeLink
    simp only
    split
    · refine reconfigureRx_keeps_of_report eventsOk_same report_eventsOk ?_ _ _ _ _
      exact h
    · refine reconfigureRx_keeps_of_report eventsOk_same report_eventsOk ?_ _ _ _ _
      exact h
  | refSet => exact select_keeps_of_report eventsOk_same report_eventsOk h
  | abort => exact report_eventsOk _ _ _ _ h
  | eventRead ack seq left hl =>
    refine eventsOk_deliverHead (q := { s.events with records := left }) ?_
    rcases acknowledge_cases ack seq s.events.records with e | e <;> rw [hl, e]
    · exact h
    · exact eventsOk_tail h
  | notices on => rw [setNotices_events]; exact h
  | _ => exact h

theorem did_eventsOk (s t : State) (h : s.events.ok) (hd : s.Did t) : t.events.ok := by
  have hshell (u v : State) (hu : u.events.ok) (hv : State.Shell u v) : v.events.ok := by rwa [hv.events]
  have htake := takeByCode_keeps (fun u => u.events.ok) hshell bodyOf_eventsOk
  cases hd with
  | same => exact h
  | powerOn => exact eventsOk_cleared
  | notice => rw [noticeTest_events]; exact h
  | taken code c => exact htake s code c h
  | clockReturn l => exact h
  | bits l old new => exact receiveBits_keeps_of_report eventsOk_same report_eventsOk h l old new
  | header l e b w rf => exact judgeHeader_keeps_of_report eventsOk_same report_eventsOk h l e b w rf
  | frame l e b f ws d acts rf nf =>
    refine foldl_induct (fun u : State => u.events.ok) _ (fun u a hu => ?_) acts _ h
    by_cases ha : a = .cell
    · subst ha
      exact cellAct_keeps (fun u : State => u.events.ok) (fun _ _ _ hu _ _ => hu) (fun _ _ _ hu => hu) hshell htake
        hu _ _ _ _
    · exact receiveAct_keeps_of_report eventsOk_same report_eventsOk hu l f ws d rf nf ha

theorem startAct_eventsOk (x : StartCtx) (s : State) (a : StartAct) (h : s.events.ok) :
    (State.startAct x s a).events.ok := by
  cases a with
  | management => exact h
  | softReset =>
    simp only [State.startAct]
    split
    · exact eventsOk_cleared
    · exact h
  | noticeTimer =>
    simp only [State.startAct, State.noticeTimerAct]
    split
    · split
      · rw [noticeExpiry_events]; exact h
      · exact h
    · exact h
  | noticeTest =>
    simp only [State.startAct]
    split
    · rw [noticeTest_events]; exact h
    · exact h
  | _ =>
    exact startAct_keeps_of_report eventsOk_same report_eventsOk x h (by simp) (by simp) (by simp) (by simp)

/-- Settles O12: by the things that touch the event queue at all, reports, EVENT-READ, EVENT-MASK and the resets. -/
theorem stepKeepsEventQueue : Obligations.StepKeepsEventQueue := fun _ _ hs hstep =>
  step_keeps (P := fun u => u.events.ok) (fun _ _ h => h) did_eventsOk
    (localFrameStart_keeps (fun _ _ _ _ h => h) startAct_eventsOk) hs hstep

end Sys2Proof.Machine
end

section
/-!
PROOFS. The timebase and its reference: which things leave source and qualification alone, and what selections and the
leaving of SYNC make of them (R41, R42, R46, R52 to R54).
-/

namespace Sys2Proof.Machine

/-! ### The reference and the qualified entries -/

/-- `t` has source, list, revertive flag and qualification counts of `s`. -/
structure State.SameReference (s t : State) : Prop where
  refList : t.tb.refList = s.tb.refList
  revertive : t.tb.revertive = s.tb.revertive
  source : t.tb.source = s.tb.source
  qualCount : ∀ l, (t.link l).rx.qualCount = (s.link l).rx.qualCount

theorem State.SameReference.trans {s t u : State} (h : s.SameReference t) (g : t.SameReference u) :
    s.SameReference u :=
  ⟨g.refList.trans h.refList, g.revertive.trans h.revertive, g.source.trans h.source,
    fun l => (g.qualCount l).trans (h.qualCount l)⟩

theorem State.SameReference.of_tb {s t : State} (htb : t.tb = s.tb)
    (hq : ∀ l, (t.link l).rx.qualCount = (s.link l).rx.qualCount) : s.SameReference t :=
  ⟨by rw [htb], by rw [htb], by rw [htb], hq⟩

theorem State.SameReference.of_only {s t : State} (h : s.EventOnly t) : s.SameReference t :=
  .of_tb h.tb fun l => by rw [h.link]

theorem State.SameReference.of_shell {s t : State} (h : State.Shell s t) : s.SameReference t :=
  .of_tb h.tb fun l => by obtain ⟨_, _, _, e⟩ := h.link l; rw [e]

theorem State.SameReference.updLink (s : State) (l : LinkId) {f : Link → Link}
    (h : (f (s.link l)).rx.qualCount = (s.link l).rx.qualCount) : s.SameReference (s.updLink l f) :=
  .of_tb rfl fun k => updLink_read (fun y : Link => y.rx.qualCount) s l k f h

theorem State.SameReference.report (s : State) (k : EventKind) (a b : Byte) : s.SameReference (s.report k a b) :=
  .of_only (report_only s k a b)

theorem firstQualified_congr {s t : State} (hl : t.tb.refList = s.tb.refList)
    (hq : ∀ e ∈ s.tb.refList, t.qualified e = s.qualified e) : t.firstQualified = s.firstQualified := by
  have h : ∀ es : List RefEntry, (∀ e ∈ es, t.qualified e = s.qualified e) →
      es.find? t.qualified = es.find? s.qualified := by
    intro es
    induction es with
    | nil => intro _; rfl
    | cons e es ih =>
      intro he
      simp only [List.find?_cons, he e List.mem_cons_self, ih fun x hx => he x (List.mem_cons_of_mem _ hx)]
  unfold State.firstQualified
  rw [hl, h _ hq]

/-- The state of the timebase is in order where source, list and revertive flag stand and the entries of the list are
qualified as before. -/
theorem timebaseOk_congr {s t : State} (h : s.timebaseOk) (hl : t.tb.refList = s.tb.refList)
    (hr : t.tb.revertive = s.tb.revertive) (hs : t.tb.source = s.tb.source)
    (hq : ∀ e ∈ s.tb.refList, t.qualified e = s.qualified e) : t.timebaseOk := by
  obtain ⟨hmin, hmax, hnodup, hsource, hrev⟩ := h
  unfold State.timebaseOk
  rw [hl, hr, hs, firstQualified_congr hl hq]
  refine ⟨hmin, hmax, hnodup, ?_, hrev⟩
  cases he : s.tb.source.entry with
  | none =>
    simp only [he] at hsource ⊢
    exact fun e hm => (hq e hm).trans (hsource e hm)
  | some e =>
    simp only [he] at hsource ⊢
    exact ⟨hsource.1, (hq e hsource.1).trans hsource.2⟩

theorem timebaseOk_same (s t : State) (h : s.timebaseOk) (hst : s.SameReference t) : t.timebaseOk :=
  timebaseOk_congr h hst.refList hst.revertive hst.source fun e _ => qualified_congr hst.qualCount e

/-! ### Selections (R54) -/

theorem entry_source (e : RefEntry) : e.source.entry = some e := by cases e <;> rfl

/-- The first qualified entry is a qualified entry of the list; HOLDOVER comes where the list has none (R54). -/
theorem firstQualified_cases (s : State) :
    (∃ e ∈ s.tb.refList, s.qualified e = true ∧ s.firstQualified = e.source) ∨
    ((∀ e ∈ s.tb.refList, s.qualified e = false) ∧ s.firstQualified = .holdover) := by
  unfold State.firstQualified
  cases h : s.tb.refList.find? s.qualified with
  | none => exact .inr ⟨fun e he => by simpa using List.find?_eq_none.1 h e he, rfl⟩
  | some e => exact .inl ⟨e, List.mem_of_find?_eq_some h, List.find?_some h, rfl⟩

/-- A selection answers a qualified entry of the list, HOLDOVER where it has none, and with revertive on the first. -/
theorem chooseSource_cases (s : State) :
    s.chooseSource = s.firstQualified ∨
    (s.tb.revertive = false ∧ s.chooseSource = s.tb.source ∧
      ∃ e ∈ s.tb.refList, s.tb.source.entry = some e ∧ s.qualified e = true) := by
  unfold State.chooseSource
  cases he : s.tb.source.entry with
  | none => exact .inl rfl
  | some e =>
    simp only
    split
    · exact .inl rfl
    · next h =>
      simp only [Bool.or_eq_true, Bool.not_eq_true', not_or, Bool.not_eq_true, Bool.not_eq_false,
        List.contains_iff_mem] at h
      exact .inr ⟨h.1.1, rfl, e, h.1.2, rfl, h.2⟩

/-- A selection over a proper list puts the timebase in order, whatever the source was before (R54). -/
theorem select_timebaseOk {s : State} (hmin : 1 ≤ s.tb.refList.length) (hmax : s.tb.refList.length ≤ 4)
    (hnodup : s.tb.refList.Nodup) : s.select.timebaseOk := by
  have hq (e : RefEntry) : s.select.qualified e = s.qualified e := qualified_congr (fun l => by simp) e
  have hfirst : s.select.firstQualified = s.firstQualified := firstQualified_congr (by simp) fun e _ => hq e
  unfold State.timebaseOk
  simp only [select_tb_refList, select_source, select_tb_revertive, hfirst, hq]
  rcases chooseSource_cases s with hc | ⟨hrev, hc, e, hmem, hentry, hqe⟩ <;> rw [hc]
  · refine ⟨hmin, hmax, hnodup, ?_, fun _ => rfl⟩
    rcases firstQualified_cases s with ⟨e, hmem, hqe, h⟩ | ⟨hnone, h⟩ <;> rw [h]
    · rw [entry_source]; exact ⟨hmem, hqe⟩
    · exact hnone
  · rw [hentry]
    exact ⟨hmin, hmax, hnodup, ⟨hmem, hqe⟩, fun hr => by rw [hrev] at hr; cases hr⟩

/-! ### The leaving of SYNC (R42) -/

/-- Where a link that is not the source stops being qualified, the timebase stays in order. -/
theorem timebaseOk_unqualified {s t : State} (h : s.timebaseOk) {l : LinkId} (hne : s.tb.source ≠ .locked l)
    (htb : t.tb = s.tb) (hq : ∀ e, t.qualified e = (s.qualified e && decide (e ≠ .link l))) : t.timebaseOk := by
  obtain ⟨hmin, hmax, hnodup, hsource, hrev⟩ := h
  unfold State.timebaseOk
  rw [htb]
  refine ⟨hmin, hmax, hnodup, ?_, fun hr => ?_⟩
  · cases he : s.tb.source.entry with
    | none =>
      simp only [he] at hsource ⊢
      exact fun e hm => by rw [hq, hsource e hm]; rfl
    | some e =>
      simp only [he] at hsource ⊢
      have hel : e ≠ .link l := by
        rintro rfl
        cases hs : s.tb.source <;> simp_all [TimeSource.entry]
      exact ⟨hsource.1, by rw [hq, hsource.2]; simp [hel]⟩
  · have hfirst := hrev hr
    unfold State.firstQualified at hfirst ⊢
    rw [htb]
    cases hfind : s.tb.refList.find? s.qualified with
    | none =>
      have hnone : s.tb.refList.find? t.qualified = none := by
        rw [List.find?_eq_none] at hfind ⊢
        intro e he
        simpa [hq] using fun h => absurd h (hfind e he)
      rw [hnone]; rwa [hfind] at hfirst
    | some e =>
      rw [hfind] at hfirst
      obtain ⟨hqe, pre, post, hsplit, hpre⟩ := List.find?_eq_some_iff_append.1 hfind
      have hel : e ≠ .link l := fun he => hne (by rw [hfirst, he]; rfl)
      have hsome : s.tb.refList.find? t.qualified = some e := by
        rw [List.find?_eq_some_iff_append]
        refine ⟨by rw [hq, hqe]; simp [hel], pre, post, hsplit, fun x hx => ?_⟩
        have := hpre x hx
        rw [hq]
        simp_all
      rw [hsome]; exact hfirst

theorem qualified_outOfSync (s : State) (l : LinkId) (a : Align) (d : DownCause) (e : RefEntry) :
    (s.updLink l (·.outOfSync a d)).qualified e = (s.qualified e && decide (e ≠ .link l)) := by
  cases e with
  | localClock => rfl
  | link k =>
    simp only [State.qualified, link_updLink, ne_eq, RefEntry.link.injEq]
    by_cases hk : k = l
    · simp [hk, Link.outOfSync, Config.qualifiedCount]
    · simp [hk]

theorem leaveSync_timebaseOk {s : State} (h : s.timebaseOk) (l : LinkId) (a : Align) (d : DownCause) (rf : Bool) :
    (s.leaveSync l a d rf).timebaseOk := by
  by_cases hc : s.tb.source = .locked l ∧ (s.link l).rx.qualCount = 16
  · obtain ⟨hmin, hmax, hnodup, -, -⟩ := h
    rw [leaveSync_eq_select hc.1 hc.2]
    split
    · refine timebaseOk_same _ _ ?_ (.report ..)
      exact select_timebaseOk hmin hmax hnodup
    · refine select_timebaseOk ?_ ?_ ?_ <;> rw [report_tb]
      · exact hmin
      · exact hmax
      · exact hnodup
  · have hne : s.tb.source ≠ .locked l := by
      intro hs
      have hsource := h.2.2.2.1
      simp only [hs, TimeSource.entry, State.qualified, decide_eq_true_eq] at hsource
      exact hc ⟨hs, hsource.2⟩
    rw [leaveSync_eq_report hc]
    refine timebaseOk_same _ _ ?_ (.report ..)
    exact timebaseOk_unqualified h hne rfl (qualified_outOfSync s l a d)

/-! ### Lanes -/

theorem receiveBits_sameReference (s : State) (l : LinkId) (old new : List Bool) :
    s.SameReference (s.receiveBits l old new) := by
  have hseen : s.SameReference (if new = [] then s else s.updLink l fun x => x.withRx x.rx.clockSeen) := by
    split
    · exact .of_tb rfl fun _ => rfl
    · exact .updLink s l rfl
  unfold State.receiveBits
  simp only
  split
  · exact hseen.trans (.updLink _ l rfl)
  · exact hseen.trans (.updLink _ l rfl)
  · unfold State.enterSync
    refine (hseen.trans ?_).trans (.report ..)
    exact .updLink _ l rfl

theorem judgeHeader_timebaseOk {s : State} (h : s.timebaseOk) (l : LinkId) (e : Header) (b : Nat) (w : Word)
    (rf : Bool) : (s.judgeHeader l e b w rf).timebaseOk := by
  have h1 : (s.updLink l fun x => (x.countHeader (goodHeader e w)).withRx x.rx.clockSeen).timebaseOk :=
    timebaseOk_same s _ h (.updLink s l rfl)
  unfold State.judgeHeader
  simp only
  split
  · refine timebaseOk_same _ _ h1 ?_
    exact .updLink _ l rfl
  · exact leaveSync_timebaseOk h1 _ _ _ _

/-- What a completed frame hands over beside its management word leaves source and qualification alone. -/
theorem receiveAct_sameReference (l : LinkId) (f : FrameInProgress) (rest : Vector Word 63) (startAt : Nat)
    (rf nf : Bool) (s : State) {a : ReceiveAct} (ha : a ≠ .cell) :
    s.SameReference (State.receiveAct l f rest startAt rf nf s a) := by
  have refl : s.SameReference s := .of_tb rfl fun _ => rfl
  cases a with
  | cell => exact absurd rfl ha
  | check =>
    simp only [State.receiveAct, State.checkAct]
    split
    · refine .updLink s l ?_
      unfold Link.countCheckError
      dsimp only
      split <;> rfl
    · exact refl
  | collector =>
    simp only [State.receiveAct, State.collectorAct]
    split
    · split
      · exact .updLink s l rfl
      · next n _ =>
        have hoffer : (s.tb.offer l n).refList = s.tb.refList ∧ (s.tb.offer l n).revertive = s.tb.revertive ∧
            (s.tb.offer l n).source = s.tb.source := by unfold Timebase.offer; split <;> exact ⟨rfl, rfl, rfl⟩
        refine ⟨hoffer.1, hoffer.2.1, hoffer.2.2, fun k => ?_⟩
        rw [withTb_link]
        exact updLink_read (fun y : Link => y.rx.qualCount) s l k _ rfl
    · exact refl
  | timing =>
    simp only [State.receiveAct, timingAct_eq]
    split
    · exact ⟨rfl, rfl, rfl, fun _ => rfl⟩
    · exact refl
  | _ =>
    simp only [State.receiveAct, State.storeAct, State.remoteAlarmAct]
    (repeat' split) <;> first
      | exact refl
      | exact .updLink s l rfl
      | exact (State.SameReference.updLink s l rfl).trans (.report ..)

/-! ### Starts -/

/-- A superframe start moves qualification counts; where a listed link becomes qualified, a selection follows (R41, R42,
R53). -/
theorem qualificationAct_timebaseOk {s : State} (h : s.timebaseOk) (l : LinkId) (superframe : Bool) :
    (s.qualificationAct l superframe).timebaseOk := by
  unfold State.qualificationAct
  split
  · simp only
    split
    · exact select_timebaseOk h.1 h.2.1 h.2.2.1
    · next hc =>
      simp only [Bool.and_eq_true, List.contains_iff_mem, not_and] at hc
      refine timebaseOk_congr h rfl rfl rfl fun e he => ?_
      cases e with
      | localClock => rfl
      | link k =>
        simp only [State.qualified, link_updLink]
        by_cases hk : k = l
        · subst hk
          have hn : ¬(s.link k).qualifies = true := fun hq => hc hq he
          simp only [Link.qualifies, Bool.and_eq_true, decide_eq_true_eq, not_and, not_not] at hn
          have hback : (s.link k).rx.qualCount = Config.qualifiedCount →
              (s.link k).nextQual = Config.qualifiedCount := by
            intro h16; unfold Link.nextQual; split <;> simp [h16]
          simp only [if_true, withRx_rx, decide_eq_decide]
          exact ⟨hn, hback⟩
        · simp [hk]
  · exact h

theorem startAct_timebaseOk (x : StartCtx) (s : State) (a : StartAct) (h : s.timebaseOk) :
    (State.startAct x s a).timebaseOk := by
  cases a with
  | clockWatch l =>
    simp only [State.startAct]
    rcases clockWatchAct_cases s l x.rxc (x.refFirst.getLsbD l.val) with ⟨w, a, e, -⟩ | ⟨-, -, e⟩ <;> rw [e]
    · exact timebaseOk_same s _ h (.updLink s l rfl)
    · refine leaveSync_timebaseOk ?_ _ _ _ _
      exact timebaseOk_same s _ h (.updLink s l rfl)
  | qualification l => exact qualificationAct_timebaseOk h l _
  | checkWindow l =>
    have hl : (State.startAct x s (.checkWindow l)).tb = s.tb :=
      startAct_keeps_tb (fun k e => by cases e) (fun k e => by cases e)
    refine timebaseOk_same s _ h (.of_tb hl fun k => ?_)
    simp only [State.startAct, State.checkWindowAct]
    split
    · split
      · exact updLink_read (fun y : Link => y.rx.qualCount) s l k _ rfl
      · rw [report_link_rx]; exact updLink_read (fun y : Link => y.rx.qualCount) s l k _ rfl
    · rfl
  | _ =>
    refine timebaseOk_same s _ h (.of_tb ?_ fun k => ?_)
    · exact startAct_keeps_tb (fun k e => by cases e) (fun k e => by cases e)
    · rw [startAct_rx _ _ _ _ (by simp) (by simp) (by simp)]

/-! ### The obligation -/

theorem bodyOf_timebaseOk (code : BitVec 7) (b : Bool) (c : CommandCell) (s : State) (h : s.timebaseOk) :
    (bodyOf code b c s).1.timebaseOk := by
  obtain ⟨t, e, hd⟩ : ∃ t, (bodyOf code b c s).1 = t ∧ s.BodyDid b c t := ⟨_, rfl, bodyOf_did code b c s⟩
  rw [e]
  cases hd with
  | softReset =>
    exact timebaseOk_same s _ h (.of_tb rfl fun l => by rw [softReset_link]; rfl)
  | linkSet l new =>
    have hwritten (x : Link) : (x.written new).rx.qualCount = x.rx.qualCount := by rw [written_rx]; split <;> rfl
    have h1 (u : State) (hu : u.timebaseOk) : (u.reconfigureRx l (s.link l).config new c.refFirst).timebaseOk := by
      unfold State.reconfigureRx
      split
      · refine timebaseOk_same _ _ ?_ (.updLink _ l rfl)
        split
        · exact leaveSync_timebaseOk hu _ _ _ _
        · exact timebaseOk_same u _ hu (.updLink u l rfl)
      · split
        · refine timebaseOk_same _ _ ?_ (.updLink _ l rfl)
          exact timebaseOk_same u _ hu (.updLink u l rfl)
        · split
          · split
            · exact leaveSync_timebaseOk hu _ _ _ _
            · split
              · exact hu
              · exact timebaseOk_same u _ hu (.updLink u l rfl)
          · exact hu
    have h2 : (s.updLink l (·.written new)).timebaseOk := timebaseOk_same s _ h (.updLink s l (hwritten _))
    unfold State.writeLink
    simp only
    split
    · refine h1 _ (timebaseOk_same _ _ h2 ?_)
      exact .of_tb rfl fun k => by rw [clearLinkHolds_link]
    · exact h1 _ h2
  | clearCounters l m p =>
    refine timebaseOk_same s _ h (.updLink s l ?_)
    cases m <;> cases p <;> rfl
  | refSet es rev fol hlen hd => exact select_timebaseOk hlen.1 hlen.2 hd
  | abort =>
    refine timebaseOk_same s _ h ?_
    exact .of_tb (report_tb ..) fun l => by rw [report_link_rx]; rfl
  | notices on => exact timebaseOk_same s _ h (.of_only (setNotices_only s on))
  | _ => exact timebaseOk_same s _ h ⟨rfl, rfl, rfl, fun _ => rfl⟩

theorem timebaseOk_powerOn (addr : BitVec 4) (upl : LinkId) (q : List Instr) : (State.powerOn addr upl q).timebaseOk :=
  ⟨Nat.le_refl 1, Nat.le_of_ble_eq_true rfl, List.nodup_singleton _, ⟨List.mem_singleton.2 rfl, rfl⟩, nofun⟩

theorem did_timebaseOk (s t : State) (h : s.timebaseOk) (hd : s.Did t) : t.timebaseOk := by
  have hshell (u v : State) (hu : u.timebaseOk) (hv : State.Shell u v) : v.timebaseOk :=
    timebaseOk_same u v hu (.of_shell hv)
  have htake := takeByCode_keeps State.timebaseOk hshell bodyOf_timebaseOk
  cases hd with
  | same => exact h
  | powerOn addr upl => exact timebaseOk_powerOn addr upl _
  | notice => exact timebaseOk_same s _ h (.of_only (noticeTest_only s))
  | taken code c => exact htake s code c h
  | clockReturn l => exact timebaseOk_same s _ h (.updLink s l rfl)
  | bits l old new => exact timebaseOk_same s _ h (receiveBits_sameReference s l old new)
  | header l e b w rf => exact judgeHeader_timebaseOk h l e b w rf
  | frame l e b f ws d acts rf nf =>
    refine foldl_induct State.timebaseOk _ (fun u a hu => ?_) acts _ (timebaseOk_same s _ h (.updLink s l rfl))
    by_cases ha : a = .cell
    · subst ha
      exact cellAct_keeps State.timebaseOk (fun u k w hu _ _ => timebaseOk_same u _ hu (.updLink u k rfl))
        (fun u k g hu => timebaseOk_same u _ hu (.updLink u k rfl)) hshell htake hu _ _ _ _
    · exact timebaseOk_same u _ hu (receiveAct_sameReference l f ws d rf nf u ha)

/-- Settles O8: by the things that touch source or qualification at all, selections, the leaving of SYNC and the
qualification at a superframe start. -/
theorem stepKeepsReference : Obligations.StepKeepsReference := fun _ _ hs hstep =>
  step_keeps (P := State.timebaseOk) (fun _ _ h => h) did_timebaseOk
    (localFrameStart_keeps (fun s _ _ _ h => timebaseOk_same s _ h ⟨rfl, rfl, rfl, fun _ => rfl⟩)
      fun x s a h => startAct_timebaseOk x s a h) hs hstep

end Sys2Proof.Machine
end

section
/-!
PROOFS. The management channel during and between steps, with as much of the notice controller's order as is asked for:
under reports, the notice's test, relaying, the taking of commands and the acts of a start (R123, R130 to R141, R188 to
R191).
-/

namespace Sys2Proof.Machine

/-! ### The channel with a place held -/

/-- The management channel, also while a place is held: every link's side of it, the active uplink an UPLINK, and a held
place one in its queue (R131, R137). -/
def State.channelOk (s : State) : Prop :=
  (∀ l, (s.link l).manageOk) ∧ (s.link s.agent.activeUplink).config.shape.role = .uplink ∧
  ∀ l, s.agent.heldPlace = some l → l = s.agent.activeUplink ∧ (s.link l).queue.length ≤ 3

theorem manageOk_iff (s : State) : s.manageOk ↔ s.channelOk ∧ s.agent.heldPlace = none := by
  refine ⟨fun ⟨hl, hh, hu⟩ => ⟨⟨hl, hu, fun l h => ?_⟩, hh⟩, fun ⟨⟨hl, hu, _⟩, hh⟩ => ⟨hl, hh, hu⟩⟩
  rw [hh] at h; cases h

/-- The notice controller agrees with the event queue, its retry count and timer in their bounds: `State.noticeOk` but
for the full queue of DUE (R188, R191). -/
def State.noticeRuns (s : State) : Prop :=
  (s.notice.state = .quiet → s.events.records = []) ∧
  (s.notice.state = .due ∨ s.notice.state = .wait ∨ s.notice.state = .silent → s.events.records ≠ []) ∧
  s.notice.retry ≤ 3 ∧
  (s.notice.state = .wait → 1 ≤ s.notice.timer ∧ s.notice.timer ≤ 64) ∧
  (s.notice.state ≠ .wait → s.notice.timer = 0)

/-- In DUE the active uplink's queue has no place (R189). -/
def State.noticeWaits (s : State) : Prop := s.notice.state = .due → s.hasRoom s.agent.activeUplink = false

/-- A queue has a place where fewer than four are taken, the held one among them (R137, R141). -/
theorem hasRoom_iff (s : State) (l : LinkId) : s.hasRoom l = true ↔
    (s.link l).queue.length < 4 ∧ (s.agent.heldPlace = some l → (s.link l).queue.length < 3) := by
  unfold State.hasRoom
  rw [decide_eq_true_eq, show Config.cellQueueCapacity = 4 from rfl]
  split
  · next h => simp only [h, true_imp_iff]; omega
  · next h => simp [h]

theorem noticeOk_iff {s : State} (hh : s.agent.heldPlace = none) : s.noticeOk ↔ s.noticeRuns ∧ s.noticeWaits := by
  have hfull : s.hasRoom s.agent.activeUplink = false ↔ 4 ≤ (s.link s.agent.activeUplink).queue.length := by
    rw [← Bool.not_eq_true, hasRoom_iff]; simp [hh]
  unfold State.noticeOk State.noticeRuns State.noticeWaits
  rw [hfull]; tauto

/-- How much is asked of the notice controller: nothing, that it runs in order, or also that in DUE it waits for a
place. -/
inductive NoticeDemand where
  | none | runs | full
deriving DecidableEq

/-- The management channel with what is asked of the notice controller. -/
def State.channel (d : NoticeDemand) (s : State) : Prop :=
  s.channelOk ∧ (d ≠ .none → s.noticeRuns) ∧ (d = .full → s.noticeWaits)

/-- The same between steps, where no place is held. -/
def State.channelFree (d : NoticeDemand) (s : State) : Prop := s.channel d ∧ s.agent.heldPlace = Option.none

theorem channelFree_none_iff (s : State) : s.channelFree .none ↔ s.manageOk := by
  rw [manageOk_iff]; simp [State.channelFree, State.channel]

theorem channelFree_full_iff (s : State) : s.channelFree .full ↔ s.manageOk ∧ s.noticeOk := by
  rw [manageOk_iff]
  constructor
  · rintro ⟨⟨hc, hr, hw⟩, hh⟩
    exact ⟨⟨hc, hh⟩, (noticeOk_iff hh).2 ⟨hr (by simp), hw rfl⟩⟩
  · rintro ⟨⟨hc, hh⟩, hn⟩
    obtain ⟨hr, hw⟩ := (noticeOk_iff hh).1 hn
    exact ⟨⟨hc, fun _ => hr, fun _ => hw⟩, hh⟩

theorem channel_runs {d : NoticeDemand} {s : State} (h : s.channel d) (hd : d ≠ .none) : s.channel .runs :=
  ⟨h.1, fun _ => h.2.1 hd, nofun⟩

/-! ### Changes of the channel -/

/-- A longer queue within its bounds keeps a link with a role in order. -/
theorem manageOk_of_queue {x : Link} (h : x.manageOk) {q : List QueuedCell} (hlen : q.length ≤ 4)
    (hrole : x.config.shape.role ≠ .none) (hq : x.queue ≠ [] → q ≠ []) : Link.manageOk { x with queue := q } := by
  obtain ⟨-, ha, hl, -, he, hw⟩ := h
  exact ⟨hlen, ha, hl, fun hn => absurd hn hrole, he, fun hc => hq (hw hc)⟩

/-- A link is in order where record, queue and word count are as before and the assembler is as before or idle. -/
theorem manageOk_same {x y : Link} (h : x.manageOk) (hc : y.config = x.config) (hq : y.queue = x.queue)
    (hw : y.tx.wordCount = x.tx.wordCount) (ha : y.assembler = x.assembler ∨ y.assembler = []) : y.manageOk := by
  obtain ⟨h1, h2, h3, h4, h5, h6⟩ := h
  unfold Link.manageOk
  rw [hc, hq, hw]
  refine ⟨h1, ?_, h3, fun hn => ⟨(h4 hn).1, ?_⟩, h5, h6⟩
  · rcases ha with e | e <;> simp [e, h2]
  · rcases ha with e | e <;> simp [e, h4 hn]

theorem hasRoom_congr {s t : State} {l : LinkId} (hq : (t.link l).queue = (s.link l).queue)
    (hh : t.agent.heldPlace = s.agent.heldPlace) : t.hasRoom l = s.hasRoom l := by
  simp only [State.hasRoom, hq, hh]

theorem channelOk_same {s t : State} (h : s.channelOk) (hst : s.SameChannel t) : t.channelOk := by
  obtain ⟨hl, hu, hh⟩ := h
  refine ⟨fun l => manageOk_same (hl l) (hst.config l) (hst.queue l) (hst.wordCount l) (hst.assembler l), ?_, ?_⟩
  · rw [hst.config, hst.agent]; exact hu
  · intro l; rw [hst.agent, hst.queue]; exact hh l

theorem channel_same {d : NoticeDemand} {s t : State} (h : s.channel d) (hst : s.SameChannel t) : t.channel d := by
  obtain ⟨hc, hr, hw⟩ := h
  refine ⟨channelOk_same hc hst, fun hd => ?_, fun hd => ?_⟩
  · unfold State.noticeRuns; rw [hst.notice, hst.events]; exact hr hd
  · unfold State.noticeWaits
    rw [hst.notice, hst.agent, hasRoom_congr (hst.queue _) (by rw [hst.agent])]; exact hw hd

/-- What only the notice controller and its cell touch keeps the channel (R189). -/
theorem channelOk_only {s t : State} (h : s.channelOk) (hst : s.EventOnly t) : t.channelOk := by
  obtain ⟨hl, hu, hh⟩ := h
  have hqueue (l : LinkId) : (t.link l).queue = (s.link l).queue ∨ (l = s.agent.activeUplink ∧
      s.hasRoom l = true ∧ ∃ x, (t.link l).queue = (s.link l).queue ++ [x]) := by
    by_cases e : l = s.agent.activeUplink
    · subst e
      rcases hst.queue with e | ⟨hr, x, e⟩
      · exact .inl e
      · exact .inr ⟨rfl, hr, _, e⟩
    · exact .inl (hst.other l e)
  refine ⟨fun l => ?_, ?_, fun l hl => ?_⟩
  · rw [hst.link l]
    rcases hqueue l with e | ⟨rfl, hr, x, e⟩ <;> rw [e]
    · exact hl l
    · have hlen := ((hasRoom_iff _ _).1 hr).1
      exact manageOk_of_queue (hl _) (by simp; omega) (by rw [hu]; simp) (by simp)
  · rw [hst.agent, hst.link]; exact hu
  · rw [hst.agent] at hl ⊢
    obtain ⟨e, hlen⟩ := hh l hl
    refine ⟨e, ?_⟩
    rcases hqueue l with eq | ⟨-, hr, x, eq⟩ <;> rw [eq]
    · exact hlen
    · have := ((hasRoom_iff _ _).1 hr).2 hl
      simp; omega

theorem noticeRuns_notDue {s t : State} (h : s.noticeRuns) (hs : t.notice = s.notice)
    (he : t.events.records = [] ↔ s.events.records = []) : t.noticeRuns := by
  unfold State.noticeRuns at *
  rw [hs, he, ne_eq, he]; exact h

/-- After the notice's test the controller is in order and waits where it is in DUE (R189). -/
theorem noticeTest_runs {s : State} (h : s.noticeRuns) : s.noticeTest.noticeRuns := by
  by_cases hd : s.notice.state = .due ∧ s.hasRoom s.agent.activeUplink = true
  · obtain ⟨-, hrec, hretry, -⟩ := h
    rw [noticeTest_places hd.1 hd.2]
    refine ⟨nofun, fun _ => hrec (.inl hd.1), hretry, fun _ => ⟨by simp, by simp⟩, fun hn => absurd rfl hn⟩
  · rw [noticeTest_waits (by rcases not_and_or.1 hd with h | h <;> simp [h])]
    exact h

theorem noticeTest_noticeWaits (s : State) : s.noticeTest.noticeWaits := by
  intro hd
  by_cases h : s.notice.state = .due ∧ s.hasRoom s.agent.activeUplink = true
  · rw [noticeTest_places h.1 h.2] at hd; cases hd
  · have e := noticeTest_waits (s := s) (by rcases not_and_or.1 h with h | h <;> simp [h])
    rw [e] at hd ⊢
    simpa [hd] using h

theorem noticeTest_channel {d : NoticeDemand} {s : State} (hc : s.channelOk) (hr : d ≠ .none → s.noticeRuns) :
    s.noticeTest.channel d :=
  ⟨channelOk_only hc (noticeTest_only s), fun hd => noticeTest_runs (hr hd), fun _ => noticeTest_noticeWaits s⟩

/-- The controller enters DUE with a record in the queue (R189). -/
theorem enterDue_channel {d : NoticeDemand} {s : State} (hc : s.channelOk) {n : Nat}
    (h : d ≠ .none → n ≤ 3 ∧ s.events.records ≠ []) : (s.enterDue n).channel d := by
  refine noticeTest_channel (channelOk_only hc ((State.EventOnly.refl _).of_events_notice rfl rfl rfl rfl rfl rfl rfl))
    fun hd => ⟨nofun, fun _ => (h hd).2, (h hd).1, nofun, fun _ => rfl⟩

theorem withEvents_channel {d : NoticeDemand} {s : State} (h : s.channel d) {q : EventQueue}
    (hq : q.records = [] ↔ s.events.records = []) : (s.withEvents q).channel d :=
  ⟨h.1, fun hd => noticeRuns_notDue (h.2.1 hd) rfl hq, h.2.2⟩

/-- A record joins the queue (R182, R188). -/
theorem recordAppended_channel {d : NoticeDemand} {s : State} (h : s.channel d) {q : EventQueue} (hq : q.records ≠ []) :
    ((s.withEvents q).recordAppended).channel d := by
  obtain ⟨hc, hr, hw⟩ := h
  unfold State.recordAppended
  split
  · exact enterDue_channel (s := s.withEvents q) hc fun _ => ⟨by simp, hq⟩
  · next hn =>
    refine ⟨hc, fun hd => ?_, hw⟩
    obtain ⟨-, -, h3, h4, h5⟩ := hr hd
    exact ⟨fun hq => absurd hq hn, fun _ => hq, h3, h4, h5⟩

/-- What a report can do: nothing, a change of the queue that leaves it as empty as it was, or a record more (R182). -/
theorem report_cases (s : State) (k : EventKind) (a b : Byte) :
    (∃ q : EventQueue, (q.records = [] ↔ s.events.records = []) ∧ s.report k a b = s.withEvents q) ∨
    (∃ q : EventQueue, q.records ≠ [] ∧ s.report k a b = (s.withEvents q).recordAppended) := by
  have happend : (∃ q : EventQueue, (q.records = [] ↔ s.events.records = []) ∧ s.appendOrLose k a b = s.withEvents q) ∨
      (∃ q : EventQueue, q.records ≠ [] ∧ s.appendOrLose k a b = (s.withEvents q).recordAppended) := by
    unfold State.appendOrLose
    split
    · refine .inr ⟨_, ?_, rfl⟩
      simp
    · refine .inl ⟨_, ?_, rfl⟩
      exact Iff.rfl
  unfold State.report
  split
  · exact .inl ⟨s.events, Iff.rfl, rfl⟩
  · split
    · split
      · next rs hc =>
        refine .inl ⟨{ s.events with records := rs }, ?_, rfl⟩
        simp only [← List.length_eq_zero_iff, coalesce_length hc]
      · exact happend
    · exact happend

theorem report_channel {d : NoticeDemand} {s : State} (k : EventKind) (a b : Byte) (h : s.channel d) :
    (s.report k a b).channel d := by
  rcases report_cases s k a b with ⟨q, hq, e⟩ | ⟨q, hq, e⟩ <;> rw [e]
  · exact withEvents_channel h hq
  · exact recordAppended_channel h hq

theorem channelFree_same {d : NoticeDemand} (s t : State) (h : s.channelFree d) (hst : s.SameChannel t) :
    t.channelFree d := ⟨channel_same h.1 hst, by rw [hst.agent]; exact h.2⟩

theorem channelFree_report {d : NoticeDemand} (s : State) (k : EventKind) (a b : Byte) (h : s.channelFree d) :
    (s.report k a b).channelFree d := ⟨report_channel k a b h.1, by rw [(report_only s k a b).agent]; exact h.2⟩

/-! ### Cells join a queue -/

/-- A cell placed where there was room keeps the channel (R136, R141). -/
theorem enqueue_channel {d : NoticeDemand} {s : State} (h : s.channel d) {l : LinkId} (x : QueuedCell)
    (hroom : s.hasRoom l = true) (hrole : (s.link l).config.shape.role ≠ .none) : (s.enqueue l x).channel d := by
  obtain ⟨⟨hl, hu, hh⟩, hr, hw⟩ := h
  have hlink (k : LinkId) : (s.enqueue l x).link k =
      if k = l then { s.link l with queue := (s.link l).queue ++ [x] } else s.link k := link_updLink ..
  obtain ⟨h4, h3⟩ := (hasRoom_iff s l).1 hroom
  refine ⟨⟨fun k => ?_, ?_, fun k hk => ⟨(hh k hk).1, ?_⟩⟩, hr, fun hd hdue => ?_⟩
  · rw [hlink]; split
    · exact manageOk_of_queue (hl l) (by simp; omega) hrole (by simp)
    · exact hl k
  · show ((s.enqueue l x).link s.agent.activeUplink).config.shape.role = .uplink
    rw [hlink]; split
    · next e => rw [← hu, e]
    · exact hu
  · rw [hlink]; split
    · next e =>
      have := h3 (by rw [← e]; exact hk)
      simp; omega
    · exact (hh k hk).2
  · have := hw hd hdue
    rw [← Bool.not_eq_true, hasRoom_iff] at this ⊢
    refine fun hc => this ?_
    simp only [hlink] at hc
    split at hc
    · next e =>
      simp only [List.length_append, List.length_singleton] at hc
      rw [show (s.enqueue l x).agent = s.agent from rfl] at hc e
      rw [e]
      rw [e] at hc
      exact ⟨by omega, fun hx => by have := hc.2 hx; omega⟩
    · exact hc

theorem mgmtCount_channel {d : NoticeDemand} {s : State} (h : s.channel d) (l : LinkId)
    (g : MgmtCounters → MgmtCounters) : (s.updLink l fun x => { x with mgmtCount := g x.mgmtCount }).channel d :=
  channel_same h (.updLink s l rfl rfl rfl (.inl rfl))

/-- A relayed copy is placed or counted as dropped (R136). -/
theorem relayTo_channelFree {d : NoticeDemand} {s : State} (h : s.channelFree d) {l : LinkId} (x : Cell)
    (hrole : (s.link l).config.shape.role ≠ .none) : (s.relayTo l x).channelFree d := by
  refine ⟨?_, by rw [relayTo_agent]; exact h.2⟩
  unfold State.relayTo
  split
  · next hroom => exact enqueue_channel h.1 _ hroom hrole
  · exact mgmtCount_channel h.1 l (fun m => { m with relayDrops := satAdd16 m.relayDrops 1 })

theorem relayOutbound_channelFree {d : NoticeDemand} {s : State} (h : s.channelFree d) (x : Cell) :
    (s.relayOutbound x).channelFree d := by
  refine foldl_induct (fun u : State => u.channelFree d) _ (fun u l hu => ?_) _ _ h
  split
  · next hrole => exact relayTo_channelFree hu x (by rw [hrole]; simp)
  · exact hu

theorem relayOutbound_config (s : State) (x : Cell) (l : LinkId) :
    ((s.relayOutbound x).link l).config = (s.link l).config := by
  obtain ⟨_, _, _, e⟩ := (relayOutbound_shell s x).link l
  rw [e]

end Sys2Proof.Machine
end

section
/-!
PROOFS. The management channel and the notice controller under the taking of a command, a completed frame and a local
frame start (R123, R131 to R142, R188 to R191).
-/

namespace Sys2Proof.Machine

/-! ### Taking a command -/

/-- The active uplink and the reply address are set (R131). -/
theorem noteTaking_channelOk {s : State} (h : s.channelOk) {c : CommandCell} (ha : s.arrives c)
    (hfree : s.agent.heldPlace = none) : (s.noteTaking c).channelOk := by
  obtain ⟨hl, -, -⟩ := h
  refine ⟨hl, ha, fun l hk => ?_⟩
  rw [show (s.noteTaking c).agent.heldPlace = s.agent.heldPlace from rfl, hfree] at hk
  cases hk

/-- A place in the active uplink's queue is held (R137). -/
theorem holdPlace_channelOk {s : State} (h : s.channelOk) {l : LinkId} (hl : s.agent.activeUplink = l)
    (hroom : s.hasRoom l = true) : (s.holdPlace l).channelOk := by
  obtain ⟨hlinks, hu, -⟩ := h
  refine ⟨hlinks, hu, fun k hk => ?_⟩
  injection hk with hk
  subst hk
  exact ⟨hl.symm, by have := ((hasRoom_iff s l).1 hroom).1; simp only [holdPlace_link]; omega⟩

/-- The place held is one that others do not find. -/
theorem holdPlace_hasRoom {s : State} {l k : LinkId} (h : s.agent.heldPlace = none) (hr : s.hasRoom k = false) :
    (s.holdPlace l).hasRoom k = false := by
  rw [← Bool.not_eq_true, hasRoom_iff] at hr ⊢
  simp only [holdPlace_link, h, reduceCtorEq, false_imp_iff, and_true] at hr ⊢
  exact fun hc => hr hc.1

/-- The notice's test where the active uplink has moved (R189). -/
theorem movedTest_channel {d : NoticeDemand} {s : State} {old : LinkId} (hc : s.channelOk)
    (hr : d ≠ .none → s.noticeRuns) (hw : d = .full → s.agent.activeUplink = old → s.noticeWaits) :
    (s.movedTest old).channel d := by
  unfold State.movedTest
  split
  · next e => exact ⟨hc, hr, fun hd => hw hd e⟩
  · exact noticeTest_channel hc hr

theorem atTest_activeUplink (s : State) (c : CommandCell) : (s.atTest c).agent.activeUplink = c.arrival := by
  unfold State.atTest; split
  · rw [(movedTest_only _ _).agent]; rfl
  · rfl

/-- A notice that waits goes on waiting where the active uplink and its queue are as before. -/
theorem noticeWaits_of_queue {s t : State} (h : s.noticeWaits) (hn : t.notice = s.notice) (ha : t.agent = s.agent)
    (hq : (t.link s.agent.activeUplink).queue = (s.link s.agent.activeUplink).queue) : t.noticeWaits := by
  intro hdue
  rw [hn] at hdue
  rw [ha, hasRoom_congr hq (by rw [ha])]
  exact h hdue

/-- Where the active uplink does not move, a notice that waits goes on waiting. -/
theorem noteTaking_noticeWaits {s : State} {c : CommandCell} (h : s.noticeWaits)
    (hsame : (s.noteTaking c).agent.activeUplink = s.agent.activeUplink) : (s.noteTaking c).noticeWaits := by
  unfold State.noticeWaits
  rw [hsame]; exact h

/-- The active uplink and the reply address set, and the notice's test at once (R131, R189). -/
theorem noteTaking_movedTest_channelFree {d : NoticeDemand} {s : State} {c : CommandCell} (h : s.channelFree d)
    (ha : s.arrives c) : ((s.noteTaking c).movedTest s.agent.activeUplink).channelFree d := by
  obtain ⟨⟨hc, hr, hw⟩, hfree⟩ := h
  refine ⟨movedTest_channel (noteTaking_channelOk hc ha hfree) hr fun hd e => noteTaking_noticeWaits (hw hd) e, ?_⟩
  rw [(movedTest_only _ _).agent]; exact hfree

/-- The state in which a unicast command is examined (R137, R139). -/
theorem atTaking_channel {d : NoticeDemand} {s : State} {c : CommandCell} (h : s.channelFree d) (hp : s.placed c) :
    (s.atTaking c).channel d := by
  obtain ⟨ha, -, hroom⟩ := hp
  unfold State.atTaking
  split
  · next hn =>
    obtain ⟨htest, hheld⟩ : (s.atTest c).channelFree d := by
      unfold State.atTest
      rw [if_pos hn]
      exact noteTaking_movedTest_channelFree h ha
    exact ⟨holdPlace_channelOk htest.1 (atTest_activeUplink s c) hroom, htest.2.1,
      fun hd hdue => holdPlace_hasRoom hheld (htest.2.2 hd hdue)⟩
  · next hn =>
    have e : s.atTest c = s.noteTaking c := by unfold State.atTest; rw [if_neg hn]
    rw [e] at hroom ⊢
    obtain ⟨⟨hc, hr, hw⟩, hfree⟩ := h
    have hnote := noteTaking_channelOk hc ha hfree
    exact movedTest_channel (holdPlace_channelOk hnote rfl hroom) hr fun hd e hdue =>
      holdPlace_hasRoom hfree (noteTaking_noticeWaits (hw hd) e hdue)

/-- The state in which a group or broadcast command is examined (R131, R138). -/
theorem atSharedTaking_channelFree {d : NoticeDemand} {s : State} {c : CommandCell} (h : s.channelFree d)
    (ha : s.arrives c) (code : BitVec 7) : (s.atSharedTaking code c).channelFree d := by
  have hup : (s.relayOutbound (outboundCell code c)).arrives c := by
    unfold State.arrives; rw [relayOutbound_config]; exact ha
  have ht := noteTaking_movedTest_channelFree (relayOutbound_channelFree h (outboundCell code c)) hup
  rwa [relayOutbound_agent] at ht

theorem atSharedTaking_activeUplink (s : State) (code : BitVec 7) (c : CommandCell) :
    (s.atSharedTaking code c).agent.activeUplink = c.arrival := by
  unfold State.atSharedTaking
  rw [(movedTest_only _ _).agent]; rfl

/-- The response takes the place held for it (R137, R140). -/
theorem respond_channelFree {d : NoticeDemand} {s : State} (h : s.channel d) (code : BitVec 7) {c : CommandCell}
    (a : Answer) (hup : s.agent.activeUplink = c.arrival) (hheld : s.agent.heldPlace = some c.arrival) :
    (s.respond code c a).channelFree d := by
  obtain ⟨⟨hl, hu, hh⟩, hr, hw⟩ := h
  have hlen := (hh _ hheld).2
  refine ⟨⟨⟨fun k => ?_, ?_, nofun⟩, hr, fun hd hdue => ?_⟩, rfl⟩
  · rw [respond_link]; split
    · exact manageOk_of_queue (hl _) (by simp; omega) (by rw [← hup, hu]; simp) (by simp)
    · exact hl k
  · show ((s.respond code c a).link s.agent.activeUplink).config.shape.role = .uplink
    rw [respond_link, ← hup, if_pos rfl]; exact hu
  · have hfull := hw hd hdue
    rw [← Bool.not_eq_true, hasRoom_iff, hup] at hfull
    rw [← Bool.not_eq_true, hasRoom_iff]
    refine fun hc => hfull ?_
    simp only [respond_agent, hup, respond_link, if_true, List.length_append, List.length_singleton] at hc
    exact ⟨by omega, fun _ => by omega⟩

theorem congested_channelFree {d : NoticeDemand} {s : State} (h : s.channelFree d) (l : LinkId) :
    (s.congested l).channelFree d :=
  ⟨mgmtCount_channel h.1 l (fun m => { m with congestion := satAdd16 m.congestion 1 }), h.2⟩

/-- A command refused for congestion: the active uplink has no place, so a notice in DUE waits (R139). -/
theorem atTest_channelFree {d : NoticeDemand} {s : State} {c : CommandCell} (h : s.channelFree d) (ha : s.arrives c)
    (hfull : (s.atTest c).hasRoom c.arrival = false) : (s.atTest c).channelFree d := by
  unfold State.atTest at hfull ⊢
  split
  · exact noteTaking_movedTest_channelFree h ha
  · next hn =>
    obtain ⟨⟨hc, hr, -⟩, hfree⟩ := h
    rw [if_neg hn] at hfull
    exact ⟨⟨noteTaking_channelOk hc ha hfree, hr, fun _ _ => hfull⟩, hfree⟩

/-! ### The commands -/

theorem recordOf_legal {c : CommandCell} {x : LinkConfig} (h : recordOf c = some x) :
    x.shape.mgmtSlotLegal = true ∧ (x.shape.role ≠ .none → x.rxEnable = true ∧ x.txEnable = true) := by
  unfold recordOf at h
  simp only at h
  split at h
  · split at h
    · next hl =>
      injection h with h
      subst h
      simp only [Bool.and_eq_true] at hl
      refine ⟨hl.1, fun hn => ?_⟩
      simpa [LinkConfig.roleLegal, hn] using hl.2
    · cases h
  · cases h

theorem written_manageOk {x : Link} (h : x.manageOk) {c : CommandCell} {new : LinkConfig} (hnew : recordOf c = some new) :
    (x.written new).manageOk := by
  obtain ⟨hlegal, hen⟩ := recordOf_legal hnew
  obtain ⟨hlen, hasm, -, hnone, -, hcount⟩ := h
  have hasm' : (x.written new).assembler.length ≤ 7 := by rw [written_assembler]; split <;> simp [hasm]
  have hidle (hn : new.shape.role = .none) : (x.written new).assembler = [] := by rw [written_assembler, if_pos hn]
  unfold Link.manageOk
  rw [written_config]
  by_cases hf : flushNeeded x.config new = true
  · obtain ⟨hq, ht, -⟩ := written_flushed hf
    rw [hq, ht]
    exact ⟨by simp, hasm', hlegal, fun hn => ⟨rfl, hidle hn⟩, hen, fun hc => absurd rfl hc⟩
  · have hf : flushNeeded x.config new = false := by simpa using hf
    obtain ⟨hq, ht, -⟩ := written_kept hf
    rw [hq, ht]
    refine ⟨hlen, hasm', hlegal, fun hn => ⟨?_, hidle hn⟩, hen, hcount⟩
    refine (hnone ?_).1
    simpa [flushNeeded, hn] using (Bool.or_eq_false_iff.1 hf).2

/-- A record written on the arrival link leaves its queue alone and its role UPLINK (R123, R155). -/
theorem written_arrival {x : Link} {new : LinkConfig} (hs : severs x.config new = false) :
    (x.written new).queue = x.queue ∧ (x.written new).config.shape.role = .uplink := by
  simp only [severs, Bool.or_eq_false_iff, decide_eq_false_iff_not, not_not, Bool.not_eq_false'] at hs
  obtain ⟨⟨⟨⟨hrole, -⟩, htx⟩, -⟩, -⟩ := hs
  refine ⟨(written_kept ?_).1, hrole⟩
  simp [flushNeeded, htx, hrole]

theorem updLink_written_channel {d : NoticeDemand} {s : State} (h : s.channel d) {l : LinkId} {c : CommandCell}
    (hup : s.agent.activeUplink = c.arrival) {new : LinkConfig} (hnew : recordOf c = some new)
    (hkeeps : ¬(l = c.arrival ∧ severs (s.link l).config new = true)) : (s.updLink l (·.written new)).channel d := by
  obtain ⟨⟨hl, hu, hh⟩, hr, hw⟩ := h
  have harrival : ((s.updLink l (·.written new)).link s.agent.activeUplink).queue =
        (s.link s.agent.activeUplink).queue ∧
      ((s.updLink l (·.written new)).link s.agent.activeUplink).config.shape.role = .uplink := by
    rw [link_updLink]
    split
    · next e =>
      subst e
      exact written_arrival (by simpa [hup] using hkeeps)
    · exact ⟨rfl, hu⟩
  refine ⟨⟨fun k => ?_, harrival.2, fun k hk => ?_⟩, hr, fun hd => noticeWaits_of_queue (hw hd) rfl rfl harrival.1⟩
  · rw [link_updLink]; split
    · exact written_manageOk (hl l) hnew
    · exact hl k
  · obtain ⟨e, hlen⟩ := hh k hk
    subst e
    exact ⟨rfl, by rw [harrival.1]; exact hlen⟩

theorem writeLink_channel {d : NoticeDemand} {s : State} (h : s.channel d) {l : LinkId} {c : CommandCell}
    (hup : s.agent.activeUplink = c.arrival) {new : LinkConfig} (hnew : recordOf c = some new)
    (hkeeps : ¬(l = c.arrival ∧ severs (s.link l).config new = true)) (rf : Bool) :
    (s.writeLink l new rf).channel d := by
  have h1 := updLink_written_channel h hup hnew hkeeps
  unfold State.writeLink
  simp only
  refine reconfigureRx_keeps_of_report (P := fun u : State => u.channel d) (fun _ _ => channel_same)
    (fun _ k a b => report_channel k a b) ?_ _ _ _ _
  split
  · exact channel_same h1 (.of_links rfl rfl rfl rfl)
  · exact h1

theorem softReset_channel {d : NoticeDemand} {s : State} (h : s.channel d) : s.softReset.channel d := by
  obtain ⟨⟨hl, hu, hh⟩, -, -⟩ := h
  refine ⟨⟨fun l => ?_, ?_, fun l hk => ?_⟩, fun _ => ⟨fun _ => rfl, by simp [Notice.cleared], by simp [Notice.cleared],
    nofun, fun _ => rfl⟩, fun _ => nofun⟩
  · rw [softReset_link]; exact manageOk_same (hl l) rfl rfl rfl (.inl rfl)
  · rw [softReset_agent, softReset_link]; exact hu
  · rw [softReset_agent] at hk ⊢
    rw [softReset_link]; exact hh l hk

theorem setNotices_channel {d : NoticeDemand} {s : State} (h : s.channel d) (on : Bool) :
    (s.setNotices on).channel d := by
  have hc (n : Notice) : (s.withNotice n).channelOk := h.1
  unfold State.setNotices
  split
  · split
    · next he => exact ⟨hc _, fun _ => ⟨fun _ => by simpa using he, by simp, by simp, nofun, fun _ => rfl⟩, fun _ => nofun⟩
    · next he => exact enterDue_channel h.1 fun _ => ⟨by simp, by simpa using he⟩
  · exact ⟨hc _, fun _ => ⟨nofun, by simp, by simp, nofun, fun _ => rfl⟩, fun _ => nofun⟩

/-- EVENT-READ leaves the controller in QUIET, in WAIT or in OFF (R192). -/
theorem eventRead_channel {d : NoticeDemand} {s : State} (h : s.channel d) (left : List EventRecord) :
    ((s.withEvents { s.events with records := deliverHead left }).withNotice (s.notice.afterRead left)).channel d := by
  obtain ⟨hc, hr, -⟩ := h
  refine ⟨hc, fun hd => ?_, fun _ => ?_⟩
  · obtain ⟨-, -, hretry, -, htimer⟩ := hr hd
    unfold State.noticeRuns Notice.afterRead
    split
    · next e => simp_all
    · cases left <;> simp [deliverHead, Config.noticeTimer]
  · unfold State.noticeWaits Notice.afterRead
    split
    · next e => simp [e]
    · split <;> exact nofun

/-- Every command's body keeps the channel, in the state in which the command is examined. -/
theorem bodyOf_channel {d : NoticeDemand} (code : BitVec 7) (b : Bool) {c : CommandCell} {s : State} (h : s.channel d)
    (hup : s.agent.activeUplink = c.arrival) : (bodyOf code b c s).1.channel d := by
  obtain ⟨t, e, hd⟩ : ∃ t, (bodyOf code b c s).1 = t ∧ s.BodyDid b c t := ⟨_, rfl, bodyOf_did code b c s⟩
  have hreport {u : State} (hu : u.channel d) (k : EventKind) (x y : Byte) : (u.report k x y).channel d :=
    report_channel k x y hu
  have haside {u : State} (he : u.events = s.events) (hn : u.notice = s.notice) (ha : u.agent = s.agent)
      (hl : u.links = s.links) : u.channel d := channel_same h (.of_links he hn ha hl)
  rw [e]
  cases hd with
  | softReset => exact softReset_channel h
  | linkSet l new hnew hkeeps => exact writeLink_channel h hup hnew hkeeps _
  | clearCounters l m p => cases m <;> cases p <;> exact channel_same h (.updLink s l rfl rfl rfl (.inl rfl))
  | refSet =>
    refine select_keeps_of_report (P := fun u : State => u.channel d) (fun _ _ => channel_same)
      (fun _ k a b => report_channel k a b) ?_
    exact haside rfl rfl rfl rfl
  | abort =>
    refine hreport ?_ _ _ _
    exact haside rfl rfl rfl rfl
  | eventRead ack seq left => exact eventRead_channel h left
  | mask => exact withEvents_channel h Iff.rfl
  | notices on => exact setNotices_channel h on
  | aliases | groups | resetPends => exact ⟨h.1, h.2.1, h.2.2⟩
  | _ => exact haside rfl rfl rfl rfl

theorem writeLink_agent (s : State) (l : LinkId) (new : LinkConfig) (rf : Bool) :
    (s.writeLink l new rf).agent = s.agent := by
  unfold State.writeLink
  refine reconfigureRx_keeps_of_report (P := fun u : State => u.agent = s.agent)
    (fun u v hu hv => by rw [hv.agent, hu]) (fun u k a b hu => by rw [(report_only u k a b).agent, hu]) ?_ _ _ _ _
  split <;> rfl

/-- No body moves the active uplink or the place held. -/
theorem bodyOf_agent (code : BitVec 7) (b : Bool) (c : CommandCell) (s : State) :
    (bodyOf code b c s).1.agent.activeUplink = s.agent.activeUplink ∧
    (bodyOf code b c s).1.agent.heldPlace = s.agent.heldPlace := by
  obtain ⟨t, e, hd⟩ : ∃ t, (bodyOf code b c s).1 = t ∧ s.BodyDid b c t := ⟨_, rfl, bodyOf_did code b c s⟩
  rw [e]
  cases hd with
  | linkSet => rw [writeLink_agent]; exact ⟨rfl, rfl⟩
  | refSet => simp
  | abort => rw [(report_only _ _ _ _).agent]; exact ⟨rfl, rfl⟩
  | notices on => rw [(setNotices_only s on).agent]; exact ⟨rfl, rfl⟩
  | _ => exact ⟨rfl, rfl⟩

/-- The taking of a cell keeps the channel (R131, R134, R137 to R142). -/
theorem takeByCode_channelFree {d : NoticeDemand} (s : State) (code : BitVec 7) (c : CommandCell)
    (h : s.channelFree d) : (s.takeByCode code c).channelFree d := by
  rw [takeByCode_eq]
  by_cases ha : s.arrives c
  · cases hcl : s.agent.classify c.dest with
    | other => rwa [take_of_other hcl]
    | unicast =>
      cases hroom : (s.atTest c).hasRoom c.arrival with
      | false =>
        rw [take_of_full ha hcl hroom]
        exact congested_channelFree (atTest_channelFree h ha hroom) _
      | true =>
        have hp : s.placed c := ⟨ha, hcl, hroom⟩
        have ht := atTaking_channel h hp
        obtain ⟨hu, hh⟩ := bodyOf_agent code true c (s.atTaking c)
        rw [take_of_placed hp]
        split
        · exact respond_channelFree ht code _ (by simp) (by simp)
        · exact respond_channelFree (bodyOf_channel code true ht (by simp)) code _ (by rw [hu]; simp) (by rw [hh]; simp)
    | group | broadcast =>
      have hm : s.matchesShared c := by simp [State.matchesShared, hcl]
      have ht := atSharedTaking_channelFree h ha code
      rw [take_of_shared ha hm]
      split
      · exact ht
      · refine ⟨bodyOf_channel code false ht.1 (atSharedTaking_activeUplink s code c), ?_⟩
        rw [(bodyOf_agent code false c _).2]; exact ht.2
  · rwa [take_of_not_arrives ha]

/-! ### A completed frame -/

theorem assemble_length (held : List Word) (w : Word) : (assemble held w).1.length ≤ 7 := by
  unfold assemble
  split
  · split <;> simp
  · split
    · simp; omega
    · simp

theorem assembler_channelFree {d : NoticeDemand} {s : State} (h : s.channelFree d) {l : LinkId}
    (hrole : (s.link l).config.shape.role ≠ .none) (w : Word) :
    (s.updLink l fun x => { x with assembler := (assemble (s.link l).assembler w).1 }).channelFree d := by
  obtain ⟨⟨⟨hl, hu, hh⟩, hr, hw⟩, hfree⟩ := h
  have hread {α : Type} (p : Link → α) (k : LinkId)
      (hp : p { s.link l with assembler := (assemble (s.link l).assembler w).1 } = p (s.link l)) :
      p ((s.updLink l fun x => { x with assembler := (assemble (s.link l).assembler w).1 }).link k) = p (s.link k) :=
    updLink_read p s l k _ hp
  refine ⟨⟨⟨fun k => ?_, ?_, fun k hk => ?_⟩, hr, fun hd => ?_⟩, hfree⟩
  · rw [link_updLink]; split
    · obtain ⟨h1, -, h3, -, h5, h6⟩ := hl l
      exact ⟨h1, assemble_length _ w, h3, fun hn => absurd hn hrole, h5, h6⟩
    · exact hl k
  · rw [hread (fun y => y.config.shape.role) _ rfl]; exact hu
  · rw [updLink_agent, hfree] at hk; cases hk
  · exact noticeWaits_of_queue (hw hd) rfl rfl (hread (fun y => y.queue) _ rfl)

/-- A good cell is dispatched (R133 to R135). -/
theorem dispatch_channelFree {d : NoticeDemand} {s : State} (h : s.channelFree d) (l : LinkId) (x : Cell) (rf nf : Bool) :
    (s.dispatch l x rf nf).channelFree d := by
  have herror : (s.directionError l).channelFree d :=
    ⟨mgmtCount_channel h.1 l (fun m => { m with directionErrors := satAdd16 m.directionErrors 1 }), h.2⟩
  unfold State.dispatch
  split
  · exact h
  · split
    · unfold State.dispatchOutbound
      split
      · exact relayOutbound_channelFree h x
      · exact takeByCode_channelFree s _ _ h
    · exact herror
  · split
    · exact herror
    · exact relayTo_channelFree h x (by rw [h.1.1.2.1]; simp)

theorem cellAct_channelFree {d : NoticeDemand} {s : State} (h : s.channelFree d) (l : LinkId) (w : Option Word)
    (rf nf : Bool) : (s.cellAct l w rf nf).channelFree d := by
  have hcount {u : State} (hu : u.channelFree d) (g : MgmtCounters → MgmtCounters) :
      (u.updLink l fun x => { x with mgmtCount := g x.mgmtCount }).channelFree d := ⟨mgmtCount_channel hu.1 l g, hu.2⟩
  have hcell {u : State} (hu : u.channelFree d) (x : Cell) : (u.completeCell l x rf nf).channelFree d := by
    unfold State.completeCell
    split
    · exact dispatch_channelFree (hcount hu fun m => { m with goodCells := satAdd16 m.goodCells 1 }) l x rf nf
    · exact hcount hu fun m => { m with checkFailures := satAdd16 m.checkFailures 1 }
  unfold State.cellAct
  split
  · exact h
  · split
    · unfold State.assembleWord
      split
      · exact h
      · next hrole =>
        have h1 := assembler_channelFree h hrole
        simp only
        split
        · exact h1 _
        · exact hcell (h1 _) _
    · exact h

/-- A frame completes (R27 to R35). -/
theorem frame_channelFree {d : NoticeDemand} {s : State} (h : s.channelFree d) (l : LinkId) (e : Header) (b : Nat)
    (f : FrameInProgress) (ws : Vector Word 63) (startAt : Nat) (acts : List ReceiveAct) (rf nf : Bool) :
    (acts.foldl (State.receiveAct l f ws startAt rf nf) (s.updLink l (·.frameEnds e b))).channelFree d := by
  refine foldl_induct (fun u : State => u.channelFree d) _ (fun u a hu => ?_) acts _
    (channelFree_same s _ h (.withRx s l _))
  by_cases ha : a = .cell
  · subst ha
    exact cellAct_channelFree hu l _ rf nf
  · exact receiveAct_keeps_of_report channelFree_same channelFree_report hu l f ws startAt rf nf ha

theorem frameCompletes_channelFree {d : NoticeDemand} {s : State} (h : s.channelFree d) (x : FrameArrival) :
    (s.frameCompletes x).channelFree d := by
  unfold State.frameCompletes
  split
  · exact frame_channelFree h ..
  · exact h

/-! ### The rows that are no local frame start -/

theorem channelFree_powerOn (d : NoticeDemand) (addr : BitVec 4) (upl : LinkId) (q : List Instr) :
    (State.powerOn addr upl q).channelFree d := by
  have hagent : (State.powerOn addr upl q).agent = Agent.powerOn addr upl := rfl
  refine ⟨⟨⟨fun l => ?_, ?_, nofun⟩, fun _ => ⟨fun _ => rfl, ?_, ?_, nofun, fun _ => rfl⟩, fun _ => nofun⟩, rfl⟩
  · rw [powerOn_link]
    simp [Link.manageOk, Link.powerOn, LinkConfig.powerOn, Shape.mgmtSlotLegal, Shape.isCheck, SlotCount.toNat]
  · rw [hagent, powerOn_link]; simp [Link.powerOn, LinkConfig.powerOn, Agent.powerOn]
  · rw [show (State.powerOn addr upl q).notice = .cleared from rfl]; simp [Notice.cleared]
  · rw [show (State.powerOn addr upl q).notice = .cleared from rfl]; simp [Notice.cleared]

theorem did_channelFree {d : NoticeDemand} (s t : State) (h : s.channelFree d) (hd : s.Did t) : t.channelFree d := by
  cases hd with
  | same => exact h
  | powerOn addr upl => exact channelFree_powerOn d addr upl _
  | notice => exact ⟨noticeTest_channel h.1.1 h.1.2.1, by rw [noticeTest_agent]; exact h.2⟩
  | taken code c => exact takeByCode_channelFree s code c h
  | clockReturn l => exact channelFree_same s _ h (.withRx s l _)
  | bits l old new => exact receiveBits_keeps_of_report channelFree_same channelFree_report h l old new
  | header l e b w rf => exact judgeHeader_keeps_of_report channelFree_same channelFree_report h l e b w rf
  | frame l e b f ws startAt acts rf nf => exact frame_channelFree h l e b f ws startAt acts rf nf

/-! ### The acts of a start -/

/-- The notice timer runs or expires (R191). -/
theorem noticeTimerAct_channel {d : NoticeDemand} {s : State} (h : s.channel d) (x : StartCtx) :
    (s.noticeTimerAct x).channel d := by
  obtain ⟨hc, hr, hw⟩ := h
  have hclear (n : Notice) : (s.withNotice n).channelOk := hc
  unfold State.noticeTimerAct
  split
  · next hg =>
    simp only [Bool.and_eq_true, decide_eq_true_eq] at hg
    have hwait : s.notice.state = .wait := hg.1.2
    have hrec (hd : d ≠ .none) : s.events.records ≠ [] := (hr hd).2.1 (.inr (.inl hwait))
    split
    · unfold State.noticeExpiry
      split
      · next hn =>
        exact enterDue_channel hc fun hd => ⟨hn, hrec hd⟩
      · exact ⟨hclear _, fun hd => ⟨nofun, fun _ => hrec hd, (hr hd).2.2.1, nofun, fun _ => rfl⟩, fun _ => nofun⟩
    · next ht =>
      refine ⟨hclear _, fun hd => ?_, fun _ hdue => ?_⟩
      · obtain ⟨h1, h2, h3, h4, h5⟩ := hr hd
        refine ⟨h1, h2, h3, fun hs => ?_, fun hs => absurd hwait hs⟩
        have := h4 hs
        simp only [withNotice_notice]
        omega
      · rw [withNotice_notice] at hdue
        rw [show s.notice.state = .due from hdue] at hwait; cases hwait
  · exact ⟨hc, hr, hw⟩

/-- Every act but the management words keeps the channel. -/
theorem startAct_channelFree {d : NoticeDemand} (x : StartCtx) {s : State} (h : s.channelFree d) {a : StartAct}
    (ha : a ≠ .management) : (State.startAct x s a).channelFree d := by
  have htest : s.noticeTest.channelFree d :=
    ⟨noticeTest_channel h.1.1 h.1.2.1, by rw [noticeTest_agent]; exact h.2⟩
  cases a with
  | management => exact absurd rfl ha
  | softReset =>
    simp only [State.startAct]
    split
    · exact ⟨softReset_channel h.1, h.2⟩
    · exact h
  | noticeTimer =>
    refine ⟨noticeTimerAct_channel h.1 x, ?_⟩
    simp only [State.startAct, State.noticeTimerAct]
    split
    · split
      · rw [(noticeExpiry_only s).agent]; exact h.2
      · exact h.2
    · exact h.2
  | noticeTest =>
    simp only [State.startAct]
    split
    · exact htest
    · exact h
  | _ =>
    exact startAct_keeps_of_report channelFree_same channelFree_report x h (by simp) (by simp) (by simp) (by simp)

/-- At the management word of a frame a cell goes on or leaves its queue (R116, R117). -/
theorem takeMgmtWord_cases (x : Link) (h : x.manageOk) :
    (x.departs = true ∧ x.takeMgmtWord.queue = x.queue.tail ∧ x.takeMgmtWord.tx.wordCount = 0) ∨
    (x.departs = false ∧ x.takeMgmtWord.queue = x.queue ∧ (x.takeMgmtWord.tx.wordCount ≠ 0 → x.queue ≠ [])) := by
  obtain ⟨-, -, -, -, -, hcount⟩ := h
  unfold Link.takeMgmtWord Link.departs
  by_cases hs : x.sendsMgmt = true
  · rw [if_pos hs, hs]
    unfold Link.advanceQueue
    cases hq : x.queue with
    | nil => exact .inr ⟨by simp, hq, fun hc => absurd hq (hcount hc)⟩
    | cons y ys =>
      by_cases h7 : x.tx.wordCount = 7
      · exact .inl ⟨by simp [h7], by simp [h7], by simp [h7]⟩
      · exact .inr ⟨by simp [h7], by simp [h7], by simp⟩
  · rw [if_neg hs]
    exact .inr ⟨by simp [hs], rfl, hcount⟩

theorem takeMgmtWord_manageOk {x : Link} (h : x.manageOk) : x.takeMgmtWord.manageOk := by
  have hcases := takeMgmtWord_cases x h
  obtain ⟨h1, h2, h3, h4, h5, h6⟩ := h
  unfold Link.manageOk
  rw [takeMgmtWord_config, takeMgmtWord_assembler]
  rcases hcases with ⟨-, hq, hw⟩ | ⟨-, hq, hw⟩ <;> rw [hq]
  · exact ⟨by simp; omega, h2, h3, fun hn => ⟨by simp [h4 hn], (h4 hn).2⟩, h5, fun hc => absurd hw hc⟩
  · exact ⟨h1, h2, h3, h4, h5, hw⟩

/-- The management words are fixed: the channel stays in order, and a notice in DUE goes on waiting unless a cell leaves
the active uplink's queue (R117, R189). -/
theorem fixManagement_channelFree {d : NoticeDemand} {s : State} (h : s.channelFree d)
    (hd : d = .full → s.uplinkDeparts = false) : s.fixManagement.channelFree d := by
  obtain ⟨⟨⟨hl, hu, hh⟩, hr, hw⟩, hfree⟩ := h
  refine ⟨⟨⟨fun l => ?_, ?_, fun l hk => ?_⟩, hr, fun he => ?_⟩, hfree⟩
  · rw [fixManagement_link]; exact takeMgmtWord_manageOk (hl l)
  · rw [fixManagement_agent, fixManagement_link, takeMgmtWord_config]; exact hu
  · rw [fixManagement_agent, hfree] at hk; cases hk
  · refine noticeWaits_of_queue (hw he) rfl rfl ?_
    rw [fixManagement_link]
    rcases takeMgmtWord_cases _ (hl s.agent.activeUplink) with ⟨hx, -⟩ | ⟨-, hq, -⟩
    · rw [show s.uplinkDeparts = true from hx] at hd
      cases hd he
    · exact hq

/-! ### Obligation O7 -/

/-- Settles O7: by the things that touch a cell queue at all, in the states between the acts of a row as well. -/
theorem stepKeepsManagementChannel : Obligations.StepKeepsManagementChannel := by
  intro s t hs hstep
  rw [← channelFree_none_iff] at hs ⊢
  refine step_keeps (P := State.channelFree .none) (fun _ _ h => channelFree_same _ _ h (.of_links rfl rfl rfl rfl))
    did_channelFree (localFrameStart_keeps (fun _ _ _ _ h => channelFree_same _ _ h (.of_links rfl rfl rfl rfl))
      fun x s a h => ?_) hs hstep
  by_cases ha : a = .management
  · subst ha
    exact fixManagement_channelFree h nofun
  · exact startAct_channelFree x h ha

end Sys2Proof.Machine
end

section
/-!
PROOFS. The notice controller at a local frame start: the cell that leaves the active uplink's queue, and the test for
its place after it (R117, R189).
-/

namespace Sys2Proof.Machine

/-! ### The test for a place comes after the management words -/

theorem holdBack_filter (p q : StartAct → Bool) {b : StartAct} {acts : List StartAct} (hb : b ∈ acts)
    (hq : ∀ x, q x = true → p x = false) : (holdBack p b acts).filter q = acts.filter q := by
  have hnone (l : List StartAct) : (l.filter p).filter q = [] := by
    rw [List.filter_filter, List.filter_eq_nil_iff]
    intro x _
    by_cases h : q x = true <;> simp [h, hq]
  have hall (l : List StartAct) : (l.filter (!p ·)).filter q = l.filter q := by
    rw [List.filter_filter]
    refine List.filter_congr fun x _ => ?_
    by_cases h : q x = true <;> simp [h, hq]
  conv => rhs; rw [split_at_first hb]
  unfold holdBack
  simp only [List.filter_append, hnone, hall, List.append_assoc, List.singleton_append,
    List.filter_cons]
  split <;> rfl

/-- Of two acts the one that stands before the other is the first of the two. -/
theorem filter_pair_of_before {a c : StartAct} {acts pre post : List StartAct} (hn : acts.Nodup)
    (h : acts = pre ++ c :: post) (ha : a ∈ pre) : acts.filter (fun x => x = a || x = c) = [a, c] := by
  obtain ⟨p1, p2, rfl⟩ := List.append_of_mem ha
  subst h
  have hfree (l : List StartAct) (h1 : a ∉ l) (h2 : c ∉ l) : l.filter (fun x => x = a || x = c) = [] := by
    rw [List.filter_eq_nil_iff]
    intro x hx hc
    simp only [Bool.or_eq_true, decide_eq_true_eq] at hc
    rcases hc with rfl | rfl
    · exact h1 hx
    · exact h2 hx
  simp only [List.append_assoc, List.cons_append, List.nodup_append, List.nodup_cons, List.mem_append, List.mem_cons,
    not_or] at hn
  obtain ⟨-, ⟨⟨ha2, hac, hapost⟩, -, ⟨hcpost, -⟩, hc2⟩, h1⟩ := hn
  have e1 := hfree p1 (fun h => h1 a h a (.inl rfl) rfl) (fun h => h1 c h c (.inr (.inr (.inl rfl))) rfl)
  have e2 := hfree p2 ha2 (fun h => hc2 c h c (.inl rfl) rfl)
  have e3 := hfree post hapost hcpost
  simp [List.filter_append, e1, e2, e3]

theorem before_of_filter_pair {a c : StartAct} (hac : a ≠ c) {acts pre post : List StartAct}
    (hf : acts.filter (fun x => x = a || x = c) = [a, c]) (h : acts = pre ++ c :: post) : a ∈ pre := by
  subst h
  rw [List.filter_append] at hf
  cases hpre : pre.filter (fun x => x = a || x = c) with
  | nil =>
    rw [hpre] at hf
    simp [hac.symm] at hf
  | cons y ys =>
    rw [hpre] at hf
    injection hf with hy _
    have : y ∈ pre.filter (fun x => x = a || x = c) := by rw [hpre]; exact List.mem_cons_self
    rw [← hy]
    exact (List.mem_filter.1 this).1

/-- The cells of a start have left their queues before the notice's test for a place (R189). -/
theorem management_before_noticeTest {r : Bool} {order pre post : List StartAct}
    (h : startSequence r order = pre ++ .noticeTest :: post) : StartAct.management ∈ pre := by
  have ha : ∀ a, a ∈ firstOccurrences (order ++ allStartActs) := fun a =>
    mem_firstOccurrences.2 (List.mem_append_right _ (mem_allStartActs a))
  have hn0 := nodup_firstOccurrences (order ++ allStartActs)
  refine before_of_filter_pair (by decide) ?_ h
  unfold startSequence
  simp only
  set all := firstOccurrences (order ++ allStartActs)
  set framed := bringForward _ .transmit all
  have h1 : framed.Perm all := bringForward_perm _ (ha _)
  have h2 : (holdBack (· = .noticeTest) .management framed).Perm all :=
    (holdBack_perm _ (h1.mem_iff.2 (ha _))).trans h1
  have h3 := (holdBack_perm (· = .softReset) (h2.mem_iff.2 (ha StartAct.transmit))).trans h2
  have htested : (holdBack (· = .noticeTest) .management framed).filter
      (fun x => x = .management || x = .noticeTest) = [.management, .noticeTest] := by
    obtain ⟨p, q, hs⟩ := List.append_of_mem (h2.mem_iff.2 (ha .noticeTest))
    refine filter_pair_of_before (h2.nodup_iff.2 hn0) hs ?_
    exact holdBack_before (a := .noticeTest) (b := .management) _ (by decide) (by decide) (h1.nodup_iff.2 hn0)
      (h1.mem_iff.2 (ha _)) hs
  have hreset : (holdBack (· = .softReset) .transmit (holdBack (· = .noticeTest) .management framed)).filter
      (fun x => x = .management || x = .noticeTest) = [.management, .noticeTest] := by
    rw [holdBack_filter _ _ (h2.mem_iff.2 (ha _)) (by intro x hx; simp at hx; rcases hx with rfl | rfl <;> decide)]
    exact htested
  split
  · rw [holdBack_filter _ _ (h3.mem_iff.2 (ha _)) (by intro x hx; simp at hx; rcases hx with rfl | rfl <;> decide)]
    exact hreset
  · exact hreset

/-! ### The cell that leaves the active uplink's queue -/

/-- `u` has the active uplink of `s`, with its record and its place in the head cell. -/
structure State.SameUplink (s u : State) : Prop where
  uplink : u.agent.activeUplink = s.agent.activeUplink
  config : (u.link s.agent.activeUplink).config = (s.link s.agent.activeUplink).config
  wordCount : (u.link s.agent.activeUplink).tx.wordCount = (s.link s.agent.activeUplink).tx.wordCount

theorem State.SameUplink.trans {s u v : State} (h : s.SameUplink u) (g : u.SameUplink v) : s.SameUplink v :=
  ⟨g.uplink.trans h.uplink, by rw [← h.config, ← h.uplink, g.config], by rw [← h.wordCount, ← h.uplink, g.wordCount]⟩

theorem State.SameUplink.of_channel {s u : State} (h : s.SameChannel u) : s.SameUplink u :=
  ⟨by rw [h.agent], h.config _, h.wordCount _⟩

theorem State.SameUplink.of_only {s u : State} (h : s.EventOnly u) : s.SameUplink u :=
  ⟨by rw [h.agent], by rw [h.link], by rw [h.link]⟩

theorem startAct_sameUplink (x : StartCtx) (s : State) {a : StartAct} (ha : a ≠ .management) :
    s.SameUplink (State.startAct x s a) := by
  have hrefl : s.SameUplink s := ⟨rfl, rfl, rfl⟩
  cases a with
  | management => exact absurd rfl ha
  | softReset =>
    simp only [State.startAct]
    split
    · exact ⟨rfl, by rw [softReset_link]; rfl, by rw [softReset_link]; rfl⟩
    · exact hrefl
  | noticeTimer =>
    simp only [State.startAct, State.noticeTimerAct]
    split
    · split
      · exact .of_only (noticeExpiry_only s)
      · exact ⟨rfl, rfl, rfl⟩
    · exact hrefl
  | noticeTest =>
    simp only [State.startAct]
    split
    · exact .of_only (noticeTest_only s)
    · exact hrefl
  | _ =>
    exact startAct_keeps_of_report (P := s.SameUplink) (fun u v hu hv => hu.trans (.of_channel hv))
      (fun u k a b hu => hu.trans (.of_only (report_only u k a b))) x hrefl (by simp) (by simp) (by simp) (by simp)

/-- Where no cell leaves the active uplink's queue at the start, none does at the management words (R117). -/
theorem uplinkDeparts_of_sameUplink {s u : State} (hs : s.channelOk) (h : s.SameUplink u)
    (hd : u.uplinkDeparts = true) : s.uplinkDeparts = true := by
  unfold State.uplinkDeparts Link.departs Link.sendsMgmt at *
  rw [h.uplink, h.config, h.wordCount] at hd
  simp only [Bool.and_eq_true, decide_eq_true_eq, Bool.not_eq_true', List.isEmpty_eq_false_iff] at hd ⊢
  obtain ⟨⟨hsends, hcount⟩, -⟩ := hd
  obtain ⟨-, -, -, -, -, hqueue⟩ := hs.1 s.agent.activeUplink
  exact ⟨⟨hsends, hcount⟩, hqueue (by rw [hcount]; decide)⟩

/-! ### A start -/

theorem channelFree_runs {d : NoticeDemand} {s : State} (h : s.channelFree d) (hd : d ≠ .none) : s.channelFree .runs :=
  ⟨channel_runs h.1 hd, h.2⟩

theorem noticeTest_channelFree {s : State} (h : s.channelFree .runs) : s.noticeTest.channelFree .full := by
  obtain ⟨⟨hc, hr, -⟩, hfree⟩ := h
  exact ⟨noticeTest_channel hc fun _ => hr nofun, by rw [noticeTest_agent]; exact hfree⟩

/-- What the acts other than the management words keep is kept by any of them in a row. -/
theorem startFold_channelFree {d : NoticeDemand} (x : StartCtx) {acts : List StartAct} (hm : .management ∉ acts)
    {s : State} (h : s.channelFree d) : (acts.foldl (State.startAct x) s).channelFree d :=
  startFold_induct (fun u => u.channelFree d) x acts s
    (fun _ ha _ hu => startAct_channelFree x hu fun e => hm (e ▸ ha)) h

/-- A start keeps the notice controller in order, and waiting in DUE unless a cell leaves the active uplink's queue and
frames that complete with the start come before the test for its place (R189). -/
theorem localFrameStart_channelFree {s : State} (h : s.channelFree .full) (i : StartInput) :
    (s.localFrameStart i).channelFree .runs ∧
    (s.uplinkDeparts = false ∨ i.arrivals = [] → (s.localFrameStart i).channelFree .full) := by
  cases hk : s.tb.startKind i.elapsed with
  | none => rw [localFrameStart_none hk]; exact ⟨channelFree_runs h nofun, fun _ => h⟩
  | some k =>
    rw [localFrameStart_eq hk]
    set x := s.startCtx i
    set s0 := s.withTb (s.tb.beginFrame x.new k i.elapsed)
    have h0 : s0.channelFree .full := channelFree_same s s0 h (.of_links rfl rfl rfl rfl)
    obtain ⟨pre, post, hpre, hpost, hseq, e⟩ := foldl_around x s.resetDue i.order .management s0
    have hbefore : (pre.foldl (State.startAct x) s0).channelFree .full := startFold_channelFree x hpre h0
    rw [e]
    cases hd : s.uplinkDeparts with
    | false =>
      have hnot : (pre.foldl (State.startAct x) s0).uplinkDeparts = false := by
        have hsame : s0.SameUplink (pre.foldl (State.startAct x) s0) :=
          startFold_induct (fun u => s0.SameUplink u) x pre s0
            (fun a ha u hu => hu.trans (startAct_sameUplink x u fun e => hpre (e ▸ ha))) ⟨rfl, rfl, rfl⟩
        by_contra hc
        have : s0.uplinkDeparts = true := uplinkDeparts_of_sameUplink h0.1.1 hsame (by simpa using hc)
        rw [show s0.uplinkDeparts = s.uplinkDeparts from rfl, hd] at this
        cases this
      have hfull := startFold_channelFree x hpost (fixManagement_channelFree hbefore fun _ => hnot)
      exact ⟨channelFree_runs hfull nofun, fun _ => hfull⟩
    | true =>
      have hmgmt := fixManagement_channelFree (channelFree_runs hbefore nofun) nofun
      refine ⟨startFold_channelFree x hpost hmgmt, fun ha => ?_⟩
      have ha : i.arrivals = [] := ha.resolve_left nofun
      have htest : x.testsPlace = true := by
        rw [show x.testsPlace = (s.uplinkDeparts && i.arrivals.isEmpty) from rfl, hd, ha]; rfl
      have hmem : StartAct.noticeTest ∈ post := by
        have hin := mem_startSequence s.resetDue i.order .noticeTest
        rw [hseq] at hin
        simp only [List.mem_append, List.mem_cons, reduceCtorEq, false_or] at hin
        refine hin.resolve_left fun hp => ?_
        obtain ⟨p1, p2, rfl⟩ := List.append_of_mem hp
        exact hpre (List.mem_append_left _
          (management_before_noticeTest (r := s.resetDue) (order := i.order) (post := p2 ++ .management :: post)
            (by rw [hseq]; simp)))
      obtain ⟨p, q, rfl⟩ := List.append_of_mem hmem
      simp only [List.mem_append, List.mem_cons, reduceCtorEq, false_or, not_or] at hpost
      rw [List.foldl_append, List.foldl_cons]
      refine startFold_channelFree x hpost.2 ?_
      have htested := noticeTest_channelFree (startFold_channelFree x hpost.1 hmgmt)
      have hact (u : State) : State.startAct x u .noticeTest = u.noticeTest := by simp [State.startAct, htest]
      rwa [hact]

theorem became_channelFree {s t : State} (h : s.channelFree .full) (hb : s.Became t) : t.channelFree .full := by
  cases hb with
  | did hd => exact did_channelFree s t h hd
  | start i ha => exact (localFrameStart_channelFree h i).2 (.inr ha)
  | joined i ha k hk =>
    obtain ⟨hruns, hfull⟩ := localFrameStart_channelFree h i
    split
    · exact noticeTest_channelFree
        (throughArrivals_keeps (P := State.channelFree .runs) hruns fun u x hu => frameCompletes_channelFree hu x)
    · next hd =>
      exact throughArrivals_keeps (P := State.channelFree .full) (hfull (.inl (by simpa using hd)))
        fun u x hu => frameCompletes_channelFree hu x

/-- Settles O13: the controller waits in DUE through every row, and through a start by the test that follows the cell
leaving the active uplink's queue. -/
theorem stepKeepsNotices : Obligations.StepKeepsNotices := by
  intro s t hm hn hstep
  have hs : s.channelFree .full := (channelFree_full_iff s).2 ⟨hm, hn⟩
  suffices t.channelFree .full from ((channelFree_full_iff t).1 this).2
  unfold step at hstep
  split at hstep
  · cases hstep; exact hs
  · next i rest _ =>
    obtain ⟨u, hu, hb⟩ := exec_became i (s.withPending rest)
    rw [hu] at hstep; cases hstep
    have h0 : (s.withPending rest).channelFree .full := channelFree_same s _ hs (.of_links rfl rfl rfl rfl)
    exact became_channelFree h0 hb

end Sys2Proof.Machine
end

section
/-!
PROOFS. The queue of commands, the codes of the command rows, the power-on values, and the ways a command is turned away
or taken (R129, R131, R134 to R144).
-/

namespace Sys2Proof.Machine

/-! ### The queue of commands -/

/-- Settles O1: by the two cases of the queue. -/
theorem stepRunsFrontCommand : Obligations.StepRunsFrontCommand :=
  ⟨fun i rest s h => by unfold step; rw [h], fun s h => by unfold step; rw [h]⟩

theorem takeByCode_pending (s : State) (code : BitVec 7) (c : CommandCell) :
    (s.takeByCode code c).pending = s.pending :=
  takeByCode_keeps (fun u => u.pending = s.pending) (fun _ _ hu hv => hv.pending.trans hu)
    (fun code b c _ hu => (bodies_pending code b c _).trans hu) s code c rfl

theorem localFrameStart_pending (s : State) (i : StartInput) : (s.localFrameStart i).pending = s.pending :=
  localFrameStart_keeps (P := fun u => u.pending = s.pending) (fun _ _ _ _ h => h)
    (fun x u a h => (startAct_pending x u a).trans h) s i rfl

theorem receiveAct_pending (l : LinkId) (f : FrameInProgress) (ws : Vector Word 63) (startAt : Nat) (rf nf : Bool)
    (s : State) (a : ReceiveAct) : (State.receiveAct l f ws startAt rf nf s a).pending = s.pending := by
  cases a with
  | cell =>
    exact cellAct_keeps (fun u => u.pending = s.pending) (fun _ _ _ hu _ _ => hu) (fun _ _ _ hu => hu)
      (fun _ _ hu hv => hv.pending.trans hu) (fun u code c hu => (takeByCode_pending u code c).trans hu) rfl _ _ _ _
  | store => simp only [State.receiveAct, State.storeAct]; (repeat' split) <;> simp
  | check => simp only [State.receiveAct, State.checkAct]; split <;> simp
  | remoteAlarm => simp only [State.receiveAct, State.remoteAlarmAct]; (repeat' split) <;> simp
  | collector => simp only [State.receiveAct, State.collectorAct]; (repeat' split) <;> simp
  | timing => simp only [State.receiveAct, State.timingAct]; split <;> simp

theorem did_pending {s t : State} (h : s.Did t) : t.pending = s.pending := by
  cases h with
  | same => rfl
  | powerOn => rfl
  | notice => simp
  | taken code c => exact takeByCode_pending s code c
  | clockReturn => rfl
  | bits l old new => unfold State.receiveBits; simp only; (repeat' split) <;> simp [State.enterSync]
  | header l e b w rf => unfold State.judgeHeader; simp only; split <;> simp
  | frame l e b f ws d acts rf nf =>
    exact foldl_keeps State.pending _ (fun u a => receiveAct_pending l f ws d rf nf u a) acts _

/-- Settles O2: every row is one of the ten things that can happen to a state, and none of them touches the queue. -/
theorem everyCommandCompletesAndKeepsQueue : Obligations.EveryCommandCompletesAndKeepsQueue := by
  intro i s
  obtain ⟨t, ht, hb⟩ := exec_became i s
  refine ⟨t, ht, became_keeps (P := fun u => u.pending = s.pending) (fun _ _ hu hd => (did_pending hd).trans hu)
    (fun u i hu => (localFrameStart_pending u i).trans hu) s t rfl hb⟩

/-! ### The codes of the commands -/

/-- The row of a code of R198 is the taking of its command, and no bad command. -/
theorem commandOf_of_code {code : BitVec 7} (h : commandCodes.contains code = true) (c : CommandCell) (s : State) :
    exec (commandOf code c) s = .next (s.takeByCode code c) ∧ commandOf code c ≠ .badCommand code c := by
  simp only [commandCodes, List.contains_eq_mem, List.mem_cons, List.not_mem_nil, or_false, decide_eq_true_eq] at h
  rcases h with rfl | rfl | rfl | rfl | rfl | rfl | rfl | rfl | rfl | rfl | rfl | rfl | rfl | rfl | rfl | rfl | rfl | rfl
    | rfl | rfl | rfl | rfl | rfl | rfl | rfl | rfl | rfl
  all_goals exact ⟨rfl, by simp [commandOf]⟩

/-- Every other code is BAD_COMMAND (R147). -/
theorem commandOf_of_noCode {code : BitVec 7} (h : commandCodes.contains code = false) (c : CommandCell) :
    commandOf code c = .badCommand code c := by
  simp [commandCodes] at h
  simp [commandOf, h]

theorem exec_badCommand {code : BitVec 7} (h : commandCodes.contains code = false) (c : CommandCell) (s : State) :
    exec (.badCommand code c) s = .next (s.takeByCode code c) := by
  show Host.Outcome.next _ = _
  rw [if_neg (by simpa using h), takeBadCommand_eq s code c h]

theorem exec_commandOf (code : BitVec 7) (c : CommandCell) (s : State) :
    exec (commandOf code c) s = .next (s.takeByCode code c) := by
  by_cases h : commandCodes.contains code = true
  · exact (commandOf_of_code h c s).1
  · have h : commandCodes.contains code = false := by simpa using h
    rw [commandOf_of_noCode h, exec_badCommand h]

/-- Settles O3: code by code of the list, and by the rest of the codes at once. -/
theorem commandCodesNameTheRows : Obligations.CommandCodesNameTheRows := by
  refine fun code c s => ⟨exec_commandOf code c s, fun h => ?_, fun h => commandOf_of_noCode h c⟩
  by_contra hc
  exact (commandOf_of_code (by simpa using hc) c s).2 h

/-! ### Power-on -/

theorem strapAddr_toNat (addr : BitVec 4) : (0x4#4 ++ addr : BitVec 8).toNat = 0x40 + addr.toNat := by
  rw [BitVec.toNat_append, ← Nat.shiftLeft_add_eq_or_of_lt addr.isLt]
  rfl

/-- Settles O4: the power-on state, block by block. -/
theorem powerOnValues : Obligations.PowerOnValues := by
  intro addr upl s
  refine ⟨State.powerOn addr upl s.pending, rfl, strapAddr_toNat addr, rfl, rfl, rfl, rfl, rfl, fun i => ?_, fun i => ?_,
    fun l => ?_, rfl, rfl, rfl, rfl, rfl, rfl, rfl, rfl, rfl, fun k i => ?_, fun i => ?_, rfl, fun b => ?_, rfl, rfl⟩
  · exact Vector.getElem_replicate _
  · exact Vector.getElem_replicate _
  · rw [powerOn_link]
    exact ⟨rfl, rfl, rfl, rfl, rfl, rfl, rfl, rfl, rfl, rfl, rfl, rfl, rfl, rfl, rfl, rfl, rfl, rfl, rfl, rfl, rfl⟩
  · cases k <;> exact Vector.getElem_replicate _
  · exact Vector.getElem_replicate _
  · rw [powerOn_bridge]
    exact ⟨rfl, fun k => Vector.getElem_replicate _⟩

/-- Settles O5: the power-on values satisfy each invariant of the steps. -/
theorem resetIsOk : Obligations.ResetIsOk := by
  obtain ⟨hmanage, hnotice⟩ := (channelFree_full_iff _).1 (channelFree_powerOn .full Config.resetAddr Config.resetUplink [])
  exact ⟨receiveOk_powerOn _ _ _, hmanage, timebaseOk_powerOn _ _ _, bankOk_cleared, mapOk_cleared _ rfl,
    bridgesOk_powerOn _ _ _, eventsOk_cleared, hnotice⟩

/-! ### Taking and answering -/

/-- Settles O42: by the ways a cell is not taken, refused for congestion, or answered BUSY. -/
theorem commandsAreTurnedAway : Obligations.CommandsAreTurnedAway := by
  intro code c s
  rw [exec_commandOf, takeByCode_eq]
  refine ⟨fun h => by rw [take_of_not_arrives h], fun h => by rw [take_of_other h],
    fun ha hu hp => by rw [take_of_full ha hu hp]; rfl, fun hp hr => ?_⟩
  rw [take_of_placed hp, if_pos hr]; rfl

/-- Where no notice waits in DUE, or the active uplink does not move, the taking sets fields of the agent and no more. -/
theorem atTaking_of_unmoved {s : State} {c : CommandCell} (h : s.notice.state ≠ .due ∨ s.agent.activeUplink = c.arrival) :
    s.atTaking c = (s.noteTaking c).holdPlace c.arrival := by
  have h1 : (s.noteTaking c).movedTest s.agent.activeUplink = s.noteTaking c :=
    movedTest_same _ _ (h.imp id Eq.symm)
  have h2 : ((s.noteTaking c).holdPlace c.arrival).movedTest s.agent.activeUplink =
      (s.noteTaking c).holdPlace c.arrival := movedTest_same _ _ (h.imp id Eq.symm)
  unfold State.atTaking State.atTest
  split
  · rw [h1]
  · exact h2

theorem atTaking_link_ne (s : State) {c : CommandCell} {l : LinkId} (h : l ≠ c.arrival) :
    (s.atTaking c).link l = s.link l := by
  obtain ⟨u, hlinks, -, -, -, -, -, hup, hu⟩ := atTaking_only s c
  have e : u.link l = s.link l := by simp [State.link, hlinks]
  have hq : ((s.atTaking c).link l).queue = (u.link l).queue := hu.other l (by rw [hup]; exact h)
  have hl : (s.atTaking c).link l = { u.link l with queue := ((s.atTaking c).link l).queue } := hu.link l
  rw [hl, hq, e]

/-- Settles O43: by the notice's test, all that the taking does besides the fields of the agent. -/
theorem takingSetsActiveUplink : Obligations.TakingSetsActiveUplink := by
  intro c s
  refine ⟨atTaking_agent s c, atTaking_tb s c, atTaking_map s c, atTaking_bank s c, atTaking_bridges s c,
    atTaking_events s c, fun l hl => atTaking_link_ne s hl, ?_, fun h => ?_⟩
  · obtain ⟨u, hlinks, -, -, -, -, -, -, hu⟩ := atTaking_only s c
    have e : u.link c.arrival = s.link c.arrival := by simp [State.link, hlinks]
    have hl : (s.atTaking c).link c.arrival =
      { u.link c.arrival with queue := ((s.atTaking c).link c.arrival).queue } := hu.link _
    rw [← e]; exact hl
  · rw [atTaking_of_unmoved h]; exact ⟨rfl, rfl⟩

/-- A cell built with its check is good (R127). -/
theorem cellGood_buildCell (marker dest src aux : Byte) (tag : BitVec 3) (code : BitVec 7) (status : BitVec 6)
    (p : Vector Byte 8) : cellGood (buildCell marker dest src aux tag code status p) = true :=
  decide_eq_true rfl

/-- Settles O44: the response is placed and its check is built with it. -/
theorem responseIsPlaced : Obligations.ResponseIsPlaced :=
  fun _ _ _ _ => ⟨rfl, cellGood_buildCell ..⟩

/-- Settles O45: by the branches of a taking by group or broadcast. -/
theorem sharedCommandsHaveNoResponse : Obligations.SharedCommandsHaveNoResponse := by
  intro code c s ha hm
  rw [exec_commandOf, takeByCode_eq, take_of_shared ha hm]
  refine ⟨fun h => ?_, fun hr hk => ?_⟩
  · rw [if_pos (by simpa using h)]
  · rw [hr, hk]; rfl

end Sys2Proof.Machine
end

section
/-!
PROOFS. The readings, the address slots and PART-RESET (R111, R142, R147, R150 to R153, R157 to R159, R161, R165, R168,
R175).
-/

namespace Sys2Proof.Machine

/-! ### The readings (R150, R157 to R159, R161, R165, R168, R175) -/

theorem bodyOf_of_noCode {code : BitVec 7} (h : commandCodes.contains code = false) : bodyOf code = badCommandBody := by
  simp [commandCodes] at h
  simp [bodyOf, h]

/-- A connection entry as MAP-WRITE and MAP-READ carry it, behind the bytes of the cell that named its slot. -/
theorem entryPayload_eq {c : CommandCell} {l : LinkId} {t : SlotId} (hl : (pByte c 0).toNat = l.val)
    (ht : (pByte c 1).toNat = t.val) (e : Entry) : entryPayload l t e = [pByte c 0, pByte c 1] ++ e.bytes := by
  rw [entryPayload, byteOf_eq hl, byteOf_eq ht]

theorem mapReadBody_badParam {c : CommandCell}
    (h : 8 ≤ (pByte c 0).toNat ∨ 64 ≤ (pByte c 1).toNat ∨ 2 ≤ (pByte c 2).toNat) (b : Bool) (s : State) :
    mapReadBody b c s = (s, .refusal .badParam) := by
  unfold mapReadBody
  split
  · next hl ht hk =>
    rcases h with h | h | h
    · rw [finOf_eq_none h] at hl; cases hl
    · rw [finOf_eq_none h] at ht; cases ht
    · rw [bankOf_eq_none h] at hk; cases hk
  · rfl

/-- Settles O46: each body returns what it reads, its operands in range, and refuses them out of range. -/
theorem partReadingsAnswer : Obligations.PartReadingsAnswer := by
  intro c s h
  refine ⟨exec_of_examines h rfl ?_, exec_of_examines h rfl ?_, fun h0 => exec_of_examines h rfl ?_,
    fun h0 => exec_of_examines h rfl ?_, fun h0 => exec_of_examines h rfl ?_,
    fun l t k hl ht hk => exec_of_examines h rfl ?_, fun h0 => exec_of_examines h rfl (mapReadBody_badParam h0 _ _),
    fun code hc => ?_⟩
  · simp [identifyBody, Answer.success, Config.partCodeHigh, Config.partCodeLow, Config.revision]
  · simp [bankStatusBody, Answer.success]
  · simp [refStatusBody, h0, flagOf, Answer.success, qualifiedMarks_at]
  · simp [refStatusBody, h0, flagOf, Answer.success, wordBytes, Timebase.pendingMarks]
  · simp [refStatusBody, flagOf_eq_none h0, Answer.refusal]
  · simp [mapReadBody, finOf_eq_some hl, finOf_eq_some ht, hk, Answer.success, entryPayload_eq hl ht]
  · rw [exec_badCommand hc, takeByCode_eq, take_of_examines h, bodyOf_of_noCode hc]
    rfl

theorem countReadBody_badParam {c : CommandCell} (h : 8 ≤ (pByte c 0).toNat ∨ 2 ≤ (pByte c 1).toNat ∨
    2 ≤ (pByte c 2).toNat ∨ 2 ≤ (pByte c 3).toNat) (b : Bool) (s : State) :
    countReadBody b c s = (s, .refusal .badParam) := by
  unfold countReadBody
  split
  · next hl hm hp hc =>
    rcases h with h | h | h | h
    · rw [finOf_eq_none h] at hl; cases hl
    · rw [flagOf_eq_none h] at hm; cases hm
    · rw [flagOf_eq_none h] at hp; cases hp
    · rw [flagOf_eq_none h] at hc; cases hc
  · rfl

theorem legReadBody_badParam {c : CommandCell} (h : 16 ≤ (pByte c 0).toNat ∨ 8 ≤ (pByte c 1).toNat) (b : Bool)
    (s : State) : legReadBody b c s = (s, .refusal .badParam) := by
  unfold legReadBody
  split
  · next hb hk =>
    rcases h with h | h
    · rw [finOf_eq_none h] at hb; cases hb
    · rw [finOf_eq_none h] at hk; cases hk
  · rfl

/-- A cleared page holds zeros, and every other page what it held (R159). -/
theorem counters_clearCounters (x : Link) (mgmt page1 : Bool) :
    (∀ n ∈ (x.clearCounters mgmt page1).counters mgmt page1, n = 0#16) ∧
    (∀ m p, (m, p) ≠ (mgmt, page1) → (x.clearCounters mgmt page1).counters m p = x.counters m p) := by
  cases mgmt <;> cases page1 <;>
    exact ⟨by simp [Link.clearCounters, Link.counters], fun m p h => by
      cases m <;> cases p <;> first | rfl | exact absurd rfl h⟩

theorem atTaking_statusPayload (s : State) (c : CommandCell) (l : LinkId) :
    ((s.atTaking c).link l).statusPayload = (s.link l).statusPayload := by
  simp [Link.statusPayload]

theorem atTaking_counters (s : State) (c : CommandCell) (l : LinkId) (mgmt page1 : Bool) :
    ((s.atTaking c).link l).counters mgmt page1 = (s.link l).counters mgmt page1 := by
  cases mgmt <;> cases page1 <;> simp [Link.counters]

/-- Settles O47: each body returns what it reads, its operands in range, and refuses them out of range. -/
theorem linkReadingsAnswer : Obligations.LinkReadingsAnswer := by
  intro c s h
  refine ⟨fun l hl => ⟨exec_of_examines h rfl ?_, exec_of_examines h rfl ?_,
      fun mgmt page1 clear hm hp hc => exec_of_examines h rfl ?_⟩,
    fun h0 => ⟨exec_of_examines h rfl ?_, exec_of_examines h rfl ?_⟩,
    fun h0 => exec_of_examines h rfl (countReadBody_badParam h0 _ _),
    fun b k hb hk => exec_of_examines h rfl ?_, fun h0 => exec_of_examines h rfl (legReadBody_badParam h0 _ _),
    fun x mgmt page1 => ⟨(counters_clearCounters x mgmt page1).1, (counters_clearCounters x mgmt page1).2, ?_⟩⟩
  · simp [linkGetBody, finOf_eq_some hl, Answer.success, linkRecordPayload, byteOf_eq hl]
  · simp [linkStatusBody, finOf_eq_some hl, Answer.success, atTaking_statusPayload]
  · simp [countReadBody, finOf_eq_some hl, hm, hp, hc, Answer.success, atTaking_counters]
  · simp [linkGetBody, finOf_eq_none h0, Answer.refusal]
  · simp [linkStatusBody, finOf_eq_none h0, Answer.refusal]
  · simp [legReadBody, finOf_eq_some hb, finOf_eq_some hk, Answer.success]
  · cases mgmt <;> cases page1 <;> rfl

/-! ### The address slots (R151, R152) -/

theorem aliasTaken_iff (a : Agent) (i : Fin 3) (addr : Byte) :
    a.aliasTaken i addr = true ↔ ∃ j : Fin 3, j ≠ i ∧ a.aliases[j.val] = some addr := by
  simp [Agent.aliasTaken]

theorem groupTaken_iff (a : Agent) (i : Fin 2) (addr : Byte) :
    a.groupTaken i addr = true ↔ ∃ j : Fin 2, j ≠ i ∧ a.groups[j.val] = some addr := by
  simp [Agent.groupTaken]

theorem groupAddrLegal_iff (b : Byte) :
    groupAddrLegal b = true ↔ b = 0#8 ∨ (0xF0 ≤ b.toNat ∧ b ≠ 0xFF#8) := by
  simp [groupAddrLegal]

/-- The addresses of slots other than the written one, as the taking leaves them. -/
theorem atTaking_slots (s : State) (c : CommandCell) : (s.atTaking c).agent.aliases = s.agent.aliases ∧
    (s.atTaking c).agent.groups = s.agent.groups ∧ (s.atTaking c).agent.strapAddr = s.agent.strapAddr := by
  rw [atTaking_agent]; exact ⟨rfl, rfl, rfl⟩

theorem addrSetBody_badParam {c : CommandCell}
    (h : pByte c 0 = 0#8 ∨ 4 ≤ (pByte c 0).toNat ∨ 0xF0 ≤ (pByte c 1).toNat) (b : Bool) (s : State) :
    addrSetBody b c s = (s, .refusal .badParam) := by
  unfold addrSetBody
  split
  · rfl
  · next i hi =>
    have h1 : 0xF0 ≤ (pByte c 1).toNat := by
      rcases h with h | h | h
      · rw [aliasIndex_none (.inl h)] at hi; cases hi
      · rw [aliasIndex_none (.inr h)] at hi; cases hi
      · exact h
    simp only [if_pos h1]

/-- ADDR-SET with its slot and address in range: a duplicate is refused, any other written (R151). -/
theorem addrSetBody_inRange {c : CommandCell} {i : Fin 3} (hi : (pByte c 0).toNat = i.val + 1)
    (h1 : (pByte c 1).toNat < 0xF0) (b : Bool) (s : State) : addrSetBody b c s =
      if pByte c 1 = s.agent.strapAddr ∨ ∃ j : Fin 3, j ≠ i ∧ s.agent.aliases[j.val] = some (pByte c 1)
      then (s, .refusal .duplicate)
      else (s.withAgent { s.agent with aliases := s.agent.aliases.set i.val (addrOf (pByte c 1)) },
        .success 0#8 [addrByte (s.agent.aliases.set i.val (addrOf (pByte c 1)))[0],
          addrByte (s.agent.aliases.set i.val (addrOf (pByte c 1)))[1],
          addrByte (s.agent.aliases.set i.val (addrOf (pByte c 1)))[2]]) := by
  simp only [addrSetBody, aliasIndex_some hi, if_neg (show ¬0xF0 ≤ (pByte c 1).toNat by omega), aliasTaken_iff]
  by_cases hs : pByte c 1 = s.agent.strapAddr
  · simp only [hs, if_true, true_or]
  · simp only [hs, if_false, false_or]

theorem groupSetBody_badParam {c : CommandCell} (h : 2 ≤ (pByte c 0).toNat ∨
    (pByte c 1 ≠ 0#8 ∧ (pByte c 1).toNat < 0xF0) ∨ pByte c 1 = 0xFF#8) (b : Bool) (s : State) :
    groupSetBody b c s = (s, .refusal .badParam) := by
  unfold groupSetBody
  split
  · rfl
  · next i hi =>
    have hlegal : groupAddrLegal (pByte c 1) = false := by
      rw [← Bool.not_eq_true, groupAddrLegal_iff]
      rcases h with h | ⟨h0, h1⟩ | h
      · rw [finOf_eq_none h] at hi; cases hi
      · rintro (h | ⟨h, -⟩)
        · exact h0 h
        · omega
      · rw [h]; simp
    simp only [hlegal, Bool.not_false, if_true]

/-- GROUP-SET with its slot and address in range: a duplicate is refused, any other written (R152). -/
theorem groupSetBody_inRange {c : CommandCell} {i : Fin 2} (hi : (pByte c 0).toNat = i.val)
    (h1 : pByte c 1 = 0#8 ∨ (0xF0 ≤ (pByte c 1).toNat ∧ pByte c 1 ≠ 0xFF#8)) (b : Bool) (s : State) :
    groupSetBody b c s = if ∃ j : Fin 2, j ≠ i ∧ s.agent.groups[j.val] = some (pByte c 1)
      then (s, .refusal .duplicate)
      else (s.withAgent { s.agent with groups := s.agent.groups.set i.val (addrOf (pByte c 1)) },
        .success 0#8 [addrByte (s.agent.groups.set i.val (addrOf (pByte c 1)))[0],
          addrByte (s.agent.groups.set i.val (addrOf (pByte c 1)))[1]]) := by
  simp only [groupSetBody, finOf_eq_some hi, (groupAddrLegal_iff _).2 h1, Bool.not_true, Bool.false_eq_true, if_false,
    groupTaken_iff]

/-- Settles O48: by the checks of the two bodies. -/
theorem addressSlotsAreWritten : Obligations.AddressSlotsAreWritten := by
  intro c s h
  obtain ⟨haliases, hgroups, hstrap⟩ := atTaking_slots s c
  refine ⟨fun h0 => exec_of_examines h rfl (addrSetBody_badParam h0 _ _), fun i hi h1 => ⟨fun hd => ?_, fun hd => ?_⟩,
    fun h0 => exec_of_examines h rfl (groupSetBody_badParam h0 _ _), fun i hi h1 => ⟨fun hd => ?_, fun hd => ?_⟩⟩
  · refine exec_of_examines h rfl ((addrSetBody_inRange hi h1 _ _).trans (if_pos ?_))
    rw [haliases, hstrap]; exact hd
  · refine ⟨_, rfl, ?_⟩
    have e := (addrSetBody_inRange hi h1 true (s.atTaking c)).trans (if_neg (by rw [haliases, hstrap]; exact hd))
    rw [haliases] at e
    exact exec_of_examines h rfl e
  · refine exec_of_examines h rfl ((groupSetBody_inRange hi h1 _ _).trans (if_pos ?_))
    rw [hgroups]; exact hd
  · refine ⟨_, rfl, ?_⟩
    have e := (groupSetBody_inRange hi h1 true (s.atTaking c)).trans (if_neg (by rw [hgroups]; exact hd))
    rw [hgroups] at e
    exact exec_of_examines h rfl e

/-! ### PART-RESET (R142, R143, R153) -/

/-- Settles O49: by the two bodies of PART-RESET, and the soft reset block by block. -/
theorem partResetPendsOrApplies : Obligations.PartResetPendsOrApplies := by
  refine fun c s => ⟨fun h => exec_of_examines h rfl rfl, fun ha hm hr => ?_, fun u => ⟨fun l => ?_, fun bk j => ?_,
    fun j => ?_, fun b => ?_, rfl, rfl, rfl, rfl, rfl, rfl⟩⟩
  · show Host.Outcome.next (s.take _ _ _ _) = _
    rw [take_of_shared ha hm, hr]; rfl
  · rw [softReset_link]; rfl
  · cases bk <;> exact Vector.getElem_replicate _
  · exact Vector.getElem_replicate _
  · rw [softReset_bridge]; rfl

end Sys2Proof.Machine
end

section
/-!
PROOFS. A change of source, REF-SET and TIME-SET (R40, R48, R55, R59, R160, R162).
-/

namespace Sys2Proof.Machine

/-! ### Entering a source (R40, R48, R55) -/

/-- The records after a report that is no SLIP are those before it and the reported one (R182). -/
theorem mem_report_records {s : State} {k : EventKind} (hk : k ≠ .slip) {a b : Byte} {r : EventRecord}
    (h : r ∈ (s.report k a b).events.records) : r ∈ s.events.records ∨ r = s.newRecord k a b := by
  rw [report_events, if_neg hk] at h
  split at h
  · exact .inl h
  · simp only at h
    split at h
    · simpa using h
    · exact .inl h

/-- A re-centred store, field by field (R40). -/
theorem recentre_eq (x : Store) : x.recentre = { x with
    queue := if x.queue.length = 2 then x.queue.drop 1 else x.queue } := by
  unfold Store.recentre
  rw [show Config.storeCapacity = 2 from rfl]
  split <;> rfl

/-- Settles O52: by the source entered, and by what its report and the re-centring leave alone. -/
theorem lockingRecentresStore : Obligations.LockingRecentresStore := by
  refine ⟨fun s new => ⟨_, rfl, ?_⟩, fun s l => ⟨fun a b hq => ?_, fun hq => ?_, fun k => ?_, fun k hk => ?_,
    fun r hr => ?_⟩⟩
  · cases new with
    | free => rfl
    | holdover => rfl
    | locked l =>
      simp only [State.enterSource, State.recentreSource, recentre_eq]
      rfl
  · rw [enterSource_link_store, if_pos rfl, recentre_eq, if_pos (by rw [hq]; rfl), hq]; rfl
  · rw [enterSource_link_store, if_pos rfl, recentre_eq, if_neg (by omega)]
  · simp
  · rw [enterSource_link_store, if_neg (by simpa using hk.symm)]
  · refine (mem_report_records (by decide) hr).imp (fun h => ?_) fun h => ?_
    · simpa using h
    · rw [h]; rfl

/-! ### REF-SET (R160) -/

theorem entryByte_eq (c : CommandCell) (i : Fin 4) :
    [pByte c 1, pByte c 2, pByte c 3, pByte c 4][i.val] = c.payload[i.val + 1] := by
  fin_cases i <;> rfl

theorem entryBytes_of_codes {c : CommandCell} {es : List RefEntry} (hlen : es.length ≤ 4)
    (h : ∀ i : Fin 4, (h : i.val < es.length) → c.payload[i.val + 1] = refEntryCode es[i.val]) :
    [pByte c 1, pByte c 2, pByte c 3, pByte c 4].take es.length = es.map refEntryCode := by
  refine List.ext_getElem (by simp; omega) fun n h1 h2 => ?_
  have hn : n < es.length := by simpa using h2
  rw [List.getElem_take, List.getElem_map, ← h ⟨n, by omega⟩ hn]
  exact entryByte_eq c ⟨n, by omega⟩

theorem refSetBody_badCount {c : CommandCell} (h : pByte c 0 = 0#8 ∨ 4 < (pByte c 0).toNat) (b : Bool) (s : State) :
    refSetBody b c s = (s, .refusal .badParam) := by
  unfold refSetBody
  rw [if_pos]
  rcases h with h | h <;> simp [h]

theorem refSetBody_badEntry {c : CommandCell} {i : Fin 4} (hi : i.val < (pByte c 0).toNat)
    (h9 : 9 ≤ (c.payload[i.val + 1]).toNat) (b : Bool) (s : State) :
    refSetBody b c s = (s, .refusal .badParam) := by
  have hnone : refEntriesOf ([pByte c 1, pByte c 2, pByte c 3, pByte c 4].take (pByte c 0).toNat) = none := by
    refine refEntriesOf_none _ ⟨c.payload[i.val + 1], ?_, h9⟩
    rw [← entryByte_eq]
    exact List.mem_take_iff_getElem.2 ⟨i.val, by simp; omega, rfl⟩
  simp only [refSetBody, hnone]
  split <;> rfl

/-- The list and the flags written, and the selection they bring about (R54, R160). -/
def State.refWritten (s : State) (c : CommandCell) (es : List RefEntry) : State :=
  (s.withTb { s.tb with
    refList := es, revertive := (pByte c 5).getLsbD 0, follow := (pByte c 5).getLsbD 1 }).select

/-- REF-SET with its count and entries in range: a repeated entry is refused, any other list written (R160). -/
theorem refSetBody_inRange {c : CommandCell} {es : List RefEntry} (h1 : 1 ≤ es.length) (h4 : es.length ≤ 4)
    (hcount : (pByte c 0).toNat = es.length)
    (h : ∀ i : Fin 4, (h : i.val < es.length) → c.payload[i.val + 1] = refEntryCode es[i.val]) (b : Bool) (s : State) :
    refSetBody b c s = if es.Nodup then (s.refWritten c es, .success (timeSourceCode (s.refWritten c es).tb.source)
        (refPayload es ((pByte c 5).getLsbD 0) ((pByte c 5).getLsbD 1)))
      else (s, .refusal .duplicate) := by
  simp only [refSetBody, hcount]
  rw [if_neg (by simp only [Bool.or_eq_true, decide_eq_true_eq]; omega), entryBytes_of_codes h4 h, refEntriesOf_code]
  by_cases hd : es.Nodup
  · simp only [(noRepeats_iff es).2 hd, hd, Bool.not_true, Bool.false_eq_true, if_false, if_true]
    rfl
  · have : noRepeats es = false := by rw [← Bool.not_eq_true, noRepeats_iff]; exact hd
    simp only [this, hd, Bool.not_false, if_true, if_false]

/-! ### TIME-SET (R162) -/

theorem following_iff (t : Timebase) : t.following = true ↔ t.follow = true ∧ ∃ l, t.source = .locked l := by
  unfold Timebase.following
  cases t.source <;> simp

/-- Settles O53: by the checks of the two bodies. -/
theorem timingCommandsWrite : Obligations.TimingCommandsWrite := by
  intro c s h
  refine ⟨fun h0 => exec_of_examines h rfl (refSetBody_badCount h0 _ _),
    fun i hi _ h9 => exec_of_examines h rfl (refSetBody_badEntry hi h9 _ _),
    fun es h1 h4 hcount hes => ⟨fun hd => ?_, fun hd => ⟨_, rfl, ?_⟩⟩, fun hf hl => exec_of_examines h rfl ?_,
    fun hn => exec_of_examines h rfl ?_⟩
  · exact exec_of_examines h rfl ((refSetBody_inRange h1 h4 hcount hes _ _).trans (if_neg hd))
  · have e := (refSetBody_inRange h1 h4 hcount hes true (s.atTaking c)).trans (if_pos hd)
    unfold State.refWritten at e
    rw [atTaking_tb] at e
    exact exec_of_examines h rfl e
  · have hfollow : s.tb.following = true := (following_iff _).2 ⟨hf, hl⟩
    simp [timeSetBody, hfollow, Answer.refusal]
  · have hfollow : s.tb.following = false := by rw [← Bool.not_eq_true, following_iff]; exact hn
    simp [timeSetBody, hfollow, Answer.begun, wordBytes]

end Sys2Proof.Machine
end

section
/-!
PROOFS. MAP-WRITE, the engine's commands and the switch's (R85, R88, R91, R92, R95, R163 to R171).
-/

namespace Sys2Proof.Machine

theorem scheduled_of_ne {x : Scheduler} (h : x ≠ .idle) : x.scheduled = true := (scheduled_iff x).2 h

theorem not_running_of {x : Engine} (h : ¬∃ op pos, x = .running op pos) : x.isRunning = false :=
  not_running fun op pos e => h ⟨op, pos, e⟩

/-! ### MAP-WRITE (R163, R164) -/

theorem mapWriteBody_badParam {c : CommandCell} (h : 8 ≤ (pByte c 0).toNat ∨ 64 ≤ (pByte c 1).toNat ∨
    pByte c 1 = 0#8 ∨ entryOf c = none) (b : Bool) (s : State) : mapWriteBody b c s = (s, .refusal .badParam) := by
  unfold mapWriteBody
  split
  · next l t e hl ht he =>
    rcases h with h | h | h | h
    · rw [finOf_eq_none h] at hl; cases hl
    · rw [finOf_eq_none h] at ht; cases ht
    · rw [finOf_iff, h] at ht
      rw [if_pos (Fin.ext ht.symm)]
    · rw [h] at he; cases he
  · rfl

/-- MAP-WRITE with its slot and entry in range: its checks in their order (R163, R164). -/
theorem mapWriteBody_inRange {c : CommandCell} {l : LinkId} {t : SlotId} {e : Entry} (hl : (pByte c 0).toNat = l.val)
    (ht : (pByte c 1).toNat = t.val) (h0 : t ≠ 0) (he : entryOf c = some e) (b : Bool) (s : State) :
    mapWriteBody b c s =
      if s.sourceUsable e.source = false then (s, .refusal .badSource)
      else if s.bank.scheduler.scheduled then (s, .refusal .pending)
      else if s.bank.engine.isRunning then (s, .refusal .busy)
      else (s.writeStandby (slotIndex l t) e,
        .success (bankCode s.standby) ([pByte c 0, pByte c 1] ++ e.bytes)) := by
  simp only [mapWriteBody, finOf_eq_some hl, finOf_eq_some ht, he, if_neg h0, entryPayload_eq hl ht,
    Bool.not_eq_true']

theorem sourceUsable_eq_false {s : State} {e : EntrySource} {k : LinkId} {p : SlotId} (h : e = .slot k p)
    (hp : (s.link k).config.shape.isPayload p.val = false) : s.sourceUsable e = false := by rw [h]; exact hp

theorem sourceUsable_eq_true {s : State} {e : EntrySource}
    (h : ∀ k p, e = .slot k p → (s.link k).config.shape.isPayload p.val = true) : s.sourceUsable e = true := by
  cases e with
  | slot k p => exact h k p rfl
  | _ => rfl

theorem atTaking_sourceUsable (s : State) (c : CommandCell) (e : EntrySource) :
    (s.atTaking c).sourceUsable e = s.sourceUsable e := by
  cases e with
  | slot k p => simp [State.sourceUsable]
  | _ => rfl

/-- One entry of the standby bank written in a map (R164). -/
def ConnMap.write (m : ConnMap) (k : Bank) (i : Fin 512) (e : Entry) : ConnMap :=
  m.setEntries k ((m.entries k).set i.val e)

theorem write_entries_self (m : ConnMap) (k : Bank) (i : Fin 512) (e : Entry) (j : Fin 512) :
    ((m.write k i e).entries k)[j.val] = if j = i then e else (m.entries k)[j.val] := by
  unfold ConnMap.write
  rw [entries_setEntries_same]
  simp only [Vector.getElem_set, Fin.ext_iff, eq_comm]

theorem write_entries_other (m : ConnMap) (k : Bank) (i : Fin 512) (e : Entry) :
    (m.write k.other i e).entries k = m.entries k := by
  have := entries_setEntries_other m k.other ((m.entries k.other).set i.val e)
  rwa [other_other] at this

theorem write_holds (m : ConnMap) (k : Bank) (i : Fin 512) (e : Entry) : (m.write k i e).holds = m.holds := by
  cases k <;> rfl

/-- Settles O54: by the checks of the body and the facts about one written entry. -/
theorem mapWriteWritesStandby : Obligations.MapWriteWritesStandby := by
  refine fun c s h => ⟨fun h0 => exec_of_examines h rfl (mapWriteBody_badParam h0 _ _), entryOf_none_iff,
    fun e => entryOf_iff, fun l t e hl ht h0 he => ?_⟩
  have hbody := mapWriteBody_inRange hl ht h0 he true (s.atTaking c)
  rw [atTaking_sourceUsable, atTaking_bank] at hbody
  refine ⟨fun ⟨k, p, hs, hp⟩ => exec_of_examines h rfl ?_,
    fun hs => ⟨fun hp => exec_of_examines h rfl ?_, fun hi hr => exec_of_examines h rfl ?_, fun hi hn =>
      ⟨s.map.write s.bank.active.other (slotIndex l t) e, exec_of_examines h rfl ?_, ?_, fun j hj => ?_, ?_, ?_⟩⟩⟩
  · rw [hbody, if_pos (sourceUsable_eq_false hs hp)]; rfl
  · rw [hbody, if_neg (by rw [sourceUsable_eq_true hs]; decide), if_pos (scheduled_of_ne hp)]; rfl
  · rw [hbody, if_neg (by rw [sourceUsable_eq_true hs]; decide), hi, if_neg (by decide),
      if_pos ((isRunning_iff _).2 hr)]; rfl
  · rw [hbody, if_neg (by rw [sourceUsable_eq_true hs]; decide), hi, if_neg (by decide), not_running hn,
      if_neg (by decide)]
    simp only [State.writeStandby, State.standby, atTaking_map, atTaking_bank, Answer.success, ConnMap.write]
  · rw [write_entries_self, if_pos rfl]
  · rw [write_entries_self, if_neg hj]
  · exact write_entries_other ..
  · exact write_holds ..

/-! ### BANK-COPY, BANK-CLEAR and BANK-ABORT (R85, R88, R166, R167) -/

theorem startEngine_pending {s : State} (h : s.bank.scheduler ≠ .idle) (op : EngineOp) :
    s.startEngine op = (s, .refusal .pending) := if_pos (scheduled_of_ne h)

theorem startEngine_busy {s : State} (hi : s.bank.scheduler = .idle) (hr : ∃ op pos, s.bank.engine = .running op pos)
    (op : EngineOp) : s.startEngine op = (s, .refusal .busy) := by
  unfold State.startEngine
  rw [hi, if_neg (by decide), if_pos ((isRunning_iff _).2 hr)]

theorem startEngine_begun {s : State} (hi : s.bank.scheduler = .idle) (hn : ∀ op pos, s.bank.engine ≠ .running op pos)
    (op : EngineOp) : s.startEngine op = (s.withBank { s.bank with engine := .running op 0 },
      .begun [byteOf (engineOpCode (some op)), bankCode s.standby]) := by
  unfold State.startEngine
  rw [if_neg (by rw [hi]; decide), if_neg (by rw [not_running hn]; decide)]

theorem bankAbortBody_idle {s : State} (h : ∀ op pos, s.bank.engine ≠ .running op pos) (b : Bool) (c : CommandCell) :
    bankAbortBody b c s = (s, .refusal .badState) := by
  unfold bankAbortBody
  split
  · rfl
  · next op pos e => exact absurd e (h op pos)

theorem bankAbortBody_running {s : State} {op : EngineOp} {pos : Nat} (h : s.bank.engine = .running op pos) (b : Bool)
    (c : CommandCell) : bankAbortBody b c s =
      ((s.withBank { s.bank with engine := .idle (some op) .aborted pos, consistent := false }).report
        .engineEnd partWide (engineEndDetail op .aborted),
       .success 0#8 (byteOf (engineOpCode (some op)) :: wordBytes (BitVec.ofNat 16 pos))) := by
  unfold bankAbortBody; rw [h]

/-- Settles O55: by the two checks of a start of the engine, and by the engine's state at an abort. -/
theorem engineCommandsAct : Obligations.EngineCommandsAct := by
  intro c s h
  have hb : (s.atTaking c).bank = s.bank := atTaking_bank s c
  have hstandby : (s.atTaking c).standby = s.bank.active.other := by simp [State.standby]
  refine ⟨fun hp => ?_, fun hi op pos hr => ?_, fun hi hn => ?_, fun hn => ?_, fun op pos hr => ?_⟩
  · exact ⟨exec_of_examines h rfl (startEngine_pending (by rwa [hb]) .copy),
      exec_of_examines h rfl (startEngine_pending (by rwa [hb]) .clear)⟩
  · have hr : ∃ op pos, (s.atTaking c).bank.engine = .running op pos := ⟨op, pos, by rwa [hb]⟩
    exact ⟨exec_of_examines h rfl (startEngine_busy (by rwa [hb]) hr .copy),
      exec_of_examines h rfl (startEngine_busy (by rwa [hb]) hr .clear)⟩
  · have hbegun := startEngine_begun (s := s.atTaking c) (by rwa [hb]) (by rwa [hb])
    rw [hb, hstandby] at hbegun
    exact ⟨exec_of_examines h rfl (hbegun .copy), exec_of_examines h rfl (hbegun .clear)⟩
  · exact exec_of_examines h rfl (bankAbortBody_idle (by rwa [hb]) _ _)
  · have habort := bankAbortBody_running (s := s.atTaking c) (by rwa [hb]) true c
    rw [hb] at habort
    cases op <;> exact exec_of_examines h rfl habort

/-! ### SWITCH-AT, SWITCH-NOW and SWITCH-CANCEL (R91, R92, R95, R169 to R171) -/

/-- Settles O56: by the checks of the three bodies, in their order. -/
theorem switchCommandsSchedule : Obligations.SwitchCommandsSchedule := by
  intro c s h
  refine ⟨fun ha => exec_of_examines h rfl ?_, fun ha => ⟨fun hr => exec_of_examines h rfl ?_,
      fun hn hp => exec_of_examines h rfl ?_, fun hn hi hc => exec_of_examines h rfl ?_,
      fun hn hi hc => ⟨fun hf => exec_of_examines h rfl ?_, fun h1 h2 => exec_of_examines h rfl ?_⟩⟩,
    fun hr => exec_of_examines h rfl ?_, fun hn hp => exec_of_examines h rfl ?_,
    fun hn hi hc => exec_of_examines h rfl ?_, fun hn hi hc => exec_of_examines h rfl ?_,
    fun hi => exec_of_examines h rfl ?_, fun x hx => exec_of_examines h rfl ?_, fun hx => exec_of_examines h rfl ?_⟩
  · simp [switchAtBody, ha, Answer.success, wordBytes]
  · simp [switchAtBody, ha, (isRunning_iff _).2 hr, Answer.refusal]
  · simp [switchAtBody, ha, not_running_of hn, scheduled_of_ne hp, Answer.refusal]
  · simp [switchAtBody, hi, not_running_of hn, hc, Scheduler.scheduled, Answer.refusal]
  · have hf : inFuture (pWord c 0 1) s.tb.number = false := by rw [← Bool.not_eq_true, inFuture_iff]; exact hf
    simp [switchAtBody, hi, not_running_of hn, hc, Scheduler.scheduled, hf, wordBytes]
  · have hf : inFuture (pWord c 0 1) s.tb.number = true := (inFuture_iff _ _).2 ⟨h1, h2⟩
    simp [switchAtBody, hi, not_running_of hn, hc, Scheduler.scheduled, hf, wordBytes, Answer.success]
  · simp [switchNowBody, (isRunning_iff _).2 hr, Answer.refusal]
  · simp [switchNowBody, not_running_of hn, scheduled_of_ne hp, Answer.refusal]
  · simp [switchNowBody, hi, not_running_of hn, hc, Scheduler.scheduled, Answer.refusal]
  · simp [switchNowBody, hi, not_running_of hn, hc, Scheduler.scheduled, Answer.success, State.standby]
  · simp [switchCancelBody, hi, Scheduler.scheduled, Answer.refusal]
  · simp [switchCancelBody, hx, Scheduler.scheduled, Answer.success, schedulerCode, Scheduler.target, wordBytes,
      byteOf]
  · simp [switchCancelBody, hx, Scheduler.scheduled, Answer.success, schedulerCode, Scheduler.target, wordBytes,
      byteOf, highByte, lowByte]

end Sys2Proof.Machine
end

section
/-!
PROOFS. The commands of the bridges, of the event queue and of the notices (R106 to R108, R172 to R174, R177, R178, R187,
R192, R193).
-/

namespace Sys2Proof.Machine

/-! ### LEG-SET, LEG-CLEAR and BRIDGE-SET (R106 to R108, R172 to R174) -/

theorem legSetBody_badParam {c : CommandCell} (h : 16 ≤ (pByte c 0).toNat ∨ 8 ≤ (pByte c 1).toNat ∨
    8 ≤ (pByte c 2).toNat ∨ 64 ≤ (pByte c 3).toNat ∨ 4 ≤ (pByte c 4).toNat) (b : Bool) (s : State) :
    legSetBody b c s = (s, .refusal .badParam) := by
  unfold legSetBody
  split
  · next hb hk hl ht hatt =>
    rcases h with h | h | h | h | h
    · rw [finOf_eq_none h] at hb; cases hb
    · rw [finOf_eq_none h] at hk; cases hk
    · rw [finOf_eq_none h] at hl; cases hl
    · rw [finOf_eq_none h] at ht; cases ht
    · rw [finOf_eq_none h] at hatt; cases hatt
  · rfl

/-- LEG-SET with its operands in range: its two checks, and the leg it sets (R106, R172). -/
theorem legSetBody_inRange {c : CommandCell} {b : BridgeId} {k : LegId} {l : LinkId} {t : SlotId} {att : Fin 4}
    (hb : (pByte c 0).toNat = b.val) (hk : (pByte c 1).toNat = k.val) (hl : (pByte c 2).toNat = l.val)
    (ht : (pByte c 3).toNat = t.val) (hatt : (pByte c 4).toNat = att.val) (u : Bool) (s : State) :
    legSetBody u c s =
      if (s.link l).config.shape.isPayload t.val = false then (s, .refusal .badSource)
      else if (s.bridge b).inputTaken k l t then (s, .refusal .duplicate)
      else (s.setBridge b { s.bridge b with legs := (s.bridge b).legs.set k.val (some ⟨l, t, att⟩) },
        .success 0#8 [pByte c 0, pByte c 1, pByte c 2, pByte c 3, pByte c 4, flagCode (s.bridge b).enabled]) := by
  simp only [legSetBody, finOf_eq_some hb, finOf_eq_some hk, finOf_eq_some hl, finOf_eq_some ht, finOf_eq_some hatt,
    byteOf_eq hb, byteOf_eq hk, byteOf_eq hl, byteOf_eq ht, byteOf_eq hatt, Bool.not_eq_true']

theorem legClearBody_badParam {c : CommandCell} (h : 16 ≤ (pByte c 0).toNat ∨ 8 ≤ (pByte c 1).toNat) (b : Bool)
    (s : State) : legClearBody b c s = (s, .refusal .badParam) := by
  unfold legClearBody
  split
  · next hb hk =>
    rcases h with h | h
    · rw [finOf_eq_none h] at hb; cases hb
    · rw [finOf_eq_none h] at hk; cases hk
  · rfl

theorem bridgeSetBody_badParam {c : CommandCell} (h : 16 ≤ (pByte c 0).toNat ∨ 2 ≤ (pByte c 1).toNat) (b : Bool)
    (s : State) : bridgeSetBody b c s = (s, .refusal .badParam) := by
  unfold bridgeSetBody
  split
  · next hb hf =>
    rcases h with h | h
    · rw [finOf_eq_none h] at hb; cases hb
    · rw [flagOf_eq_none h] at hf; cases hf
  · rfl

/-- Settles O57: by the checks of the three bodies. -/
theorem bridgeCommandsWrite : Obligations.BridgeCommandsWrite := by
  intro c s h
  refine ⟨fun h0 => exec_of_examines h rfl (legSetBody_badParam h0 _ _), fun b k l t att hb hk hl ht hatt => ?_,
    fun h0 => exec_of_examines h rfl (legClearBody_badParam h0 _ _), fun b k hb hk => exec_of_examines h rfl ?_,
    fun h0 => exec_of_examines h rfl (bridgeSetBody_badParam h0 _ _), fun b on hb hon => exec_of_examines h rfl ?_⟩
  · have hbody := legSetBody_inRange hb hk hl ht hatt true (s.atTaking c)
    rw [atTaking_link_config, atTaking_bridge] at hbody
    refine ⟨fun hp => exec_of_examines h rfl (hbody.trans (if_pos hp)), fun hp hd => exec_of_examines h rfl ?_,
      fun hp hn => exec_of_examines h rfl ?_⟩
    · rw [hbody, if_neg (by rw [hp]; decide), if_pos ((inputTaken_iff _ _ _ _).2 hd)]; rfl
    · rw [hbody, if_neg (by rw [hp]; decide), if_neg (by rw [inputTaken_iff]; exact hn)]; rfl
  · simp only [legClearBody, finOf_eq_some hb, finOf_eq_some hk, atTaking_bridge, Answer.success]
  · simp only [bridgeSetBody, finOf_eq_some hb, hon, flagOf_flagCode, atTaking_bridge, presentLegs_eq, Answer.success]

/-! ### EVENT-READ (R187, R192) -/

/-- The records a read leaves, as EVENT-READ acknowledges them (R187). -/
theorem acknowledge_eq (c : CommandCell) (rs : List EventRecord) :
    acknowledge ((pByte c 0).getLsbD 0) (pByte c 1) rs = match rs with
      | [] => []
      | r :: rs =>
        if (pByte c 0).getLsbD 0 = true ∧ r.delivered = true ∧ r.seq = pByte c 1 then rs else r :: rs := by
  cases rs with
  | nil => rfl
  | cons r rs => simp [acknowledge, and_assoc]

/-- Settles O58: by whether a record stands at the head after the acknowledgement. -/
theorem eventReadHandsRecords : Obligations.EventReadHandsRecords := by
  intro c s left h hleft
  have hack : acknowledge ((pByte c 0).getLsbD 0) (pByte c 1) s.events.records = left :=
    (acknowledge_eq c _).trans hleft.symm
  refine ⟨fun hn => exec_of_examines h rfl ?_, fun r rs hr => exec_of_examines h rfl ?_⟩
  · simp only [eventReadBody, atTaking_events, hack, hn, deliverHead, Notice.afterRead, List.isEmpty_nil, if_true]
  · simp only [eventReadBody, atTaking_events, hack, hr, deliverHead, Notice.afterRead, List.isEmpty_cons,
      Bool.false_eq_true, if_false, Answer.success, EventRecord.payload, wordBytes, Config.noticeTimer]
    rfl

/-! ### EVENT-MASK and NOTICE-SET (R177, R178, R193) -/

theorem mask_lt (m : BitVec 9) : (m.zeroExtend 16).toNat < 512 := by
  have := m.isLt
  simp; omega

/-- Settles O59: by the operand's range, and by the records that stand when notices are set on. -/
theorem maskAndNoticesAreSet : Obligations.MaskAndNoticesAreSet := by
  refine fun c s h => ⟨fun h0 => exec_of_examines h rfl ?_, fun m hm => exec_of_examines h rfl ?_,
    fun h0 => exec_of_examines h rfl ?_, fun h0 => exec_of_examines h rfl ?_, fun h0 he => exec_of_examines h rfl ?_,
    fun h0 he => ⟨_, rfl, exec_of_examines h rfl ?_⟩⟩
  · simp only [eventMaskBody, if_pos h0, Answer.refusal]
  · have hlt : ¬512 ≤ (pWord c 0 1).toNat := by rw [hm]; exact Nat.not_le.2 (mask_lt m)
    have hmask : (pWord c 0 1).truncate 9 = m := by rw [hm]; simp
    simp only [eventMaskBody, if_neg hlt, hmask, atTaking_events, Answer.success, wordBytes, highByte_pWord,
      lowByte_pWord, List.cons_append, List.nil_append]
  · simp only [noticeSetBody, flagOf_eq_none h0, Answer.refusal]
  · simp [noticeSetBody, h0, flagOf, State.setNotices, Answer.success, noticeStateCode]
  · simp [noticeSetBody, h0, flagOf, State.setNotices, he, Answer.success, noticeStateCode]
  · have he : s.events.records.isEmpty = false := by simpa using he
    simp [noticeSetBody, h0, flagOf, State.setNotices, he, Answer.success, State.enterDue]

end Sys2Proof.Machine
end

section
/-!
PROOFS. LINK-SET: the record it carries, its checks, and what it does to the link and the receiver (R31, R44, R45, R76,
R123, R133, R154 to R156).
-/

namespace Sys2Proof.Machine

/-! ### The record of a LINK-SET (R154) -/

theorem slotCountOf_iff {b : Byte} {n : SlotCount} : slotCountOf b = some n ↔ b = slotCountCode n := by
  refine ⟨fun h => ?_, fun h => by rw [h, slotCountOf_code]⟩
  unfold slotCountOf at h
  (repeat' split at h) <;> first | (cases h; assumption) | cases h

theorem roleOf_iff {b : Byte} {r : Role} : roleOf b = some r ↔ b = roleCode r := by
  refine ⟨fun h => ?_, fun h => by rw [h, roleOf_code]⟩
  unfold roleOf at h
  (repeat' split at h) <;> first | (cases h; assumption) | cases h

theorem mgmtSlotLegal_iff (x : Shape) : x.mgmtSlotLegal = true ↔ x.mgmtSlot ≠ 0 ∧
    x.mgmtSlot.val < x.slotCount.toNat ∧ ¬(x.checkEnable = true ∧ x.mgmtSlot.val + 1 = x.slotCount.toNat) := by
  cases h : x.checkEnable <;> simp [Shape.mgmtSlotLegal, Shape.isCheck, h, and_assoc]

theorem roleLegal_iff (x : LinkConfig) :
    x.roleLegal = true ↔ x.shape.role = .none ∨ x.rxEnable = true ∧ x.txEnable = true := by
  simp [LinkConfig.roleLegal]

/-- The record a LINK-SET carries, byte by byte (R154). -/
theorem recordOf_iff {c : CommandCell} {new : LinkConfig} : recordOf c = some new ↔
    pByte c 2 = slotCountCode new.shape.slotCount ∧ pByte c 3 = roleCode new.shape.role ∧
    (pByte c 4).toNat = new.shape.mgmtSlot.val ∧ new.rxEnable = (pByte c 1).getLsbD 0 ∧
    new.txEnable = (pByte c 1).getLsbD 1 ∧ new.shape.checkEnable = (pByte c 1).getLsbD 2 ∧
    new.discard = (pByte c 1).getLsbD 3 ∧ new.idle = pWord c 5 6 ∧
    new.shape.mgmtSlotLegal = true ∧ new.roleLegal = true := by
  rw [← slotCountOf_iff, ← roleOf_iff, ← finOf_iff]
  unfold recordOf
  simp only
  constructor
  · intro h
    split at h
    · next n role m hn hr hm =>
      split at h
      · next hl =>
        rw [Bool.and_eq_true] at hl
        cases h
        exact ⟨hn, hr, hm, rfl, rfl, rfl, rfl, rfl, hl.1, hl.2⟩
      · cases h
    · cases h
  · obtain ⟨rx, tx, discard, idle, n, ce, role, m⟩ := new
    rintro ⟨hn, hr, hm, rfl, rfl, rfl, rfl, rfl, hslot, hrole⟩
    simp only at hn hr hm
    rw [hn, hr, hm]
    simp only
    rw [if_pos (by rw [hslot, hrole]; rfl)]

/-! ### The checks and conditions of LINK-SET as propositions -/

theorem severs_iff (old new : LinkConfig) : severs old new = true ↔
    new.shape.role ≠ .uplink ∨ new.rxEnable = false ∨ new.txEnable = false ∨
      new.shape.slotCount ≠ old.shape.slotCount ∨ new.shape.mgmtSlot ≠ old.shape.mgmtSlot := by
  simp [severs, or_assoc]

theorem flushNeeded_iff (old new : LinkConfig) : flushNeeded old new = true ↔
    (old.txEnable = true ∧ new.txEnable = false) ∨ (old.shape.role ≠ .none ∧ new.shape.role = .none) := by
  simp [flushNeeded]

theorem holdsCleared_iff (old new : LinkConfig) :
    holdsCleared old new = true ↔ old.txEnable ≠ new.txEnable ∨ old.shape ≠ new.shape := by
  simp [holdsCleared]

/-- A written link, field by field. -/
theorem written_eq (x : Link) (new : LinkConfig) : x.written new = { x with
    config := new
    queue := if flushNeeded x.config new then [] else x.queue
    tx := { x.tx with wordCount := if flushNeeded x.config new then 0 else x.tx.wordCount }
    mgmtCount := { x.mgmtCount with
      flushed := if flushNeeded x.config new then satAdd16 x.mgmtCount.flushed x.queue.length
        else x.mgmtCount.flushed }
    assembler := if new.shape.role = .none then [] else x.assembler
    rx := if x.config.shape.checkEnable = true ∧ new.shape.checkEnable = false
      then { x.rx with checkAlarm := false, window := 0#8 } else x.rx } := by
  unfold Link.written Link.flush
  cases flushNeeded x.config new <;> simp

/-! ### What a LINK-SET does before it moves the receiver -/

/-- The record written and the hold values cleared, the receiver still where it was (R17, R76, R123, R156). -/
def State.recordWritten (s : State) (l : LinkId) (new : LinkConfig) : State :=
  if holdsCleared (s.link l).config new then (s.updLink l (·.written new)).clearLinkHolds l
  else s.updLink l (·.written new)

theorem writeLink_eq (s : State) (l : LinkId) (new : LinkConfig) (rf : Bool) :
    s.writeLink l new rf = (s.recordWritten l new).reconfigureRx l (s.link l).config new rf := rfl

theorem recordWritten_link (s : State) (l : LinkId) (new : LinkConfig) (k : LinkId) :
    (s.recordWritten l new).link k = if k = l then (s.link l).written new else s.link k := by
  unfold State.recordWritten
  split
  · rw [clearLinkHolds_link, link_updLink]
  · rw [link_updLink]

theorem recordWritten_holds (s : State) (l : LinkId) (new : LinkConfig) (k : LinkId) (p : SlotId) :
    (s.recordWritten l new).map.holds[(slotIndex k p).val] =
      if k = l ∧ holdsCleared (s.link l).config new = true then none else s.map.holds[(slotIndex k p).val] := by
  unfold State.recordWritten
  split
  · next h => simp only [clearLinkHolds_holds, h, and_true]; rfl
  · next h =>
    have hn : ¬(k = l ∧ holdsCleared (s.link l).config new = true) := fun hc => h hc.2
    simp only [hn, if_false]; rfl

theorem recordWritten_entries (s : State) (l : LinkId) (new : LinkConfig) (k : Bank) :
    (s.recordWritten l new).map.entries k = s.map.entries k := by
  unfold State.recordWritten
  split
  · rw [clearLinkHolds_entries]; rfl
  · rfl

/-- Only links and hold values are touched. -/
theorem recordWritten_rest (s : State) (l : LinkId) (new : LinkConfig) (m : ConnMap) :
    (s.recordWritten l new).withMap m = (s.withMap m).withLinks (s.recordWritten l new).links := by
  unfold State.recordWritten
  split <;> rfl

/-! ### Where the receiver moves (R19, R44, R45) -/

/-- The receiver's move, its conditions as propositions. -/
theorem reconfigureRx_eq (s : State) (l : LinkId) (old new : LinkConfig) (rf : Bool) :
    s.reconfigureRx l old new rf =
      if old.rxEnable = true ∧ new.rxEnable = false then
        (if (s.link l).inSync = true then s.leaveSync l .off .disabled rf
         else s.updLink l fun x => { x with rx := { x.rx with align := .off } }).updLink l fun x =>
          { x with rx := { x.rx with watch := ⟨false, false, false⟩ } }
      else if old.rxEnable = false ∧ new.rxEnable = true then
        s.updLink l fun x => { x with rx := { x.rx with align := .hunt [], watch := ⟨false, false, false⟩ } }
      else if new.rxEnable = true ∧ new.shape.slotCount ≠ old.shape.slotCount then
        (if (s.link l).inSync = true then s.leaveSync l (.hunt []) .reconfigured rf
         else if (s.link l).rx.align = .noclock then s
         else s.updLink l fun x => { x with rx := { x.rx with align := .hunt [] } })
      else s := by
  unfold State.reconfigureRx
  simp only [Bool.and_eq_true, Bool.not_eq_true', decide_eq_true_eq, updLink_updLink, ne_comm (a := old.shape.slotCount)]
  rfl

/-- Check alarm and window stay cleared, an idle assembler stays idle (R26, R31). -/
theorem reconfigureRx_cleared (s : State) (l : LinkId) (old new : LinkConfig) (rf : Bool) :
    ((s.link l).rx.checkAlarm = false → (s.link l).rx.window = 0#8 →
      ((s.reconfigureRx l old new rf).link l).rx.checkAlarm = false ∧
      ((s.reconfigureRx l old new rf).link l).rx.window = 0#8) ∧
    ((s.link l).assembler = [] → ((s.reconfigureRx l old new rf).link l).assembler = []) := by
  have hleave (a : Align) (d : DownCause) : ((s.leaveSync l a d rf).link l).rx.checkAlarm = false ∧
      ((s.leaveSync l a d rf).link l).rx.window = 0#8 ∧ ((s.leaveSync l a d rf).link l).assembler = [] := by
    obtain ⟨-, -, -, -, -, -, -, hca, hw, -, has⟩ := leaveSync_quiet_self s l a d rf
    exact ⟨hca, hw, has⟩
  rw [reconfigureRx_eq]
  split
  · rw [link_updLink_self]
    split
    · exact ⟨fun _ _ => ⟨(hleave _ _).1, (hleave _ _).2.1⟩, fun _ => (hleave _ _).2.2⟩
    · rw [link_updLink_self]; exact ⟨fun h1 h2 => ⟨h1, h2⟩, id⟩
  · split
    · rw [link_updLink_self]; exact ⟨fun h1 h2 => ⟨h1, h2⟩, id⟩
    · split
      · split
        · exact ⟨fun _ _ => ⟨(hleave _ _).1, (hleave _ _).2.1⟩, fun _ => (hleave _ _).2.2⟩
        · split
          · exact ⟨fun h1 h2 => ⟨h1, h2⟩, id⟩
          · rw [link_updLink_self]; exact ⟨fun h1 h2 => ⟨h1, h2⟩, id⟩
      · exact ⟨fun h1 h2 => ⟨h1, h2⟩, id⟩

/-! ### The obligation -/

theorem linkSetBody_badParam {c : CommandCell} (h : 8 ≤ (pByte c 0).toNat ∨ recordOf c = none) (b : Bool) (s : State) :
    linkSetBody b c s = (s, .refusal .badParam) := by
  unfold linkSetBody
  split
  · next l new hl hnew =>
    rcases h with h | h
    · rw [finOf_eq_none h] at hl; cases hl
    · rw [h] at hnew; cases hnew
  · rfl

theorem linkSetBody_inRange {c : CommandCell} {l : LinkId} {new : LinkConfig} (hl : (pByte c 0).toNat = l.val)
    (hnew : recordOf c = some new) (b : Bool) (s : State) : linkSetBody b c s =
      if l = c.arrival ∧ severs (s.link l).config new = true then (s, .refusal .severs)
      else (s.writeLink l new c.refFirst, .success 0#8 (pByte c 0 :: new.bytes)) := by
  simp only [linkSetBody, finOf_eq_some hl, hnew, linkRecordPayload, byteOf_eq hl, Bool.and_eq_true,
    decide_eq_true_eq]

section
variable (s : State) (c : CommandCell) (l : LinkId) (new : LinkConfig)

/-- The link of the new record in the state the receiver is moved from, in terms of the state before the taking. -/
theorem taken_recordWritten_link (k : LinkId) : ((s.atTaking c).recordWritten l new).link k =
    if k = l then { (s.atTaking c).link l with
        config := new
        queue := if flushNeeded (s.link l).config new then [] else ((s.atTaking c).link l).queue
        tx := { (s.link l).tx with wordCount := if flushNeeded (s.link l).config new then 0 else (s.link l).tx.wordCount }
        mgmtCount := { (s.link l).mgmtCount with
          flushed := if flushNeeded (s.link l).config new
            then satAdd16 (s.link l).mgmtCount.flushed ((s.atTaking c).link l).queue.length
            else (s.link l).mgmtCount.flushed }
        assembler := if new.shape.role = .none then [] else (s.link l).assembler
        rx := if (s.link l).config.shape.checkEnable = true ∧ new.shape.checkEnable = false
          then { (s.link l).rx with checkAlarm := false, window := 0#8 } else (s.link l).rx }
    else (s.atTaking c).link k := by
  rw [recordWritten_link, written_eq]
  simp only [atTaking_link_config, atTaking_link_tx, atTaking_link_mgmtCount, atTaking_link_assembler, atTaking_link_rx]

/-- The receiver's alignment after an accepted LINK-SET (R19, R44). -/
theorem taken_writeLink_align (rf : Bool) : (((s.atTaking c).writeLink l new rf).link l).rx.align =
      if (s.link l).config.rxEnable && !new.rxEnable then .off
      else if !(s.link l).config.rxEnable && new.rxEnable then .hunt []
      else if new.rxEnable && decide ((s.link l).config.shape.slotCount ≠ new.shape.slotCount) then
        if (s.link l).rx.align = .noclock then .noclock else .hunt []
      else (s.link l).rx.align := by
  rw [writeLink_eq, reconfigureRx_align, recordWritten_link, if_pos rfl, written_align, atTaking_link_config,
    atTaking_link_rx]

/-- The queue, word count and flush counter of a link that is not the arrival link (R123). -/
theorem taken_writeLink_queue (rf : Bool) (h : l ≠ c.arrival) : (((s.atTaking c).writeLink l new rf).link l).queue =
    if flushNeeded (s.link l).config new then [] else (s.link l).queue := by
  rw [writeLink_eq, reconfigureRx_queue_ne _ ?_, taken_recordWritten_link, if_pos rfl, atTaking_link_ne s h]
  have hagent : ((s.atTaking c).recordWritten l new).agent = (s.atTaking c).agent := by
    unfold State.recordWritten; split <;> rfl
  rw [hagent, atTaking_agent]
  exact h

theorem taken_writeLink_tx (rf : Bool) : (((s.atTaking c).writeLink l new rf).link l).tx =
    { (s.link l).tx with wordCount := if flushNeeded (s.link l).config new then 0 else (s.link l).tx.wordCount } := by
  rw [writeLink_eq, reconfigureRx_tx, taken_recordWritten_link, if_pos rfl]

theorem taken_writeLink_mgmtCount (rf : Bool) : (((s.atTaking c).writeLink l new rf).link l).mgmtCount =
    { (s.link l).mgmtCount with
      flushed := if flushNeeded (s.link l).config new
        then satAdd16 (s.link l).mgmtCount.flushed ((s.atTaking c).link l).queue.length
      else (s.link l).mgmtCount.flushed } := by
  rw [writeLink_eq, reconfigureRx_mgmtCount, taken_recordWritten_link, if_pos rfl]

theorem taken_writeLink_holds (rf : Bool) (k : LinkId) (p : SlotId) :
    ((s.atTaking c).writeLink l new rf).map.holds[(slotIndex k p).val] =
      if k = l ∧ ((s.link l).config.txEnable ≠ new.txEnable ∨ (s.link l).config.shape ≠ new.shape) then none
      else s.map.holds[(slotIndex k p).val] := by
  simp only [writeLink_eq, reconfigureRx_map, recordWritten_holds, atTaking_link_config, atTaking_map,
    holdsCleared_iff]

/-- Every link but the named one keeps its record, receiver, assembler and transmitter (R156). -/
theorem taken_writeLink_other (rf : Bool) {k : LinkId} (h : k ≠ l) :
    (((s.atTaking c).writeLink l new rf).link k).config = (s.link k).config ∧
    (((s.atTaking c).writeLink l new rf).link k).rx = (s.link k).rx ∧
    (((s.atTaking c).writeLink l new rf).link k).assembler = (s.link k).assembler ∧
    (((s.atTaking c).writeLink l new rf).link k).tx = (s.link k).tx := by
  have hlink : ((s.atTaking c).recordWritten l new).link k = (s.atTaking c).link k := by
    rw [recordWritten_link, if_neg h]
  rw [writeLink_eq, reconfigureRx_config, reconfigureRx_rx_ne _ h, reconfigureRx_assembler_ne _ h, reconfigureRx_tx,
    hlink]
  simp

theorem taken_writeLink_entries (rf : Bool) (k : Bank) :
    ((s.atTaking c).writeLink l new rf).map.entries k = s.map.entries k := by
  rw [writeLink_eq, reconfigureRx_map, recordWritten_entries, atTaking_map]

end

/-- Settles O50: the record's bytes, the checks, and what an accepted record changes, field by field. -/
theorem linkRecordIsWritten : Obligations.LinkRecordIsWritten := by
  refine fun c s h => ⟨fun h0 => exec_of_examines h rfl (linkSetBody_badParam h0 _ _), fun new => ?_,
    fun l new hl hnew => ⟨fun ha hcuts => exec_of_examines h rfl ?_, fun hkeeps => ?_⟩⟩
  · rw [recordOf_iff, mgmtSlotLegal_iff, roleLegal_iff]
    simp only [and_assoc]
  · rw [linkSetBody_inRange hl hnew, if_pos ⟨ha, by rw [atTaking_link_config]; exact (severs_iff _ _).2 hcuts⟩]
    rfl
  · have hbody := linkSetBody_inRange hl hnew true (s.atTaking c)
    rw [if_neg (by rw [atTaking_link_config, severs_iff]; exact hkeeps)] at hbody
    have halign := taken_writeLink_align s c l new c.refFirst
    have hu := recordWritten_link (s.atTaking c) l new l
    rw [if_pos rfl] at hu
    refine ⟨(s.atTaking c).writeLink l new c.refFirst, (s.atTaking c).recordWritten l new, exec_of_examines h rfl hbody,
      ?_, fun h1 h2 => ?_, fun h1 h2 => ?_, fun h1 h2 h3 h4 => ?_, fun h1 h2 => ?_, fun hf hne => ?_, fun hf => ?_,
      taken_writeLink_holds s c l new c.refFirst, fun h1 h2 => ?_, fun h1 => ?_, fun h1 h2 h3 => ?_, fun k => ?_, ?_, ?_,
      fun k hk => taken_writeLink_other s c l new c.refFirst hk, taken_writeLink_entries s c l new c.refFirst .a,
      taken_writeLink_entries s c l new c.refFirst .b, ?_, ?_⟩
    · rw [writeLink_eq, reconfigureRx_config, hu, written_config]
    · rw [halign]; simp [h1, h2]
    · rw [halign]; simp [h1, h2]
    · rw [halign]; simp [h1, h2, h3.symm, h4]
    · rw [halign]; cases he : (s.link l).config.rxEnable <;> simp [h1, h2, he]
    · have hf := (flushNeeded_iff (s.link l).config new).2 hf
      rw [taken_writeLink_queue s c l new c.refFirst hne, taken_writeLink_tx, taken_writeLink_mgmtCount, hf,
        atTaking_link_ne s hne]
      exact ⟨rfl, rfl, rfl⟩
    · have hf : flushNeeded (s.link l).config new = false := by rw [← Bool.not_eq_true, flushNeeded_iff]; exact hf
      rw [taken_writeLink_tx, taken_writeLink_mgmtCount, hf]
      refine ⟨rfl, rfl, fun hne => ?_⟩
      rw [taken_writeLink_queue s c l new c.refFirst hne, hf]; rfl
    · refine (reconfigureRx_cleared ((s.atTaking c).recordWritten l new) l _ new c.refFirst).1 ?_ ?_ <;>
        rw [hu, written_rx, atTaking_link_config, h1, h2] <;> rfl
    · refine (reconfigureRx_cleared ((s.atTaking c).recordWritten l new) l _ new c.refFirst).2 ?_
      rw [hu, written_assembler, if_pos h1]
    · rw [halign]; simp [h1, h2, h3]
    · rw [taken_recordWritten_link]
      simp only [flushNeeded_iff]
    · rw [recordWritten_rest]
      simp only [← atTaking_map s c]
      rfl
    · have hal : (((s.atTaking c).recordWritten l new).link l).rx.align = (s.link l).rx.align := by
        rw [hu, written_align, atTaking_link_rx]
      have hsync : (((s.atTaking c).recordWritten l new).link l).inSync = (s.link l).inSync := by
        rw [Link.inSync, hal, Link.inSync]
      rw [writeLink_eq, reconfigureRx_eq, atTaking_link_config, hsync, hal]
    · rw [writeLink_eq, reconfigureRx_bank]
      unfold State.recordWritten; split <;> simp [State.clearLinkHolds]
    · rw [writeLink_eq, reconfigureRx_bridges]
      unfold State.recordWritten; split <;> simp [State.clearLinkHolds]

end Sys2Proof.Machine
end

section
/-!
PROOFS. The search for a header, its confirmation and the judging of headers in SYNC (R20 to R26, R42).
-/

namespace Sys2Proof.Machine

/-! ### The search bit by bit (R21, R22) -/

/-- The position the search stands at is passed over (R21, R22). -/
theorem searchBits_of_failsAt {n : Nat} {b : List Bool} (h : failsAt n b 0) : searchBits n b = searchBits n (b.drop 1) := by
  obtain ⟨w, hw, h⟩ := h
  rw [List.drop_zero] at hw
  cases b with
  | nil => cases hw
  | cons x rest =>
    rw [List.drop_one, List.tail_cons]
    conv => lhs; unfold searchBits
    rw [hw]
    simp only [Nat.zero_add] at h
    rcases h with h | ⟨w1, hw1, h⟩
    · simp only [h, Bool.false_eq_true, if_false]
    · simp only [hw1]
      rcases h with h | ⟨w2, hw2, h⟩
      · simp only [h, Bool.false_eq_true, if_false, ite_self]
      · simp only [hw2, h, Bool.false_eq_true, if_false, ite_self]

/-- Every position before `p` is passed over: the search goes on from `p`. -/
theorem searchBits_of_skips {n : Nat} : ∀ {p : Nat} {b : List Bool}, (∀ q < p, failsAt n b q) →
    searchBits n b = searchBits n (b.drop p)
  | 0, b, _ => by rw [List.drop_zero]
  | p + 1, b, h => by
    have htail : ∀ q < p, failsAt n (b.drop 1) q := fun q hq => by
      have := h (q + 1) (by omega)
      simpa only [failsAt, List.drop_drop, show 1 + q = q + 1 by omega, show 1 + (q + n) = q + 1 + n by omega,
        show 1 + (q + 2 * n) = q + 1 + 2 * n by omega] using this
    rw [searchBits_of_failsAt (h 0 (by omega)), searchBits_of_skips htail, List.drop_drop, Nat.add_comm 1 p]

section
variable {n : Nat} {b : List Bool}

theorem searchBits_of_noWord (h : firstWord? b = none) : searchBits n b = .hunt b := by
  cases b with
  | nil => rfl
  | cons x rest => unfold searchBits; rw [h]

theorem searchBits_of_wellFormed {w : Word} (h : firstWord? b = some w) (hw : (headerOf w).wellFormed = true)
    (h1 : firstWord? (b.drop n) = none) : searchBits n b = .confirm b := by
  cases b with
  | nil => cases h
  | cons x rest => unfold searchBits; simp only [h, hw, h1, if_true]

theorem searchBits_of_oneSuccessor {w w1 : Word} (h : firstWord? b = some w) (hw : (headerOf w).wellFormed = true)
    (h1 : firstWord? (b.drop n) = some w1) (hs : isSuccessor w w1 = true) (h2 : firstWord? (b.drop (2 * n)) = none) :
    searchBits n b = .confirm b := by
  cases b with
  | nil => cases h
  | cons x rest => unfold searchBits; simp only [h, hw, h1, hs, h2, if_true]

theorem searchBits_of_twoSuccessors {w w1 w2 : Word} (h : firstWord? b = some w) (hw : (headerOf w).wellFormed = true)
    (h1 : firstWord? (b.drop n) = some w1) (hs : isSuccessor w w1 = true) (h2 : firstWord? (b.drop (2 * n)) = some w2)
    (hs2 : isSuccessor w1 w2 = true) : searchBits n b = .sync w2 := by
  cases b with
  | nil => cases h
  | cons x rest => unfold searchBits; simp only [h, hw, h1, hs, h2, hs2, if_true]

end

/-! ### Bits at a receiver -/

/-- Updates that do the same to the link as it stands are the same. -/
theorem updLink_congr {s : State} {l : LinkId} {f g : Link → Link} (h : f (s.link l) = g (s.link l)) :
    s.updLink l f = s.updLink l g := by unfold State.updLink; rw [h]

/-- The state in which the search's outcome is set: bits that come show clock activity (R20). -/
theorem seen_updLink (s : State) (l : LinkId) (new : List Bool) (f : Link → Link) :
    (if new = [] then s else s.updLink l fun x => x.withRx x.rx.clockSeen).updLink l f =
      s.updLink l fun x => f { x with rx := { x.rx with
        watch := { x.rx.watch with seen := x.rx.watch.seen || !new.isEmpty } } } := by
  cases new with
  | nil =>
    rw [if_pos rfl]
    refine updLink_congr ?_
    simp
  | cons b bs =>
    rw [if_neg (by simp), updLink_updLink]
    refine updLink_congr ?_
    simp [Receiver.clockSeen, Link.withRx]

theorem receiveBits_hunt {s : State} {l : LinkId} {old new bits : List Bool}
    (h : searchBits (s.link l).frameBits (old ++ new) = .hunt bits) :
    s.receiveBits l old new = s.searched l new (.hunt bits) := by
  unfold State.receiveBits State.searched
  simp only [h]
  exact seen_updLink ..

theorem receiveBits_confirm {s : State} {l : LinkId} {old new bits : List Bool}
    (h : searchBits (s.link l).frameBits (old ++ new) = .confirm bits) :
    s.receiveBits l old new = s.searched l new (.confirm bits) := by
  unfold State.receiveBits State.searched
  simp only [h]
  exact seen_updLink ..

/-- The receiver enters SYNC at the second confirmation (R23). -/
theorem receiveBits_sync {s : State} {l : LinkId} {old new : List Bool} {w : Word}
    (h : searchBits (s.link l).frameBits (old ++ new) = .sync w) :
    s.receiveBits l old new = ((s.searched l new (.sync (headerOf w).succ 0
        (some ⟨w, true, (s.link l).config.shape, (s.link l).config.discard⟩))).updLink l fun x =>
      { x with store := { x.store with queue := [], primed := false } }).report .linkUp (byteOf l.val) 0#8 := by
  unfold State.receiveBits State.searched State.enterSync
  simp only [h]
  rw [updLink_updLink, seen_updLink]
  exact congrArg (State.report · _ _ _) (updLink_congr rfl)

/-- A row that hands its bits to the search takes them as a search bit by bit does. -/
theorem searchGoes_of_receiveBits {s : State} {l : LinkId} {row : List Bool → Instr} {old new : List Bool}
    (h : exec (row new) s = .next (s.receiveBits l old new)) : s.searchGoes l row old new := by
  intro p n b hskip
  have hsearch : searchBits n b = searchBits n (b.drop p) := searchBits_of_skips hskip
  refine ⟨fun h0 => ?_, fun w h0 hw => ⟨fun h1 => ?_, fun w1 h1 hs => ⟨fun h2 => ?_, fun w2 h2 hs2 => ?_⟩⟩⟩
  · rw [h, receiveBits_hunt (hsearch.trans (searchBits_of_noWord h0))]
  · rw [h, receiveBits_confirm (hsearch.trans (searchBits_of_wellFormed h0 hw (by rwa [List.drop_drop])))]
  · rw [h, receiveBits_confirm (hsearch.trans (searchBits_of_oneSuccessor h0 hw (by rwa [List.drop_drop]) hs
      (by rwa [List.drop_drop])))]
  · rw [h, receiveBits_sync (hsearch.trans (searchBits_of_twoSuccessors h0 hw (by rwa [List.drop_drop]) hs
      (by rwa [List.drop_drop]) hs2))]

theorem exec_huntCandidate {s : State} {l : LinkId} {old : List Bool} (h : (s.link l).rx.align = .hunt old)
    (bits : List Bool) : exec (.huntCandidate l bits) s = .next (s.receiveBits l old bits) := by
  show Host.Outcome.next _ = _
  rw [h]

theorem exec_confirmationHeader {s : State} {l : LinkId} {old : List Bool} (h : (s.link l).rx.align = .confirm old)
    (bits : List Bool) : exec (.confirmationHeader l bits) s = .next (s.receiveBits l old bits) := by
  show Host.Outcome.next _ = _
  rw [h]

/-- Where bits come, the search's outcome sets alignment and clock activity. -/
theorem searched_eq {s : State} {l : LinkId} {bits : List Bool} (h : bits ≠ []) (a : Align) :
    s.searched l bits a = s.updLink l fun x => { x with rx := { x.rx with
      align := a, watch := { x.rx.watch with seen := true } } } := by
  refine updLink_congr ?_
  have : bits.isEmpty = false := by simpa using h
  simp [this]

theorem bitsOfWord_ne_nil (w : Word) : bitsOfWord w ≠ [] := by
  obtain ⟨b, rest, h⟩ := bitsOfWord_cons w
  rw [h]; simp

/-- Settles O32: the clock's return, one word at the beginning of a search, and any bits in HUNT. -/
theorem searchBegins : Obligations.SearchBegins := by
  refine fun l s => ⟨fun h => ?_, fun h => ?_, fun h w => ?_, fun old bits h =>
    searchGoes_of_receiveBits (exec_huntCandidate h bits)⟩
  · show Host.Outcome.next _ = _
    rw [if_pos h]; rfl
  · show Host.Outcome.next _ = _
    rw [if_neg h]
  · have hword := searchBits_word (s.link l) w
    rw [exec_huntCandidate h, ← searched_eq (bitsOfWord_ne_nil w)]
    split
    · next hw => rw [receiveBits_confirm (hword.trans (if_pos hw))]
    · next hw => rw [receiveBits_hunt (hword.trans (if_neg hw))]

/-- Settles O33: any bits in CONFIRM, and the two confirmations spelled out. -/
theorem confirmationEntersSync : Obligations.ConfirmationEntersSync := by
  refine ⟨fun l s old bits h => searchGoes_of_receiveBits (exec_confirmationHeader h bits),
    fun l s old bits h hbits => ⟨_, exec_confirmationHeader h bits, fun w w1 w2 h0 hw h1 hs h2 hs2 => ?_,
      fun w w1 h0 h1 hs rest hrest => ?_⟩⟩
  · rw [receiveBits_sync (searchBits_of_twoSuccessors h0 hw h1 hs h2 hs2), searched_eq hbits, updLink_updLink]
    exact congrArg (State.report · _ _ _) (updLink_congr rfl)
  · have hfail : failsAt (s.link l).frameBits (old ++ bits) 0 := ⟨w, h0, .inr ⟨w1, by rwa [Nat.zero_add], .inl hs⟩⟩
    rw [receiveBits_hunt ((searchBits_of_failsAt hfail).trans hrest), searched_eq hbits]

/-! ### Headers in SYNC (R24, R25) -/

theorem goodHeader_iff (e : Header) (w : Word) :
    goodHeader e w = true ↔ (headerOf w).wellFormed = true ∧ (headerOf w).index = e.index := by
  simp [goodHeader]

theorem exec_syncHeaderArrival {s : State} {l : LinkId} {e : Header} {run : Nat}
    (h : (s.link l).rx.align = .sync e run none) (w : Word) (rf : Bool) :
    exec (.syncHeaderArrival l w rf) s = .next (s.judgeHeader l e run w rf) := by
  show Host.Outcome.next _ = _
  rw [h]

/-- A good header begins a good frame and ends a run of bad ones (R24). -/
theorem judgeHeader_good {e : Header} {w : Word} (h : goodHeader e w = true) (s : State) (l : LinkId) (run : Nat)
    (rf : Bool) : s.judgeHeader l e run w rf = s.updLink l fun x => { x with rx := { x.rx with
      align := .sync e.succ 0 (some ⟨w, true, x.config.shape, x.config.discard⟩),
      watch := { x.rx.watch with seen := true } } } := by
  unfold State.judgeHeader
  simp only [h, nextBadRun, if_true, updLink_updLink]
  rw [if_pos (by decide)]
  exact updLink_congr rfl

/-- A bad header before the fourth in a row is counted and begins a bad frame (R24). -/
theorem judgeHeader_bad {e : Header} {w : Word} (h : goodHeader e w = false) (s : State) (l : LinkId) {run : Nat}
    (hrun : run < 3) (rf : Bool) : s.judgeHeader l e run w rf = s.updLink l fun x => { x with
      rx := { x.rx with
        align := .sync e.succ (run + 1) (some ⟨w, false, x.config.shape, x.config.discard⟩),
        watch := { x.rx.watch with seen := true } },
      rxCount := { x.rxCount with headerErrors := satAdd16 x.rxCount.headerErrors 1 } } := by
  unfold State.judgeHeader
  simp only [h, nextBadRun, Bool.false_eq_true, if_false, updLink_updLink]
  rw [if_pos (by omega)]
  exact updLink_congr rfl

/-- The link at the fourth bad header in a row: the header counted, clock activity seen (R20, R24). -/
def State.badHeaderSeen (s : State) (l : LinkId) : State :=
  s.updLink l fun x => { x with
    rx := { x.rx with watch := { x.rx.watch with seen := true } },
    rxCount := { x.rxCount with headerErrors := satAdd16 x.rxCount.headerErrors 1 } }

/-- The fourth bad header in a row takes the receiver out of SYNC, its bits the first of the search (R25). -/
theorem judgeHeader_fourth {e : Header} {w : Word} (h : goodHeader e w = false) (s : State) (l : LinkId) {run : Nat}
    (hrun : 3 ≤ run) (rf : Bool) : s.judgeHeader l e run w rf =
      (s.badHeaderSeen l).leaveSync l (.hunt (bitsOfWord w)) .headerErrors rf := by
  unfold State.judgeHeader
  simp only [h, nextBadRun, Bool.false_eq_true, if_false]
  rw [if_neg (by omega)]
  exact congrArg (State.leaveSync · _ _ _ _) (updLink_congr rfl)

theorem badHeaderSeen_link (s : State) (l : LinkId) : (s.badHeaderSeen l).link l = { s.link l with
    rx := { (s.link l).rx with watch := { (s.link l).rx.watch with seen := true } },
    rxCount := { (s.link l).rxCount with headerErrors := satAdd16 (s.link l).rxCount.headerErrors 1 } } :=
  link_updLink_self ..

/-- The link itself after the fourth bad header (R25, R26). -/
theorem badHeaderSeen_outOfSync (s : State) (l : LinkId) (w : Word) :
    (s.badHeaderSeen l).updLink l (·.outOfSync (.hunt (bitsOfWord w)) .headerErrors) = s.updLink l (fun x => { x with
      rx := { x.rx with align := .hunt (bitsOfWord w), watch := { x.rx.watch with seen := true },
                        remoteAlarm := false, raiRun := 0, checkAlarm := false, window := 0#8,
                        collector := .idle, numberValid := false, qualCount := 0, wholeMark := false },
      store := { x.store with queue := [], primed := false }, assembler := [],
      rxCount := { x.rxCount with headerErrors := satAdd16 x.rxCount.headerErrors 1,
                                  syncLosses := satAdd16 x.rxCount.syncLosses 1 } }) := by
  unfold State.badHeaderSeen
  rw [updLink_updLink]
  exact updLink_congr rfl

/-- Settles O34: a good header, a bad one, and the fourth bad one in a row. -/
theorem headerIsJudged : Obligations.HeaderIsJudged := by
  refine fun l w rf s e run h => ⟨_, exec_syncHeaderArrival h w rf, fun hw hi => judgeHeader_good
    ((goodHeader_iff e w).2 ⟨hw, hi⟩) s l run rf, fun hn hrun => judgeHeader_bad ?_ s l hrun rf, fun hn hrun => ?_⟩
  · rw [← Bool.not_eq_true, goodHeader_iff]; exact hn
  · rw [judgeHeader_fourth (by rw [← Bool.not_eq_true, goodHeader_iff]; exact hn) s l hrun rf]
    have hsource : (s.badHeaderSeen l).tb.source = s.tb.source := rfl
    have hqual : ((s.badHeaderSeen l).link l).rx.qualCount = (s.link l).rx.qualCount := by rw [badHeaderSeen_link]
    have hconfig (k : LinkId) : ((s.badHeaderSeen l).link k).config = (s.link k).config :=
      updLink_read (fun y : Link => y.config) s l k _ rfl
    refine ⟨?_, leaveSync_quiet_self .., ?_, fun k hk => ?_, fun k => ?_, ?_, ?_, ?_, ?_, _, rfl, fun hne => ?_,
      fun hs hq => ?_⟩
    · rw [leaveSync_rx_self]; rfl
    · rw [leaveSync_rxCount_self, badHeaderSeen_link]; rfl
    · rw [leaveSync_rx_ne _ hk]
      exact congrArg Link.rx (link_updLink_ne s hk _)
    · rw [leaveSync_config, hconfig]
    · rw [leaveSync_map]; rfl
    · rw [leaveSync_bank]; rfl
    · rw [leaveSync_bridges]; rfl
    · rw [leaveSync_agent]; rfl
    · rw [leaveSync_eq_report (by rw [hsource, hqual]; exact hne), badHeaderSeen_outOfSync]; rfl
    · rw [leaveSync_eq_select (by rw [hsource]; exact hs) (by rw [hqual]; exact hq), badHeaderSeen_outOfSync]; rfl

end Sys2Proof.Machine
end

section
/-!
PROOFS. The superframe-number collector, the cell assembler, dispatch and relaying, and the layouts of cells, records,
entries and headers (R32, R33, R57, R126, R132 to R136, R196 to R198).
-/

namespace Sys2Proof.Machine

/-! ### The superframe-number collector (R32) -/

/-- The first `j` bits of a number, most significant first, the rest 0. -/
def leadingBits (number : Word) (j : Nat) : Word := (number >>> (16 - j)) <<< (16 - j)

theorem getLsbD_leadingBits (number : Word) (j i : Nat) :
    (leadingBits number j).getLsbD i = (decide (16 - j ≤ i) && number.getLsbD i) := by
  unfold leadingBits
  rw [BitVec.getLsbD_shiftLeft, BitVec.getLsbD_ushiftRight]
  by_cases h : 16 - j ≤ i
  · by_cases h16 : i < 16
    · simp [h, h16, Nat.not_lt.2 h]
    · simp [BitVec.getLsbD_of_ge number i (by omega), h16]
  · simp [h, Nat.lt_of_not_le h]

theorem leadingBits_all (number : Word) : leadingBits number 16 = number := by
  refine BitVec.eq_of_getLsbD_eq fun i _ => ?_
  rw [getLsbD_leadingBits]; simp

/-- One bit more at its place (R11). -/
theorem leadingBits_succ {number : Word} {header : Word} {j : Nat} (hj : j < 16)
    (h : headerS header = number.getLsbD (15 - j)) :
    leadingBits number j ||| sBitAt header j = leadingBits number (j + 1) := by
  refine BitVec.eq_of_getLsbD_eq fun i hi => ?_
  rw [BitVec.getLsbD_or, getLsbD_leadingBits, getLsbD_leadingBits, sBitAt, h]
  have hbit : ((if number.getLsbD (15 - j) then 1#16 <<< (15 - j) else 0#16) : Word).getLsbD i =
      (number.getLsbD (15 - j) && decide (i = 15 - j)) := by
    rw [BitVec.getLsbD_eq_getElem hi, bit_at _ _ _ hi]
  rw [hbit]
  by_cases e : i = 15 - j
  · subst e
    simp [show ¬16 - j ≤ 15 - j by omega]
  · have : 16 - j ≤ i ↔ 16 - (j + 1) ≤ i := by omega
    simp [e, this]

/-- A frame with a good header carries the bit of a number at this place (R11, R32). -/
def FrameInProgress.carriesBit (f : FrameInProgress) (number : Word) (i : Nat) : Prop :=
  f.good = true ∧ (headerOf f.header).index = BitVec.ofNat 6 i ∧ headerS f.header = number.getLsbD (15 - i)

section
variable {number : Word} {f : FrameInProgress}

theorem carriesBit_index {i : Nat} (hi : i < 16) (h : f.carriesBit number i) :
    (headerOf f.header).index.toNat = i := by
  rw [h.2.1, BitVec.toNat_ofNat]; omega

/-- Frame 0 begins a collection, wherever the collector stands (R32). -/
theorem collect_first (k : Collector) (h : f.carriesBit number 0) :
    collect k f = (.collecting (leadingBits number 1) 1, none) := by
  have hbit : sBitAt f.header 0 = leadingBits number 1 := by
    rw [← leadingBits_succ (by decide) h.2.2]
    simp [leadingBits]
  simp only [collect, h.1, carriesBit_index (by decide) h, Bool.not_true, Bool.false_eq_true, if_false, if_true, hbit]

theorem collect_next {i : Nat} (h0 : 0 < i) (hi : i < 15) (h : f.carriesBit number i) :
    collect (.collecting (leadingBits number i) i) f = (.collecting (leadingBits number (i + 1)) (i + 1), none) := by
  simp only [collect, h.1, carriesBit_index (by omega) h, Bool.not_true, Bool.false_eq_true, if_false,
    if_neg (show ¬i = 0 by omega), decide_true, Bool.true_and, decide_eq_true_eq, if_pos hi,
    leadingBits_succ (show i < 16 by omega) h.2.2]

/-- Frame 15 completes the number (R32). -/
theorem collect_last (h : f.carriesBit number 15) :
    collect (.collecting (leadingBits number 15) 15) f = (.idle, some number) := by
  simp only [collect, h.1, carriesBit_index (by decide) h, Bool.not_true, Bool.false_eq_true, if_false]
  rw [if_neg (by decide), if_neg (by decide), if_pos (by decide), leadingBits_succ (by decide) h.2.2, leadingBits_all]

end

/-- After `j` frames of a superframe, frame 0 among them, the collector holds the number's first `j` bits. -/
theorem collect_frames {number : Word} {frames : Fin 16 → FrameInProgress} (k : Collector)
    (h : ∀ i : Fin 16, (frames i).carriesBit number i.val) :
    ∀ j, j < 15 → ((List.finRange 16).take (j + 1)).foldl
      (fun (r : Collector × Option Word) i => collect r.1 (frames i)) (k, none) =
        (.collecting (leadingBits number (j + 1)) (j + 1), none)
  | 0, _ => collect_first k (h 0)
  | j + 1, hj => by
    have hget : (List.finRange 16)[j + 1]? = some ⟨j + 1, by omega⟩ := by
      rw [List.getElem?_eq_getElem (by simp; omega)]; simp
    rw [List.take_add_one, hget, List.foldl_append, collect_frames k h j (by omega)]
    exact collect_next (by omega) hj (h ⟨j + 1, by omega⟩)

theorem collectorAct_of_number {s : State} {l : LinkId} {f : FrameInProgress} {n : Word} (hs : (s.link l).inSync = true)
    (hn : (collect (s.link l).rx.collector f).2 = some n) : s.collectorAct l f =
      (s.updLink l fun x => x.withRx { x.rx with
        collector := (collect (s.link l).rx.collector f).1, number := n, numberValid := true }).withTb
          (s.tb.offer l n) := by
  unfold State.collectorAct
  simp only [hs, hn, if_true]

/-- Settles O37: frame by frame of a superframe, and by the offer of a completed number. -/
theorem numberIsCollected : Obligations.NumberIsCollected := by
  refine ⟨fun number frames k h => ?_, fun k f h => by simp [collect, h], fun s l f n hs hn => ?_⟩
  · have hsplit : List.finRange 16 = (List.finRange 16).take 15 ++ [15] := rfl
    rw [hsplit, List.foldl_append, collect_frames k h 14 (by decide)]
    exact collect_last (h 15)
  · rw [collectorAct_of_number hs hn]
    refine ⟨?_, ?_, fun hl => ?_, fun hl => ?_⟩
    · rw [withTb_link, link_updLink_self]; rfl
    · rw [withTb_link, link_updLink_self]; rfl
    · rw [withTb_tb, Timebase.offer, if_pos hl]
    · rw [withTb_tb, Timebase.offer, if_neg hl]

/-! ### The assembler, completed cells and dispatch (R132 to R136) -/

theorem assemble_empty (w : Word) : assemble [] w =
    if highByte w = 0xC5#8 ∨ highByte w = 0xCA#8 then ([w], none) else ([], none) := by
  unfold assemble
  rw [if_pos (show ([] : List Word).isEmpty = true from rfl)]
  simp only [Bool.or_eq_true, decide_eq_true_eq]
  rfl

theorem assemble_more {held : List Word} (h0 : held ≠ []) (h7 : held.length < 7) (w : Word) :
    assemble held w = (held ++ [w], none) := by
  unfold assemble
  rw [if_neg (by simpa using h0), if_pos h7]

theorem assemble_full {held : List Word} (h : 7 ≤ held.length) (w : Word) :
    assemble held w = ([], some (cellOfWords (held ++ [w]))) := by
  unfold assemble
  rw [if_neg (by rw [List.isEmpty_iff]; rintro rfl; simp at h), if_neg (by omega)]

/-- A completed cell with a bad check is counted and discarded (R133). -/
theorem completeCell_bad {x : Cell} (h : x[0] + x[1] + x[2] + x[3] + x[4] + x[5] + x[6] + x[7] ≠ 0xFFFF#16) (s : State)
    (l : LinkId) (rf nf : Bool) : s.completeCell l x rf nf = s.updLink l fun k =>
      { k with mgmtCount := { k.mgmtCount with checkFailures := satAdd16 k.mgmtCount.checkFailures 1 } } := by
  unfold State.completeCell
  rw [if_neg (by rw [cellGood_iff]; exact h)]

/-- A good one is counted and dispatched (R133). -/
theorem completeCell_good {x : Cell} (h : x[0] + x[1] + x[2] + x[3] + x[4] + x[5] + x[6] + x[7] = 0xFFFF#16) (s : State)
    (l : LinkId) (rf nf : Bool) : s.completeCell l x rf nf = (s.updLink l fun k =>
      { k with mgmtCount := { k.mgmtCount with goodCells := satAdd16 k.mgmtCount.goodCells 1 } }).dispatch l x rf nf := by
  unfold State.completeCell
  rw [if_pos (by rw [cellGood_iff]; exact h)]

theorem marker_ne {b : Byte} (h : b = 0xCA#8) : b ≠ outboundMarker := by rw [h]; decide

/-- An inbound cell on a DOWNLINK goes to the active uplink (R135). -/
theorem dispatch_inbound {s : State} {l : LinkId} {x : Cell} (hr : (s.link l).config.shape.role = .downlink)
    (hm : highByte x[0] = 0xCA#8) (rf nf : Bool) : s.dispatch l x rf nf = s.relayTo s.agent.activeUplink x := by
  have hne : cellMarker x ≠ outboundMarker := marker_ne hm
  unfold State.dispatch
  simp only [hr]
  rw [if_neg hne]; rfl

/-- An outbound cell on an UPLINK is for this part or for those below it (R135). -/
theorem dispatch_outbound {s : State} {l : LinkId} {x : Cell} (hr : (s.link l).config.shape.role = .uplink)
    (hm : highByte x[0] = 0xC5#8) (rf nf : Bool) : s.dispatch l x rf nf = s.dispatchOutbound l x rf nf := by
  have he : cellMarker x = outboundMarker := hm
  unfold State.dispatch
  simp only [hr]
  rw [if_pos he]

/-- A relayed copy finds its place where no place is held and fewer than four cells stand (R136). -/
theorem hasRoom_of_free {s : State} (h : s.agent.heldPlace = none) (l : LinkId) :
    s.hasRoom l = decide ((s.link l).queue.length < 4) := by
  rw [Bool.eq_iff_iff, hasRoom_iff, decide_eq_true_eq]; simp [h]

/-- Settles O38: by the cases of the assembler, of the check, and of role and direction. -/
theorem cellsAreAssembled : Obligations.CellsAreAssembled := by
  refine ⟨⟨fun w => ⟨fun h => ?_, fun h1 h2 => ?_⟩, fun held w h0 h7 => assemble_more h0 h7 w,
    fun held w h => assemble_full (by omega) w, fun s l x rf nf => ⟨fun h => completeCell_bad h s l rf nf,
      fun h => completeCell_good h s l rf nf⟩⟩, fun s l x rf nf => ⟨fun hr hm hc => ?_, fun hr hm hc => ?_, fun h => ?_,
      fun hr hm hh => ⟨fun hq => ?_, fun hq => ?_⟩⟩⟩
  · rw [assemble_empty, if_pos h]
  · rw [assemble_empty, if_neg (by simp [h1, h2])]
  · rw [dispatch_outbound hr hm, State.dispatchOutbound, if_pos hc]
  · rw [exec_commandOf, dispatch_outbound hr hm, State.dispatchOutbound, if_neg hc]; rfl
  · rcases h with ⟨hr, hm⟩ | ⟨hr, hm⟩
    · have hne : cellMarker x ≠ outboundMarker := marker_ne hm
      unfold State.dispatch
      simp only [hr]
      rw [if_neg hne]; rfl
    · have he : cellMarker x = outboundMarker := hm
      unfold State.dispatch
      simp only [hr]
      rw [if_pos he]; rfl
  · rw [dispatch_inbound hr hm, State.relayTo, hasRoom_of_free hh, if_pos (by simpa using hq)]; rfl
  · rw [dispatch_inbound hr hm, State.relayTo, hasRoom_of_free hh, if_neg (by simpa using hq)]

/-! ### Relaying to every DOWNLINK (R136) -/

/-- A link to which an outbound cell has been relayed. -/
def Link.relayed (k : Link) (x : Cell) : Link :=
  if k.config.shape.role = .downlink then
    if k.queue.length < 4 then { k with queue := k.queue ++ [⟨x, false⟩] }
    else { k with mgmtCount := { k.mgmtCount with relayDrops := satAdd16 k.mgmtCount.relayDrops 1 } }
  else k

/-- Relaying along a list of links reaches each of them once (R136). -/
theorem relay_along (x : Cell) : ∀ (ls : List LinkId) (s : State), ls.Nodup → s.agent.heldPlace = none → ∀ k,
    ((ls.foldl (fun s l => if (s.link l).config.shape.role = .downlink then s.relayTo l x else s) s).link k) =
      if k ∈ ls then (s.link k).relayed x else s.link k
  | [], s, _, _, k => by simp
  | l :: ls, s, hn, hh, k => by
    obtain ⟨hl, hn⟩ := List.nodup_cons.1 hn
    rw [List.foldl_cons]
    have hstep : ∀ j, (if (s.link l).config.shape.role = .downlink then s.relayTo l x else s).link j =
        if j = l then (s.link l).relayed x else s.link j := by
      intro j
      unfold Link.relayed
      split
      · rw [relayTo_link s l j x hh]
      · split
        · next e => rw [e]
        · rfl
    have hheld : (if (s.link l).config.shape.role = .downlink then s.relayTo l x else s).agent.heldPlace = none := by
      split
      · rw [relayTo_agent]; exact hh
      · exact hh
    rw [relay_along x ls _ hn hheld, hstep]
    by_cases e : k = l
    · subst e
      simp [hl]
    · simp [e]

theorem eq_withLinks {s u : State} (h : u.withLinks s.links = s) : u = s.withLinks u.links := by
  rw [← h]; rfl

/-- Relaying changes the links only. -/
theorem relayOutbound_rest (s : State) (x : Cell) : (s.relayOutbound x).withLinks s.links = s := by
  refine foldl_induct (fun u : State => u.withLinks s.links = s) _ (fun u l hu => ?_) _ _ rfl
  split
  · unfold State.relayTo
    split <;> exact hu
  · exact hu

/-- Settles O39: link by link, each reached once. -/
theorem relayReachesEveryDownlink : Obligations.RelayReachesEveryDownlink := by
  refine fun s x hh => ⟨fun l => ?_, ?_⟩
  · exact (relay_along x _ s (List.nodup_finRange 8) hh l).trans (if_pos (List.mem_finRange l))
  · exact eq_withLinks (relayOutbound_rest s x)

/-! ### Cells, records, entries and headers as bytes (R126, R196 to R198) -/

/-- Settles O40: word by word; the third is put together from its three fields, the eighth from the check. -/
theorem cellReadAndBuiltAgain : Obligations.CellReadAndBuiltAgain := by
  intro l x rf nf hm hsum
  have h0 : wordOfBytes outboundMarker (lowByte x[0]) = x[0] := by
    rw [show outboundMarker = highByte x[0] from hm.symm, high_low]
  have h7 : ~~~(x[0] + x[1] + x[2] + x[3] + x[4] + x[5] + x[6]) = x[7] := check_of_sum hsum
  have hbuilt : outboundCell (x[2].extractLsb' 6 7) (commandCellOf l x rf nf) =
      #v[x[0], x[1], x[2], x[3], x[4], x[5], x[6], x[7]] := by
    simp only [outboundCell, commandCellOf, buildCell, h0, w3_built, high_low, Vector.getElem_mk,
      List.getElem_toArray, List.getElem_cons_zero, List.getElem_cons_succ, h7]
  rw [hbuilt]
  refine Vector.ext fun i hi => ?_
  interval_cases i <;> rfl

theorem byteOf_toNat {n : Nat} (h : n < 256) : (byteOf n).toNat = n := by simp [byteOf]; omega

/-- The flags of a record, bit by bit of B1 (R197). -/
theorem recordFlags (a b c d : Bool) :
    (byteOf (a.toNat + 2 * b.toNat + 4 * c.toNat + 8 * d.toNat)).getLsbD 0 = a ∧
    (byteOf (a.toNat + 2 * b.toNat + 4 * c.toNat + 8 * d.toNat)).getLsbD 1 = b ∧
    (byteOf (a.toNat + 2 * b.toNat + 4 * c.toNat + 8 * d.toNat)).getLsbD 2 = c ∧
    (byteOf (a.toNat + 2 * b.toNat + 4 * c.toNat + 8 * d.toNat)).getLsbD 3 = d := by
  revert a b c d; decide

theorem recordOf_bytes {c : CommandCell} {x : LinkConfig} (hslot : x.shape.mgmtSlotLegal = true)
    (hrole : x.roleLegal = true) (h : ∀ i : Fin 6, c.payload[i.val + 1] = x.bytes.getD i.val 0#8) :
    recordOf c = some x := by
  obtain ⟨hrx, htx, hce, hdis⟩ := recordFlags x.rxEnable x.txEnable x.shape.checkEnable x.discard
  have h1 : pByte c 1 = _ := h 0
  have h2 : pByte c 2 = slotCountCode x.shape.slotCount := h 1
  have h3 : pByte c 3 = roleCode x.shape.role := h 2
  have h4 : pByte c 4 = byteOf x.shape.mgmtSlot.val := h 3
  have h5 : pByte c 5 = highByte x.idle := h 4
  have h6 : pByte c 6 = lowByte x.idle := h 5
  have hslot4 : (pByte c 4).toNat = x.shape.mgmtSlot.val := by rw [h4, byteOf_toNat (by omega)]
  refine recordOf_iff.2 ⟨h2, h3, hslot4, ?_, ?_, ?_, ?_, ?_, hslot, hrole⟩
  · rw [h1]; exact hrx.symm
  · rw [h1]; exact htx.symm
  · rw [h1]; exact hce.symm
  · rw [h1]; exact hdis.symm
  · rw [pWord, h5, h6, high_low]

theorem entryOf_bytes {c : CommandCell} {e : Entry} (h : ∀ i : Fin 4, c.payload[i.val + 2] = e.bytes.getD i.val 0#8) :
    entryOf c = some e := by
  have h2 : pByte c 2 = e.bytes.getD 0 0#8 := h 0
  have h3 : pByte c 3 = e.bytes.getD 1 0#8 := h 1
  have h4 : pByte c 4 = e.bytes.getD 2 0#8 := h 2
  have h5 : pByte c 5 = e.bytes.getD 3 0#8 := h 3
  obtain ⟨source, fault⟩ := e
  refine entryOf_iff.2 ⟨?_, ?_⟩
  · rw [h3]
    cases source <;> cases fault <;> rfl
  · cases source with
    | idle => exact h2
    | slot k p =>
      refine ⟨h2, ?_, ?_⟩
      · rw [h4]; exact byteOf_toNat (by omega)
      · rw [h5]; exact byteOf_toNat (by omega)
    | leg b k =>
      refine ⟨h2, ?_, ?_⟩
      · rw [h4]; exact byteOf_toNat (by omega)
      · rw [h5]; exact byteOf_toNat (by omega)
    | const w =>
      refine ⟨h2, ?_⟩
      rw [pWord, h4, h5]; exact high_low w

/-- The header word of each frame index, read back and followed by the next (R7, R196). -/
theorem headerWord_read : ∀ (i : Fin 48) (rai sb : Bool),
    headerOf (headerWord i rai sb) = ⟨if i.val % 2 = 0 then 0x2D#6 else 0x12#6, BitVec.ofNat 6 i.val⟩ ∧
    (headerOf (headerWord i rai sb)).wellFormed = true ∧ headerRai (headerWord i rai sb) = rai ∧
    headerS (headerWord i rai sb) = sb ∧ (headerWord i rai sb).extractLsb' 14 2 = 0#2 ∧
    isSuccessor (headerWord i rai sb) (headerWord (i + 1) rai sb) = true := by
  decide +kernel

/-- Settles O41: byte by byte of a record and of an entry, and by the 48 frame indices of a header. -/
theorem layoutsRoundTrip : Obligations.LayoutsRoundTrip :=
  ⟨fun _ _ hslot hrole h => recordOf_bytes hslot hrole h, fun _ _ h => entryOf_bytes h, headerWord_read⟩

end Sys2Proof.Machine
end

section
/-!
PROOFS. Local frame starts act by act: an invariant that knows which acts are still to come; the rows that are local
frame starts; the alarms, the superframe start and the switch (R29, R31, R47, R92 to R94).
-/

namespace Sys2Proof.Machine

/-! ### Acts that are still to come -/

/-- An invariant that speaks of the acts still to come, over acts that are taken once each. -/
theorem startFold_rest (P : List StartAct → State → Prop) (x : StartCtx)
    (hstep : ∀ a rest u, a ∉ rest → P (a :: rest) u → P rest (State.startAct x u a)) :
    ∀ (acts : List StartAct) (s : State), acts.Nodup → P acts s → P [] (acts.foldl (State.startAct x) s)
  | [], _, _, hs => hs
  | a :: as, s, hn, hs => by
    obtain ⟨ha, hn⟩ := List.nodup_cons.1 hn
    exact startFold_rest P x hstep as _ hn (hstep a as s ha hs)

/-- The lane of every receiver whose clock watch is still to come is as it was (R20). -/
def State.lanesUntaken (s : State) (rest : List StartAct) (u : State) : Prop :=
  ∀ l, .clockWatch l ∈ rest → (u.link l).rx.align = (s.link l).rx.align ∧ (u.link l).rx.watch = (s.link l).rx.watch

theorem lanesUntaken_step {s u : State} {a : StartAct} {rest : List StartAct} (ha : a ∉ rest)
    (h : s.lanesUntaken (a :: rest) u) (x : StartCtx) : s.lanesUntaken rest (State.startAct x u a) := by
  intro l hl
  have hne : a ≠ .clockWatch l := fun e => ha (e ▸ hl)
  obtain ⟨halign, hwatch⟩ := startAct_align x u a l hne
  rw [halign, hwatch]
  exact h l (List.mem_cons_of_mem _ hl)

/-- An invariant of a start, step by step: each clock watch finds its lane as it was before the start. -/
theorem localFrameStart_goes {s : State} {i : StartInput} {k : Bool} (hk : s.tb.startKind i.elapsed = some k)
    (P : List StartAct → State → Prop)
    (h0 : P (startSequence s.resetDue i.order) (s.withTb (s.tb.beginFrame (s.startCtx i).new k i.elapsed)))
    (hstep : ∀ a rest u, a ∉ rest → (∀ l, a = .clockWatch l →
        (u.link l).rx.align = (s.link l).rx.align ∧ (u.link l).rx.watch = (s.link l).rx.watch) →
      P (a :: rest) u → P rest (State.startAct (s.startCtx i) u a)) :
    P [] (s.localFrameStart i) := by
  rw [localFrameStart_eq hk]
  have hgo : ∀ a rest u, a ∉ rest → s.lanesUntaken (a :: rest) u ∧ P (a :: rest) u →
      s.lanesUntaken rest (State.startAct (s.startCtx i) u a) ∧ P rest (State.startAct (s.startCtx i) u a) :=
    fun a rest u ha ⟨hlanes, hP⟩ => ⟨lanesUntaken_step ha hlanes _,
      hstep a rest u ha (fun l e => hlanes l (e ▸ List.mem_cons_self)) hP⟩
  have hstart : s.lanesUntaken (startSequence s.resetDue i.order)
      (s.withTb (s.tb.beginFrame (s.startCtx i).new k i.elapsed)) := fun _ _ => ⟨rfl, rfl⟩
  exact (startFold_rest (fun rest u => s.lanesUntaken rest u ∧ P rest u) (s.startCtx i) hgo _ _
    (nodup_startSequence _ _) ⟨hstart, h0⟩).2

/-- The loss of a clock is due at the act as it was due before the start. -/
theorem clockLossDue_untaken {s u : State} {l : LinkId}
    (h : (u.link l).rx.align = (s.link l).rx.align ∧ (u.link l).rx.watch = (s.link l).rx.watch) (rxc : BitVec 8) :
    u.clockLossDue l rxc = s.clockLossDue l rxc := clockLossDue_congr h.1 h.2 rxc

theorem startAct_softReset_of_not_due {x : StartCtx} (h : x.resetDue = false) (s : State) :
    State.startAct x s .softReset = s := by simp [State.startAct, h]

/-! ### The rows that are local frame starts -/

/-- A row that names what comes about at a start is that start, by itself (notes/assumptions/2.md). -/
theorem startWhen_alone {s : State} {due : Bool} {i : StartInput} (hd : due = true) (ha : i.arrivals = []) :
    s.startWhen due i = s.localFrameStart i := by
  rw [State.startWhen, if_pos hd, frameStart_alone ha]

/-! ### What a start leaves of receivers -/

/-- The receiver of `l` at the acts that do not evaluate or count it, where it does not lose its clock. -/
theorem startAct_rx_kept {x : StartCtx} {s : State} {a : StartAct} {l : LinkId}
    (h1 : a = .clockWatch l → s.clockLossDue l x.rxc = false) (h2 : a ≠ .checkWindow l) (h3 : a ≠ .qualification l) :
    ∃ w b, ((State.startAct x s a).link l).rx = { (s.link l).rx with watch := w, align := b } ∧
      b.isSync = (s.link l).inSync := by
  by_cases h : a = .clockWatch l
  · subst h
    obtain ⟨w, b, e, hb⟩ := clockWatchAct_noLoss (x.refFirst.getLsbD l.val) (h1 rfl)
    refine ⟨w, b, ?_, hb⟩
    simp only [State.startAct, e, link_updLink_self]; rfl
  · exact ⟨(s.link l).rx.watch, (s.link l).rx.align, startAct_rx x s a l h h2 h3, rfl⟩

theorem checkWindowAct_rx (s : State) (l : LinkId) (superframe : Bool) :
    ((s.checkWindowAct l superframe).link l).rx =
      if superframe = true ∧ (s.link l).inSync = true ∧ (s.link l).config.shape.checkEnable = true then
        { (s.link l).rx with
          checkAlarm := evaluateWindow (s.link l).rx.checkAlarm (s.link l).rx.window, window := 0#8 }
      else (s.link l).rx := by
  unfold State.checkWindowAct
  simp only [Bool.and_eq_true, and_assoc]
  split
  · split
    · rw [link_updLink_self]; rfl
    · rw [report_link_rx, link_updLink_self]; rfl
  · rfl

theorem qualificationAct_rx (s : State) (l : LinkId) (superframe : Bool) :
    ((s.qualificationAct l superframe).link l).rx =
      if superframe then { (s.link l).rx with qualCount := (s.link l).nextQual, wholeMark := (s.link l).inSync }
      else (s.link l).rx := by
  unfold State.qualificationAct
  split
  · simp only
    split
    · rw [select_link_rx, link_updLink_self]; rfl
    · rw [link_updLink_self]; rfl
  · rfl

/-- A link that does not lose its clock at a start is in SYNC after an act as before it. -/
theorem startAct_inSync {x : StartCtx} {s : State} {a : StartAct} {l : LinkId}
    (h : a = .clockWatch l → s.clockLossDue l x.rxc = false) :
    ((State.startAct x s a).link l).inSync = (s.link l).inSync := by
  by_cases hc : a = .clockWatch l
  · obtain ⟨w, b, e, hb⟩ := startAct_rx_kept (x := x) h (by rw [hc]; simp) (by rw [hc]; simp)
    unfold Link.inSync at hb ⊢
    rw [e]; exact hb
  · unfold Link.inSync
    rw [(startAct_align x s a l hc).1]

/-! ### The alarms (R29, R31) -/

theorem evaluateWindow_on {alarm : Bool} {count : Byte} (h : 4 ≤ count.toNat) : evaluateWindow alarm count = true :=
  if_pos h

theorem evaluateWindow_off (alarm : Bool) : evaluateWindow alarm 0#8 = false := rfl

theorem evaluateWindow_same {alarm : Bool} {count : Byte} (h4 : ¬(4 ≤ count.toNat ∧ alarm = false))
    (h0 : ¬(count = 0#8 ∧ alarm = true)) : evaluateWindow alarm count = alarm := by
  unfold evaluateWindow
  split
  · next h => cases alarm; exacts [absurd ⟨h, rfl⟩ h4, rfl]
  · split
    · next h => cases alarm; exacts [rfl, absurd ⟨BitVec.eq_of_toNat_eq h, rfl⟩ h0]
    · rfl

theorem evaluateWindow_eq (alarm : Bool) (count : Byte) :
    evaluateWindow alarm count = if 4 ≤ count.toNat then true else if count = 0#8 then false else alarm := by
  have h : count.toNat = 0 ↔ count = 0#8 := ⟨fun h => BitVec.eq_of_toNat_eq h, fun h => by rw [h]; rfl⟩
  simp only [evaluateWindow, ge_iff_le, h]

theorem checkWindowAct_evaluates {s : State} {l : LinkId} (hs : (s.link l).inSync = true)
    (hc : (s.link l).config.shape.checkEnable = true) : s.checkWindowAct l true =
      let alarm := evaluateWindow (s.link l).rx.checkAlarm (s.link l).rx.window
      let u := s.updLink l fun x => { x with rx := { x.rx with checkAlarm := alarm, window := 0#8 } }
      if alarm = (s.link l).rx.checkAlarm then u else u.report .checkAlarm (byteOf l.val) (flagCode alarm) := by
  unfold State.checkWindowAct
  simp only [hs, hc, Bool.and_self, if_true]
  rfl

/-- What of `l` the check alarm at a start goes by: fixed until its window is evaluated, and evaluated after. -/
def State.alarmsGo (s : State) (l : LinkId) (rest : List StartAct) (u : State) : Prop :=
  (u.link l).config = (s.link l).config ∧ (u.link l).inSync = (s.link l).inSync ∧
  let rx := if s.tb.superframeDue = true ∧ (s.link l).inSync = true ∧ (s.link l).config.shape.checkEnable = true ∧
      .checkWindow l ∉ rest then { (s.link l).rx with
        checkAlarm := evaluateWindow (s.link l).rx.checkAlarm (s.link l).rx.window, window := 0#8 }
    else (s.link l).rx
  (u.link l).rx.window = rx.window ∧ (u.link l).rx.checkAlarm = rx.checkAlarm

theorem alarmsGo_congr {s u t : State} {l : LinkId} {rest rest' : List StartAct}
    (h : s.alarmsGo l rest u) (hr : .checkWindow l ∈ rest' ↔ .checkWindow l ∈ rest)
    (hc : (t.link l).config = (u.link l).config) (hs : (t.link l).inSync = (u.link l).inSync)
    (hw : (t.link l).rx.window = (u.link l).rx.window) (ha : (t.link l).rx.checkAlarm = (u.link l).rx.checkAlarm) :
    s.alarmsGo l rest' t := by
  unfold State.alarmsGo at h ⊢
  simp only [hc, hs, hw, ha, hr]; exact h

theorem alarmsGo_step {s u : State} {i : StartInput} {l : LinkId} {a : StartAct} {rest : List StartAct}
    (hd : s.clockLossDue l i.rxc = false) (ha : a ∉ rest)
    (hlane : ∀ l, a = .clockWatch l →
      (u.link l).rx.align = (s.link l).rx.align ∧ (u.link l).rx.watch = (s.link l).rx.watch)
    (h : s.alarmsGo l (a :: rest) u) : s.alarmsGo l rest (State.startAct (s.startCtx i) u a) := by
  have hloss : a = .clockWatch l → u.clockLossDue l (s.startCtx i).rxc = false := fun e =>
    (clockLossDue_untaken (hlane l e) _).trans hd
  have hin := startAct_inSync hloss
  have hcfg := startAct_link_config (s.startCtx i) u a l
  by_cases hw : a = .checkWindow l
  · subst hw
    obtain ⟨hc, hs, hrx⟩ := h
    simp only [List.mem_cons, true_or, not_true_eq_false, and_false, if_false] at hrx
    refine ⟨hcfg.trans hc, hin.trans hs, ?_⟩
    simp only [State.startAct, checkWindowAct_rx, startCtx_superframe, hc, hs, ha, not_false_eq_true, and_true]
    split
    · exact ⟨rfl, by rw [hrx.1, hrx.2]⟩
    · exact hrx
  · have hr : .checkWindow l ∈ rest ↔ .checkWindow l ∈ a :: rest := by simp [Ne.symm hw]
    by_cases hq : a = .qualification l
    · subst hq
      have hrx := qualificationAct_rx u l (s.startCtx i).superframe
      refine alarmsGo_congr h hr hcfg hin ?_ ?_ <;> simp only [State.startAct, hrx] <;> split <;> rfl
    · obtain ⟨w, b, e, -⟩ := startAct_rx_kept hloss hw hq
      exact alarmsGo_congr h hr hcfg hin (by rw [e]) (by rw [e])

/-- Settles O36: by the cases of the integrator and of the window, and act by act of a start. -/
theorem alarmsGoByTheirRules : Obligations.AlarmsGoByTheirRules := by
  refine ⟨fun alarm run => ⟨?_, fun h => ?_, fun h => ?_⟩, fun s l f => ⟨fun hg => ?_, fun hs hg hr hb => ?_⟩,
    fun s l superframe => ⟨fun h => ?_, fun hf hs hc => ?_⟩, fun i s k l hk ha hd => ?_⟩
  · simp [integrateRai]
  · have hlt : ¬3 ≤ run := by omega
    simp [integrateRai, hlt]
  · simp [integrateRai, h]
  · simp [State.remoteAlarmAct, hg]
  · have hrun : integrateRai (s.link l).rx.remoteAlarm (s.link l).rx.raiRun (headerRai f.header) =
        (!(s.link l).rx.remoteAlarm, 0, true) := by simp [integrateRai, hr, hb]
    unfold State.remoteAlarmAct
    simp only [hs, hg, hrun, Bool.and_self, if_true]
    cases (s.link l).rx.remoteAlarm <;> rfl
  · unfold State.checkWindowAct
    refine if_neg ?_
    rcases h with h | h | h <;> simp [h]
  · subst hf
    rw [checkWindowAct_evaluates hs hc]
    refine ⟨fun h4 hoff => ?_, fun h0 hon => ?_, fun h4 h0 => ?_⟩
    · rw [evaluateWindow_on h4, hoff]; rfl
    · rw [h0, evaluateWindow_off, hon]; rfl
    · rw [evaluateWindow_same h4 h0]
      simp only [if_true]
      rfl
  · refine ⟨_, exec_alone ha, ?_⟩
    have hgo : s.alarmsGo l [] (s.localFrameStart i) :=
      localFrameStart_goes hk (s.alarmsGo l) ⟨rfl, rfl, by simp [mem_startSequence]⟩
        fun a rest u hm hlane h => alarmsGo_step hd hm hlane h
    obtain ⟨-, -, hrx⟩ := hgo
    simp only [List.not_mem_nil, not_false_eq_true, and_true] at hrx
    refine ⟨fun hf hs hc => ?_, fun hn => ?_⟩
    · rw [if_pos ⟨hf, hs, hc⟩] at hrx
      rw [← evaluateWindow_eq]; exact hrx
    · rw [if_neg hn] at hrx; exact hrx

end Sys2Proof.Machine
end

section
/-!
PROOFS. The superframe start, the engine and the switch at a local frame start (R47, R85 to R87, R92 to R94).
-/

namespace Sys2Proof.Machine

/-! ### The frame index across a completion (R47) -/

theorem reconfigureRx_frameIndex (s : State) (l : LinkId) (old new : LinkConfig) (rf : Bool) :
    (s.reconfigureRx l old new rf).tb.frameIndex = s.tb.frameIndex := by
  unfold State.reconfigureRx
  (repeat' split) <;> simp

theorem bodyOf_frameIndex (code : BitVec 7) (b : Bool) (c : CommandCell) (s : State) :
    (bodyOf code b c s).1.tb.frameIndex = s.tb.frameIndex := by
  obtain ⟨t, e, hd⟩ : ∃ t, (bodyOf code b c s).1 = t ∧ s.BodyDid b c t := ⟨_, rfl, bodyOf_did code b c s⟩
  rw [e]
  cases hd with
  | linkSet l new =>
    unfold State.writeLink
    simp only [reconfigureRx_frameIndex]
    split <;> rfl
  | refSet => exact select_tb_frameIndex _
  | abort => rw [report_tb]; rfl
  | notices => rw [setNotices_tb]
  | _ => rfl

theorem cellAct_frameIndex (s : State) (l : LinkId) (w : Option Word) (rf nf : Bool) :
    (s.cellAct l w rf nf).tb.frameIndex = s.tb.frameIndex := by
  have hshell (u v : State) (hu : u.tb.frameIndex = s.tb.frameIndex) (h : State.Shell u v) :
      v.tb.frameIndex = s.tb.frameIndex := by rw [h.tb]; exact hu
  exact cellAct_keeps (fun u => u.tb.frameIndex = s.tb.frameIndex) (fun _ _ _ h _ _ => h) (fun _ _ _ h => h) hshell
    (takeByCode_keeps _ hshell fun code b c u hu => (bodyOf_frameIndex code b c u).trans hu) rfl l w rf nf

theorem receiveAct_frameIndex (l : LinkId) (f : FrameInProgress) (rest : Vector Word 63) (startAt : Nat) (rf nf : Bool)
    (s : State) (a : ReceiveAct) : (State.receiveAct l f rest startAt rf nf s a).tb.frameIndex = s.tb.frameIndex := by
  cases a with
  | cell => exact cellAct_frameIndex s l _ rf nf
  | timing =>
    simp only [State.receiveAct, timingAct_eq]
    split <;> rfl
  | collector =>
    simp only [State.receiveAct, State.collectorAct, Timebase.offer]
    (repeat' split) <;> rfl
  | _ =>
    simp only [State.receiveAct, State.storeAct, State.checkAct, State.remoteAlarmAct]
    (repeat' split) <;> simp

/-- A completion leaves the index of the local frame alone. -/
theorem frameCompletes_frameIndex (s : State) (x : FrameArrival) :
    (s.frameCompletes x).tb.frameIndex = s.tb.frameIndex := by
  unfold State.frameCompletes
  split
  · exact foldl_induct (fun u : State => u.tb.frameIndex = s.tb.frameIndex) _
      (fun u a hu => (receiveAct_frameIndex _ _ _ _ _ _ u a).trans hu) _ _ rfl
  · rfl

theorem localFrameStart_frameIndex {s : State} {i : StartInput} {k : Bool} (hk : s.tb.startKind i.elapsed = some k) :
    (s.localFrameStart i).tb.frameIndex = if s.tb.started then s.tb.frameIndex + 1 else s.tb.frameIndex := by
  rw [localFrameStart_eq hk]
  exact startFold_keeps (·.tb.frameIndex) _ _ _ fun a _ u => startAct_tb_frameIndex _ u a

/-- With frames that complete together with it or without, a start moves the index by one. -/
theorem frameStart_frameIndex {s : State} {i : StartInput} {k : Bool} (hk : s.tb.startKind i.elapsed = some k)
    (hs : s.tb.started = true) : (s.frameStart i).tb.frameIndex = s.tb.frameIndex + 1 := by
  have hstart : (s.localFrameStart i).tb.frameIndex = s.tb.frameIndex + 1 := by
    rw [localFrameStart_frameIndex hk, if_pos hs]
  have hthrough := throughArrivals_keeps (P := fun u => u.tb.frameIndex = s.tb.frameIndex + 1) hstart
    fun u x hu => (frameCompletes_frameIndex u x).trans hu
  by_cases ha : i.arrivals = []
  · rw [frameStart_alone ha]; exact hstart
  · rw [frameStart_joined hk ha]
    split
    · rw [noticeTest_tb]; exact hthrough
    · exact hthrough

theorem superframeDue_iff (t : Timebase) : t.superframeDue = true ↔ t.started = true ∧ t.frameIndex = 47 := by
  simp [Timebase.superframeDue]

/-- Settles O15: the row is the local frame start where its moment has come, and the index goes on by one. -/
theorem superframeStartIsStartAt47 : Obligations.SuperframeStartIsStartAt47 := by
  refine fun i s => ⟨fun hs hf => ?_, fun hn => ?_⟩
  · have hdue : s.tb.superframeDue = true := (superframeDue_iff _).2 ⟨hs, hf⟩
    have hrow : exec (.localSuperframeStart i) s = .next (s.frameStart i) := by
      show Host.Outcome.next (s.startWhen s.tb.superframeDue i) = _
      rw [State.startWhen, if_pos hdue]
    exact ⟨hrow, fun k hk => ⟨_, hrow, by rw [frameStart_frameIndex hk hs, hf]; rfl⟩⟩
  · show Host.Outcome.next (s.startWhen s.tb.superframeDue i) = _
    rw [State.startWhen, if_neg (fun h => hn ((superframeDue_iff _).1 h))]

/-! ### The switch (R92 to R94) -/

/-- The bank control before and after the switch that is to fire at a start (R94). -/
def State.switchGoes (s : State) (rest : List StartAct) (u : State) : Prop :=
  if .schedule ∈ rest then u.bank.active = s.bank.active ∧ u.bank.scheduler = s.bank.scheduler
  else u.bank.active = s.bank.active.other ∧ u.bank.consistent = true ∧ u.bank.scheduler = .idle

theorem engineAct_control (s : State) : s.engineAct.bank.active = s.bank.active ∧
    s.engineAct.bank.scheduler = s.bank.scheduler ∧
    (s.bank.consistent = true → s.engineAct.bank.consistent = true) := by
  cases he : s.bank.engine with
  | idle a b c => rw [engineAct_idle s he]; exact ⟨rfl, rfl, id⟩
  | running op pos =>
    by_cases hp : pos + 8 < 512
    · rw [engineAct_goesOn he hp]; exact ⟨rfl, rfl, id⟩
    · rw [engineAct_ends he (by omega), report_bank]; exact ⟨rfl, rfl, fun _ => rfl⟩

/-- The acts of a start that are not the switch keep active bank and scheduler, and do not make the standby
INCONSISTENT. -/
theorem startAct_control {x : StartCtx} {s : State} {a : StartAct} (hr : x.resetDue = false) (ha : a ≠ .schedule) :
    (State.startAct x s a).bank.active = s.bank.active ∧
    (State.startAct x s a).bank.scheduler = s.bank.scheduler ∧
    (s.bank.consistent = true → (State.startAct x s a).bank.consistent = true) := by
  by_cases he : a = .engineChunk
  · subst he; exact engineAct_control s
  · by_cases hs : a = .softReset
    · subst hs; rw [startAct_softReset_of_not_due hr]; exact ⟨rfl, rfl, id⟩
    · rw [startAct_bank x s a ⟨ha, he, hs⟩]; exact ⟨rfl, rfl, id⟩

theorem switchGoes_step {s u : State} {i : StartInput} {a : StartAct} {rest : List StartAct} (hr : s.resetDue = false)
    (hf : (s.bank.scheduler.fires s.tb.superframeDue s.tb.number (s.startCtx i).new).isSome = true) (ha : a ∉ rest)
    (h : s.switchGoes (a :: rest) u) : s.switchGoes rest (State.startAct (s.startCtx i) u a) := by
  unfold State.switchGoes at h ⊢
  by_cases hs : a = .schedule
  · subst hs
    simp only [List.mem_cons, true_or, if_true] at h
    rw [if_neg ha]
    simp only [State.startAct, scheduleAct_bank, startCtx_superframe, startCtx_old, h.2, hf, if_true, h.1, and_self]
  · have hmem : .schedule ∈ rest ↔ .schedule ∈ a :: rest := by simp [Ne.symm hs]
    obtain ⟨hact, hsched, hcons⟩ := startAct_control (x := s.startCtx i) (s := u) (a := a) hr hs
    simp only [hmem, hact, hsched]
    split at h
    · next hm => rw [if_pos hm]; exact h
    · next hm => rw [if_neg hm]; exact ⟨h.1, hcons h.2.1, h.2.2⟩

theorem fires_of_scheduled {s : State} {i : StartInput} (h : s.bank.scheduler = .immediate ∨
      ∃ x, s.bank.scheduler = .armed x ∧ s.tb.superframeDue = true ∧
        (armedFires x s.tb.number (s.startCtx i).new).isSome = true) :
    (s.bank.scheduler.fires s.tb.superframeDue s.tb.number (s.startCtx i).new).isSome = true := by
  rcases h with h | ⟨x, h, hd, hx⟩
  · rw [h]; rfl
  · rw [h, hd]; exact hx

theorem exec_bankSwitch {s : State} {i : StartInput} (ha : i.arrivals = [])
    (hf : (s.bank.scheduler.fires s.tb.superframeDue s.tb.number (s.startCtx i).new).isSome = true) :
    exec (.bankSwitch i) s = .next (s.localFrameStart i) := by
  have hdue : s.switchDue i = true := hf
  show Host.Outcome.next (s.startWhen (s.switchDue i) i) = _
  rw [startWhen_alone hdue ha]

/-- Settles O22: act by act, the switch being the one act that moves active bank and scheduler. -/
theorem switchFires : Obligations.SwitchFires := by
  intro i s k hk hr ha hf
  have hfires := fires_of_scheduled hf
  have hgo : s.switchGoes [] (s.localFrameStart i) := by
    refine localFrameStart_goes hk s.switchGoes ?_ fun a rest u hm _ h => switchGoes_step hr hfires hm h
    rw [State.switchGoes, if_pos (mem_startSequence _ _ _)]
    exact ⟨rfl, rfl⟩
  rw [State.switchGoes, if_neg List.not_mem_nil] at hgo
  exact ⟨_, exec_bankSwitch ha hfires, exec_alone ha, hgo⟩

/-! ### The engine (R85 to R87) -/

/-- A state in which `n` entries of an operation on the standby of `s` have been processed. -/
structure State.Processed (s : State) (op : EngineOp) (n : Nat) (u : State) : Prop where
  bank : u.bank = { s.bank with engine := .running op n }
  entries : ∀ j : Fin 512, (u.map.entries s.bank.active.other)[j.val] =
    if j.val < n then s.processedEntry op j else (s.map.entries s.bank.active.other)[j.val]
  active : u.map.entries s.bank.active = s.map.entries s.bank.active
  holds : u.map.holds = s.map.holds

theorem processedEntry_congr {s u : State} (ha : u.bank.active = s.bank.active)
    (he : u.map.entries s.bank.active = s.map.entries s.bank.active) (op : EngineOp) (j : Fin 512) :
    u.processedEntry op j = s.processedEntry op j := by
  cases op with
  | copy => simp only [State.processedEntry, ha, he]
  | clear => rfl

theorem processChunk_processed {s u : State} {op : EngineOp} {n : Nat} (h : s.Processed op n u) (j : Fin 512) :
    ((u.processChunk op n).map.entries s.bank.active.other)[j.val] =
      if j.val < n + 8 then s.processedEntry op j else (s.map.entries s.bank.active.other)[j.val] := by
  have ha : u.bank.active = s.bank.active := by rw [h.bank]
  have := processChunk_standby u op n j
  simp only [ha, h.entries, processedEntry_congr ha h.active] at this
  rw [this]
  by_cases h1 : j.val < n
  · rw [if_neg (by omega), if_pos h1, if_pos (by omega)]
  · by_cases h2 : j.val < n + 8
    · rw [if_pos ⟨by omega, h2⟩, if_pos h2]
    · rw [if_neg (by omega), if_neg h1, if_neg h2]

theorem processChunk_active_of {s u : State} {op : EngineOp} {n : Nat} (h : s.Processed op n u) :
    (u.processChunk op n).map.entries s.bank.active = s.map.entries s.bank.active := by
  have ha : u.bank.active = s.bank.active := by rw [h.bank]
  have := processChunk_active u op n
  rw [ha] at this
  exact this.trans h.active

theorem engineAct_processed {s u : State} {op : EngineOp} {n : Nat} (h : s.Processed op n u) (hn : n + 8 < 512) :
    s.Processed op (n + 8) u.engineAct := by
  have he : u.bank.engine = .running op n := by rw [h.bank]
  rw [engineAct_goesOn he hn]
  have hmap (b : BankCtl) : ((u.processChunk op n).withBank b).map = (u.processChunk op n).map := rfl
  refine ⟨by rw [h.bank]; rfl, ?_, ?_, ?_⟩
  · rw [hmap]; exact processChunk_processed h
  · rw [hmap]; exact processChunk_active_of h
  · rw [hmap]; exact (processChunk_holds u op n).trans h.holds

theorem engineAct_iterate {s : State} {op : EngineOp} (h : s.bank.engine = .running op 0) :
    ∀ m, m ≤ 63 → s.Processed op (m * 8) (State.engineAct^[m] s)
  | 0, _ => by
    rw [Nat.zero_mul]
    exact ⟨by rw [← h]; rfl, fun j => by simp, rfl, rfl⟩
  | m + 1, hm => by
    rw [Function.iterate_succ_apply', Nat.succ_mul]
    exact engineAct_processed (engineAct_iterate h m (by omega)) (by omega)

theorem engineAct_last {s u : State} {op : EngineOp} (h : s.Processed op 504 u) :
    u.engineAct.bank = { s.bank with engine := .idle (some op) .done 512, consistent := true } ∧
    (∀ j : Fin 512, (u.engineAct.map.entries u.engineAct.standby)[j.val] = s.processedEntry op j) ∧
    u.engineAct.map.entries u.engineAct.bank.active = s.map.entries s.bank.active ∧
    u.engineAct.map.holds = s.map.holds := by
  have he : u.bank.engine = .running op 504 := by rw [h.bank]
  have ha : u.bank.active = s.bank.active := by rw [h.bank]
  have hbank : u.engineAct.bank = { s.bank with engine := .idle (some op) .done 512, consistent := true } := by
    rw [engineAct_ends he (by decide), report_bank, withBank_bank, h.bank]
  have hmap : u.engineAct.map = (u.processChunk op 504).map := by
    rw [engineAct_ends he (by decide), report_map]; rfl
  refine ⟨hbank, fun j => ?_, ?_, ?_⟩
  · have hlt : j.val < 504 + 8 := j.isLt
    have := processChunk_processed h j
    rw [if_pos hlt] at this
    simp only [State.standby, hbank, hmap]
    exact this
  · rw [hbank, hmap]; exact processChunk_active_of h
  · rw [hmap]; exact (processChunk_holds u op 504).trans h.holds

/-- What a chunk does to bank control and entries goes by bank control and entries alone. -/
theorem engineAct_congr {s u : State} (hb : u.bank = s.bank) (he : ∀ k, u.map.entries k = s.map.entries k) :
    u.engineAct.bank = s.engineAct.bank ∧ ∀ k, u.engineAct.map.entries k = s.engineAct.map.entries k := by
  have hchunk (op : EngineOp) (pos : Nat) (k : Bank) :
      (u.processChunk op pos).map.entries k = (s.processChunk op pos).map.entries k := by
    have hv : (fun i : Fin 512 => if pos ≤ i.val && i.val < pos + 8 then u.processedEntry op i
          else (u.map.entries u.standby)[i.val]) =
        fun i : Fin 512 => if pos ≤ i.val && i.val < pos + 8 then s.processedEntry op i
          else (s.map.entries s.standby)[i.val] := by
      funext i
      cases op <;> simp only [State.processedEntry, State.standby, hb, he]
    unfold State.processChunk
    rw [hv, withMap_map, withMap_map, State.standby, State.standby, hb]
    by_cases hk : k = s.bank.active.other
    · rw [hk, entries_setEntries_same, entries_setEntries_same]
    · have hk : k = s.bank.active.other.other := (eq_or_eq_other k s.bank.active.other).resolve_left hk
      rw [hk, entries_setEntries_other, entries_setEntries_other, he]
  cases hs : s.bank.engine with
  | idle a b c =>
    rw [engineAct_idle s hs, engineAct_idle u (by rw [hb, hs])]
    exact ⟨hb, he⟩
  | running op pos =>
    have hu : u.bank.engine = .running op pos := by rw [hb, hs]
    by_cases hp : pos + 8 < 512
    · rw [engineAct_goesOn hs hp, engineAct_goesOn hu hp, withBank_bank, withBank_bank, hb]
      exact ⟨rfl, hchunk op pos⟩
    · rw [engineAct_ends hs (by omega), engineAct_ends hu (by omega), report_bank, report_bank, report_map, report_map,
        withBank_bank, withBank_bank, hb]
      exact ⟨rfl, hchunk op pos⟩

/-- Bank control and entries at a start without a switch: as they were until the chunk, and then as the chunk has
them (R86). -/
def State.chunkGoes (s : State) (rest : List StartAct) (u : State) : Prop :=
  let v := if .engineChunk ∈ rest then s else s.engineAct
  u.bank = v.bank ∧ ∀ k, u.map.entries k = v.map.entries k

/-- The acts that are neither the switch nor the chunk keep bank control and entries. -/
theorem startAct_entries {x : StartCtx} {s : State} {a : StartAct} (hr : x.resetDue = false) (h1 : a ≠ .schedule)
    (h2 : a ≠ .engineChunk) :
    (State.startAct x s a).bank = s.bank ∧ ∀ k, (State.startAct x s a).map.entries k = s.map.entries k := by
  by_cases hs : a = .softReset
  · subst hs; rw [startAct_softReset_of_not_due hr]; exact ⟨rfl, fun _ => rfl⟩
  · by_cases ht : a = .transmit
    · subst ht; exact ⟨transmit_bank s, transmit_entries s⟩
    · exact ⟨startAct_bank x s a ⟨h1, h2, hs⟩, fun k => by rw [startAct_map x s a ⟨h1, h2, ht, hs⟩]⟩

theorem chunkGoes_step {s u : State} {x : StartCtx} {a : StartAct} {rest : List StartAct} (hr : x.resetDue = false)
    (hi : s.bank.scheduler = .idle) (ha : a ∉ rest) (h : s.chunkGoes (a :: rest) u) :
    s.chunkGoes rest (State.startAct x u a) := by
  unfold State.chunkGoes at h ⊢
  by_cases he : a = .engineChunk
  · subst he
    simp only [List.mem_cons, true_or, if_true] at h
    rw [if_neg ha]
    exact engineAct_congr h.1 h.2
  · have hmem : .engineChunk ∈ rest ↔ .engineChunk ∈ a :: rest := by simp [Ne.symm he]
    simp only [hmem]
    by_cases hs : a = .schedule
    · subst hs
      have hidle : u.bank.scheduler = .idle := by
        rw [h.1]
        split
        · exact hi
        · rw [(engineAct_control s).2.1]; exact hi
      simp only [State.startAct, scheduleAct_idle u x hidle]
      exact h
    · obtain ⟨hb, hm⟩ := startAct_entries (s := u) hr hs he
      exact ⟨hb.trans h.1, fun k => (hm k).trans (h.2 k)⟩

/-- Without a switch and a soft reset a start does to bank control and entries what one chunk does (R86). -/
theorem localFrameStart_chunk {s : State} {i : StartInput} {k : Bool} (hk : s.tb.startKind i.elapsed = some k)
    (hr : s.resetDue = false) (hi : s.bank.scheduler = .idle) :
    (s.localFrameStart i).bank = s.engineAct.bank ∧
      ∀ k, (s.localFrameStart i).map.entries k = s.engineAct.map.entries k := by
  have hgo : s.chunkGoes [] (s.localFrameStart i) := by
    refine localFrameStart_goes hk s.chunkGoes ?_ fun a rest u hm _ h =>
      chunkGoes_step ((startCtx_resetDue s i).trans hr) hi hm h
    simp only [State.chunkGoes, if_pos (mem_startSequence _ _ _)]
    exact ⟨rfl, fun _ => rfl⟩
  simpa only [State.chunkGoes, List.not_mem_nil, if_false] using hgo

/-- Settles O20: chunk by chunk of the operation, and by the one chunk of a start. -/
theorem operationCoversStandby : Obligations.OperationCoversStandby := by
  refine ⟨fun s op he => ?_, fun i s k op pos he hp hi hk hr ha => ?_⟩
  · have hall : State.engineAct^[64] s = (State.engineAct^[63] s).engineAct := Function.iterate_succ_apply' ..
    rw [hall]
    exact engineAct_last (engineAct_iterate he 63 le_rfl)
  · obtain ⟨hbank, hentries⟩ := localFrameStart_chunk hk hr hi
    refine ⟨_, exec_alone ha, ?_, fun j => ?_, ?_, ?_⟩
    · rw [hbank, engineAct_goesOn he hp]; rfl
    · simp only [hentries, engineAct_goesOn he hp]
      have hchunk := processChunk_standby s op pos j
      cases op <;> exact hchunk
    · rw [hentries, engineAct_goesOn he hp]; exact processChunk_active s op pos
    · rw [engineAct_goesOn he hp]; exact processChunk_holds s op pos

/-! ### The end of an operation (R87, R179) -/

/-- The engine at the start that processes its last chunk (R87). -/
def engineEnds (op : EngineOp) (rest : List StartAct) (u : State) : Prop :=
  if .engineChunk ∈ rest then u.bank.engine = .running op 504
  else u.bank.engine = .idle (some op) .done 512 ∧ u.bank.consistent = true

/-- The acts that are not a chunk keep the engine, and do not make the standby INCONSISTENT. -/
theorem startAct_engine {x : StartCtx} {s : State} {a : StartAct} (hr : x.resetDue = false) (ha : a ≠ .engineChunk) :
    (State.startAct x s a).bank.engine = s.bank.engine ∧
    (s.bank.consistent = true → (State.startAct x s a).bank.consistent = true) := by
  by_cases hs : a = .schedule
  · subst hs
    simp only [State.startAct, scheduleAct_bank]
    split
    · exact ⟨rfl, fun _ => rfl⟩
    · exact ⟨rfl, id⟩
  · rw [(startAct_entries hr hs ha).1]; exact ⟨rfl, id⟩

theorem engineEnds_step {u : State} {x : StartCtx} {op : EngineOp} {a : StartAct} {rest : List StartAct}
    (hr : x.resetDue = false) (ha : a ∉ rest) (h : engineEnds op (a :: rest) u) :
    engineEnds op rest (State.startAct x u a) := by
  unfold engineEnds at h ⊢
  by_cases he : a = .engineChunk
  · subst he
    simp only [List.mem_cons, true_or, if_true] at h
    rw [if_neg ha]
    simp only [State.startAct, engineAct_ends h (by decide), report_bank, withBank_bank, and_self]
  · have hmem : .engineChunk ∈ rest ↔ .engineChunk ∈ a :: rest := by simp [Ne.symm he]
    obtain ⟨heng, hcons⟩ := startAct_engine (s := u) hr he
    simp only [hmem, heng]
    split at h
    · next hm => rw [if_pos hm]; exact h
    · next hm => rw [if_neg hm]; exact ⟨h.1, hcons h.2⟩

theorem localFrameStart_engineEnds {s : State} {i : StartInput} {k : Bool} {op : EngineOp}
    (he : s.bank.engine = .running op 504) (hk : s.tb.startKind i.elapsed = some k) (hr : s.resetDue = false) :
    (s.localFrameStart i).bank.engine = .idle (some op) .done 512 ∧ (s.localFrameStart i).bank.consistent = true := by
  have hgo : engineEnds op [] (s.localFrameStart i) := by
    refine localFrameStart_goes hk (engineEnds op) ?_ fun a rest u hm _ h =>
      engineEnds_step ((startCtx_resetDue s i).trans hr) hm h
    rw [engineEnds, if_pos (mem_startSequence _ _ _)]
    exact he
  rwa [engineEnds, if_neg List.not_mem_nil] at hgo

end Sys2Proof.Machine
end

section
/-!
PROOFS. The records that a local frame start with no order named makes: a step of the number, a switch, the end of an
operation (R60, R87, R93, R94, R179).
-/

namespace Sys2Proof.Machine

/-! ### Records across a start with no order named (R179, R182) -/

/-- The acts taken one after the other make no more records than they make one by one. -/
theorem startFold_length {s : State} {x : StartCtx} (bound : StartAct → Nat) :
    ∀ (acts : List StartAct) (u : State), acts.Nodup → s.lanesUntaken acts u →
      (∀ a ∈ acts, ∀ v, (∀ l, a = .clockWatch l →
          (v.link l).rx.align = (s.link l).rx.align ∧ (v.link l).rx.watch = (s.link l).rx.watch) →
        (State.startAct x v a).events.records.length ≤ v.events.records.length + bound a) →
      (acts.foldl (State.startAct x) u).events.records.length ≤ u.events.records.length + (acts.map bound).sum
  | [], _, _, _, _ => Nat.le_add_right _ _
  | a :: as, u, hn, hl, h => by
    obtain ⟨ha, hn⟩ := List.nodup_cons.1 hn
    have hfirst := h a List.mem_cons_self u fun l e => hl l (e ▸ List.mem_cons_self)
    have hrest := startFold_length bound as _ hn (lanesUntaken_step ha hl x)
      fun b hb => h b (List.mem_cons_of_mem _ hb)
    rw [List.foldl_cons, List.map_cons, List.sum_cons]
    omega

theorem nodup_allStartActs : allStartActs.Nodup := by decide

/-- The state in which an act of a start with no order named is taken. -/
def State.beforeAct (s : State) (i : StartInput) (k : Bool) (a : StartAct) : State :=
  (allStartActs.takeWhile (· ≠ a)).foldl (State.startAct (s.startCtx i))
    (s.withTb (s.tb.beginFrame (s.startCtx i).new k i.elapsed))

section
variable {s : State} {i : StartInput} {k : Bool}

theorem localFrameStart_around (ho : i.order = []) (hk : s.tb.startKind i.elapsed = some k) (a : StartAct) :
    s.localFrameStart i = ((allStartActs.dropWhile (· ≠ a)).drop 1).foldl (State.startAct (s.startCtx i))
      (State.startAct (s.startCtx i) (s.beforeAct i k a) a) := by
  rw [localFrameStart_nil ho hk]
  conv_lhs => rw [split_at_first (mem_allStartActs a), List.foldl_append, List.foldl_cons]
  rfl

theorem takeWhile_ne {a b : StartAct} (h : b ∈ allStartActs.takeWhile (· ≠ a)) : b ≠ a := by
  simpa using List.mem_takeWhile_imp h

/-- A record made at one act of a start stands after it. -/
theorem localFrameStart_keeps_record (ho : i.order = []) (hk : s.tb.startKind i.elapsed = some k)
    (hr : s.resetDue = false) (a : StartAct) {r : EventRecord} (hs : r.kind ≠ .slip)
    (h : r ∈ (State.startAct (s.startCtx i) (s.beforeAct i k a) a).events.records) :
    r ∈ (s.localFrameStart i).events.records := by
  rw [localFrameStart_around ho hk a]
  exact startFold_induct (fun u => r ∈ u.events.records) _ _ _
    (fun b _ u hu => startAct_keeps_record hs _ u b (.inr hr) hu) h

theorem beforeAct_number (a : StartAct) : (s.beforeAct i k a).tb.number = (s.startCtx i).new :=
  startFold_keeps (·.tb.number) _ _ _ fun b _ u => startAct_tb_number _ u b

theorem beforeAct_frameIndex (a : StartAct) : (s.beforeAct i k a).tb.frameIndex =
    if s.tb.started then s.tb.frameIndex + 1 else s.tb.frameIndex :=
  startFold_keeps (·.tb.frameIndex) _ _ _ fun b _ u => startAct_tb_frameIndex _ u b

theorem localFrameStart_number (hk : s.tb.startKind i.elapsed = some k) :
    (s.localFrameStart i).tb.number = (s.startCtx i).new := by
  rw [localFrameStart_eq hk]
  exact startFold_keeps (·.tb.number) _ _ _ fun b _ u => startAct_tb_number _ u b

/-- Before the soft reset the mask stands. -/
theorem beforeAct_mask {a : StartAct} (h : .softReset ∉ allStartActs.takeWhile (· ≠ a)) :
    (s.beforeAct i k a).events.mask = s.events.mask :=
  startFold_keeps (·.events.mask) _ _ _ fun b hb u => startAct_mask _ u b fun e => h (e ▸ hb)

theorem beforeAct_length {a : StartAct} (bound : StartAct → Nat)
    (h : ∀ b ∈ allStartActs.takeWhile (· ≠ a), ∀ v : State, (∀ l, b = .clockWatch l →
        (v.link l).rx.align = (s.link l).rx.align ∧ (v.link l).rx.watch = (s.link l).rx.watch) →
      (State.startAct (s.startCtx i) v b).events.records.length ≤ v.events.records.length + bound b) :
    (s.beforeAct i k a).events.records.length ≤
      s.events.records.length + ((allStartActs.takeWhile (· ≠ a)).map bound).sum :=
  startFold_length bound _ (s.withTb _)
    (nodup_allStartActs.sublist (List.takeWhile_sublist _)) (fun _ _ => ⟨rfl, rfl⟩) h

/-- Where no clock is lost, the acts before the switch make one record each at most, and some none. -/
theorem beforeAct_length_noLoss {a : StartAct} (hd : ∀ l, s.clockLossDue l i.rxc = false)
    (hsub : ∀ b ∈ allStartActs.takeWhile (· ≠ a), b ∈ allStartActs.takeWhile (· ≠ .schedule)) :
    (s.beforeAct i k a).events.records.length ≤
      s.events.records.length + ((allStartActs.takeWhile (· ≠ a)).map recordsAtMost).sum :=
  beforeAct_length recordsAtMost fun b hb _ hv => startAct_length (hsub b hb) fun l e =>
    (clockLossDue_untaken (hv l e) _).trans (hd l)

end

/-! ### Steps of the superframe number (R60) -/

theorem timeStepAct_none {s : State} {c : StartCtx} (h : c.new = c.old + 1#16) : s.timeStepAct c = s := by
  unfold State.timeStepAct
  rw [stepOf_none h]
  split <;> rfl

theorem timeStepAct_forward {s : State} {c : StartCtx} (hs : c.superframe = true)
    (h1 : 1 ≤ (c.new - (c.old + 1#16)).toNat) (h2 : (c.new - (c.old + 1#16)).toNat ≤ 32767) :
    s.timeStepAct c = s.report .timeStep 0xFF#8 0#8 := by
  unfold State.timeStepAct
  rw [if_pos hs, stepOf_forward h1 h2]; rfl

theorem timeStepAct_backward {s : State} {c : StartCtx} (hs : c.superframe = true)
    (h : 32768 ≤ (c.new - (c.old + 1#16)).toNat) : s.timeStepAct c = s.report .timeStep 0xFF#8 1#8 := by
  unfold State.timeStepAct
  rw [if_pos hs, stepOf_backward h]; rfl

/-- A number other than the old one plus 1 is a step, forward or backward (R60). -/
theorem timeStepAct_steps {s : State} {c : StartCtx} (hs : c.superframe = true) (hn : c.new ≠ c.old + 1#16) :
    s.timeStepAct c =
      s.report .timeStep 0xFF#8 (if (c.new - (c.old + 1#16)).toNat ≤ 32767 then 0#8 else 1#8) := by
  have hpos : 1 ≤ (c.new - (c.old + 1#16)).toNat := by
    rw [Nat.one_le_iff_ne_zero]
    exact fun h => hn (sub_eq_zero.1 (BitVec.eq_of_toNat_eq h))
  split
  · next h => exact timeStepAct_forward hs hpos h
  · next h => exact timeStepAct_backward hs (by omega)

theorem exec_superframeStart {s : State} {i : StartInput} (hs : s.tb.superframeDue = true) (ha : i.arrivals = []) :
    exec (.localSuperframeStart i) s = .next (s.localFrameStart i) := by
  show Host.Outcome.next (s.startWhen s.tb.superframeDue i) = _
  rw [startWhen_alone hs ha]

theorem superframe_index {s : State} (h : s.tb.superframeDue = true) :
    (if s.tb.started then s.tb.frameIndex + 1 else s.tb.frameIndex) = 0 := by
  obtain ⟨hs, hf⟩ := (superframeDue_iff _).1 h
  rw [if_pos hs, hf]; rfl

/-- Settles O24: by the direction of the step, and by the act that reports it among those before the switch. -/
theorem numberStepIsReported : Obligations.NumberStepIsReported := by
  refine ⟨fun s c hs => ⟨timeStepAct_none, timeStepAct_forward hs, timeStepAct_backward hs⟩,
    fun i s k ho ha hk hs hr hd hm hl => ⟨_, exec_superframeStart hs ha, exec_alone ha, fun hn => ?_⟩⟩
  rw [localFrameStart_number hk] at hn ⊢
  have hmask : (s.beforeAct i k .timeStep).events.enabled .timeStep = true := by
    rw [EventQueue.enabled, beforeAct_mask (by decide)]; exact hm
  have hlen : (s.beforeAct i k .timeStep).events.records.length ≤ s.events.records.length + 16 :=
    beforeAct_length_noLoss hd (by decide)
  have hrec := report_appends (s.beforeAct i k .timeStep) 0xFF#8
    (if ((s.startCtx i).new - (s.tb.number + 1#16)).toNat ≤ 32767 then 0#8 else 1#8) hmask (by decide)
    (show _ < 32 by omega)
  have hact : State.startAct (s.startCtx i) (s.beforeAct i k .timeStep) .timeStep = _ :=
    timeStepAct_steps (c := s.startCtx i) hs hn
  refine ⟨_, localFrameStart_keeps_record ho hk hr .timeStep ?_ (hact ▸ hrec), rfl, rfl, rfl, beforeAct_number _,
    (beforeAct_frameIndex _).trans (superframe_index hs), rfl, rfl⟩
  exact (by decide : EventKind.timeStep ≠ .slip)

/-! ### The switch (R93, R94, R179) -/

theorem armedFires_at {target old new : Word} (h : new = target) :
    armedFires target old new = some (decide (new ≠ old + 1#16)) := if_pos h

/-- An armed switch also fires where the number has stepped forward over its target, and late (R93). -/
def stepsOver (target old new : Word) : Prop :=
  1 ≤ (new - (old + 1#16)).toNat ∧ (new - (old + 1#16)).toNat ≤ 32767 ∧
    1 ≤ (target - old).toNat ∧ (target - old).toNat ≤ 32767 ∧ 32768 ≤ (target - new).toNat

theorem stepOf_eq_forward_iff (old new : Word) :
    stepOf old new = some true ↔ 1 ≤ (new - (old + 1#16)).toNat ∧ (new - (old + 1#16)).toNat ≤ 32767 := by
  unfold stepOf distance
  simp only
  split
  · next h => simp [h]
  · next h =>
    simp only [Option.some.injEq, decide_eq_true_eq]
    omega

theorem armedFires_else {target old new : Word} (hne : new ≠ target) [Decidable (stepsOver target old new)] :
    armedFires target old new = if stepsOver target old new then some true else none := by
  have hiff : (stepOf old new = some true && inFuture target old && decide (32768 ≤ distance target new)) = true ↔
      stepsOver target old new := by
    simp only [Bool.and_eq_true, decide_eq_true_eq, stepOf_eq_forward_iff, inFuture_iff, stepsOver, and_assoc]
    exact Iff.rfl
  unfold armedFires
  rw [if_neg hne]
  by_cases h : stepsOver target old new
  · rw [if_pos h, if_pos (hiff.2 h)]
  · rw [if_neg h, if_neg (fun hc => h (hiff.1 hc))]

theorem fireSwitch_eq (s : State) (late : Bool) : s.fireSwitch late =
    ((s.withMap { s.map with holds := Vector.replicate 512 none }).withBank
      { active := s.bank.active.other, consistent := true, engine := s.bank.engine, scheduler := .idle }).report
      .bankSwitch 0xFF#8 (bankCode s.bank.active.other + (if late then 2#8 else 0#8)) := rfl

/-- The acts before the switch keep bank control. -/
theorem beforeSwitch_bank (s : State) (i : StartInput) (k : Bool) : (s.beforeAct i k .schedule).bank = s.bank := by
  have hpre : ∀ a ∈ allStartActs.takeWhile (· ≠ .schedule), a ≠ .schedule ∧ a ≠ .engineChunk ∧ a ≠ .softReset := by
    decide
  exact startFold_keeps State.bank _ _ _ fun a ha u => startAct_bank _ u a (hpre a ha)

/-- Settles O23: the decision by its cases, and the record by the acts that come before the switch. -/
theorem armedSwitchDecides : Obligations.ArmedSwitchDecides := by
  refine ⟨fun target old new => ⟨armedFires_at, fun hne h1 h2 h3 h4 h5 => ?_, fun hne h => ?_⟩, fireSwitch_eq,
    fun i s k late ho ha hk hr hd hf hm hl => ?_⟩
  · classical exact (armedFires_else hne).trans (if_pos ⟨h1, h2, h3, h4, h5⟩)
  · classical exact (armedFires_else hne).trans (if_neg h)
  · have hfires : s.bank.scheduler.fires s.tb.superframeDue s.tb.number (s.startCtx i).new = some late := by
      rcases hf with ⟨h, hlate⟩ | ⟨x, h, hs, hx⟩
      · rw [h, hlate]; rfl
      · rw [h, hs]; exact hx
    refine ⟨_, exec_bankSwitch ha (by rw [hfires]; rfl), exec_alone ha, localFrameStart_number hk, ?_⟩
    have hbank := beforeSwitch_bank s i k
    have hmask : (s.beforeAct i k .schedule).events.enabled .bankSwitch = true := by
      rw [EventQueue.enabled, beforeAct_mask (by decide)]; exact hm
    have hlen : (s.beforeAct i k .schedule).events.records.length ≤ s.events.records.length + 17 :=
      beforeAct_length_noLoss hd fun b hb => hb
    have hroom : (s.beforeAct i k .schedule).events.records.length < 32 := by omega
    have hact : State.startAct (s.startCtx i) (s.beforeAct i k .schedule) .schedule =
        (s.beforeAct i k .schedule).fireSwitch late := by
      simp only [State.startAct, State.scheduleAct, hbank, startCtx_superframe, startCtx_old, hfires]
    rw [localFrameStart_number hk, localFrameStart_frameIndex hk]
    refine ⟨_, localFrameStart_keeps_record ho hk hr .schedule ?_
      (by rw [hact, fireSwitch_eq, hbank]; exact report_appends _ _ _ hmask (by decide) hroom),
      rfl, rfl, rfl, beforeAct_number _, beforeAct_frameIndex _, rfl, rfl⟩
    exact (by decide : EventKind.bankSwitch ≠ .slip)

/-! ### The end of an operation (R86, R87, R179) -/

/-- Where no clock is lost and no superframe starts, the acts before the switch make no record. -/
theorem startAct_length_inside {x : StartCtx} {s : State} {a : StartAct} (hx : x.superframe = false)
    (ha : a ∈ allStartActs.takeWhile (· ≠ .schedule)) (hl : ∀ l, a = .clockWatch l → s.clockLossDue l x.rxc = false) :
    (State.startAct x s a).events.records.length ≤ s.events.records.length + 0 := by
  have hacts : ∀ a ∈ allStartActs.takeWhile (· ≠ .schedule),
      recordsAtMost a = 0 ∨ (∃ l, a = .checkWindow l) ∨ (∃ l, a = .qualification l) ∨ a = .timeStep := by decide
  rcases hacts a ha with h | ⟨l, rfl⟩ | ⟨l, rfl⟩ | rfl
  · exact h ▸ startAct_length ha hl
  · simp [State.startAct, State.checkWindowAct, hx]
  · simp [State.startAct, State.qualificationAct, hx]
  · simp [State.startAct, State.timeStepAct, hx]

theorem engineEndDetail_done (op : EngineOp) :
    engineEndDetail op .done = match op with | .copy => 0#8 | .clear => 1#8 := by cases op <;> rfl

/-- The last chunk and its report (R87, R179). -/
theorem engineAct_reports {s : State} {op : EngineOp} (h : s.bank.engine = .running op 504) :
    s.engineAct = ((s.withMap (s.processChunk op 504).map).withBank { s.bank with
        engine := .idle (some op) .done 512, consistent := true }).report .engineEnd 0xFF#8
          (engineEndDetail op .done) := by
  rw [engineAct_ends h (by decide)]; rfl

theorem exec_engineEnd {s : State} {i : StartInput} {op : EngineOp} (h : s.bank.engine = .running op 504)
    (ha : i.arrivals = []) : exec (.engineEnd i) s = .next (s.localFrameStart i) := by
  have hdue : s.bank.engine.endDue = true := by rw [h]; rfl
  show Host.Outcome.next (s.startWhen s.bank.engine.endDue i) = _
  rw [startWhen_alone hdue ha]

/-- With no switch scheduled, the chunk finds what the acts before the switch have left. -/
theorem beforeChunk_eq {s : State} {i : StartInput} {k : Bool} (hi : s.bank.scheduler = .idle) :
    s.beforeAct i k .engineChunk = s.beforeAct i k .schedule := by
  have hsplit : allStartActs.takeWhile (· ≠ .engineChunk) = allStartActs.takeWhile (· ≠ .schedule) ++ [.schedule] := by
    decide
  have hidle : (s.beforeAct i k .schedule).bank.scheduler = .idle := by rw [beforeSwitch_bank, hi]
  unfold State.beforeAct at hidle ⊢
  rw [hsplit, List.foldl_append]
  exact scheduleAct_idle _ _ hidle

theorem engineEnd_recorded {s : State} {i : StartInput} {k : Bool} {op : EngineOp} (he : s.bank.engine = .running op 504)
    (hk : s.tb.startKind i.elapsed = some k) (hr : s.resetDue = false) (ho : i.order = [])
    (hi : s.bank.scheduler = .idle) (hs : s.tb.superframeDue = false) (hd : ∀ l, s.clockLossDue l i.rxc = false)
    (hm : s.events.mask.getLsbD 8 = true) (hl : s.events.records.length < 32) :
    ∃ r ∈ (s.localFrameStart i).events.records, r.kind = .engineEnd ∧ r.subject = 0xFF#8 ∧
      r.detail = engineEndDetail op .done ∧
      r.stampNumber = (s.localFrameStart i).tb.number ∧ r.stampIndex = (s.localFrameStart i).tb.frameIndex := by
  have hbank := beforeSwitch_bank s i k
  have hmask : (s.beforeAct i k .schedule).events.enabled .engineEnd = true := by
    rw [EventQueue.enabled, beforeAct_mask (by decide)]; exact hm
  have hlen : (s.beforeAct i k .schedule).events.records.length ≤
      s.events.records.length + ((allStartActs.takeWhile (· ≠ .schedule)).map fun _ => 0).sum :=
    beforeAct_length (fun _ => 0) fun b hb _ hv =>
      startAct_length_inside hs hb fun l e => (clockLossDue_untaken (hv l e) _).trans (hd l)
  rw [List.map_const', List.sum_replicate, smul_zero, Nat.add_zero] at hlen
  have hroom : (s.beforeAct i k .schedule).events.records.length < 32 := by omega
  have hrun : (s.beforeAct i k .schedule).bank.engine = .running op 504 := by rw [hbank, he]
  rw [localFrameStart_number hk, localFrameStart_frameIndex hk]
  refine ⟨_, localFrameStart_keeps_record ho hk hr .engineChunk ?_
    (by rw [beforeChunk_eq hi, State.startAct, engineAct_reports hrun]
        exact report_appends _ _ _ hmask (by decide) hroom), rfl, rfl, rfl, beforeAct_number _, beforeAct_frameIndex _⟩
  exact (by decide : EventKind.engineEnd ≠ .slip)

/-- Settles O19: act by act for the engine, by the one chunk for the entries, and by the acts before it for the record. -/
theorem engineEndsAtLastChunk : Obligations.EngineEndsAtLastChunk := by
  intro i s k op he hk hr ha
  obtain ⟨hengine, hcons⟩ := localFrameStart_engineEnds he hk hr
  refine ⟨_, exec_engineEnd he ha, exec_alone ha, hengine, hcons, fun hi => ?_,
    ⟨_, (engineAct_reports he).trans (congrArg _ (engineEndDetail_done op))⟩, fun ho hi hs hd hm hl => ?_⟩
  rotate_left
  · obtain ⟨r, hmem, hkind, hsubject, hdetail, hstamp⟩ := engineEnd_recorded he hk hr ho hi hs hd hm hl
    exact ⟨r, hmem, hkind, hsubject, hdetail.trans (engineEndDetail_done op), hstamp⟩
  obtain ⟨hbank, hentries⟩ := localFrameStart_chunk hk hr hi
  have hends : s.engineAct.bank.active = s.bank.active := (engineAct_control s).1
  refine ⟨by rw [hbank, hends], fun j hj => ?_⟩
  have hmap : s.engineAct.map = (s.processChunk op 504).map := by rw [engineAct_reports he, report_map]; rfl
  simp only [State.standby, hbank, hends, hentries, hmap]
  rw [processChunk_standby, if_pos ⟨hj, by omega⟩]

end Sys2Proof.Machine
end

section
/-!
PROOFS. The frame that a local frame start fixes: payload words and hold values, transmitters, and the soft reset after
the frame (R65 to R75, R112 to R119, R142).
-/

namespace Sys2Proof.Machine

/-! ### Sources and payload words (R69, R71 to R74) -/

theorem slotSource_eq_some {s : State} {k : LinkId} {t : SlotId} {w : Word} : s.slotSource k t = some w ↔
    ∃ f, (s.link k).store.current = some f ∧ f.valid = true ∧ f.shape.isPayload t.val = true ∧
      w = f.words.getD t.val 0#16 := by
  unfold State.slotSource RxFrame.source
  cases (s.link k).store.current with
  | none => simp
  | some f =>
    simp only [Option.some.injEq, exists_eq_left', Bool.and_eq_true]
    split
    · next h => simp only [h, true_and, Option.some.injEq, eq_comm]
    · next h => exact ⟨nofun, fun hw => absurd ⟨hw.1, hw.2.1⟩ h⟩

theorem fixedWord_of_source {s : State} {e : Entry} {w : Word} (h : s.sourceWord e.source = some w) (hold : Option Word)
    (idle : Word) : s.fixedWord e hold idle = w := by
  obtain ⟨source, fault⟩ := e
  cases source with
  | idle => cases h
  | const w => cases h
  | slot k t => exact congrArg (Option.getD · _) (show s.slotSource k t = some w from h)
  | leg b k => exact congrArg (Option.getD · _) h

theorem fixedWord_of_invalid {s : State} {e : Entry} (h : s.sourceWord e.source = none) (hc : ∀ w, e.source ≠ .const w)
    (hi : e.source ≠ .idle) (hold : Option Word) (idle : Word) :
    s.fixedWord e hold idle = faultWord e.fault hold idle := by
  obtain ⟨source, fault⟩ := e
  cases source with
  | idle => exact absurd rfl hi
  | const w => exact absurd rfl (hc w)
  | slot k t => exact congrArg (Option.getD · _) (show s.slotSource k t = none from h)
  | leg b k => exact congrArg (Option.getD · _) h

/-- The word fixed in a slot is the same from the hold value that it leaves (R71, R74). -/
theorem fixedWord_or (s : State) (e : Entry) (hold : Option Word) (idle : Word) :
    s.fixedWord e ((s.sourceWord e.source).or hold) idle = s.fixedWord e hold idle := by
  cases h : s.sourceWord e.source with
  | none => rfl
  | some w => rw [fixedWord_of_source h, fixedWord_of_source h]

theorem nextHold_payload {s : State} {l : LinkId} {t : SlotId} (htx : (s.link l).config.txEnable = true)
    (hp : (s.link l).config.shape.isPayload t.val = true) : s.nextHold (slotIndex l t) =
      (s.sourceWord (s.activeEntry l t).source).or s.map.holds[(slotIndex l t).val] := by
  unfold State.nextHold
  simp only [indexLink_slotIndex, indexSlot_slotIndex, htx, hp, Bool.and_self, if_true]
  rfl

theorem nextHold_ignored {s : State} {l : LinkId} {t : SlotId}
    (h : ¬((s.link l).config.txEnable = true ∧ (s.link l).config.shape.isPayload t.val = true)) :
    s.nextHold (slotIndex l t) = s.map.holds[(slotIndex l t).val] := by
  unfold State.nextHold
  simp only [indexLink_slotIndex, indexSlot_slotIndex, Bool.and_eq_true]
  rw [if_neg h]

theorem nextHold_eq (s : State) (l : LinkId) (t : SlotId) : s.nextHold (slotIndex l t) =
    if (s.link l).config.txEnable = true ∧ (s.link l).config.shape.isPayload t.val = true
    then (s.sourceWord (s.activeEntry l t).source).or s.map.holds[(slotIndex l t).val]
    else s.map.holds[(slotIndex l t).val] := by
  split
  · next h => exact nextHold_payload h.1 h.2
  · next h => exact nextHold_ignored h

/-! ### From the frame to the end of the start -/

/-- With no order named, only the notice's test comes after the frame. -/
theorem localFrameStart_afterFrame {s : State} {i : StartInput} {k : Bool} (ho : i.order = [])
    (hk : s.tb.startKind i.elapsed = some k) (hr : s.resetDue = false) :
    (s.beforeAct i k .transmit).transmit.EventOnly (s.localFrameStart i) := by
  rw [localFrameStart_around ho hk .transmit]
  exact afterFrame_only ((startCtx_resetDue s i).trans hr) _

/-- A state left by the frame of `u`: sources, entries and hold values are those that the frame of `u` was fixed from,
the hold values as the frame leaves them. -/
structure State.FixedFrom (u t : State) : Prop where
  sourceWord : ∀ e, t.sourceWord e = u.evaluateBridges.sourceWord e
  activeEntry : ∀ l p, t.activeEntry l p = u.evaluateBridges.activeEntry l p
  holds : ∀ i : Fin 512, t.map.holds[i.val] = u.evaluateBridges.nextHold i

theorem fixedFrom_of_frame {u t : State} (h : u.transmit.EventOnly t) : u.FixedFrom t := by
  have hstore (l : LinkId) : (t.link l).store = (u.evaluateBridges.link l).store :=
    (h.link_store l).trans (transmit_link_store u l)
  have hbridges : t.bridges = u.evaluateBridges.bridges := h.bridges
  have hentries (k : Bank) : t.map.entries k = u.evaluateBridges.map.entries k := by
    rw [h.map]; exact transmit_entries u k
  have hbank : t.bank = u.evaluateBridges.bank := h.bank
  refine ⟨fun e => ?_, fun l p => ?_, fun i => ?_⟩
  · cases e with
    | slot k p => simp only [State.sourceWord, State.slotSource, hstore]
    | leg b k => simp only [State.sourceWord, hbridges]
    | _ => rfl
  · simp only [State.activeEntry, hbank, hentries]
  · simp only [h.map]; exact transmit_holds u i

/-- The word of a payload slot, read again from the state that the frame leaves. -/
theorem payloadWord_of_fixedFrom {u t : State} (h : u.FixedFrom t) {l : LinkId} {p : SlotId}
    (htx : (u.link l).config.txEnable = true) (hp : (u.link l).config.shape.isPayload p.val = true) (cfg : TxConfig) :
    t.payloadWord cfg l p = u.evaluateBridges.payloadWord cfg l p := by
  have hword (e : Entry) (hold : Option Word) : t.fixedWord e hold cfg.idle =
      u.evaluateBridges.fixedWord e hold cfg.idle := by
    obtain ⟨source, fault⟩ := e
    cases source with
    | slot k q =>
      have : t.slotSource k q = u.evaluateBridges.slotSource k q := h.sourceWord (.slot k q)
      simp only [State.fixedWord, this]
    | leg b k => simp only [State.fixedWord, h.sourceWord]
    | _ => rfl
  unfold State.payloadWord
  rw [hword, h.activeEntry, h.holds, nextHold_payload (s := u.evaluateBridges) htx hp, fixedWord_or]

/-! ### The hold values of a start (R74, R75) -/

/-- Hold values and active bank as they were, or, a switch having fired, none and the other bank (R75, R94). -/
def State.holdsGo (s u : State) : Prop :=
  (u.bank.active = s.bank.active ∧ u.map.holds = s.map.holds) ∨
  (u.bank.active = s.bank.active.other ∧ u.map.holds = Vector.replicate 512 none ∧ u.bank.scheduler = .idle)

theorem engineAct_holds (s : State) : s.engineAct.map.holds = s.map.holds := by
  cases he : s.bank.engine with
  | idle a b c => rw [engineAct_idle s he]
  | running op pos =>
    by_cases hp : pos + 8 < 512
    · rw [engineAct_goesOn he hp]; exact processChunk_holds s op pos
    · rw [engineAct_ends he (by omega), report_map]; exact processChunk_holds s op pos

theorem holdsGo_congr {s u t : State} (h : s.holdsGo u) (ha : t.bank.active = u.bank.active)
    (hs : t.bank.scheduler = u.bank.scheduler) (hh : t.map.holds = u.map.holds) : s.holdsGo t := by
  unfold State.holdsGo at h ⊢
  rw [ha, hs, hh]; exact h

theorem holdsGo_step {s u : State} (x : StartCtx) {a : StartAct} (h1 : a ≠ .transmit) (h2 : a ≠ .softReset)
    (h : s.holdsGo u) : s.holdsGo (State.startAct x u a) := by
  by_cases hs : a = .schedule
  · subst hs
    rcases h with ⟨ha, hh⟩ | ⟨ha, hh, hi⟩
    · simp only [State.startAct, State.scheduleAct]
      split
      · exact .inl ⟨ha, hh⟩
      · refine .inr ?_
        rw [fireSwitch_eq, report_bank, report_map]
        exact ⟨congrArg Bank.other ha, rfl, rfl⟩
    · simp only [State.startAct, scheduleAct_idle u x hi]
      exact .inr ⟨ha, hh, hi⟩
  · by_cases he : a = .engineChunk
    · subst he
      obtain ⟨ha, hsch, -⟩ := engineAct_control u
      exact holdsGo_congr h ha hsch (engineAct_holds u)
    · have hb := startAct_bank x u a ⟨hs, he, h2⟩
      exact holdsGo_congr h (by rw [hb]) (by rw [hb]) (by rw [startAct_map x u a ⟨hs, he, h1, h2⟩])

theorem before_transmit : ∀ a ∈ allStartActs.takeWhile (· ≠ .transmit), a ≠ .transmit ∧ a ≠ .softReset ∧
    a ≠ .noticeTest := by decide

theorem beforeFrame_holdsGo (s : State) (i : StartInput) (k : Bool) : s.holdsGo (s.beforeAct i k .transmit) := by
  refine startFold_induct s.holdsGo _ _ _ (fun a ha u hu => ?_) (.inl ⟨rfl, rfl⟩)
  obtain ⟨h1, h2, -⟩ := before_transmit a ha
  exact holdsGo_step _ h1 h2 hu

theorem other_ne (k : Bank) : k.other ≠ k := by cases k <;> decide

theorem holdsGo_at {s u : State} (h : s.holdsGo u) (i : Fin 512) :
    u.map.holds[i.val] = if u.bank.active = s.bank.active then s.map.holds[i.val] else none := by
  rcases h with ⟨ha, hh⟩ | ⟨ha, hh, -⟩
  · simp only [ha, hh, if_true]
  · simp only [ha, hh, if_neg (other_ne _), Vector.getElem_replicate]

theorem beforeAct_config (s : State) (i : StartInput) (k : Bool) (a : StartAct) (l : LinkId) :
    ((s.beforeAct i k a).link l).config = (s.link l).config :=
  startFold_keeps (fun u => (u.link l).config) _ _ _ fun b _ u => startAct_link_config _ u b l

/-- Settles O28: by the kind and validity of the source, and from the frame that a start fixes. -/
theorem payloadWordIsChosen : Obligations.PayloadWordIsChosen := by
  refine ⟨fun s k t w => ?_, ⟨fun s e hold idle => ⟨fun h => ?_, fun w h => ?_, fun w h => ?_, fun h hc hf => ?_,
    fun h hc hi hf => ?_⟩, fun s l t => ⟨fun htx hp => ⟨fun w h => ?_, fun h => ?_⟩, nextHold_ignored⟩⟩,
    fun i s k ho ha hk hr => ⟨_, exec_alone ha, fun l p => ?_⟩⟩
  · simp only [slotSource_eq_some, isPayload_iff, and_assoc]
  · simp only [State.fixedWord, h]
  · simp only [State.fixedWord, h]
  · exact fixedWord_of_source h hold idle
  · by_cases hi : e.source = .idle
    · simp only [State.fixedWord, hi]
    · rw [fixedWord_of_invalid h hc hi, hf]; rfl
  · rw [fixedWord_of_invalid h hc hi, hf]; rfl
  · rw [nextHold_payload htx hp, h]; rfl
  · rw [nextHold_payload htx hp, h]; rfl
  · have hframe := localFrameStart_afterFrame ho hk hr
    have hfixed := fixedFrom_of_frame hframe
    have hactive : (s.localFrameStart i).bank.active = (s.beforeAct i k .transmit).bank.active := by
      rw [hframe.bank]; rfl
    have hbefore := holdsGo_at (beforeFrame_holdsGo s i k) (slotIndex l p)
    simp only [hfixed.holds, nextHold_eq, hfixed.sourceWord, hfixed.activeEntry, hactive]
    rw [← hbefore, ← beforeAct_config s i k .transmit l]
    rfl

/-! ### The words of a frame (R113, R114, R118) -/

theorem slotCount_bounds (n : SlotCount) : 8 ≤ n.toNat ∧ n.toNat ≤ 64 := by cases n <;> decide

theorem frameWords_length (s : State) (l : LinkId) (x : Link) :
    (s.frameWords l x).length = x.config.shape.slotCount.toNat := by
  obtain ⟨h8, h64⟩ := slotCount_bounds x.config.shape.slotCount
  unfold State.frameWords
  simp only
  split <;> simp <;> omega

theorem frameWords_check {s : State} {l : LinkId} {x : Link} (h : x.config.shape.checkEnable = true) :
    xorWords (s.frameWords l x) = 0#16 := by
  unfold State.frameWords
  simp only [h, if_true, xorWords_append, BitVec.xor_self]

theorem isCheck_zero (sh : Shape) : sh.isCheck 0 = false := by
  obtain ⟨h8, -⟩ := slotCount_bounds sh.slotCount
  simp [Shape.isCheck]
  omega

theorem slotWord_payload {s : State} {l : LinkId} {x : Link} {t : SlotId} (h : x.config.shape.isPayload t.val = true) :
    s.slotWord l x t = s.payloadWord x.config.txPart l t := by
  unfold Shape.isPayload at h
  simp only [Bool.and_eq_true, decide_eq_true_eq, Bool.not_eq_true'] at h
  obtain ⟨⟨⟨-, h0⟩, -⟩, hm⟩ := h
  unfold State.slotWord
  rw [if_neg h0, hm]; rfl

/-- The words put together for a link that sends are its frame (R113). -/
theorem frameWords_carried (s : State) (l : LinkId) : s.carries l (s.frameWords l (s.link l)) := by
  obtain ⟨h8, -⟩ := slotCount_bounds (s.link l).config.shape.slotCount
  refine ⟨frameWords_length .., ?_, frameWords_check, fun t hp => ?_, fun t h0 hn hc hm => ?_⟩
  · rw [List.head?_eq_getElem?]
    exact frameWords_get s l (s.link l) 0 (by show 0 < _; omega) (isCheck_zero _)
  · have hparts := hp
    unfold Shape.isPayload at hparts
    simp only [Bool.and_eq_true, decide_eq_true_eq, Bool.not_eq_true'] at hparts
    rw [frameWords_get s l _ t hparts.1.1.1 hparts.1.2, slotWord_payload hp]
  · rw [frameWords_get s l _ t hn hc, State.slotWord, if_neg h0, hm, if_pos rfl]

/-- What the words of a frame are read from. -/
theorem carries_congr {u t : State} {l : LinkId} {ws : List Word} (h : u.carries l ws)
    (hc : (t.link l).config = (u.link l).config) (hs : (t.link l).inSync = (u.link l).inSync) (htb : t.tb = u.tb)
    (hm : (t.link l).tx.mgmtWord = (u.link l).tx.mgmtWord)
    (hp : ∀ p : SlotId, (u.link l).config.shape.isPayload p.val = true →
      t.payloadWord (u.link l).config.txPart l p = u.payloadWord (u.link l).config.txPart l p) : t.carries l ws := by
  obtain ⟨hlen, hhead, hcheck, hpayload, hmgmt⟩ := h
  unfold State.carries
  rw [hc, hs, htb, hm]
  exact ⟨hlen, hhead, hcheck, fun p hq => (hpayload p hq).trans (congrArg some (hp p hq).symm), hmgmt⟩

theorem transmit_silent {s : State} {l : LinkId} (h : (s.link l).config.txEnable = false) :
    (s.transmit.link l).tx.frame = none := by
  rw [transmit_link]
  exact if_neg (by simp [show (s.evaluateBridges.link l).config.txEnable = false from h])

theorem transmit_sends {s : State} {l : LinkId} (h : (s.link l).config.txEnable = true) :
    (s.transmit.link l).tx.frame = some (s.evaluateBridges.frameWords l (s.link l)) := by
  rw [transmit_link]
  exact if_pos h

theorem transmit_inUse (s : State) (l : LinkId) : (s.transmit.link l).tx.inUse = (s.link l).config.txPart := by
  rw [transmit_link]; rfl

theorem transmit_mgmtWord (s : State) (l : LinkId) : (s.transmit.link l).tx.mgmtWord = (s.link l).tx.mgmtWord := by
  rw [transmit_link]; rfl

/-- The frame that a start fixes, read again from the state that the start leaves. -/
theorem carries_of_frame {u t : State} (h : u.transmit.EventOnly t) {l : LinkId}
    (htx : (u.link l).config.txEnable = true) : t.carries l (u.evaluateBridges.frameWords l (u.link l)) := by
  have hrx : (t.link l).rx = (u.link l).rx := by rw [h.link]; exact transmit_link_rx u l
  refine carries_congr (frameWords_carried u.evaluateBridges l) ?_ ?_ h.tb ?_ fun p hp =>
    payloadWord_of_fixedFrom (fixedFrom_of_frame h) htx hp _
  · rw [h.link]; exact transmit_link_config u l
  · unfold Link.inSync; rw [hrx]; rfl
  · rw [h.link]; exact transmit_mgmtWord u l

/-- Settles O29: from the words put together for a frame, read again from the state that a start leaves. -/
theorem transmitterFixesFrame : Obligations.TransmitterFixesFrame := by
  refine ⟨fun s l => ⟨transmit_silent, fun h => ⟨_, transmit_sends h, frameWords_carried s.evaluateBridges l⟩,
    transmit_inUse s l⟩, fun i s k ho ha hk hr => ⟨_, exec_alone ha, fun l => ?_⟩⟩
  have hframe := localFrameStart_afterFrame ho hk hr
  have hcfg := beforeAct_config s i k .transmit l
  have htx : ((s.localFrameStart i).link l).tx = ((s.beforeAct i k .transmit).transmit.link l).tx := by rw [hframe.link]
  refine ⟨?_, ?_, fun h => ?_, fun h => ?_⟩
  · rw [hframe.link]; exact (transmit_link_config _ l).trans hcfg
  · rw [htx, transmit_inUse, hcfg]
  · rw [htx, transmit_silent (by rw [hcfg]; exact h)]
  · have hon : ((s.beforeAct i k .transmit).link l).config.txEnable = true := by rw [hcfg]; exact h
    exact ⟨_, by rw [htx, transmit_sends hon], carries_of_frame hframe hon⟩

end Sys2Proof.Machine
end

section
/-!
PROOFS. The soft reset at a local frame start, the loss of a clock, and qualification (R20, R41, R42, R142).
-/

namespace Sys2Proof.Machine

/-! ### The soft reset (R142, R143, R153) -/

/-- What the soft reset has put at its reset values, the acts after it leave (R143, R153). -/
structure State.ResetFrom (s u : State) : Prop where
  agent : u.agent = { s.agent with resetPending := false, resetCause := .partReset }
  map : u.map = .cleared
  bank : u.bank = .cleared
  bridge : ∀ b, (u.bridge b).enabled = false ∧ (u.bridge b).legs = Vector.replicate 8 none
  mgmtCount : ∀ l, (u.link l).mgmtCount = .zero
  mask : u.events.mask = 0x1FF#9

theorem softReset_resetFrom {s u : State} (h : u.agent = s.agent) : s.ResetFrom u.softReset := by
  refine ⟨by rw [softReset_agent, h], rfl, rfl, fun b => ?_, fun l => ?_, rfl⟩
  · rw [softReset_bridge]; exact ⟨rfl, rfl⟩
  · rw [softReset_link]; rfl

theorem resetFrom_step {s u : State} (x : StartCtx) {a : StartAct} (h1 : a ≠ .softReset) (h2 : a ≠ .transmit)
    (h : s.ResetFrom u) : s.ResetFrom (State.startAct x u a) := by
  by_cases hs : a = .schedule
  · subst hs
    have hidle : u.bank.scheduler = .idle := by rw [h.bank]; rfl
    simpa only [State.startAct, scheduleAct_idle u x hidle] using h
  · by_cases he : a = .engineChunk
    · subst he
      have hidle : u.bank.engine = .idle none .done 0 := by rw [h.bank]; rfl
      simpa only [State.startAct, engineAct_idle u hidle] using h
    · refine ⟨(startAct_agent x u a h1).trans h.agent, (startAct_map x u a ⟨hs, he, h2, h1⟩).trans h.map,
        (startAct_bank x u a ⟨hs, he, h1⟩).trans h.bank, fun b => ?_,
        fun l => (startAct_mgmtCount x u a l h1).trans (h.mgmtCount l), (startAct_mask x u a h1).trans h.mask⟩
      obtain ⟨hon, hlegs⟩ := startAct_legs x u a h1 b
      rw [hon, hlegs]; exact h.bridge b

/-- Where a soft reset is due, the start leaves what it resets (R142). -/
theorem localFrameStart_resetFrom {s : State} {i : StartInput} {k : Bool} (hk : s.tb.startKind i.elapsed = some k)
    (hr : s.resetDue = true) : s.ResetFrom (s.localFrameStart i) := by
  obtain ⟨pre, post, hpre, hpost, hsplit, hfold⟩ := foldl_around (s.startCtx i) s.resetDue i.order .softReset
    (s.withTb (s.tb.beginFrame (s.startCtx i).new k i.elapsed))
  have htransmit : .transmit ∉ post := by
    have hn := nodup_startSequence s.resetDue i.order
    rw [hsplit] at hn
    exact fun hm => List.disjoint_of_nodup_append hn (transmit_before_softReset hsplit) (List.mem_cons_of_mem _ hm)
  rw [localFrameStart_eq hk, hfold]
  refine startFold_induct s.ResetFrom _ _ _ (fun a ha u hu => ?_) ?_
  · exact resetFrom_step _ (fun e => hpost (e ▸ ha)) (fun e => htransmit (e ▸ ha)) hu
  · simp only [State.startAct, startCtx_resetDue, hr, if_true]
    refine softReset_resetFrom ?_
    exact startFold_keeps State.agent _ _ _ fun a ha u => startAct_agent _ u a fun e => hpre (e ▸ ha)

theorem localFrameStart_config {s : State} {i : StartInput} {k : Bool} (hk : s.tb.startKind i.elapsed = some k)
    (l : LinkId) : ((s.localFrameStart i).link l).config = (s.link l).config := by
  rw [localFrameStart_eq hk]
  exact startFold_keeps (fun u => (u.link l).config) _ _ _ fun a _ u => startAct_link_config _ u a l

theorem startAct_noticeTest_of_quiet {x : StartCtx} {s : State} (h : s.notice.state = .quiet) :
    State.startAct x s .noticeTest = s := by
  simp only [State.startAct]
  split
  · exact noticeTest_waits (.inl (by rw [h]; decide))
  · rfl

/-- With no order named, the soft reset is the last thing that a start does (R142). -/
theorem localFrameStart_ends_in_reset {s : State} {i : StartInput} {k : Bool} (ho : i.order = [])
    (hk : s.tb.startKind i.elapsed = some k) (hr : s.resetDue = true) :
    s.localFrameStart i = (s.beforeAct i k .softReset).softReset := by
  rw [localFrameStart_around ho hk .softReset]
  have hpost : (allStartActs.dropWhile (· ≠ .softReset)).drop 1 = [.noticeTest] := by decide
  have hact : State.startAct (s.startCtx i) (s.beforeAct i k .softReset) .softReset =
      (s.beforeAct i k .softReset).softReset := by simp only [State.startAct, startCtx_resetDue, hr, if_true]
  rw [hpost, hact]
  exact startAct_noticeTest_of_quiet rfl

theorem exec_softResetApplied {s : State} {i : StartInput} (hr : s.resetDue = true) (ha : i.arrivals = []) :
    exec (.softResetApplied i) s = .next (s.localFrameStart i) := by
  show Host.Outcome.next (s.startWhen s.resetDue i) = _
  rw [startWhen_alone hr ha]

/-- Settles O26: the acts after the soft reset leave what it has reset; with no order named, none comes after it. -/
theorem softResetIsApplied : Obligations.SoftResetIsApplied := by
  intro i s k hr hk ha
  obtain ⟨hagent, hmap, hbank, hbridge, hcount, hmask⟩ := localFrameStart_resetFrom hk hr
  refine ⟨_, exec_softResetApplied hr ha, exec_alone ha, hagent, fun bk j => ?_, fun j => ?_, hbank, fun b => ?_,
    fun l => ⟨hcount l, localFrameStart_config hk l⟩, hmask, fun ho => ?_⟩
  · simp only [hmap]
    cases bk <;> exact Vector.getElem_replicate ..
  · simp only [hmap]
    exact Vector.getElem_replicate ..
  · obtain ⟨hoff, hlegs⟩ := hbridge b
    exact ⟨hoff, fun k => by simp only [hlegs, Vector.getElem_replicate]⟩
  · rw [localFrameStart_ends_in_reset ho hk hr]
    exact ⟨rfl, rfl, fun l => by rw [softReset_link]; rfl⟩

/-! ### The loss of a clock (R20, R26, R47) -/

/-- The second silent interval of a lane closes (R20). -/
theorem clockLossDue_of_silent {s : State} {l : LinkId} {rxc : BitVec 8} (h1 : (s.link l).rx.align ≠ .off)
    (h2 : (s.link l).rx.align ≠ .noclock) (h3 : (s.link l).rx.watch = ⟨true, false, true⟩)
    (h4 : rxc.getLsbD l.val = false) : s.clockLossDue l rxc = true := by
  unfold State.clockLossDue State.laneActive
  simp only [h3, h4, h1, h2, ne_eq, not_false_eq_true, decide_true, Bool.and_self, Bool.or_self, Bool.not_false]

/-- At a loss the receiver leaves SYNC for NOCLOCK, or goes there from its search (R20). -/
theorem clockWatchAct_loses {s : State} {l : LinkId} {rxc : BitVec 8} (h : s.clockLossDue l rxc = true) (rf : Bool) :
    s.clockWatchAct l rxc rf =
      if (s.link l).inSync then
        (s.updLink l (·.withWatch ⟨true, false, false⟩)).leaveSync l .noclock .clockLoss rf
      else (s.updLink l (·.withWatch ⟨true, false, false⟩)).updLink l (·.withAlign .noclock) := by
  simp only [State.clockLossDue, Bool.and_eq_true, decide_eq_true_eq, Bool.not_eq_true'] at h
  obtain ⟨⟨⟨⟨h1, h2⟩, h3⟩, h4⟩, h5⟩ := h
  unfold State.clockWatchAct
  simp only [h3, h4, h5, Bool.not_true, Bool.or_self, Bool.false_eq_true, if_false]

theorem clockWatchAct_noclock {s : State} {l : LinkId} {rxc : BitVec 8} (h : s.clockLossDue l rxc = true) (rf : Bool) :
    ((s.clockWatchAct l rxc rf).link l).rx.align = .noclock := by
  rw [clockWatchAct_loses h]
  split
  · rw [leaveSync_rx_self]; rfl
  · rw [link_updLink_self]; rfl

theorem clockWatchAct_quiet {s : State} {l : LinkId} {rxc : BitVec 8} (h : s.clockLossDue l rxc = true)
    (hs : (s.link l).inSync = true) (rf : Bool) : ((s.clockWatchAct l rxc rf).link l).quiet ∧
      ((s.clockWatchAct l rxc rf).link l).rxCount.syncLosses = satAdd16 (s.link l).rxCount.syncLosses 1 := by
  rw [clockWatchAct_loses h, if_pos hs]
  refine ⟨leaveSync_quiet_self .., ?_⟩
  rw [leaveSync_rxCount_self, link_updLink_self]; rfl

/-- Of the acts of a start only the loss of its clock and its presenting count at a receiver, and a soft reset that is
due sets its counts to 0. -/
theorem startAct_rxCount {x : StartCtx} {s : State} {a : StartAct} {l : LinkId} (hr : x.resetDue = false)
    (h1 : a ≠ .clockWatch l) (h2 : a ≠ .present l) :
    ((State.startAct x s a).link l).rxCount = (s.link l).rxCount := by
  have hupd (k : LinkId) (f : Link → Link) (hf : (f (s.link k)).rxCount = (s.link k).rxCount) :
      ((s.updLink k f).link l).rxCount = (s.link l).rxCount := updLink_read (fun y : Link => y.rxCount) s k l f hf
  cases a with
  | clockWatch k =>
    have hk : l ≠ k := fun e => h1 (e ▸ rfl)
    rcases clockWatchAct_cases s k x.rxc (x.refFirst.getLsbD k.val) with ⟨w, b, e, -⟩ | ⟨-, -, e⟩ <;>
      simp only [State.startAct, e]
    · exact hupd k _ rfl
    · rw [leaveSync_rxCount_ne _ hk]; exact hupd k _ rfl
  | present k =>
    have hk : l ≠ k := fun e => h2 (e ▸ rfl)
    simp only [State.startAct, State.presentAct]
    (repeat' split) <;> simp [link_updLink_ne _ hk]
  | checkWindow k =>
    simp only [State.startAct, State.checkWindowAct]
    split
    · split
      · exact hupd k _ rfl
      · rw [report_link_rxCount]; exact hupd k _ rfl
    · rfl
  | qualification k =>
    simp only [State.startAct, State.qualificationAct]
    split
    · split
      · rw [select_link_rxCount]; exact hupd k _ rfl
      · exact hupd k _ rfl
    · rfl
  | softReset => rw [startAct_softReset_of_not_due hr]
  | _ =>
    simp only [State.startAct, State.timeStepAct, State.scheduleAct, State.fireSwitch, State.engineAct,
      State.processChunk, State.noticeTimerAct, State.clearAllHolds] <;>
    (repeat' split) <;> simp

theorem presentAct_syncLosses (s : State) (l : LinkId) :
    ((s.presentAct l).link l).rxCount.syncLosses = (s.link l).rxCount.syncLosses := by
  unfold State.presentAct
  simp only
  (repeat' split) <;> simp

theorem startAct_syncLosses {x : StartCtx} {s : State} {a : StartAct} {l : LinkId} (hr : x.resetDue = false)
    (h : a ≠ .clockWatch l) :
    ((State.startAct x s a).link l).rxCount.syncLosses = (s.link l).rxCount.syncLosses := by
  by_cases hp : a = .present l
  · subst hp; exact presentAct_syncLosses s l
  · rw [startAct_rxCount hr h hp]

/-- The receiver of `l` at a start at which it loses its clock: when its clock watch has been taken, it is in NOCLOCK,
and, where it was in SYNC, out of it and its loss counted. -/
def State.lossGoes (s : State) (l : LinkId) (rest : List StartAct) (u : State) : Prop :=
  if .clockWatch l ∈ rest then
    s.resetDue = false → (u.link l).rxCount.syncLosses = (s.link l).rxCount.syncLosses
  else (u.link l).rx.align = .noclock ∧ ((s.link l).inSync = true → (u.link l).quiet ∧
    (s.resetDue = false → (u.link l).rxCount.syncLosses = satAdd16 (s.link l).rxCount.syncLosses 1))

theorem lossGoes_step {s u : State} {i : StartInput} {l : LinkId} {a : StartAct} {rest : List StartAct}
    (hd : s.clockLossDue l i.rxc = true) (ha : a ∉ rest)
    (hlane : ∀ l, a = .clockWatch l →
      (u.link l).rx.align = (s.link l).rx.align ∧ (u.link l).rx.watch = (s.link l).rx.watch)
    (h : s.lossGoes l (a :: rest) u) : s.lossGoes l rest (State.startAct (s.startCtx i) u a) := by
  unfold State.lossGoes at h ⊢
  by_cases hw : a = .clockWatch l
  · subst hw
    simp only [List.mem_cons, true_or, if_true] at h
    rw [if_neg ha]
    have hdue : u.clockLossDue l i.rxc = true := (clockLossDue_untaken (hlane l rfl) _).trans hd
    refine ⟨clockWatchAct_noclock hdue _, fun hs => ?_⟩
    have hin : (u.link l).inSync = true := by unfold Link.inSync at hs ⊢; rw [(hlane l rfl).1, hs]
    obtain ⟨hquiet, hloss⟩ := clockWatchAct_quiet hdue hin ((s.startCtx i).refFirst.getLsbD l.val)
    exact ⟨hquiet, fun hr => hloss.trans (by rw [h hr])⟩
  · have hmem : .clockWatch l ∈ rest ↔ .clockWatch l ∈ a :: rest := by simp [Ne.symm hw]
    simp only [hmem]
    split
    · next hm =>
      rw [if_pos hm] at h
      exact fun hr => (startAct_syncLosses ((startCtx_resetDue s i).trans hr) hw).trans (h hr)
    · next hm =>
      rw [if_neg hm] at h
      obtain ⟨halign, hrest⟩ := h
      have hout : (u.link l).inSync = false := by unfold Link.inSync; rw [halign]; rfl
      refine ⟨(startAct_align _ u a l hw).1.trans halign, fun hs => ⟨?_, fun hr => ?_⟩⟩
      · exact startAct_quiet _ u a l hout (hrest hs).1
      · exact (startAct_syncLosses ((startCtx_resetDue s i).trans hr) hw).trans ((hrest hs).2 hr)

theorem exec_clockLoss {s : State} {l : LinkId} {i : StartInput} (hd : s.clockLossDue l i.rxc = true)
    (ha : i.arrivals = []) : exec (.clockLoss l i) s = .next (s.localFrameStart i) := by
  show Host.Outcome.next (s.startWhen (s.clockLossDue l i.rxc) i) = _
  rw [startWhen_alone hd ha]

/-! ### The record of a loss (R26, R179) -/

theorem disqualified_mask (s : State) (l : LinkId) (q : Bool) :
    (s.disqualified l q).events.mask = s.events.mask := by
  rcases disqualified_cases s l q with e | e <;> rw [e]
  exact select_mask s

/-- The leaving of SYNC is recorded where two places are free (R26, R182). -/
theorem leaveSync_records {s : State} (hm : s.events.mask.getLsbD 1 = true) (hl : s.events.records.length ≤ 30)
    (l : LinkId) (a : Align) (d : DownCause) (rf : Bool) :
    ∃ r ∈ (s.leaveSync l a d rf).events.records, r.kind = .linkDown ∧ r.subject = byteOf l.val ∧ r.detail = downCode d ∧
      r.stampNumber = s.tb.number ∧ r.stampIndex = s.tb.frameIndex ∧ r.count = 1#8 ∧ r.delivered = false := by
  have hkind : EventKind.linkDown ≠ .slip := by decide
  unfold State.leaveSync
  simp only
  split
  · set u := (s.updLink l (·.outOfSync a d)).disqualified l (decide ((s.link l).rx.qualCount = Config.qualifiedCount))
      with hu
    have hlen : u.events.records.length ≤ s.events.records.length + 1 := disqualified_length _ _ _
    have hroom : u.events.records.length < 32 := by omega
    refine ⟨_, report_appends u (linkSubject l) (downCode d) ?_ hkind hroom, rfl, rfl, rfl, ?_, ?_, rfl, rfl⟩
    · rw [EventQueue.enabled, hu, disqualified_mask]; exact hm
    · show u.tb.number = _
      rw [hu, disqualified_tb_number]; rfl
    · show u.tb.frameIndex = _
      rw [hu, disqualified_tb_frameIndex]; rfl
  · have hroom : (s.updLink l (·.outOfSync a d)).events.records.length < 32 := by
      show s.events.records.length < 32
      omega
    refine ⟨_, disqualified_keeps_record ?_ _ _ _
      (report_appends (s.updLink l (·.outOfSync a d)) (linkSubject l) (downCode d) hm hkind hroom), rfl, rfl, rfl, rfl,
      rfl, rfl, rfl⟩
    exact hkind

/-- How many records the clock watch of a lane makes at most. -/
def watchRecords : StartAct → Nat
  | .clockWatch _ => 2
  | _ => 0

theorem before_clockWatch (l : LinkId) : ∀ a ∈ allStartActs.takeWhile (· ≠ .clockWatch l),
    a = .number ∨ ∃ k, a = .clockWatch k := by revert l; decide

theorem before_clockWatch_sum (l : LinkId) :
    ((allStartActs.takeWhile (· ≠ .clockWatch l)).map watchRecords).sum ≤ 14 := by revert l; decide

theorem before_clockWatch_reset (l : LinkId) : .softReset ∉ allStartActs.takeWhile (· ≠ .clockWatch l) := by
  revert l; decide

theorem clockWatchAct_length (s : State) (l : LinkId) (rxc : BitVec 8) (rf : Bool) :
    (s.clockWatchAct l rxc rf).events.records.length ≤ s.events.records.length + 2 := by
  rcases clockWatchAct_cases s l rxc rf with ⟨w, b, e, -⟩ | ⟨-, -, e⟩ <;> rw [e]
  · exact Nat.le_add_right _ 2
  · exact leaveSync_length (s.updLink l _) ..

theorem beforeWatch_length (s : State) (i : StartInput) (k : Bool) (l : LinkId) :
    (s.beforeAct i k (.clockWatch l)).events.records.length ≤ s.events.records.length + 14 := by
  refine (beforeAct_length watchRecords fun b hb v _ => ?_).trans (Nat.add_le_add_left (before_clockWatch_sum l) _)
  rcases before_clockWatch l b hb with rfl | ⟨j, rfl⟩
  · exact Nat.le_refl _
  · exact clockWatchAct_length v j _ _

theorem beforeWatch_lane (s : State) (i : StartInput) (k : Bool) (l : LinkId) :
    ((s.beforeAct i k (.clockWatch l)).link l).rx.align = (s.link l).rx.align ∧
    ((s.beforeAct i k (.clockWatch l)).link l).rx.watch = (s.link l).rx.watch :=
  ⟨startFold_keeps (fun u => (u.link l).rx.align) _ _ (s.withTb _) fun a ha u =>
      (startAct_align _ u a l (takeWhile_ne ha)).1,
    startFold_keeps (fun u => (u.link l).rx.watch) _ _ (s.withTb _) fun a ha u =>
      (startAct_align _ u a l (takeWhile_ne ha)).2⟩

/-- Settles O18: act by act for the receiver, and by the clock watches before its own for the record. -/
theorem clockLossEntersNoClock : Obligations.ClockLossEntersNoClock := by
  intro l i s k h1 h2 h3 h4 hk ha
  have hd := clockLossDue_of_silent h1 h2 h3 h4
  have hgo : s.lossGoes l [] (s.localFrameStart i) := by
    refine localFrameStart_goes hk (s.lossGoes l) ?_ fun a rest u hm hlane h => lossGoes_step hd hm hlane h
    rw [State.lossGoes, if_pos (mem_startSequence _ _ _)]
    exact fun _ => rfl
  rw [State.lossGoes, if_neg List.not_mem_nil] at hgo
  obtain ⟨hnoclock, hsync⟩ := hgo
  refine ⟨_, exec_clockLoss hd ha, exec_alone ha, hnoclock, fun hs => ⟨(hsync hs).1, (hsync hs).2,
    fun hr ho hm hl => ?_⟩⟩
  have hlane := beforeWatch_lane s i k l
  have hlen := beforeWatch_length s i k l
  have hin : ((s.beforeAct i k (.clockWatch l)).link l).inSync = true := by
    unfold Link.inSync at hs ⊢; rw [hlane.1, hs]
  have hact : State.startAct (s.startCtx i) (s.beforeAct i k (.clockWatch l)) (.clockWatch l) = _ :=
    clockWatchAct_loses ((clockLossDue_untaken hlane _).trans hd) _
  rw [if_pos hin] at hact
  obtain ⟨r, hmem, hkind, hsubject, hdetail, hnumber, hindex, hrest⟩ := leaveSync_records
    (s := (s.beforeAct i k (.clockWatch l)).updLink l (·.withWatch ⟨true, false, false⟩))
    (by rw [updLink_events, beforeAct_mask (before_clockWatch_reset l)]; exact hm)
    (by rw [updLink_events]; omega) l .noclock .clockLoss ((s.startCtx i).refFirst.getLsbD l.val)
  refine ⟨r, localFrameStart_keeps_record ho hk hr (.clockWatch l) (by rw [hkind]; decide) (hact ▸ hmem), hkind,
    hsubject, hdetail, ?_, ?_, hrest⟩
  · rw [localFrameStart_number hk, hnumber]; exact beforeAct_number _
  · rw [localFrameStart_frameIndex hk, hindex]; exact beforeAct_frameIndex _

end Sys2Proof.Machine
end

section
/-!
PROOFS. Qualification at a superframe start (R41, R42, R53), and where starts come (R47 to R51, R58).
-/

namespace Sys2Proof.Machine

/-! ### Counts of qualification (R41, R42) -/

theorem nextQual_eq (x : Link) : x.nextQual =
    if x.inSync = true ∧ x.rx.wholeMark = true then min (x.rx.qualCount + 1) 16 else x.rx.qualCount := by
  simp only [Link.nextQual, Bool.and_eq_true, Config.qualifiedCount]

theorem qualifies_iff (x : Link) : x.qualifies = true ↔ x.nextQual = 16 ∧ x.rx.qualCount ≠ 16 := by
  simp only [Link.qualifies, Bool.and_eq_true, decide_eq_true_eq]
  exact Iff.rfl

theorem nextQual_le (x : Link) : x.nextQual ≤ x.rx.qualCount + 1 := by
  unfold Link.nextQual
  split <;> omega

/-- Count and mark of `l` at a superframe start: as they were until its qualification, and moved after it. -/
def State.countGoes (s : State) (l : LinkId) (rest : List StartAct) (u : State) : Prop :=
  (u.link l).inSync = (s.link l).inSync ∧
  if .qualification l ∈ rest then
    (u.link l).rx.qualCount = (s.link l).rx.qualCount ∧ (u.link l).rx.wholeMark = (s.link l).rx.wholeMark
  else (u.link l).rx.qualCount = (s.link l).nextQual ∧ (u.link l).rx.wholeMark = (s.link l).inSync

theorem nextQual_congr {x y : Link} (hs : y.inSync = x.inSync) (hq : y.rx.qualCount = x.rx.qualCount)
    (hw : y.rx.wholeMark = x.rx.wholeMark) : y.nextQual = x.nextQual := by
  unfold Link.nextQual; rw [hs, hq, hw]

theorem countGoes_step {s u : State} {i : StartInput} {l : LinkId} {a : StartAct} {rest : List StartAct}
    (hsf : s.tb.superframeDue = true) (hd : s.clockLossDue l i.rxc = false) (ha : a ∉ rest)
    (hlane : ∀ l, a = .clockWatch l →
      (u.link l).rx.align = (s.link l).rx.align ∧ (u.link l).rx.watch = (s.link l).rx.watch)
    (h : s.countGoes l (a :: rest) u) : s.countGoes l rest (State.startAct (s.startCtx i) u a) := by
  have hloss : a = .clockWatch l → u.clockLossDue l (s.startCtx i).rxc = false := fun e =>
    (clockLossDue_untaken (hlane l e) _).trans hd
  obtain ⟨hin, hcount⟩ := h
  refine ⟨(startAct_inSync hloss).trans hin, ?_⟩
  by_cases hq : a = .qualification l
  · subst hq
    simp only [List.mem_cons, true_or, if_true] at hcount
    rw [if_neg ha]
    have hrx := qualificationAct_rx u l true
    rw [if_pos rfl] at hrx
    simp only [State.startAct, startCtx_superframe, hsf, hrx, hin, nextQual_congr hin hcount.1 hcount.2, and_self]
  · have hmem : .qualification l ∈ rest ↔ .qualification l ∈ a :: rest := by simp [Ne.symm hq]
    have hkept : ((State.startAct (s.startCtx i) u a).link l).rx.qualCount = (u.link l).rx.qualCount ∧
        ((State.startAct (s.startCtx i) u a).link l).rx.wholeMark = (u.link l).rx.wholeMark := by
      by_cases hw : a = .checkWindow l
      · subst hw
        have hrx := checkWindowAct_rx u l (s.startCtx i).superframe
        simp only [State.startAct, hrx]
        split <;> exact ⟨rfl, rfl⟩
      · obtain ⟨w, b, e, -⟩ := startAct_rx_kept hloss hw hq
        rw [e]; exact ⟨rfl, rfl⟩
    simp only [hmem, hkept]
    exact hcount

theorem countGoes_start (s : State) (l : LinkId) (r : Bool) (order : List StartAct) (tb : Timebase) :
    s.countGoes l (startSequence r order) (s.withTb tb) := by
  refine ⟨rfl, ?_⟩
  rw [if_pos (mem_startSequence _ _ _)]
  exact ⟨rfl, rfl⟩

/-- Count and mark of a link that does not lose its clock, after a superframe start (R41). -/
theorem localFrameStart_count {s : State} {i : StartInput} {k : Bool} {l : LinkId} (hsf : s.tb.superframeDue = true)
    (hd : s.clockLossDue l i.rxc = false) (hk : s.tb.startKind i.elapsed = some k) :
    ((s.localFrameStart i).link l).rx.qualCount = (s.link l).nextQual ∧
    ((s.localFrameStart i).link l).rx.wholeMark = (s.link l).inSync := by
  have hgo : s.countGoes l [] (s.localFrameStart i) :=
    localFrameStart_goes hk (s.countGoes l) (countGoes_start s l _ _ _)
      fun a rest u hm hlane h => countGoes_step hsf hd hm hlane h
  have hcount := hgo.2
  rwa [if_neg List.not_mem_nil] at hcount

/-! ### The selection of a link that qualifies (R53) -/

/-- The link with the count and mark that a superframe start gives it (R41). -/
def State.counted (s : State) (l : LinkId) : State :=
  s.updLink l fun x => { x with rx := { x.rx with qualCount := (s.link l).nextQual, wholeMark := (s.link l).inSync } }

theorem qualificationAct_of_superframe (s : State) (l : LinkId) : s.qualificationAct l true =
    if (s.link l).qualifies = true ∧ .link l ∈ s.tb.refList then (s.counted l).select else s.counted l := by
  unfold State.qualificationAct
  simp only [if_true, Bool.and_eq_true, List.contains_iff_mem]
  rfl

/-- Out of HOLDOVER a selection takes the one qualified entry of the list. -/
theorem select_of_only {s : State} {l : LinkId} (hs : s.tb.source = .holdover) (hmem : .link l ∈ s.tb.refList)
    (hq : (s.link l).rx.qualCount = 16) (hother : ∀ e ∈ s.tb.refList, e ≠ .link l → s.qualified e = false) :
    s.select.tb.source = .locked l := by
  rw [select_source, chooseSource_eq_firstQualified (.inr (.inl hs))]
  have hl : s.qualified (.link l) = true := by simp [State.qualified, hq, Config.qualifiedCount]
  rcases firstQualified_cases s with ⟨e, he, hqe, h⟩ | ⟨hnone, -⟩
  · have hel : e = .link l := by
      by_contra hne
      rw [hother e he hne] at hqe
      cases hqe
    rw [h, hel]; rfl
  · rw [hnone _ hmem] at hl; cases hl

/-- The source at a superframe start at which `l` alone qualifies, out of HOLDOVER. -/
def State.sourceGoes (s : State) (l : LinkId) (rest : List StartAct) (u : State) : Prop :=
  (∀ j, s.countGoes j rest u) ∧ u.tb.refList = s.tb.refList ∧
  u.tb.source = if .qualification l ∈ rest then .holdover else .locked l

theorem countGoes_le {s u : State} {l : LinkId} {rest : List StartAct} (h : s.countGoes l rest u) :
    (u.link l).rx.qualCount ≤ (s.link l).rx.qualCount + 1 := by
  have hle := nextQual_le (s.link l)
  obtain ⟨-, hcount⟩ := h
  split at hcount <;> omega

theorem sourceGoes_step {s u : State} {i : StartInput} {l : LinkId} {a : StartAct} {rest : List StartAct}
    (hsf : s.tb.superframeDue = true) (hd : ∀ j, s.clockLossDue j i.rxc = false) (hmem : .link l ∈ s.tb.refList)
    (hqual : (s.link l).qualifies = true)
    (hother : ∀ e ∈ s.tb.refList, e ≠ .link l → ∃ j, e = .link j ∧ (s.link j).rx.qualCount < 15) (ha : a ∉ rest)
    (hlane : ∀ l, a = .clockWatch l →
      (u.link l).rx.align = (s.link l).rx.align ∧ (u.link l).rx.watch = (s.link l).rx.watch)
    (h : s.sourceGoes l (a :: rest) u) : s.sourceGoes l rest (State.startAct (s.startCtx i) u a) := by
  obtain ⟨hcount, hlist, hsource⟩ := h
  refine ⟨fun j => countGoes_step hsf (hd j) ha hlane (hcount j), (startAct_tb_refList ..).trans hlist, ?_⟩
  obtain ⟨hin, hnow⟩ := hcount l
  by_cases hq : a = .qualification l
  · subst hq
    simp only [List.mem_cons, true_or, if_true] at hnow hsource
    rw [if_neg ha]
    have hnext : (u.link l).nextQual = (s.link l).nextQual := nextQual_congr hin hnow.1 hnow.2
    obtain ⟨h16, hne⟩ := (qualifies_iff _).1 hqual
    have huqual : (u.link l).qualifies = true := (qualifies_iff _).2 ⟨hnext.trans h16, hnow.1 ▸ hne⟩
    simp only [State.startAct, startCtx_superframe, hsf, qualificationAct_of_superframe]
    rw [if_pos ⟨huqual, hlist ▸ hmem⟩]
    refine select_of_only hsource (hlist ▸ hmem) ?_ fun e he hel => ?_
    · rw [State.counted, link_updLink_self]; exact hnext.trans h16
    · rw [State.counted, updLink_tb, hlist] at he
      obtain ⟨j, rfl, hj⟩ := hother e he hel
      have hjl : j ≠ l := fun e => hel (e ▸ rfl)
      have hle := countGoes_le (hcount j)
      simp only [State.qualified, State.counted, link_updLink_ne _ hjl, Config.qualifiedCount, decide_eq_false_iff_not]
      omega
  · have hmem' : .qualification l ∈ rest ↔ .qualification l ∈ a :: rest := by simp [Ne.symm hq]
    rw [startAct_keeps_tb, hsource]
    · simp only [hmem']
    · exact fun j e => (clockLossDue_untaken (hlane j e) _).trans (hd j)
    · intro j e _ hj
      have hjl : j ≠ l := fun e' => hq (e' ▸ e)
      obtain ⟨j', hj', hlt⟩ := hother (.link j) (hlist ▸ hj) (fun e => hjl (RefEntry.link.inj e))
      cases hj'
      obtain ⟨-, hcj⟩ := hcount j
      rw [if_pos (e ▸ List.mem_cons_self)] at hcj
      have hle := nextQual_le (u.link j)
      refine Bool.eq_false_iff.2 fun hqj => ?_
      have := ((qualifies_iff _).1 hqj).1
      omega

theorem localFrameStart_locks {s : State} {i : StartInput} {k : Bool} {l : LinkId} (hsf : s.tb.superframeDue = true)
    (hd : ∀ j, s.clockLossDue j i.rxc = false) (hk : s.tb.startKind i.elapsed = some k)
    (hsource : s.tb.source = .holdover) (hmem : .link l ∈ s.tb.refList) (hqual : (s.link l).qualifies = true)
    (hother : ∀ e ∈ s.tb.refList, e ≠ .link l → ∃ j, e = .link j ∧ (s.link j).rx.qualCount < 15) :
    (s.localFrameStart i).tb.source = .locked l := by
  have hgo : s.sourceGoes l [] (s.localFrameStart i) := by
    refine localFrameStart_goes hk (s.sourceGoes l) ⟨fun j => countGoes_start s j _ _ _, rfl, ?_⟩
      fun a rest u hm hlane h => sourceGoes_step hsf hd hmem hqual hother hm hlane h
    rw [if_pos (mem_startSequence _ _ _)]
    exact hsource
  have := hgo.2.2
  rwa [if_neg List.not_mem_nil] at this

theorem exec_linkQualified {s : State} {l : LinkId} {i : StartInput} (hsf : s.tb.superframeDue = true)
    (hq : (s.link l).qualifies = true) (ha : i.arrivals = []) :
    exec (.linkQualified l i) s = .next (s.localFrameStart i) := by
  have hdue : (s.tb.superframeDue && (s.link l).qualifies) = true := by rw [hsf, hq]; rfl
  show Host.Outcome.next (s.startWhen (s.tb.superframeDue && (s.link l).qualifies) i) = _
  rw [startWhen_alone hdue ha]

/-- Settles O21: act by act for the count of the link and for the source, and by the cases of its qualification. -/
theorem linkQualifiesAtSixteen : Obligations.LinkQualifiesAtSixteen := by
  refine ⟨fun l i s k hst hf hs hw hq hd hk ha => ?_, fun l i s k hst hf hd hk ha => ?_, fun s l => ⟨rfl, _, _, rfl, rfl,
    fun h16 hne hmem => ?_, fun hn => ?_⟩⟩
  · have hsf := (superframeDue_iff s.tb).2 ⟨hst, hf⟩
    have hnext : (s.link l).nextQual = 16 := by rw [nextQual_eq, if_pos ⟨hs, hw⟩, hq]; rfl
    have hqual : (s.link l).qualifies = true := (qualifies_iff _).2 ⟨hnext, by omega⟩
    obtain ⟨hcount, hmark⟩ := localFrameStart_count hsf hd hk
    exact ⟨_, exec_linkQualified hsf hqual ha, exec_alone ha, hcount.trans hnext, hmark.trans hs,
      fun hh hmem hall hother => localFrameStart_locks hsf hall hk hh hmem hqual hother⟩
  · have hsf := (superframeDue_iff s.tb).2 ⟨hst, hf⟩
    obtain ⟨hcount, hmark⟩ := localFrameStart_count hsf hd hk
    exact ⟨_, exec_alone ha, hmark, hcount.trans (nextQual_eq _)⟩
  · rw [← nextQual_eq] at h16
    rw [qualificationAct_of_superframe, if_pos ⟨(qualifies_iff _).2 ⟨h16, hne⟩, hmem⟩, State.counted, nextQual_eq]
  · rw [← nextQual_eq] at hn
    rw [qualificationAct_of_superframe, if_neg, State.counted, nextQual_eq]
    exact fun ⟨hq, hmem⟩ => hn ⟨((qualifies_iff _).1 hq).1, ((qualifies_iff _).1 hq).2, hmem⟩

end Sys2Proof.Machine
end

section
/-!
PROOFS. When a source gives a start, and what the timebase makes of it (R47 to R51, R58).
-/

namespace Sys2Proof.Machine

/-! ### When a source gives a start (R48 to R51) -/

theorem startKind_free {t : Timebase} (hs : t.started = true) (h : t.source = .free) (e : Nat) :
    (t.startKind e).isSome = decide ((t.divider.val + e) % 512 = 0 ∧ 256 ≤ e ∧ e < 768) := by
  have hwindow : ((t.divider.val + e) % 512 = 0 && Config.nominalPeriod ≤ 2 * e &&
      2 * e < 3 * Config.nominalPeriod) = decide ((t.divider.val + e) % 512 = 0 ∧ 256 ≤ e ∧ e < 768) := by
    rw [Bool.eq_iff_iff]
    simp only [Bool.and_eq_true, decide_eq_true_eq]
    simp only [Config.nominalPeriod]
    omega
  unfold Timebase.startKind
  simp only [hs, h, Bool.not_true, Bool.false_eq_true, if_false, hwindow]
  split
  · next hc => rw [hc]; rfl
  · next hc => rw [Bool.eq_false_iff.2 hc]; rfl

/-- In LOCKED with a usable completion, the first of them gives the start (R49). -/
theorem startKind_locked_some {t : Timebase} (hs : t.started = true) {l : LinkId} (h : t.source = .locked l) {d : Nat}
    (hd : t.firstUsable = some d) (e : Nat) : t.startKind e = if e = d then some true else none := by
  unfold Timebase.startKind
  simp only [hs, h, hd, Bool.not_true, Bool.false_eq_true, if_false]

/-- In LOCKED with no usable completion, the start comes at one and a half held periods (R49). -/
theorem startKind_locked_none {t : Timebase} (hs : t.started = true) {l : LinkId} (h : t.source = .locked l)
    (hd : t.firstUsable = none) (e : Nat) : t.startKind e = if e = t.timeoutAt then some false else none := by
  unfold Timebase.startKind
  simp only [hs, h, hd, Bool.not_true, Bool.false_eq_true, if_false]

theorem startKind_locked_true {t : Timebase} (hs : t.started = true) {l : LinkId} (h : t.source = .locked l) (e : Nat) :
    t.startKind e = some true ↔ t.firstUsable = some e := by
  cases hd : t.firstUsable with
  | some d =>
    rw [startKind_locked_some hs h hd, Option.some.injEq]
    split
    · next he => simp [he]
    · next he => exact ⟨nofun, fun hde => absurd hde.symm he⟩
  | none =>
    rw [startKind_locked_none hs h hd]
    split <;> simp

theorem startKind_locked_false {t : Timebase} (hs : t.started = true) {l : LinkId} (h : t.source = .locked l) (e : Nat) :
    t.startKind e = some false ↔ e = t.timeoutAt ∧ t.firstUsable = none := by
  cases hd : t.firstUsable with
  | some d =>
    rw [startKind_locked_some hs h hd]
    split <;> simp
  | none => simp [startKind_locked_none hs h hd]

theorem startKind_holdover {t : Timebase} (hs : t.started = true) (h : t.source = .holdover) (e : Nat) :
    (t.startKind e).isSome = decide (e = t.heldPeriod) := by
  unfold Timebase.startKind
  simp only [hs, h, Bool.not_true, Bool.false_eq_true, if_false]
  split
  · next hc => simp [hc]
  · next hc => simp [hc]

/-! ### The start that the timebase makes itself (R49) -/

theorem timeoutDue_iff {t : Timebase} (hs : t.started = true) {l : LinkId} (h : t.source = .locked l) (e : Nat) :
    t.timeoutDue e = true ↔ e = (3 * t.heldPeriod + 1) / 2 := by
  simp [Timebase.timeoutDue, hs, h, TimeSource.entry]
  rfl

/-- An act of a start keeps the held period or sets the nominal one, and marks no start as taken from a completion. -/
theorem startAct_period (x : StartCtx) (s : State) (a : StartAct) :
    ((State.startAct x s a).tb.heldPeriod = s.tb.heldPeriod ∨ (State.startAct x s a).tb.heldPeriod = 512) ∧
    (s.tb.fromCompletion = false → (State.startAct x s a).tb.fromCompletion = false) := by
  rcases startAct_tb x s a with e | ⟨new, e⟩ <;> rw [e]
  · exact ⟨.inl rfl, id⟩
  · refine ⟨?_, fun _ => rfl⟩
    unfold Timebase.enter
    dsimp only
    split
    · exact .inr rfl
    · exact .inl rfl

/-- What a start not taken from a completion leaves of held period and mark (R49). -/
theorem localFrameStart_period {s : State} {i : StartInput} (hk : s.tb.startKind i.elapsed = some false) :
    (s.localFrameStart i).tb.fromCompletion = false ∧
    ((s.localFrameStart i).tb.heldPeriod = s.tb.heldPeriod ∨ (s.localFrameStart i).tb.heldPeriod = 512) := by
  rw [localFrameStart_eq hk]
  refine startFold_induct (fun u => u.tb.fromCompletion = false ∧
    (u.tb.heldPeriod = s.tb.heldPeriod ∨ u.tb.heldPeriod = 512)) _ _ _ (fun a _ u hu => ?_) ⟨rfl, .inl rfl⟩
  obtain ⟨hperiod, hmark⟩ := startAct_period (s.startCtx i) u a
  refine ⟨hmark hu.1, ?_⟩
  rcases hperiod with h | h <;> rw [h]
  · exact hu.2
  · exact .inr rfl

/-! ### The timebase at a start at which no selection runs (R47, R49) -/

/-- The timebase as the start has set it, and every count as the qualifications have left it. -/
def State.timebaseGoes (s : State) (tb : Timebase) (rest : List StartAct) (u : State) : Prop :=
  u.tb = tb ∧ (s.tb.superframeDue = true → ∀ l, s.countGoes l rest u)

/-- A listed link whose count is 16, or less than 15, does not qualify at this start (R42). -/
theorem not_qualifies {s u : State} {l : LinkId} (hq : (u.link l).rx.qualCount = (s.link l).rx.qualCount)
    (h : (s.link l).rx.qualCount = 16 ∨ (s.link l).rx.qualCount < 15) : (u.link l).qualifies = false := by
  have hle := nextQual_le (u.link l)
  refine Bool.eq_false_iff.2 fun hc => ?_
  obtain ⟨h16, hne⟩ := (qualifies_iff _).1 hc
  omega

theorem timebaseGoes_step {s u : State} {i : StartInput} {tb : Timebase} {a : StartAct} {rest : List StartAct}
    (hlist : tb.refList = s.tb.refList) (hd : ∀ l, s.clockLossDue l i.rxc = false)
    (hq : s.tb.superframeDue = true → ∀ l, RefEntry.link l ∈ s.tb.refList →
      (s.link l).rx.qualCount = 16 ∨ (s.link l).rx.qualCount < 15) (ha : a ∉ rest)
    (hlane : ∀ l, a = .clockWatch l →
      (u.link l).rx.align = (s.link l).rx.align ∧ (u.link l).rx.watch = (s.link l).rx.watch)
    (h : s.timebaseGoes tb (a :: rest) u) : s.timebaseGoes tb rest (State.startAct (s.startCtx i) u a) := by
  obtain ⟨htb, hcount⟩ := h
  refine ⟨(startAct_keeps_tb ?_ ?_).trans htb, fun hsf l => countGoes_step hsf (hd l) ha hlane (hcount hsf l)⟩
  · exact fun l e => (clockLossDue_untaken (hlane l e) _).trans (hd l)
  · intro l e hsf hmem
    rw [htb, hlist] at hmem
    obtain ⟨-, hnow⟩ := hcount hsf l
    rw [if_pos (e ▸ List.mem_cons_self)] at hnow
    exact not_qualifies hnow.1 (hq hsf l hmem)

/-- Where no selection runs, the timebase of a start is the one that it began with (R47, R49). -/
theorem localFrameStart_tb {s : State} {i : StartInput} {k : Bool} (hk : s.tb.startKind i.elapsed = some k)
    (hd : ∀ l, s.clockLossDue l i.rxc = false)
    (hq : s.tb.superframeDue = true → ∀ l, RefEntry.link l ∈ s.tb.refList →
      (s.link l).rx.qualCount = 16 ∨ (s.link l).rx.qualCount < 15) :
    (s.localFrameStart i).tb = s.tb.beginFrame (s.startCtx i).new k i.elapsed := by
  have hgo : s.timebaseGoes (s.tb.beginFrame (s.startCtx i).new k i.elapsed) [] (s.localFrameStart i) :=
    localFrameStart_goes hk (s.timebaseGoes _) ⟨rfl, fun _ l => countGoes_start s l _ _ _⟩
      fun a rest u hm hlane h => timebaseGoes_step rfl hd hq hm hlane h
  exact hgo.1

theorem exec_start_none {s : State} {i : StartInput} (h : s.tb.startKind i.elapsed = none) :
    exec (.localFrameStart i) s = .next s := by
  show Host.Outcome.next (s.frameStart i) = _
  rw [frameStart_none h]

theorem exec_timeout {s : State} {l : LinkId} {i : StartInput} (hs : s.tb.started = true)
    (hl : s.tb.source = .locked l) (he : i.elapsed = (3 * s.tb.heldPeriod + 1) / 2) :
    exec (.lockedStartTimeout i) s = .next (s.frameStart i) := by
  show Host.Outcome.next (s.startWhen (s.tb.timeoutDue i.elapsed) i) = _
  rw [State.startWhen, if_pos ((timeoutDue_iff hs hl _).2 he)]

/-- A usable completion gives the start before the timebase does (R49). -/
theorem startKind_at_timeout_of_usable {t : Timebase} (hs : t.started = true) {l : LinkId} (h : t.source = .locked l)
    (hu : ∃ d ∈ t.completions, t.heldPeriod ≤ 2 * d ∧ 2 * d < 3 * t.heldPeriod) :
    t.startKind ((3 * t.heldPeriod + 1) / 2) = none := by
  cases hd : t.firstUsable with
  | some d =>
    obtain ⟨-, -, hlt, -⟩ := firstUsable_eq_some.1 hd
    rw [startKind_locked_some hs h hd, if_neg (by omega)]
  | none =>
    obtain ⟨d, hd', hlo, hhi⟩ := hu
    exact absurd ⟨hlo, hhi⟩ (firstUsable_eq_none.1 hd d hd')

/-- Settles O16: by the source for the time, by the first usable completion for LOCKED, and act by act for the timebase. -/
theorem sourcesGiveStarts : Obligations.SourcesGiveStarts := by
  refine ⟨⟨fun t e hs => ⟨fun h => startKind_free hs h e, fun l h => ⟨?_, ?_⟩, fun h => startKind_holdover hs h e⟩,
    fun i s h => exec_start_none h⟩, fun i s l hs hl => ⟨fun he hn ha => ?_, fun h => ?_⟩, fun i s k hk ha hd hq => ?_⟩
  · rw [startKind_locked_true hs h, firstUsable_eq_some]
  · rw [startKind_locked_false hs h, firstUsable_eq_none]; rfl
  · have hk : s.tb.startKind i.elapsed = some false := by
      refine (startKind_locked_false hs hl _).2 ⟨he, firstUsable_eq_none.2 fun d hd hw => hn ⟨d, hd, hw⟩⟩
    obtain ⟨hmark, hperiod⟩ := localFrameStart_period hk
    refine ⟨_, (exec_timeout hs hl he).trans (by rw [frameStart_alone ha]), exec_alone ha, ?_, hmark, hperiod⟩
    rw [localFrameStart_frameIndex hk, if_pos hs]
  · by_cases he : i.elapsed = (3 * s.tb.heldPeriod + 1) / 2
    · rw [exec_timeout hs hl he, frameStart_none]
      rw [he]
      exact startKind_at_timeout_of_usable hs hl (h.resolve_left fun hne => hne he)
    · show Host.Outcome.next (s.startWhen (s.tb.timeoutDue i.elapsed) i) = _
      rw [State.startWhen, if_neg fun hc => he ((timeoutDue_iff hs hl _).1 hc)]
  · refine ⟨_, exec_alone ha, ?_⟩
    rw [localFrameStart_tb hk hd hq]
    refine ⟨rfl, rfl, ?_, rfl⟩
    show (if (k && s.tb.fromCompletion) = true then _ else _) = _
    simp only [Bool.and_eq_true]

/-! ### The number and the index of the frame that starts (R47, R58) -/

/-- What of the timebase no act of a start changes but the start itself, whether a selection runs or not (R55). -/
theorem startAct_tb_fixed (x : StartCtx) (s : State) (a : StartAct) :
    (State.startAct x s a).tb.divider = s.tb.divider ∧
    (((State.startAct x s a).tb.source = s.tb.source ∧
        (State.startAct x s a).tb.pendingAdoption = s.tb.pendingAdoption) ∨
      (State.startAct x s a).tb.pendingAdoption = none) := by
  rcases startAct_tb x s a with e | ⟨new, e⟩ <;> rw [e]
  · exact ⟨rfl, .inl ⟨rfl, rfl⟩⟩
  · exact ⟨rfl, .inr rfl⟩

/-- After some acts, source and adoption are as they were, or the adoption has been cleared (R55, R57). -/
theorem startFold_adoption (x : StartCtx) (acts : List StartAct) (s : State) :
    ((acts.foldl (State.startAct x) s).tb.source = s.tb.source ∧
        (acts.foldl (State.startAct x) s).tb.pendingAdoption = s.tb.pendingAdoption) ∨
      (acts.foldl (State.startAct x) s).tb.pendingAdoption = none := by
  refine startFold_induct (fun u => (u.tb.source = s.tb.source ∧ u.tb.pendingAdoption = s.tb.pendingAdoption) ∨
    u.tb.pendingAdoption = none) x acts s (fun a _ u hu => ?_) (.inl ⟨rfl, rfl⟩)
  rcases (startAct_tb_fixed x u a).2 with ⟨hs, hp⟩ | hp
  · rw [hs, hp]; exact hu
  · exact .inr hp

theorem chooseNumber_set {t : Timebase} {v : Word} (h : t.pendingSet = some v) : t.chooseNumber = v := by
  simp only [Timebase.chooseNumber, h]

theorem chooseNumber_adopts {t : Timebase} {l : LinkId} {v : Word} (hs : t.pendingSet = none) (hf : t.follow = true)
    (hl : t.source = .locked l) (ha : t.pendingAdoption = some v) : t.chooseNumber = v := by
  simp only [Timebase.chooseNumber, hs, hf, hl, ha]

/-- Without a set value the number is adopted or goes on by 1 (R58). -/
theorem chooseNumber_cases {t : Timebase} (hs : t.pendingSet = none) : t.chooseNumber = t.number + 1#16 ∨
    (t.follow = true ∧ (∃ l, t.source = .locked l) ∧ t.pendingAdoption = some t.chooseNumber) := by
  unfold Timebase.chooseNumber
  simp only [hs]
  split
  · next l v hf hl ha => exact .inr ⟨hf, ⟨l, hl⟩, ha⟩
  · exact .inl rfl

section
variable {s : State} {i : StartInput}

/-- The timebase from which the number of a superframe start is chosen (R58). -/
def State.numberFrom (s : State) (i : StartInput) : Timebase :=
  (((startSequence s.resetDue i.order).takeWhile (· ≠ .number)).foldl (State.startAct (s.startCtxOld i)) s).tb

theorem startCtx_new_eq (h : s.tb.superframeDue = true) : (s.startCtx i).new = (s.numberFrom i).chooseNumber :=
  if_pos h

theorem numberFrom_fixed : (s.numberFrom i).number = s.tb.number ∧ (s.numberFrom i).pendingSet = s.tb.pendingSet ∧
    (s.numberFrom i).follow = s.tb.follow :=
  ⟨startFold_keeps (·.tb.number) _ _ _ fun a _ u => startAct_tb_number _ u a,
    startFold_keeps (·.tb.pendingSet) _ _ _ fun a _ u => startAct_tb_pendingSet _ u a,
    startFold_keeps (·.tb.follow) _ _ _ fun a _ u => startAct_tb_follow _ u a⟩

/-- Where the number is chosen first, it is chosen from the timebase as it stands. -/
theorem numberFrom_first (h : i.order = [] ∨ i.order.head? = some .number) : s.numberFrom i = s.tb := by
  have hhead := startSequence_head (r := s.resetDue) h
  unfold State.numberFrom
  cases hseq : startSequence s.resetDue i.order with
  | nil => rfl
  | cons a as =>
    rw [hseq, List.head?_cons, Option.some.injEq] at hhead
    rw [hhead, List.takeWhile_cons]
    rfl

theorem startCtx_new_cases (h : s.tb.superframeDue = true) (hs : s.tb.pendingSet = none) :
    (s.startCtx i).new = s.tb.number + 1#16 ∨
    (s.tb.follow = true ∧ (∃ l, s.tb.source = .locked l) ∧ s.tb.pendingAdoption = some (s.startCtx i).new) := by
  obtain ⟨hnumber, hset, hfollow⟩ := numberFrom_fixed (s := s) (i := i)
  rw [startCtx_new_eq h, ← hnumber]
  refine (chooseNumber_cases (hset.trans hs)).imp_right fun ⟨hf, hl, ha⟩ => ?_
  rcases startFold_adoption (s.startCtxOld i) ((startSequence s.resetDue i.order).takeWhile (· ≠ .number)) s with
    ⟨hsource, hadopt⟩ | hnone
  · exact ⟨hfollow ▸ hf, hsource ▸ hl, hadopt ▸ ha⟩
  · exact absurd ((show (s.numberFrom i).pendingAdoption = none from hnone).symm.trans ha) nofun

/-- The timebase that a start begins with, act by act: what no act changes. -/
theorem localFrameStart_tb_fixed {k : Bool} (hk : s.tb.startKind i.elapsed = some k) :
    let tb := s.tb.beginFrame (s.startCtx i).new k i.elapsed
    (s.localFrameStart i).tb.started = true ∧ (s.localFrameStart i).tb.divider = tb.divider ∧
    (s.localFrameStart i).tb.pendingSet = tb.pendingSet ∧ (s.localFrameStart i).tb.refList = s.tb.refList ∧
    (s.localFrameStart i).tb.revertive = s.tb.revertive ∧ (s.localFrameStart i).tb.follow = s.tb.follow := by
  rw [localFrameStart_eq hk]
  exact ⟨startFold_keeps (·.tb.started) _ _ _ fun a _ u => startAct_tb_started _ u a,
    startFold_keeps (·.tb.divider) _ _ _ fun a _ u => (startAct_tb_fixed _ u a).1,
    startFold_keeps (·.tb.pendingSet) _ _ _ fun a _ u => startAct_tb_pendingSet _ u a,
    startFold_keeps (·.tb.refList) _ _ _ fun a _ u => startAct_tb_refList _ u a,
    startFold_keeps (·.tb.revertive) _ _ _ fun a _ u => startAct_tb_revertive _ u a,
    startFold_keeps (·.tb.follow) _ _ _ fun a _ u => startAct_tb_follow _ u a⟩

/-- A superframe start clears the adoption, and no act brings one back (R58). -/
theorem localFrameStart_adoption {k : Bool} (hk : s.tb.startKind i.elapsed = some k)
    (hs : s.tb.superframeDue = true) : (s.localFrameStart i).tb.pendingAdoption = none := by
  rw [localFrameStart_eq hk]
  rcases startFold_adoption (s.startCtx i) (startSequence s.resetDue i.order)
    (s.withTb (s.tb.beginFrame (s.startCtx i).new k i.elapsed)) with ⟨-, h⟩ | h
  · exact h.trans (if_pos hs)
  · exact h

/-- What a start leaves where no soft reset is due: the agent, the mask, the management counters, legs and enables. -/
theorem localFrameStart_keeps_of_not_due {k : Bool} (hk : s.tb.startKind i.elapsed = some k) (hr : s.resetDue = false) :
    (s.localFrameStart i).agent = s.agent ∧ (s.localFrameStart i).events.mask = s.events.mask ∧
    (∀ l, ((s.localFrameStart i).link l).mgmtCount = (s.link l).mgmtCount) ∧
    ∀ b, ((s.localFrameStart i).bridge b).enabled = (s.bridge b).enabled ∧
      ((s.localFrameStart i).bridge b).legs = (s.bridge b).legs := by
  have hact {γ : Type} (p : State → γ)
      (h : ∀ a u, a ≠ .softReset → p (State.startAct (s.startCtx i) u a) = p u) :
      p (s.localFrameStart i) = p (s.withTb (s.tb.beginFrame (s.startCtx i).new k i.elapsed)) := by
    rw [localFrameStart_eq hk]
    refine startFold_keeps p _ _ _ fun a _ u => ?_
    by_cases ha : a = .softReset
    · rw [ha, startAct_softReset_of_not_due ((startCtx_resetDue s i).trans hr)]
    · exact h a u ha
  exact ⟨hact State.agent fun a u ha => startAct_agent _ u a ha,
    hact (·.events.mask) fun a u ha => startAct_mask _ u a ha,
    fun l => hact (fun u => (u.link l).mgmtCount) fun a u ha => startAct_mgmtCount _ u a l ha,
    fun b => ⟨hact (fun u => (u.bridge b).enabled) fun a u ha => (startAct_legs _ u a ha b).1,
      hact (fun u => (u.bridge b).legs) fun a u ha => (startAct_legs _ u a ha b).2⟩⟩

/-- With the engine idle, a start writes no entry (R86). -/
theorem localFrameStart_entries_of_idle {k : Bool} (hk : s.tb.startKind i.elapsed = some k) (hr : s.resetDue = false)
    (he : ∀ op pos, s.bank.engine ≠ .running op pos) (bk : Bank) :
    (s.localFrameStart i).map.entries bk = s.map.entries bk := by
  rw [localFrameStart_eq hk]
  refine (startFold_induct (fun u => u.bank.engine = s.bank.engine ∧ u.map.entries bk = s.map.entries bk) _ _
    (s.withTb (s.tb.beginFrame (s.startCtx i).new k i.elapsed)) (fun a _ u hu => ?_) ⟨rfl, rfl⟩).2
  obtain ⟨heng, hmap⟩ := hu
  have hr' : (s.startCtx i).resetDue = false := (startCtx_resetDue s i).trans hr
  by_cases ha : a = .engineChunk
  · subst ha
    cases hs : s.bank.engine with
    | running op pos => exact absurd hs (he op pos)
    | idle x y z =>
      simp only [State.startAct, engineAct_idle u (heng.trans hs)]
      exact ⟨heng.trans hs, hmap⟩
  · refine ⟨(startAct_engine hr' ha).1.trans heng, ?_⟩
    by_cases hsch : a = .schedule
    · subst hsch; exact (scheduleAct_entries u _ bk).trans hmap
    · exact ((startAct_entries hr' hsch ha).2 bk).trans hmap

end

/-- Settles O14: field by field of the timebase, and act by act for what a start leaves. -/
theorem frameStartNumbersTheFrame : Obligations.FrameStartNumbersTheFrame := by
  intro i s k hk ha
  obtain ⟨hstarted, hdivider, hset, hlist, hrev, hfollow⟩ := localFrameStart_tb_fixed hk
  have hindex := localFrameStart_frameIndex hk
  have hnumber := localFrameStart_number hk
  have hnot (h : s.tb.started = false) : s.tb.superframeDue = false := by simp [Timebase.superframeDue, h]
  refine ⟨_, exec_alone ha, hstarted, fun h => ⟨?_, ?_⟩, localFrameStart_config hk, ⟨hlist, hrev, hfollow⟩, fun hr => ?_,
    fun h => ⟨?_, ?_⟩, fun h => ⟨?_, ?_⟩, fun h => ⟨?_, ?_, localFrameStart_adoption hk h, fun v hv => ?_, fun hv => ?_,
      fun ho hv hf l v hl hv' => ?_⟩⟩
  · rw [hindex, h]; rfl
  · rw [hnumber, startCtx_new_of_not_due (hnot h)]
  · obtain ⟨hagent, hmask, hcount, hbridge⟩ := localFrameStart_keeps_of_not_due hk hr
    exact ⟨hagent, hmask, hcount, hbridge, fun he bk => localFrameStart_entries_of_idle hk hr he bk⟩
  · rw [hindex, if_pos h]
  · rw [hdivider]
    simp only [Timebase.beginFrame, h, if_true]
    rfl
  · rw [hnumber, startCtx_new_of_not_due h]
  · rw [hset]; exact if_neg (by simp [h])
  · rw [hindex]; exact superframe_index h
  · rw [hset]; exact if_pos h
  · rw [hnumber, startCtx_new_eq h]
    exact chooseNumber_set (numberFrom_fixed.2.1.trans hv)
  · rw [hnumber]; exact startCtx_new_cases h hv
  · rw [hnumber, startCtx_new_eq h, numberFrom_first ho]
    exact chooseNumber_adopts hv hf hl hv'

end Sys2Proof.Machine
end

section
/-!
PROOFS. What a store presents at a local frame start, and what it takes at an arrival (R35, R36, R39, R40, R56).
-/

namespace Sys2Proof.Machine

/-! ### Presenting (R36) -/

theorem presentAct_off {s : State} {l : LinkId} (h : (s.link l).rx.align = .off) :
    s.presentAct l = s.updLink l fun x => { x with store := { x.store with current := none } } := by
  unfold State.presentAct
  simp only [h, if_true]

theorem presentAct_oldest {s : State} {l : LinkId} (h : (s.link l).rx.align ≠ .off) {f : RxFrame} {rest : List RxFrame}
    (hq : (s.link l).store.queue = f :: rest) :
    s.presentAct l = s.updLink l fun x => { x with store := ⟨rest, some f, true⟩ } := by
  unfold State.presentAct
  simp only [if_neg h, hq]

theorem presentAct_repeats {s : State} {l : LinkId} (h : (s.link l).rx.align ≠ .off)
    (hq : (s.link l).store.queue = []) (hs : (s.link l).inSync = true) (hp : (s.link l).store.primed = true) :
    s.presentAct l = (s.updLink l fun x => { x with rxCount := { x.rxCount with
      repeatSlips := satAdd16 x.rxCount.repeatSlips 1 } }).report .slip (byteOf l.val) 0#8 := by
  unfold State.presentAct
  simp only [if_neg h, hq, hs, hp, Bool.and_self, if_true]
  rfl

theorem presentAct_none {s : State} {l : LinkId} (h : (s.link l).rx.align ≠ .off) (hq : (s.link l).store.queue = [])
    (hn : ¬((s.link l).inSync = true ∧ (s.link l).store.primed = true)) :
    s.presentAct l = s.updLink l fun x => { x with store := { x.store with current := none } } := by
  unfold State.presentAct
  simp only [if_neg h, hq, Bool.and_eq_true, if_neg hn]

theorem presentAct_store_ne (s : State) {l k : LinkId} (h : k ≠ l) :
    ((s.presentAct l).link k).store = (s.link k).store := by
  unfold State.presentAct
  simp only
  (repeat' split) <;> simp [link_updLink_ne _ h]

/-- The store after a presenting, by the store before it (R36). -/
def Store.presented (x : Store) (off inSync : Bool) : Store :=
  if off then { x with current := none }
  else match x.queue with
    | f :: rest => ⟨rest, some f, true⟩
    | [] => if inSync && x.primed then x else { x with current := none }

/-- A presenting repeats the frame before, and counts it (R36). -/
def Store.repeats (x : Store) (off inSync : Bool) : Bool := !off && x.queue.isEmpty && inSync && x.primed

theorem presentAct_store (s : State) (l : LinkId) : ((s.presentAct l).link l).store =
    (s.link l).store.presented (decide ((s.link l).rx.align = .off)) (s.link l).inSync := by
  unfold Store.presented
  by_cases h : (s.link l).rx.align = .off
  · rw [presentAct_off h, link_updLink_self, decide_eq_true h]; rfl
  · rw [decide_eq_false h]
    cases hq : (s.link l).store.queue with
    | cons f rest => rw [presentAct_oldest h hq, link_updLink_self]; rfl
    | nil =>
      by_cases hn : (s.link l).inSync = true ∧ (s.link l).store.primed = true
      · rw [presentAct_repeats h hq hn.1 hn.2, report_link_store, link_updLink_self, hn.1, hn.2]; rfl
      · rw [presentAct_none h hq hn, link_updLink_self]
        simp only [Bool.false_eq_true, if_false, Bool.and_eq_true, if_neg hn, hq]

theorem presentAct_repeatSlips (s : State) (l : LinkId) : ((s.presentAct l).link l).rxCount.repeatSlips =
    if (s.link l).store.repeats (decide ((s.link l).rx.align = .off)) (s.link l).inSync
    then satAdd16 (s.link l).rxCount.repeatSlips 1 else (s.link l).rxCount.repeatSlips := by
  unfold Store.repeats
  by_cases h : (s.link l).rx.align = .off
  · rw [presentAct_off h, link_updLink_self, decide_eq_true h]; rfl
  · rw [decide_eq_false h]
    cases hq : (s.link l).store.queue with
    | cons f rest => rw [presentAct_oldest h hq, link_updLink_self]; rfl
    | nil =>
      by_cases hn : (s.link l).inSync = true ∧ (s.link l).store.primed = true
      · rw [presentAct_repeats h hq hn.1 hn.2, report_link_rxCount, link_updLink_self, hn.1, hn.2]; rfl
      · rw [presentAct_none h hq hn, link_updLink_self]
        simp only [Bool.not_false, List.isEmpty_nil, Bool.true_and, Bool.and_eq_true, if_neg hn]

/-! ### Arrivals (R35) -/

theorem storeAct_of_room {s : State} {l : LinkId} (hs : (s.link l).inSync = true)
    (h : (s.link l).store.queue.length < 2) (f : RxFrame) : s.storeAct l f = s.updLink l fun x =>
      { x with store := { x.store with queue := x.store.queue ++ [f] } } := by
  unfold State.storeAct
  rw [if_pos hs]
  exact if_pos h

theorem storeAct_of_full {s : State} {l : LinkId} (hs : (s.link l).inSync = true)
    (h : ¬(s.link l).store.queue.length < 2) (f : RxFrame) : s.storeAct l f = (s.updLink l fun x => { x with
      store := { x.store with queue := x.store.queue.drop 1 ++ [f] },
      rxCount := { x.rxCount with deleteSlips := satAdd16 x.rxCount.deleteSlips 1 } }).report
        .slip (byteOf l.val) 1#8 := by
  unfold State.storeAct
  rw [if_pos hs]
  exact if_neg h

/-! ### The store before the presenting (R40, R55, R56) -/

theorem recentre_recentre (x : Store) : x.recentre.recentre = x.recentre := by
  unfold Store.recentre
  split
  · next h => rw [if_neg (by simp [h, Config.storeCapacity])]
  · rfl

/-- The store of `l` while selections run one after the other: re-centred once at the most, and where `l` has become the
source (R40, R55). -/
structure State.StoreGoes (s : State) (l : LinkId) (u : State) : Prop where
  listed : u.tb.refList = s.tb.refList
  store : (u.link l).store = (s.link l).store ∨ (u.link l).store = (s.link l).store.recentre
  locked : u.tb.source = .locked l → s.tb.source ≠ .locked l → (u.link l).store = (s.link l).store.recentre
  unlisted : .link l ∉ s.tb.refList →
    (u.link l).store = (s.link l).store ∧ (u.tb.source = .locked l → s.tb.source = .locked l)

theorem storeGoes_step {s u t : State} {l : LinkId} (h : s.StoreGoes l u) (hstep : RecentredAsLocked l u t) :
    s.StoreGoes l t := by
  obtain ⟨hlist, hstore, hlisted⟩ := hstep
  have hl := h.listed
  by_cases hnew : t.tb.source = .locked l ∧ u.tb.source ≠ .locked l
  · rw [if_pos hnew] at hstore
    have hmem : .link l ∈ s.tb.refList := hl ▸ hlisted hnew.1 hnew.2
    have hre : (t.link l).store = (s.link l).store.recentre := by
      rcases h.store with e | e <;> rw [hstore, e]
      exact recentre_recentre _
    exact ⟨hlist.trans hl, .inr hre, fun _ _ => hre, fun hn => absurd hmem hn⟩
  · rw [if_neg hnew] at hstore
    have hback : t.tb.source = .locked l → u.tb.source = .locked l := fun ht => by
      by_contra hu
      exact hnew ⟨ht, hu⟩
    refine ⟨hlist.trans hl, hstore ▸ h.store, fun ht hs => hstore ▸ h.locked (hback ht) hs, fun hn => ?_⟩
    obtain ⟨hu, hsource⟩ := h.unlisted hn
    exact ⟨hstore.trans hu, fun ht => hsource (hback ht)⟩

/-- The acts before the presenting of `l`: no soft reset among them, nor a presenting of `l`. -/
theorem before_present (l : LinkId) : ∀ a ∈ allStartActs.takeWhile (· ≠ .present l),
    a ≠ .present l ∧ a ≠ .softReset ∧ a ≠ .noticeTest ∧ a ≠ .management ∧ a ≠ .transmit := by revert l; decide

/-- The acts after the presenting of `l`: other presentings, and acts that touch no store and no source. -/
theorem after_present (l : LinkId) : ∀ a ∈ (allStartActs.dropWhile (· ≠ .present l)).drop 1,
    (∃ k, k ≠ l ∧ a = .present k) ∨ a = .noticeTimer ∨ a = .management ∨ a = .transmit ∨ a = .softReset ∨
      a = .noticeTest := by revert l; decide

/-- What each act keeps true, the lanes of the clock watches to come being as before the start, stays true. -/
theorem startFold_lanes {s : State} {x : StartCtx} {P : State → Prop} :
    ∀ (acts : List StartAct) (u : State), (∀ a ∈ acts, ∀ v, (∀ l, a = .clockWatch l →
        (v.link l).rx.align = (s.link l).rx.align ∧ (v.link l).rx.watch = (s.link l).rx.watch) →
        P v → P (State.startAct x v a)) →
      acts.Nodup → s.lanesUntaken acts u → P u → P (acts.foldl (State.startAct x) u)
  | [], _, _, _, _, h => h
  | a :: as, u, hstep, hn, hl, h => by
    obtain ⟨ha, hn⟩ := List.nodup_cons.1 hn
    exact startFold_lanes as _ (fun b hb => hstep b (List.mem_cons_of_mem _ hb)) hn (lanesUntaken_step ha hl x)
      (hstep a List.mem_cons_self u (fun l e => hl l (e ▸ List.mem_cons_self)) h)

theorem beforeAct_goes {s : State} {i : StartInput} {k : Bool} {a : StartAct} (P : State → Prop)
    (h0 : P (s.withTb (s.tb.beginFrame (s.startCtx i).new k i.elapsed)))
    (hstep : ∀ b ∈ allStartActs.takeWhile (· ≠ a), ∀ v, (∀ l, b = .clockWatch l →
      (v.link l).rx.align = (s.link l).rx.align ∧ (v.link l).rx.watch = (s.link l).rx.watch) →
      P v → P (State.startAct (s.startCtx i) v b)) : P (s.beforeAct i k a) :=
  startFold_lanes _ _ hstep (nodup_allStartActs.sublist (List.takeWhile_sublist _)) (fun _ _ => ⟨rfl, rfl⟩) h0

section
variable {s : State} {i : StartInput} {k : Bool} {l : LinkId}

/-- Where `l` does not leave SYNC at the start, its store comes to the presenting as it was or re-centred. -/
theorem beforePresent_store (h : ¬((s.link l).inSync = true ∧ s.clockLossDue l i.rxc = true)) :
    s.StoreGoes l (s.beforeAct i k (.present l)) := by
  refine beforeAct_goes (s.StoreGoes l) ⟨rfl, .inl rfl, fun a b => absurd a b, fun _ => ⟨rfl, id⟩⟩
    fun a ha v hlane hv => ?_
  obtain ⟨h1, h2, -⟩ := before_present l a ha
  refine storeGoes_step hv (startAct_recentredAsLocked h1 h2 fun e hc => h ?_)
  obtain ⟨halign, hwatch⟩ := hlane l e
  refine ⟨?_, (clockLossDue_untaken (hlane l e) _).symm.trans hc.2⟩
  have := hc.1
  unfold Link.inSync at this ⊢
  rwa [halign] at this

/-- Where no clock is lost inside a superframe, no selection runs before the presenting (R53). -/
theorem beforePresent_store_inside (hd : ∀ j, s.clockLossDue j i.rxc = false) (hs : s.tb.superframeDue = false) :
    ((s.beforeAct i k (.present l)).link l).store = (s.link l).store := by
  refine (beforeAct_goes (a := .present l) (fun u => u.tb.source = s.tb.source ∧ (u.link l).store = (s.link l).store)
    ⟨rfl, rfl⟩ fun a ha v hlane hv => ?_).2
  obtain ⟨h1, h2, -⟩ := before_present l a ha
  have hloss (j : LinkId) (e : a = .clockWatch j) : v.clockLossDue j i.rxc = false :=
    (clockLossDue_untaken (hlane j e) _).trans (hd j)
  have htb : (State.startAct (s.startCtx i) v a).tb = v.tb :=
    startAct_keeps_tb hloss fun _ _ hsf => absurd (hs.symm.trans hsf) nofun
  have hstep := startAct_recentredAsLocked (x := s.startCtx i) (s := v) h1 h2 fun e hc =>
    absurd ((hloss l e).symm.trans hc.2) nofun
  refine ⟨by rw [htb]; exact hv.1, ?_⟩
  rw [hstep.2.1, htb, if_neg fun c => c.2 c.1]
  exact hv.2

/-- A link becomes the source at a start only where it is listed (R54). -/
theorem startAct_listed (x : StartCtx) (u : State) (a : StartAct) (h2 : a ≠ .softReset ∨ x.resetDue = false)
    (hnew : (State.startAct x u a).tb.source = .locked l) (hold : u.tb.source ≠ .locked l) :
    .link l ∈ u.tb.refList := by
  by_cases hs : a = .softReset
  · rcases h2 with h | h
    · exact absurd hs h
    · subst hs
      rw [startAct_softReset_of_not_due h] at hnew
      exact absurd hnew hold
  · by_cases hc : ∃ j, a = .clockWatch j
    · obtain ⟨j, rfl⟩ := hc
      rcases clockWatchAct_recentredAsLocked l j u x.rxc (x.refFirst.getLsbD j.val) with h | ⟨-, -, -, h⟩
      · exact h.2.2 hnew hold
      · exact h.2.2 hnew hold
    · by_cases hp : a = .present l
      · subst hp
        have htb : (State.startAct x u (.present l)).tb = u.tb := startAct_keeps_tb nofun nofun
        rw [htb] at hnew
        exact absurd hnew hold
      · exact (startAct_recentredAsLocked hp hs fun e => absurd ⟨l, e⟩ hc).2.2 hnew hold

theorem localFrameStart_listed (hk : s.tb.startKind i.elapsed = some k) (hr : s.resetDue = false)
    (hnew : (s.localFrameStart i).tb.source = .locked l) (hold : s.tb.source ≠ .locked l) : .link l ∈ s.tb.refList := by
  rw [localFrameStart_eq hk] at hnew
  refine (startFold_induct (fun u => u.tb.refList = s.tb.refList ∧ (u.tb.source = .locked l → .link l ∈ s.tb.refList))
    _ _ (s.withTb (s.tb.beginFrame (s.startCtx i).new k i.elapsed)) (fun a _ u hu => ⟨(startAct_tb_refList _ u a).trans hu.1, fun h => ?_⟩)
    (And.intro rfl fun h => absurd h hold)).2 hnew
  by_cases hu' : u.tb.source = .locked l
  · exact hu.2 hu'
  · exact hu.1 ▸ startAct_listed (s.startCtx i) u a (.inr hr) h hu'

/-- The acts after the presenting of `l` leave its store, its counts and the source. -/
theorem localFrameStart_afterPresent (ho : i.order = []) (hk : s.tb.startKind i.elapsed = some k)
    (hr : s.resetDue = false) :
    ((s.localFrameStart i).link l).store = (((s.beforeAct i k (.present l)).presentAct l).link l).store ∧
    ((s.localFrameStart i).link l).rxCount = (((s.beforeAct i k (.present l)).presentAct l).link l).rxCount ∧
    (s.localFrameStart i).tb = (s.beforeAct i k (.present l)).tb := by
  have hr' : (s.startCtx i).resetDue = false := (startCtx_resetDue s i).trans hr
  have hpost := after_present l
  rw [localFrameStart_around ho hk (.present l)]
  refine ⟨startFold_keeps (fun u => (u.link l).store) _ _ _ fun a ha u => ?_,
    startFold_keeps (fun u => (u.link l).rxCount) _ _ _ fun a ha u => startAct_rxCount hr' ?_ ?_,
    (startFold_keeps State.tb _ _ _ fun a ha u => startAct_keeps_tb ?_ ?_).trans (startAct_keeps_tb nofun nofun)⟩
  · rcases hpost a ha with ⟨j, hj, rfl⟩ | rfl | rfl | rfl | rfl | rfl
    · exact presentAct_store_ne u (Ne.symm hj)
    · simp only [State.startAct, State.noticeTimerAct]
      (repeat' split) <;> simp
    · simp only [State.startAct, fixManagement_link, takeMgmtWord_store]
    · exact transmit_link_store u l
    · rw [startAct_softReset_of_not_due hr']
    · simp only [State.startAct]
      split <;> simp
  all_goals rcases hpost a ha with ⟨j, hj, rfl⟩ | rfl | rfl | rfl | rfl | rfl <;> simp_all

theorem clockWatchAct_off_iff (u : State) (rxc : BitVec 8) (rf : Bool) :
    ((u.clockWatchAct l rxc rf).link l).rx.align = .off ↔ (u.link l).rx.align = .off := by
  unfold State.clockWatchAct
  simp only
  split
  · rfl
  · next h => split <;> simp [h]
  · next h1 h2 =>
    split
    · simp
    · split
      · simp
      · split
        · rw [leaveSync_rx_self, outOfSync_eq]
          exact ⟨nofun, fun h => absurd h h1⟩
        · simpa using h1

/-- A start turns no receiver OFF and none on. -/
theorem startAct_off_iff (x : StartCtx) (u : State) (a : StartAct) :
    ((State.startAct x u a).link l).rx.align = .off ↔ (u.link l).rx.align = .off := by
  by_cases h : a = .clockWatch l
  · subst h; exact clockWatchAct_off_iff u _ _
  · rw [(startAct_align x u a l h).1]

theorem beforeAct_off_iff (a : StartAct) :
    ((s.beforeAct i k a).link l).rx.align = .off ↔ (s.link l).rx.align = .off :=
  beforeAct_goes (fun u => (u.link l).rx.align = .off ↔ (s.link l).rx.align = .off) Iff.rfl
    fun b _ v _ hv => (startAct_off_iff _ v b).trans hv

/-- A receiver that a start does not take out of SYNC is in SYNC after an act as before it. -/
theorem startAct_inSync_of_stays {x : StartCtx} {u : State} {a : StartAct}
    (h : a = .clockWatch l → ¬((u.link l).inSync = true ∧ u.clockLossDue l x.rxc = true)) :
    ((State.startAct x u a).link l).inSync = (u.link l).inSync := by
  by_cases hc : a = .clockWatch l
  · cases hd : u.clockLossDue l x.rxc with
    | false => exact startAct_inSync fun _ => hd
    | true =>
      have hout : (u.link l).inSync = false := Bool.eq_false_iff.2 fun hs => h hc ⟨hs, hd⟩
      subst hc
      rw [hout]
      unfold Link.inSync
      rw [State.startAct, clockWatchAct_noclock hd]; rfl
  · exact startAct_inSync fun e => absurd e hc

theorem beforeAct_inSync (h : ¬((s.link l).inSync = true ∧ s.clockLossDue l i.rxc = true)) (a : StartAct) :
    ((s.beforeAct i k a).link l).inSync = (s.link l).inSync := by
  refine beforeAct_goes (fun u => (u.link l).inSync = (s.link l).inSync) rfl fun b _ v hlane hv => ?_
  refine (startAct_inSync_of_stays fun e hc => h ⟨hv ▸ hc.1, ?_⟩).trans hv
  exact (clockLossDue_untaken (hlane l e) _).symm.trans hc.2

theorem beforePresent_repeatSlips (hr : s.resetDue = false) :
    ((s.beforeAct i k (.present l)).link l).rxCount.repeatSlips = (s.link l).rxCount.repeatSlips := by
  refine beforeAct_goes (a := .present l) (fun u => (u.link l).rxCount.repeatSlips = (s.link l).rxCount.repeatSlips) rfl
    fun b hb v _ hv => Eq.trans ?_ hv
  by_cases hc : b = .clockWatch l
  · subst hc
    simp only [State.startAct]
    rcases clockWatchAct_cases v l (s.startCtx i).rxc ((s.startCtx i).refFirst.getLsbD l.val) with
      ⟨w, b, e, -⟩ | ⟨-, -, e⟩ <;> rw [e]
    · rw [link_updLink_self]; rfl
    · rw [leaveSync_rxCount_self, outOfSync_eq, link_updLink_self]; rfl
  · rw [startAct_rxCount ((startCtx_resetDue s i).trans hr) hc (takeWhile_ne hb)]

end

/-! ### The store after a start -/

/-- A store that is empty and not primed after a presenting has no current frame, and has repeated none. -/
theorem presented_quiet {x : Store} {b : Bool} (hq : (x.presented false b).queue = [])
    (hp : (x.presented false b).primed = false) :
    x.presented false b = ⟨[], none, false⟩ ∧ x.repeats false b = false := by
  obtain ⟨queue, current, primed⟩ := x
  cases queue with
  | cons f rest => simp [Store.presented] at hp
  | nil => cases b <;> cases primed <;> simp_all [Store.presented, Store.repeats]

theorem presented_oldest {x : Store} {f : RxFrame} {rest : List RxFrame} (h : x.queue = f :: rest) (b : Bool) :
    x.presented false b = ⟨rest, some f, true⟩ := by
  simp only [Store.presented, h]; rfl

theorem presented_repeats {x : Store} (hq : x.queue = []) (hp : x.primed = true) : x.presented false true = x := by
  simp [Store.presented, hq, hp]

theorem presented_none {x : Store} {b : Bool} (hq : x.queue = []) (h : ¬(b = true ∧ x.primed = true)) :
    x.presented false b = { x with current := none } := by
  simp only [Store.presented, hq, Bool.false_eq_true, if_false, Bool.and_eq_true, if_neg h]

theorem repeats_iff (x : Store) (off b : Bool) :
    x.repeats off b = true ↔ off = false ∧ x.queue = [] ∧ b = true ∧ x.primed = true := by
  simp [Store.repeats, and_assoc]

section
variable {s : State} {i : StartInput} {k : Bool} {l : LinkId}

/-- A link that a start takes out of SYNC ends with an empty store and no frame (R39). -/
theorem localFrameStart_store_of_loss (ho : i.order = []) (hk : s.tb.startKind i.elapsed = some k)
    (hr : s.resetDue = false) (hs : (s.link l).inSync = true) (hd : s.clockLossDue l i.rxc = true) :
    ((s.localFrameStart i).link l).store = ⟨[], none, false⟩ ∧
    ((s.localFrameStart i).link l).rxCount.repeatSlips = (s.link l).rxCount.repeatSlips := by
  have hgo : s.lossGoes l [] (s.localFrameStart i) := by
    refine localFrameStart_goes hk (s.lossGoes l) ?_ fun a rest u hm hlane h => lossGoes_step hd hm hlane h
    rw [State.lossGoes, if_pos (mem_startSequence _ _ _)]
    exact fun _ => rfl
  rw [State.lossGoes, if_neg List.not_mem_nil] at hgo
  obtain ⟨⟨hqueue, hprimed, -⟩, -⟩ := hgo.2 hs
  obtain ⟨hstore, hcount, -⟩ := localFrameStart_afterPresent (l := l) ho hk hr
  have hoff : ((s.beforeAct i k (.present l)).link l).rx.align ≠ .off := fun h => by
    rw [Link.inSync, (beforeAct_off_iff _).1 h] at hs
    cases hs
  rw [presentAct_store, decide_eq_false hoff] at hstore
  rw [hstore] at hqueue hprimed
  obtain ⟨hempty, hrepeats⟩ := presented_quiet hqueue hprimed
  rw [hstore, hcount, presentAct_repeatSlips, decide_eq_false hoff, hrepeats]
  exact ⟨hempty, beforePresent_repeatSlips hr⟩

/-- Elsewhere the store presents from what the selections before have left (R36). -/
theorem localFrameStart_store_of_stays (ho : i.order = []) (hk : s.tb.startKind i.elapsed = some k)
    (hr : s.resetDue = false) (h : ¬((s.link l).inSync = true ∧ s.clockLossDue l i.rxc = true)) :
    let x := ((s.beforeAct i k (.present l)).link l).store
    ((s.localFrameStart i).link l).store = x.presented (decide ((s.link l).rx.align = .off)) (s.link l).inSync ∧
    ((s.localFrameStart i).link l).rxCount.repeatSlips =
      if x.repeats (decide ((s.link l).rx.align = .off)) (s.link l).inSync
      then satAdd16 (s.link l).rxCount.repeatSlips 1 else (s.link l).rxCount.repeatSlips := by
  obtain ⟨hstore, hcount, -⟩ := localFrameStart_afterPresent (l := l) ho hk hr
  have hoff : decide (((s.beforeAct i k (.present l)).link l).rx.align = .off) = decide ((s.link l).rx.align = .off) :=
    decide_eq_decide.2 (beforeAct_off_iff _)
  rw [hstore, hcount, presentAct_store, presentAct_repeatSlips, hoff, beforeAct_inSync h, beforePresent_repeatSlips hr]
  exact ⟨rfl, rfl⟩

end

/-- Settles O27: by the cases of the store at a presenting and at an arrival; at a start, by whether it takes the link
out of SYNC, and by the selections that come before the presenting. -/
theorem storePresents : Obligations.StorePresents := by
  refine ⟨fun s l => ⟨fun h => ?_, fun h f rest hq => ?_, fun h hq hs hp => ⟨presentAct_repeats h hq hs hp, ?_⟩,
    fun h hq hn => ?_, fun k hk => presentAct_store_ne s hk⟩, fun s l f hs => ⟨fun h => storeAct_of_room hs h f,
      fun a b hq => ?_⟩, fun i s k l ho ha hk hr => ?_⟩
  · rw [presentAct_off h, link_updLink_self]
  · rw [presentAct_oldest h hq, link_updLink_self]
    exact ⟨rfl, rfl⟩
  · rw [presentAct_repeats h hq hs hp, report_link_store, link_updLink_self]
  · rw [presentAct_none h hq hn, link_updLink_self]
  · rw [storeAct_of_full hs (by simp [hq])]
    refine congrArg (·.report .slip (byteOf l.val) 1#8) (updLink_congr ?_)
    simp only [hq, List.drop_succ_cons, List.drop_zero, List.cons_append, List.nil_append]
  · by_cases hstay : (s.link l).inSync = true ∧ s.clockLossDue l i.rxc = true
    case pos =>
      obtain ⟨hs, hd⟩ := hstay
      obtain ⟨hstore, hslips⟩ := localFrameStart_store_of_loss ho hk hr hs hd
      have hoff : (s.link l).rx.align ≠ .off := fun h => by rw [Link.inSync, h] at hs; cases hs
      refine ⟨_, if (s.localFrameStart i).tb.source = .locked l ∧ s.tb.source ≠ .locked l
        then (s.link l).store.recentre else (s.link l).store, exec_alone ha, ?_, fun h1 h2 => if_pos ⟨h1, h2⟩,
        fun hn => if_neg fun hc => hn (localFrameStart_listed hk hr hc.1 hc.2),
        fun hall => absurd ((hall l).symm.trans hd) nofun, fun _ _ => hstore, fun h => absurd h hoff,
        fun _ h => absurd ⟨hs, hd⟩ h, hslips.trans (if_neg fun hc => ?_).symm⟩
      · split
        · exact .inr rfl
        · exact .inl rfl
      · exact absurd (hd.symm.trans hc.2.2.2) nofun
    case neg =>
      obtain ⟨hlisted, hx, hlocked, hunlisted⟩ := beforePresent_store (k := k) hstay
      obtain ⟨hstore, hslips⟩ := localFrameStart_store_of_stays (l := l) ho hk hr hstay
      have htb := (localFrameStart_afterPresent (l := l) ho hk hr).2.2
      refine ⟨_, _, exec_alone ha, hx, fun h1 h2 => hlocked (htb ▸ h1) h2, fun hn => (hunlisted hn).1,
        fun hd hs => beforePresent_store_inside hd hs, fun hs hd => absurd ⟨hs, hd⟩ hstay, fun hoff => ?_,
        fun hoff _ => ⟨fun f rest hq => ?_, fun hq hs hp => ?_, fun hq hn => ?_⟩, ?_⟩
      · rw [hstore, decide_eq_true hoff]; rfl
      · rw [hstore, decide_eq_false hoff, presented_oldest hq]
      · rw [hstore, decide_eq_false hoff, hs, presented_repeats hq hp]
      · rw [hstore, decide_eq_false hoff, presented_none hq hn]
      · rw [hslips]
        simp only [repeats_iff, decide_eq_false_iff_not]
        refine if_congr ⟨fun ⟨_, hq, hs, hp⟩ => ⟨hq, hs, hp, ?_⟩, fun ⟨hq, hs, hp, _⟩ => ⟨?_, hq, hs, hp⟩⟩ rfl rfl
        · exact Bool.eq_false_iff.2 fun hd => hstay ⟨hs, hd⟩
        · intro hoff
          rw [Link.inSync, hoff] at hs
          cases hs

end Sys2Proof.Machine
end

section
/-!
PROOFS. What reports do to the notice controller and the active uplink's queue, and the notice cell at a local frame start
(R116, R117, R182, R188 to R191).
-/

namespace Sys2Proof.Machine

/-! ### The first record and its notice (R182, R188 to R190) -/

/-- Two event queues of one length, with one head and one next sequence. -/
def EventQueue.sameHead (q p : EventQueue) : Prop :=
  p.records.length = q.records.length ∧ p.records.head?.map (·.seq) = q.records.head?.map (·.seq) ∧
    p.nextSeq = q.nextSeq

/-- The outcome of the first record out of QUIET, from `s` to `u`: the notice cell in the active uplink's queue where it
has a place, and else DUE (R189). -/
def State.announced (s u : State) : Prop :=
  if s.hasRoom s.agent.activeUplink = true then
    u.notice = ⟨.wait, 0, 64⟩ ∧ (u.link s.agent.activeUplink).queue =
      (s.link s.agent.activeUplink).queue ++ [⟨s.firstNotice, false⟩]
  else u.notice = ⟨.due, 0, 0⟩ ∧ (u.link s.agent.activeUplink).queue = (s.link s.agent.activeUplink).queue

/-- What reports, and acts beside the management channel, do from `s` to `u` to notices and cell queues: nothing, or, out
of QUIET, what the first record brings (R188, R189). -/
structure State.Reported (s u : State) : Prop where
  agent : u.agent = s.agent
  other : ∀ l, l ≠ s.agent.activeUplink → (u.link l).queue = (s.link l).queue
  outcome : (u.notice = s.notice ∧ (u.link s.agent.activeUplink).queue = (s.link s.agent.activeUplink).queue ∧
      (s.notice.state = .quiet → s.events.sameHead u.events)) ∨
    (s.notice.state = .quiet ∧ s.announced u)

theorem reported_refl (s : State) : s.Reported s := ⟨rfl, fun _ _ => rfl, .inl ⟨rfl, rfl, fun _ => ⟨rfl, rfl, rfl⟩⟩⟩

theorem announced_not_quiet {s u : State} (h : s.announced u) : u.notice.state ≠ .quiet := by
  unfold State.announced at h
  split at h <;> rw [h.1] <;> decide

theorem announced_congr {s u t : State} (h : s.announced u) (hn : t.notice = u.notice)
    (hq : (t.link s.agent.activeUplink).queue = (u.link s.agent.activeUplink).queue) : s.announced t := by
  unfold State.announced at h ⊢
  rw [hn, hq]; exact h

theorem reported_of_quietly {s u t : State} (h : s.Reported u) (he : t.events = u.events) (hn : t.notice = u.notice)
    (ha : t.agent = u.agent) (hqueue : ∀ l, (t.link l).queue = (u.link l).queue) : s.Reported t := by
  refine ⟨ha.trans h.agent, fun l hl => (hqueue l).trans (h.other l hl), ?_⟩
  rcases h.outcome with ⟨hn', hq, hhead⟩ | ⟨hs, hann⟩
  · exact .inl ⟨hn.trans hn', (hqueue _).trans hq, fun hs => by rw [he]; exact hhead hs⟩
  · exact .inr ⟨hs, announced_congr hann hn (hqueue _)⟩

theorem reported_same {s u t : State} (h : s.Reported u) (hst : u.SameChannel t) : s.Reported t :=
  reported_of_quietly h hst.events hst.notice hst.agent hst.queue

/-! ### One report -/

/-- Out of QUIET a report leaves notices and cell queues (R188). -/
theorem report_still {s : State} (h : s.notice.state ≠ .quiet) (k : EventKind) (a b : Byte) :
    (s.report k a b).notice = s.notice ∧ ∀ l, ((s.report k a b).link l).queue = (s.link l).queue := by
  rcases report_cases s k a b with ⟨q, -, e⟩ | ⟨q, -, e⟩ <;> rw [e]
  · exact ⟨rfl, fun _ => rfl⟩
  · rw [recordAppended_of_not_quiet (s.withEvents q) h]
    exact ⟨rfl, fun _ => rfl⟩

theorem firstNotice_eq (s : State) (k : EventKind) (a b : Byte) :
    s.agent.noticeFor (s.queueAppended k a b) 0 = s.firstNotice := by
  unfold Agent.noticeFor State.firstNotice State.queueAppended
  cases s.events.records with
  | nil => rfl
  | cons r rs => simp

theorem firstNotice_congr {s u : State} (ha : u.agent = s.agent) (h : s.events.sameHead u.events) :
    u.firstNotice = s.firstNotice := by
  obtain ⟨hlen, hhead, hseq⟩ := h
  unfold State.firstNotice
  rw [ha, hlen, hhead, hseq]

theorem sameHead_trans {q p r : EventQueue} (h : q.sameHead p) (g : p.sameHead r) : q.sameHead r :=
  ⟨g.1.trans h.1, g.2.1.trans h.2.1, g.2.2.trans h.2.2⟩

/-- Coalescing changes counts alone (R183). -/
theorem sameHead_coalesce {q : EventQueue} {a b : Byte} {rs : List EventRecord} (h : coalesce a b q.records = some rs) :
    q.sameHead { q with records := rs } := by
  refine ⟨coalesce_length h, ?_, rfl⟩
  have hmap := congrArg (fun l => l.head?.map EventRecord.seq) (coalesce_uncounted h)
  simp only [List.head?_map, Option.map_map] at hmap
  exact hmap

/-- Out of QUIET, a report leaves the head of the queue or is the first record (R182, R188). -/
theorem report_quiet_cases {s : State} (hs : s.notice.state = .quiet) (k : EventKind) (a b : Byte) :
    ((s.report k a b).notice = s.notice ∧ (∀ l, (s.report k a b).link l = s.link l) ∧
      s.events.sameHead (s.report k a b).events) ∨ s.announced (s.report k a b) := by
  have happend : ((s.appendOrLose k a b).notice = s.notice ∧ (∀ l, (s.appendOrLose k a b).link l = s.link l) ∧
      s.events.sameHead (s.appendOrLose k a b).events) ∨ s.announced (s.appendOrLose k a b) := by
    by_cases hroom : s.events.records.length < 32
    · right
      rw [appendOrLose_of_room hroom]
      unfold State.announced
      cases hp : s.hasRoom s.agent.activeUplink with
      | true =>
        rw [if_pos rfl, recordAppended_places (s.withEvents (s.queueAppended k a b)) hs hp]
        refine ⟨rfl, ?_⟩
        rw [withNotice_link, State.enqueue]
        exact (congrArg Link.queue (link_updLink_self ..)).trans (by rw [← firstNotice_eq s k a b]; rfl)
      | false =>
        rw [if_neg (by simp), recordAppended_waits (s.withEvents (s.queueAppended k a b)) hs hp]
        exact ⟨rfl, rfl⟩
    · rw [appendOrLose_of_full (by omega)]
      exact .inl ⟨rfl, fun _ => rfl, rfl, rfl, rfl⟩
  by_cases hon : s.events.enabled k = true
  · by_cases hk : k = .slip ∧ coalesce a b s.events.records ≠ none
    · obtain ⟨rfl, hc⟩ := hk
      obtain ⟨rs, hrs⟩ := Option.ne_none_iff_exists'.1 hc
      rw [report_of_coalesced hon hrs]
      exact .inl ⟨rfl, fun _ => rfl, sameHead_coalesce hrs⟩
    · rw [report_of_unabsorbed hon fun hslip => by_contra fun hc => hk ⟨hslip, hc⟩]
      exact happend
  · rw [report_of_masked (Bool.eq_false_iff.2 hon)]
    exact .inl ⟨rfl, fun _ => rfl, rfl, rfl, rfl⟩

theorem reported_report {s u : State} (h : s.Reported u) (k : EventKind) (a b : Byte) :
    s.Reported (u.report k a b) := by
  have honly := report_only u k a b
  refine ⟨honly.agent.trans h.agent, fun l hl => (honly.other l (by rw [h.agent]; exact hl)).trans (h.other l hl), ?_⟩
  rcases h.outcome with ⟨hn, hq, he⟩ | ⟨hs, ha⟩
  · by_cases hquiet : s.notice.state = .quiet
    · rcases report_quiet_cases (s := u) (by rw [hn]; exact hquiet) k a b with ⟨hn', hl, he'⟩ | hann
      · exact .inl ⟨hn'.trans hn, by rw [hl]; exact hq, fun _ => sameHead_trans (he hquiet) he'⟩
      · refine .inr ⟨hquiet, ?_⟩
        unfold State.announced at hann ⊢
        rwa [h.agent, hasRoom_congr hq (by rw [h.agent]), hq, firstNotice_congr h.agent (he hquiet)] at hann
    · obtain ⟨hn', hq'⟩ := report_still (s := u) (by rw [hn]; exact hquiet) k a b
      exact .inl ⟨hn'.trans hn, (hq' _).trans hq, fun hs => absurd hs hquiet⟩
  · obtain ⟨hn', hq'⟩ := report_still (announced_not_quiet ha) k a b
    exact .inr ⟨hs, announced_congr ha hn' (hq' _)⟩

/-! ### Before the notice timer -/

theorem before_noticeTimer : ∀ a ∈ allStartActs.takeWhile (· ≠ .noticeTimer),
    a ≠ .management ∧ a ≠ .softReset ∧ a ≠ .noticeTimer ∧ a ≠ .noticeTest := by decide

/-- What the acts before the notice timer do to notices and cell queues. -/
theorem beforeTimer_reported (s : State) (i : StartInput) (k : Bool) :
    s.Reported (s.beforeAct i k .noticeTimer) := by
  refine startFold_induct s.Reported _ _ (s.withTb _) (fun a ha u hu => ?_)
    (reported_same (reported_refl s) (.of_links rfl rfl rfl rfl))
  obtain ⟨h1, h2, h3, h4⟩ := before_noticeTimer a ha
  exact startAct_keeps_of_report (P := s.Reported) (fun _ _ h hst => reported_same h hst)
    (fun _ k a b h => reported_report h k a b) _ hu h1 h2 h3 h4

/-! ### Transmit sides across a start -/

/-- Of the acts of a start, the two that fix the frame alone touch a transmitter. -/
theorem startAct_tx {x : StartCtx} {s : State} {a : StartAct} (l : LinkId) (h1 : a ≠ .management) (h2 : a ≠ .transmit) :
    ((State.startAct x s a).link l).tx = (s.link l).tx := by
  have hupd (k : LinkId) (f : Link → Link) (hf : (f (s.link k)).tx = (s.link k).tx) :
      ((s.updLink k f).link l).tx = (s.link l).tx := updLink_read (fun y : Link => y.tx) s k l f hf
  cases a with
  | management => exact absurd rfl h1
  | transmit => exact absurd rfl h2
  | clockWatch k =>
    simp only [State.startAct]
    rcases clockWatchAct_cases s k x.rxc (x.refFirst.getLsbD k.val) with ⟨w, b, e, -⟩ | ⟨-, -, e⟩ <;> rw [e]
    · exact hupd k _ rfl
    · rw [leaveSync_tx]; exact hupd k _ rfl
  | checkWindow k =>
    simp only [State.startAct, State.checkWindowAct]
    split
    · split
      · exact hupd k _ rfl
      · rw [report_link_tx]; exact hupd k _ rfl
    · rfl
  | qualification k =>
    simp only [State.startAct, State.qualificationAct]
    split
    · split
      · rw [select_link_tx]; exact hupd k _ rfl
      · exact hupd k _ rfl
    · rfl
  | present k =>
    simp only [State.startAct, State.presentAct]
    split
    · exact hupd k _ rfl
    · split
      · exact hupd k _ rfl
      · split
        · rw [report_link_tx]; exact hupd k _ rfl
        · exact hupd k _ rfl
  | softReset =>
    simp only [State.startAct]
    split
    · rw [softReset_link]; rfl
    · rfl
  | _ =>
    simp only [State.startAct, State.timeStepAct, State.scheduleAct, State.fireSwitch, State.engineAct,
      State.processChunk, State.noticeTimerAct, State.clearAllHolds] <;>
    (repeat' split) <;> simp

end Sys2Proof.Machine
end

section
/-!
PROOFS. The management word at a local frame start, and the notice cell that may join the active uplink's queue there (R116,
R117, R189 to R191).
-/

namespace Sys2Proof.Machine

/-! ### The management word of one link (R116, R117) -/

section
variable {x y : Link}

theorem sendsMgmt_iff : x.sendsMgmt = true ↔ x.config.txEnable = true ∧ x.config.shape.role ≠ .none := by
  simp [Link.sendsMgmt]

theorem takeMgmtWord_silent (h : x.config.txEnable = false ∨ x.config.shape.role = .none) : x.takeMgmtWord = x := by
  unfold Link.takeMgmtWord
  rw [if_neg]
  rw [sendsMgmt_iff]
  rcases h with h | h <;> simp [h]

theorem takeMgmtWord_fill (hs : x.sendsMgmt = true) (hq : x.queue = []) :
    x.takeMgmtWord = { x with tx := { x.tx with mgmtWord := 0x0000#16 } } := by
  unfold Link.takeMgmtWord Link.advanceQueue Link.nextMgmtWord
  simp only [hs, hq, if_true]

theorem takeMgmtWord_leaves (hs : x.sendsMgmt = true) {q : QueuedCell} {rest : List QueuedCell} (hq : x.queue = q :: rest)
    (h7 : x.tx.wordCount = 7) : x.takeMgmtWord =
      { x with queue := rest, tx := { x.tx with mgmtWord := q.cell[7], wordCount := 0 } } := by
  unfold Link.takeMgmtWord Link.advanceQueue Link.nextMgmtWord
  simp only [hs, hq, if_true, h7]
  rfl

theorem takeMgmtWord_goesOn (hs : x.sendsMgmt = true) {q : QueuedCell} {rest : List QueuedCell}
    (hq : x.queue = q :: rest) (h7 : x.tx.wordCount ≠ 7) : x.takeMgmtWord =
      { x with tx := { x.tx with mgmtWord := q.cell[x.tx.wordCount.val], wordCount := x.tx.wordCount + 1 } } := by
  unfold Link.takeMgmtWord Link.advanceQueue Link.nextMgmtWord
  simp only [hs, hq, if_true, if_neg h7]

/-- Cells behind the head of a queue do not bear on its management word; on a silent link none does (R116). -/
theorem takeMgmtWord_append (hc : y.config = x.config) (ht : y.tx = x.tx) {ys : List QueuedCell}
    (hq : y.queue = x.queue ++ ys) (h : x.queue ≠ [] ∨ x.sendsMgmt = false ∨ ys = []) :
    y.takeMgmtWord.tx = x.takeMgmtWord.tx ∧ y.takeMgmtWord.queue = x.takeMgmtWord.queue ++ ys := by
  have hsends : y.sendsMgmt = x.sendsMgmt := by unfold Link.sendsMgmt; rw [hc]
  cases hs : x.sendsMgmt with
  | false =>
    unfold Link.takeMgmtWord
    rw [hsends, hs]
    exact ⟨ht, hq⟩
  | true =>
    rw [hs] at hsends
    cases hx : x.queue with
    | nil =>
      rw [hx, hs] at h
      have hys : ys = [] := by simpa using h
      rw [hx, hys] at hq
      rw [takeMgmtWord_fill hs hx, takeMgmtWord_fill hsends hq, ht, hx, hq, hys]
      exact ⟨rfl, rfl⟩
    | cons q rest =>
      rw [hx] at hq
      by_cases h7 : x.tx.wordCount = 7
      · rw [takeMgmtWord_leaves hs hx h7, takeMgmtWord_leaves hsends hq (by rw [ht, h7]), ht]
        exact ⟨rfl, rfl⟩
      · rw [takeMgmtWord_goesOn hs hx h7, takeMgmtWord_goesOn hsends hq (by rw [ht]; exact h7)]
        simp only [ht, hq, hx, and_self]

end

/-! ### From the management words to the end of a start -/

section
variable {s : State} {i : StartInput} {k : Bool}

/-- With no order named, the notice's test for a place is the last thing that a start does. -/
theorem localFrameStart_ends_in_test (ho : i.order = []) (hk : s.tb.startKind i.elapsed = some k) :
    s.localFrameStart i =
      if (s.uplinkDeparts && i.arrivals.isEmpty) = true then (s.beforeAct i k .noticeTest).noticeTest
      else s.beforeAct i k .noticeTest := by
  rw [localFrameStart_around ho hk .noticeTest]
  have hpost : (allStartActs.dropWhile (· ≠ .noticeTest)).drop 1 = [] := by decide
  rw [hpost]
  rfl

theorem beforeTest_eq (hr : s.resetDue = false) :
    s.beforeAct i k .noticeTest = (s.beforeAct i k .management).fixManagement.transmit := by
  have hsplit : allStartActs.takeWhile (· ≠ .noticeTest) =
      allStartActs.takeWhile (· ≠ .management) ++ [.management, .transmit, .softReset] := by decide
  unfold State.beforeAct
  rw [hsplit, List.foldl_append]
  exact startAct_softReset_of_not_due ((startCtx_resetDue s i).trans hr) _

theorem beforeManagement_eq : s.beforeAct i k .management =
    (s.beforeAct i k .noticeTimer).noticeTimerAct (s.startCtx i) := by
  have hsplit : allStartActs.takeWhile (· ≠ .management) = allStartActs.takeWhile (· ≠ .noticeTimer) ++ [.noticeTimer] := by
    decide
  unfold State.beforeAct
  rw [hsplit, List.foldl_append]
  rfl

theorem beforeManagement_tx (l : LinkId) : ((s.beforeAct i k .management).link l).tx = (s.link l).tx := by
  have hpre : ∀ a ∈ allStartActs.takeWhile (· ≠ .management), a ≠ .management ∧ a ≠ .transmit := by decide
  exact startFold_keeps (fun u => (u.link l).tx) _ _ (s.withTb _) fun a ha u => startAct_tx l (hpre a ha).1 (hpre a ha).2

theorem transmit_wordCount (u : State) (l : LinkId) : (u.transmit.link l).tx.wordCount = (u.link l).tx.wordCount := by
  rw [transmit_link]; rfl

/-- What the start leaves of a link's management side beside the notice. -/
theorem beforeTest_link (hr : s.resetDue = false) (l : LinkId) :
    ((s.beforeAct i k .noticeTest).link l).tx.mgmtWord =
      ((s.beforeAct i k .management).link l).takeMgmtWord.tx.mgmtWord ∧
    ((s.beforeAct i k .noticeTest).link l).tx.wordCount =
      ((s.beforeAct i k .management).link l).takeMgmtWord.tx.wordCount ∧
    ((s.beforeAct i k .noticeTest).link l).queue = ((s.beforeAct i k .management).link l).takeMgmtWord.queue := by
  rw [beforeTest_eq hr, transmit_mgmtWord, transmit_wordCount, transmit_link_queue, fixManagement_link]
  exact ⟨rfl, rfl, rfl⟩

theorem beforeTest_channel (hr : s.resetDue = false) :
    (s.beforeAct i k .noticeTest).agent = (s.beforeAct i k .management).agent ∧
    (s.beforeAct i k .noticeTest).events = (s.beforeAct i k .management).events ∧
    (s.beforeAct i k .noticeTest).notice = (s.beforeAct i k .management).notice := by
  rw [beforeTest_eq hr]
  exact ⟨rfl, rfl, rfl⟩

end

/-! ### The notice timer (R191) -/

/-- The timer does something at a start only where it was running when the start came. -/
theorem noticeTimerAct_idle {u : State} {x : StartCtx} (h : x.superframe = false ∨ x.timerRunning = false) :
    u.noticeTimerAct x = u := by
  unfold State.noticeTimerAct
  rcases h with h | h <;> simp [h]

/-- The timer running, it is lowered, or it expires (R191). -/
theorem noticeTimerAct_runs {u : State} {x : StartCtx} (hs : x.superframe = true) (ht : x.timerRunning = true)
    (hw : u.notice.state = .wait) (hr : x.resetDue = false) : u.noticeTimerAct x =
      if u.notice.timer ≤ 1 then u.noticeExpiry else u.withNotice { u.notice with timer := u.notice.timer - 1 } := by
  unfold State.noticeTimerAct
  simp [hs, ht, hw, hr]

/-- DUE entered with a place: the notice cell joins the queue at once (R189). -/
theorem enterDue_places {u : State} (h : u.hasRoom u.agent.activeUplink = true) (n : Nat) : u.enterDue n =
    (u.enqueue u.agent.activeUplink ⟨u.agent.noticeFor u.events n, false⟩).withNotice ⟨.wait, n, 64⟩ :=
  noticeTest_places (s := u.withNotice ⟨.due, n, 0⟩) rfl h

theorem enterDue_waits {u : State} (h : u.hasRoom u.agent.activeUplink = false) (n : Nat) :
    u.enterDue n = u.withNotice ⟨.due, n, 0⟩ :=
  noticeTest_waits (s := u.withNotice ⟨.due, n, 0⟩) (.inr h)

theorem enqueue_queue (u : State) (l : LinkId) (x : QueuedCell) :
    ((u.enqueue l x).link l).queue = (u.link l).queue ++ [x] := congrArg Link.queue (link_updLink_self ..)

theorem enqueue_queue_ne (u : State) {l j : LinkId} (h : j ≠ l) (x : QueuedCell) :
    ((u.enqueue l x).link j).queue = (u.link j).queue := by
  unfold State.enqueue
  rw [link_updLink_ne u h]

/-- What a start does to the active uplink's queue before its management word is fixed: nothing, or the notice cell joins
it at the tail (R189). -/
def State.tailJoined (s u : State) : Prop :=
  u.agent = s.agent ∧ (∀ l, l ≠ s.agent.activeUplink → (u.link l).queue = (s.link l).queue) ∧
  ((u.link s.agent.activeUplink).queue = (s.link s.agent.activeUplink).queue ∨
    ∃ y, s.noticeJoins u y ∧
      (u.link s.agent.activeUplink).queue = (s.link s.agent.activeUplink).queue ++ [⟨y, false⟩])

theorem enterDue_tailJoined {s u : State} (ha : u.agent = s.agent) (hq : ∀ l, (u.link l).queue = (s.link l).queue)
    (n : Nat) : s.tailJoined (u.enterDue n) := by
  cases hr : u.hasRoom u.agent.activeUplink with
  | false =>
    rw [enterDue_waits hr]
    exact ⟨ha, fun l _ => hq l, .inl (hq _)⟩
  | true =>
    rw [enterDue_places hr]
    refine ⟨ha, fun l hl => ?_, .inr ⟨u.agent.noticeFor u.events n, ⟨rfl, rfl, .inl ?_⟩, ?_⟩⟩
    · rw [withNotice_link, enqueue_queue_ne _ (by rw [ha]; exact hl), hq]
    · rw [ha]; rfl
    · rw [withNotice_link, ← ha, enqueue_queue, hq]

/-- The notice timer, after what the reports of the start have done. -/
theorem noticeTimerAct_tailJoined {s u : State} {x : StartCtx} (h : s.Reported u)
    (hx : x.timerRunning = decide (s.notice.state = .wait)) : s.tailJoined (u.noticeTimerAct x) := by
  rcases h.outcome with ⟨hn, hq, -⟩ | ⟨hs, ha⟩
  · have hall (l : LinkId) : (u.link l).queue = (s.link l).queue := by
      by_cases hl : l = s.agent.activeUplink
      · rw [hl, hq]
      · exact h.other l hl
    unfold State.noticeTimerAct
    split
    · split
      · unfold State.noticeExpiry
        split
        · exact enterDue_tailJoined h.agent hall _
        · exact ⟨h.agent, h.other, .inl hq⟩
      · exact ⟨h.agent, h.other, .inl hq⟩
    · exact ⟨h.agent, h.other, .inl hq⟩
  · rw [noticeTimerAct_idle (.inr (by rw [hx, hs]; rfl))]
    unfold State.announced at ha
    refine ⟨h.agent, h.other, ?_⟩
    split at ha
    · exact .inr ⟨s.firstNotice, ⟨by rw [ha.1], by rw [ha.1], .inr ⟨hs, by rw [ha.1], rfl⟩⟩, ha.2⟩
    · exact .inl ha.2

theorem beforeManagement_tailJoined (s : State) (i : StartInput) (k : Bool) :
    s.tailJoined (s.beforeAct i k .management) := by
  rw [beforeManagement_eq]
  exact noticeTimerAct_tailJoined (beforeTimer_reported s i k) rfl

/-! ### The management word at a start -/

section
variable {s : State} {i : StartInput} {k : Bool}

/-- At the end of a start the notice cell may find the place that a departing cell leaves (R189). -/
theorem localFrameStart_tail (ho : i.order = []) (hk : s.tb.startKind i.elapsed = some k) :
    let u := s.beforeAct i k .noticeTest
    s.localFrameStart i = u ∨
    (s.uplinkDeparts = true ∧ u.notice.state = .due ∧ u.hasRoom u.agent.activeUplink = true ∧
      s.localFrameStart i = (u.enqueue u.agent.activeUplink
        ⟨u.agent.noticeFor u.events u.notice.retry, false⟩).withNotice ⟨.wait, u.notice.retry, 64⟩) := by
  rw [localFrameStart_ends_in_test ho hk]
  split
  · next htest =>
    by_cases h : (s.beforeAct i k .noticeTest).notice.state = .due ∧
        (s.beforeAct i k .noticeTest).hasRoom (s.beforeAct i k .noticeTest).agent.activeUplink = true
    · exact .inr ⟨(Bool.and_eq_true_iff.1 htest).1, h.1, h.2, noticeTest_places h.1 h.2⟩
    · refine .inl (noticeTest_waits ?_)
      rw [← Bool.not_eq_true]
      exact not_and_or.1 h
  · exact .inl rfl

theorem localFrameStart_tx (ho : i.order = []) (hk : s.tb.startKind i.elapsed = some k) (l : LinkId) :
    ((s.localFrameStart i).link l).tx = ((s.beforeAct i k .noticeTest).link l).tx := by
  rw [localFrameStart_ends_in_test ho hk]
  split
  · exact noticeTest_link_tx _ l
  · rfl

/-- A cell that has joined before the words were fixed has joined at the end of the start (R190). -/
theorem noticeJoins_of_before (hr : s.resetDue = false) {y : Cell} (h : s.noticeJoins (s.beforeAct i k .management) y) :
    s.noticeJoins (s.beforeAct i k .noticeTest) y := by
  obtain ⟨-, hevents, hnotice⟩ := beforeTest_channel (i := i) (k := k) hr
  unfold State.noticeJoins at h ⊢
  rw [hnotice, hevents]; exact h

/-- The queues at the end of a start: what the management words leave of them, with the notice cell behind it where it
has joined the active uplink's (R116, R189). -/
theorem localFrameStart_queue (ho : i.order = []) (hk : s.tb.startKind i.elapsed = some k) (hr : s.resetDue = false)
    (l : LinkId) {q : List QueuedCell} (hq : ((s.beforeAct i k .noticeTest).link l).queue = q) :
    ((s.localFrameStart i).link l).queue = q ∧ (∀ y, s.noticeJoins (s.beforeAct i k .management) y →
        s.noticeJoins (s.localFrameStart i) y) ∨
    (s.uplinkDeparts = true ∧ l = s.agent.activeUplink ∧ (s.beforeAct i k .management).notice.state = .due ∧
      ∃ y, s.noticeJoins (s.localFrameStart i) y ∧ ((s.localFrameStart i).link l).queue = q ++ [⟨y, false⟩]) := by
  obtain ⟨hagent, hevents, hnotice⟩ := beforeTest_channel (i := i) (k := k) hr
  have hup : (s.beforeAct i k .noticeTest).agent = s.agent := hagent.trans (beforeManagement_tailJoined s i k).1
  rcases localFrameStart_tail ho hk with e | ⟨hd, hdue, -, e⟩ <;> rw [e]
  · exact .inl ⟨hq, fun y hy => noticeJoins_of_before hr hy⟩
  · rw [hnotice] at hdue
    by_cases hl : l = s.agent.activeUplink
    · refine .inr ⟨hd, hl, hdue, (s.beforeAct i k .noticeTest).agent.noticeFor (s.beforeAct i k .noticeTest).events
        (s.beforeAct i k .noticeTest).notice.retry, ⟨rfl, rfl, .inl ?_⟩, ?_⟩
      · rw [hup]; rfl
      · rw [withNotice_link, hup, ← hl, enqueue_queue, hq]
    · refine .inl ⟨?_, fun y hy => ?_⟩
      · rw [withNotice_link, enqueue_queue_ne _ (by rw [hup]; exact hl), hq]
      · rw [hy.1] at hdue; cases hdue

/-- A link whose own queue decides its management word takes it from there; the notice cell comes behind (R116, R190). -/
theorem localFrameStart_management (ho : i.order = []) (hk : s.tb.startKind i.elapsed = some k) (hr : s.resetDue = false)
    {l : LinkId} (h : l ≠ s.agent.activeUplink ∨ (s.link l).queue ≠ [] ∨ (s.link l).sendsMgmt = false) :
    ((s.localFrameStart i).link l).tx.mgmtWord = (s.link l).takeMgmtWord.tx.mgmtWord ∧
    ((s.localFrameStart i).link l).tx.wordCount = (s.link l).takeMgmtWord.tx.wordCount ∧
    (((s.localFrameStart i).link l).queue = (s.link l).takeMgmtWord.queue ∨
      ∃ y, l = s.agent.activeUplink ∧ s.noticeJoins (s.localFrameStart i) y ∧
        ((s.localFrameStart i).link l).queue = (s.link l).takeMgmtWord.queue ++ [⟨y, false⟩]) := by
  obtain ⟨-, hother, htail⟩ := beforeManagement_tailJoined s i k
  obtain ⟨hword, hcount, hqueue⟩ := beforeTest_link (i := i) (k := k) hr l
  have hcfg := beforeAct_config s i k .management l
  have htx := beforeManagement_tx (s := s) (i := i) (k := k) l
  by_cases hjoined : ((s.beforeAct i k .management).link l).queue = (s.link l).queue
  · obtain ⟨ht, hq⟩ := takeMgmtWord_append (ys := []) hcfg htx (by rw [hjoined, List.append_nil]) (.inr (.inr rfl))
    rw [List.append_nil] at hq
    refine ⟨by rw [localFrameStart_tx ho hk, hword, ht], by rw [localFrameStart_tx ho hk, hcount, ht], ?_⟩
    rcases localFrameStart_queue ho hk hr l (hqueue.trans hq) with ⟨e, -⟩ | ⟨-, hl, -, y, hy, e⟩
    · exact .inl e
    · exact .inr ⟨y, hl, hy, e⟩
  · have hl : l = s.agent.activeUplink := by_contra fun hl => hjoined (hother l hl)
    subst hl
    obtain ⟨y, hy, hq⟩ := htail.resolve_left hjoined
    obtain ⟨ht, hq⟩ := takeMgmtWord_append hcfg htx hq
      (h.elim (fun hne => absurd rfl hne) fun h => h.imp_right Or.inl)
    refine ⟨by rw [localFrameStart_tx ho hk, hword, ht], by rw [localFrameStart_tx ho hk, hcount, ht], ?_⟩
    rcases localFrameStart_queue ho hk hr _ (hqueue.trans hq) with ⟨e, hjoins⟩ | ⟨-, -, hdue, -⟩
    · exact .inr ⟨y, rfl, hjoins y hy, e⟩
    · rw [hy.1] at hdue; cases hdue

/-- Where the active uplink's queue was empty, the notice cell that joins it gives the word of this very start (R116). -/
theorem localFrameStart_management_empty (ho : i.order = []) (hk : s.tb.startKind i.elapsed = some k)
    (hr : s.resetDue = false) (hs : (s.link s.agent.activeUplink).sendsMgmt = true)
    (hq : (s.link s.agent.activeUplink).queue = []) (hc : (s.link s.agent.activeUplink).tx.wordCount = 0) :
    (((s.localFrameStart i).link s.agent.activeUplink).queue = [] ∧
      ((s.localFrameStart i).link s.agent.activeUplink).tx.mgmtWord = 0x0000#16 ∧
      ((s.localFrameStart i).link s.agent.activeUplink).tx.wordCount = 0) ∨
    ∃ y, s.noticeJoins (s.localFrameStart i) y ∧
      ((s.localFrameStart i).link s.agent.activeUplink).queue = [⟨y, false⟩] ∧
      ((s.localFrameStart i).link s.agent.activeUplink).tx.mgmtWord = y[0] ∧
      ((s.localFrameStart i).link s.agent.activeUplink).tx.wordCount = 1 := by
  obtain ⟨-, -, htail⟩ := beforeManagement_tailJoined s i k
  obtain ⟨hword, hcount, hqueue⟩ := beforeTest_link (i := i) (k := k) hr s.agent.activeUplink
  have htx := beforeManagement_tx (s := s) (i := i) (k := k) s.agent.activeUplink
  have hsends : ((s.beforeAct i k .management).link s.agent.activeUplink).sendsMgmt = true := by
    unfold Link.sendsMgmt at hs ⊢
    rw [beforeAct_config]; exact hs
  have hstays : s.uplinkDeparts ≠ true := by
    simp [State.uplinkDeparts, Link.departs, hq]
  rw [localFrameStart_tx ho hk, hword, hcount]
  rw [hq] at htail
  rcases htail with hm | ⟨y, hy, hm⟩
  · rw [takeMgmtWord_fill hsends hm] at hqueue ⊢
    rcases localFrameStart_queue ho hk hr _ (hqueue.trans hm) with ⟨e, -⟩ | ⟨hd, -⟩
    · exact .inl ⟨e, rfl, (congrArg Transmitter.wordCount htx).trans hc⟩
    · exact absurd hd hstays
  · have hc' : ((s.beforeAct i k .management).link s.agent.activeUplink).tx.wordCount = 0 := by rw [htx, hc]
    have h7 : ((s.beforeAct i k .management).link s.agent.activeUplink).tx.wordCount ≠ 7 := by rw [hc']; decide
    rw [takeMgmtWord_goesOn hsends hm h7] at hqueue ⊢
    rcases localFrameStart_queue ho hk hr _ (hqueue.trans hm) with ⟨e, hjoins⟩ | ⟨hd, -⟩
    · refine .inr ⟨y, hjoins y hy, e, ?_, ?_⟩
      · simp only [hc']; rfl
      · simp only [hc']; rfl
    · exact absurd hd hstays

end

theorem not_sendsMgmt_iff (x : Link) : x.sendsMgmt = false ↔ x.config.txEnable = false ∨ x.config.shape.role = .none := by
  rw [← Bool.not_eq_true, sendsMgmt_iff, not_and_or, not_not, Bool.not_eq_true]

/-- Settles O30: by the cases of a link's queue and word count, and from what comes before and after the act that fixes
the words of a start. -/
theorem managementWordIsTaken : Obligations.ManagementWordIsTaken := by
  refine ⟨fun x => ⟨takeMgmtWord_silent, fun ht hr hq => takeMgmtWord_fill (sendsMgmt_iff.2 ⟨ht, hr⟩) hq,
    fun ht hr q rest hq => ⟨fun h7 => takeMgmtWord_leaves (sendsMgmt_iff.2 ⟨ht, hr⟩) hq h7,
      fun h7 => takeMgmtWord_goesOn (sendsMgmt_iff.2 ⟨ht, hr⟩) hq h7⟩⟩,
    fun i s k ho ha hk hr => ⟨_, exec_alone ha, fun l h => ?_, fun x hx ht hrole hq hc => ?_⟩⟩
  · exact localFrameStart_management ho hk hr (by rwa [not_sendsMgmt_iff])
  · subst hx
    exact localFrameStart_management_empty ho hk hr (sendsMgmt_iff.2 ⟨ht, hrole⟩) hq hc

end Sys2Proof.Machine
end

section
/-!
PROOFS. The handing over of a completed frame (R27 to R33, R35, R49, R57, R132, R133, R189).
-/

namespace Sys2Proof.Machine

/-! ### Two states that a report finds alike (R180, R182, R189) -/

/-- What a report reads and writes is the same in both. -/
structure State.Heard (u v : State) : Prop where
  events : u.events = v.events
  notice : u.notice = v.notice
  agent : u.agent = v.agent
  number : u.tb.number = v.tb.number
  frameIndex : u.tb.frameIndex = v.tb.frameIndex
  queue : (u.link v.agent.activeUplink).queue = (v.link v.agent.activeUplink).queue

theorem heard_refl (s : State) : s.Heard s := ⟨rfl, rfl, rfl, rfl, rfl, rfl⟩

theorem heard_hasRoom {u v : State} (h : u.Heard v) : u.hasRoom u.agent.activeUplink = v.hasRoom v.agent.activeUplink := by
  rw [h.agent]
  exact hasRoom_congr h.queue (by rw [h.agent])

theorem recordAppended_heard {u v : State} (h : u.Heard v) : u.recordAppended.Heard v.recordAppended := by
  by_cases hq : v.notice.state = .quiet
  · have hu : u.notice.state = .quiet := by rw [h.notice, hq]
    have hroom := heard_hasRoom h
    cases hr : v.hasRoom v.agent.activeUplink with
    | true =>
      rw [recordAppended_places v hq hr, recordAppended_places u hu (hroom.trans hr)]
      refine ⟨h.events, rfl, h.agent, h.number, h.frameIndex, ?_⟩
      show ((u.enqueue u.agent.activeUplink _).link v.agent.activeUplink).queue =
        ((v.enqueue v.agent.activeUplink _).link v.agent.activeUplink).queue
      rw [h.agent, enqueue_queue, enqueue_queue, h.queue, h.events]
    | false =>
      rw [recordAppended_waits v hq hr, recordAppended_waits u hu (hroom.trans hr)]
      exact ⟨h.events, rfl, h.agent, h.number, h.frameIndex, h.queue⟩
  · rw [recordAppended_of_not_quiet v hq, recordAppended_of_not_quiet u (by rw [h.notice]; exact hq)]
    exact h

theorem withEvents_heard {u v : State} (h : u.Heard v) (q : EventQueue) : (u.withEvents q).Heard (v.withEvents q) :=
  ⟨rfl, h.notice, h.agent, h.number, h.frameIndex, h.queue⟩

theorem appendOrLose_heard {u v : State} (h : u.Heard v) (k : EventKind) (a b : Byte) :
    (u.appendOrLose k a b).Heard (v.appendOrLose k a b) := by
  have hqueue : u.queueAppended k a b = v.queueAppended k a b := by
    unfold State.queueAppended State.newRecord
    rw [h.events, h.number, h.frameIndex]
  by_cases hroom : v.events.records.length < 32
  · rw [appendOrLose_of_room hroom, appendOrLose_of_room (by rw [h.events]; exact hroom), hqueue]
    exact recordAppended_heard (withEvents_heard h _)
  · have hv : 32 ≤ v.events.records.length := by omega
    have hu : 32 ≤ u.events.records.length := by rw [h.events]; exact hv
    rw [appendOrLose_of_full hv, appendOrLose_of_full hu, h.events]
    exact withEvents_heard h _

/-- One report has the same outcome in both. -/
theorem report_heard {u v : State} (h : u.Heard v) (k : EventKind) (a b : Byte) :
    (u.report k a b).Heard (v.report k a b) := by
  have he := h.events
  by_cases hon : v.events.enabled k = true
  · by_cases hk : k = .slip ∧ coalesce a b v.events.records ≠ none
    · obtain ⟨rfl, hc⟩ := hk
      obtain ⟨rs, hrs⟩ := Option.ne_none_iff_exists'.1 hc
      rw [report_of_coalesced hon hrs, report_of_coalesced (by rw [he]; exact hon) (by rw [he]; exact hrs), he]
      exact withEvents_heard h _
    · have hno (hs : k = .slip) : coalesce a b v.events.records = none := by_contra fun hc => hk ⟨hs, hc⟩
      rw [report_of_unabsorbed hon hno, report_of_unabsorbed (by rw [he]; exact hon) (by rw [he]; exact hno)]
      exact appendOrLose_heard h k a b
  · have hoff := Bool.eq_false_iff.2 hon
    rw [report_of_masked hoff, report_of_masked (by rw [he]; exact hoff)]
    exact h

/-- A change of the links that leaves the cell queues, and of the timebase that leaves number and index, is not heard. -/
theorem heard_of_quietly {u v t : State} (h : u.Heard v) (he : t.events = u.events) (hn : t.notice = u.notice)
    (ha : t.agent = u.agent) (hnum : t.tb.number = u.tb.number) (hidx : t.tb.frameIndex = u.tb.frameIndex)
    (hq : ∀ l, (t.link l).queue = (u.link l).queue) : t.Heard v :=
  ⟨he.trans h.events, hn.trans h.notice, ha.trans h.agent, hnum.trans h.number, hidx.trans h.frameIndex,
    (hq _).trans h.queue⟩

/-! ### The completion, act by act -/

section
variable (f : FrameInProgress) (ws : Vector Word 63) (e : Header) (run startAt : Nat) (cells : List Word)
  (taken : List ReceiveAct)

/-- A link during the completion of a frame, these acts having been taken (R27 to R35). -/
def Link.handed (x : Link) : Link :=
  let rai := integrateRai x.rx.remoteAlarm x.rx.raiRun (headerRai f.header)
  let got := collect x.rx.collector f
  let full := decide (2 ≤ x.store.queue.length)
  { x with
    rx := { x.rx with
      align := .sync e run none
      watch := { x.rx.watch with seen := true }
      remoteAlarm := if .remoteAlarm ∈ taken ∧ f.good = true then rai.1 else x.rx.remoteAlarm
      raiRun := if .remoteAlarm ∈ taken ∧ f.good = true then rai.2.1 else x.rx.raiRun
      window :=
        if .check ∈ taken ∧ (f.checkError ws && x.config.shape.checkEnable) = true then satInc8 x.rx.window else x.rx.window
      collector := if .collector ∈ taken then got.1 else x.rx.collector
      number := if .collector ∈ taken then got.2.getD x.rx.number else x.rx.number
      numberValid := if .collector ∈ taken then got.2.isSome || x.rx.numberValid else x.rx.numberValid }
    store := { x.store with queue :=
      if .store ∈ taken then
        (if full then x.store.queue.drop 1 else x.store.queue) ++ [f.received ws]
      else x.store.queue }
    rxCount := { x.rxCount with
      checkErrors :=
        if .check ∈ taken ∧ f.checkError ws = true then satAdd16 x.rxCount.checkErrors 1 else x.rxCount.checkErrors
      deleteSlips :=
        if .store ∈ taken ∧ full = true then satAdd16 x.rxCount.deleteSlips 1 else x.rxCount.deleteSlips }
    assembler := if .cell ∈ taken then cells else x.assembler }

/-- The timebase during the completion of a frame on `l` (R49, R57). -/
def Timebase.handed (t : Timebase) (l : LinkId) (got : Option Word) : Timebase :=
  { t with
    pendingAdoption :=
      if .collector ∈ taken then
        match got with
        | some n => if t.source = .locked l then some (n + 1#16) else t.pendingAdoption
        | none => t.pendingAdoption
      else t.pendingAdoption
    completions :=
      if .timing ∈ taken ∧ t.source = .locked l then t.completions ++ [startAt] else t.completions }

/-- The report an act makes over the link `x` before the completion: of a delete slip where the store was full (R35),
of a remote alarm where the run is full (R29). -/
def State.reportOf (x : Link) (l : LinkId) (v : State) : ReceiveAct → State
  | .store => if 2 ≤ x.store.queue.length then v.report .slip (byteOf l.val) 1#8 else v
  | .remoteAlarm =>
    if (f.good && (integrateRai x.rx.remoteAlarm x.rx.raiRun (headerRai f.header)).2.2) = true
    then v.report .remoteAlarm (byteOf l.val) (if x.rx.remoteAlarm then 0#8 else 1#8) else v
  | _ => v

/-- The reports that these acts have made, one after the other, from `s`. -/
def State.reportsMade (s : State) (l : LinkId) (v : State) : Prop :=
  let slip := fun v : State => v.reportOf f (s.link l) l .store
  let alarm := fun v : State => v.reportOf f (s.link l) l .remoteAlarm
  if .store ∈ taken then
    if .remoteAlarm ∈ taken then v = alarm (slip s) ∨ v = slip (alarm s) else v = slip s
  else if .remoteAlarm ∈ taken then v = alarm s else v = s

/-- A state during the completion of a frame on `l`, from `s`, these acts having been taken, beside reports. -/
structure State.HandedSo (s : State) (l : LinkId) (u : State) : Prop where
  self : u.link l = { (s.link l).handed f ws e run cells taken with queue := (u.link l).queue }
  others : ∀ k, k ≠ l → u.link k = { s.link k with queue := (u.link k).queue }
  tb : u.tb = s.tb.handed startAt taken l (collect (s.link l).rx.collector f).2
  map : u.map = s.map
  bank : u.bank = s.bank
  bridges : u.bridges = s.bridges

/-- A state during the completion of a frame on `l`, from `s`, these acts having been taken. -/
structure State.Handing (s : State) (l : LinkId) (u : State) : Prop where
  so : s.HandedSo f ws e run startAt cells taken l u
  heard : ∃ v, s.reportsMade f taken l v ∧ u.Heard v
  reported : s.Reported u

variable {f ws e run startAt cells taken} {s : State} {l : LinkId} {u : State}

theorem handedSo_report (h : s.HandedSo f ws e run startAt cells taken l u) (k : EventKind) (a b : Byte) :
    s.HandedSo f ws e run startAt cells taken l (u.report k a b) := by
  have honly := report_only u k a b
  refine ⟨?_, fun k' hk => ?_, (report_tb ..).trans h.tb, (report_map ..).trans h.map, (report_bank ..).trans h.bank,
    honly.bridges.trans h.bridges⟩
  · rw [honly.link l, h.self]
  · rw [honly.link k', h.others k' hk]

theorem handedSo_reportOf (h : s.HandedSo f ws e run startAt cells taken l u) (x : Link) (k : LinkId) (a : ReceiveAct) :
    s.HandedSo f ws e run startAt cells taken l (u.reportOf f x k a) := by
  unfold State.reportOf
  split
  · split; exacts [handedSo_report h .., h]
  · split; exacts [handedSo_report h .., h]
  · exact h

theorem reportOf_heard {v : State} (h : u.Heard v) (x : Link) (k : LinkId) (a : ReceiveAct) :
    (u.reportOf f x k a).Heard (v.reportOf f x k a) := by
  unfold State.reportOf
  split
  · split; exacts [report_heard h .., h]
  · split; exacts [report_heard h .., h]
  · exact h

theorem reported_reportOf (h : s.Reported u) (x : Link) (k : LinkId) (a : ReceiveAct) :
    s.Reported (u.reportOf f x k a) := by
  unfold State.reportOf
  split
  · split; exacts [reported_report h .., h]
  · split; exacts [reported_report h .., h]
  · exact h

theorem reportsMade_step {a : ReceiveAct} {v : State} (ha : a ∉ taken) (h : s.reportsMade f taken l v) :
    s.reportsMade f (a :: taken) l (v.reportOf f (s.link l) l a) := by
  unfold State.reportsMade at h ⊢
  cases a with
  | store =>
    rw [if_neg ha] at h
    simp only [List.mem_cons, true_or, if_true, reduceCtorEq, false_or]
    split at h
    · next hr => rw [if_pos hr, h]; exact .inr rfl
    · next hr => rw [if_neg hr, h]
  | remoteAlarm =>
    simp only [if_neg ha] at h
    simp only [List.mem_cons, true_or, if_true, reduceCtorEq, false_or]
    split at h
    · next hr => rw [if_pos hr, h]; exact .inl rfl
    · next hr => rw [if_neg hr, h]
  | _ =>
    simp only [List.mem_cons, reduceCtorEq, false_or]
    exact h

/-- One act: a change of the link and of the timebase that nothing beside them hears, and then its report. -/
theorem handing_step {a : ReceiveAct} (ha : a ∉ taken) (h : s.Handing f ws e run startAt cells taken l u)
    {g : Link → Link} {t : Timebase}
    (hg : g (u.link l) = { (s.link l).handed f ws e run cells (a :: taken) with queue := (u.link l).queue })
    (ht : t = s.tb.handed startAt (a :: taken) l (collect (s.link l).rx.collector f).2) :
    s.Handing f ws e run startAt cells (a :: taken) l
      (((u.updLink l g).withTb t).reportOf f (s.link l) l a) := by
  have hqueue (k : LinkId) : ((u.updLink l g).link k).queue = (u.link k).queue :=
    updLink_read (fun y : Link => y.queue) u l k g (by rw [hg])
  refine ⟨handedSo_reportOf (u := (u.updLink l g).withTb t) ⟨?_, fun k hk => ?_, ht, h.so.map, h.so.bank, h.so.bridges⟩ ..,
    ?_,
    reported_reportOf (reported_of_quietly (t := (u.updLink l g).withTb t) h.reported rfl rfl rfl hqueue) ..⟩
  · rw [withTb_link, hqueue, link_updLink_self, hg]
  · rw [withTb_link, link_updLink_ne _ hk]
    exact h.so.others k hk
  · obtain ⟨v, hv, huv⟩ := h.heard
    refine ⟨_, reportsMade_step ha hv, reportOf_heard (heard_of_quietly (t := (u.updLink l g).withTb t) huv rfl rfl rfl ?_ ?_ hqueue) ..⟩
    · rw [withTb_tb, h.so.tb, ht]; rfl
    · rw [withTb_tb, h.so.tb, ht]; rfl

/-! ### Each act as a change and its report -/

theorem updLink_id (s : State) (l : LinkId) : s.updLink l (fun y => y) = s := by
  simp [State.updLink, State.setLink, State.link]

theorem handing_idle {a : ReceiveAct} (ha : a ∉ taken) (h : s.Handing f ws e run startAt cells taken l u)
    (hg : u.link l = { (s.link l).handed f ws e run cells (a :: taken) with queue := (u.link l).queue })
    (ht : u.tb = s.tb.handed startAt (a :: taken) l (collect (s.link l).rx.collector f).2) :
    s.Handing f ws e run startAt cells (a :: taken) l (u.reportOf f (s.link l) l a) := by
  have hstep := handing_step (g := fun y => y) ha h hg ht
  rwa [updLink_id] at hstep

theorem handing_inSync (h : s.Handing f ws e run startAt cells taken l u) : (u.link l).inSync = true := by
  rw [h.so.self]; rfl

theorem handing_store (ha : .store ∉ taken) (h : s.Handing f ws e run startAt cells taken l u) :
    s.Handing f ws e run startAt cells (.store :: taken) l (u.storeAct l (f.received ws)) := by
  have hq : (u.link l).store.queue = (s.link l).store.queue := by
    rw [h.so.self]; simp [Link.handed, ha]
  have htb : u.tb = s.tb.handed startAt (.store :: taken) l (collect (s.link l).rx.collector f).2 := by
    rw [h.so.tb]; simp [Timebase.handed]
  by_cases hroom : (s.link l).store.queue.length < 2
  · have hstep := handing_step (g := fun x => { x with store := { x.store with queue := x.store.queue ++ [f.received ws] } })
      ha h (by rw [h.so.self]; simp [Link.handed, ha, hroom]) htb
    rw [storeAct_of_room (handing_inSync h) (by rw [hq]; exact hroom)]
    rw [State.reportOf, if_neg (by omega)] at hstep
    exact hstep
  · have hstep := handing_step (g := fun x => { x with
        store := { x.store with queue := x.store.queue.drop 1 ++ [f.received ws] }
        rxCount := { x.rxCount with deleteSlips := satAdd16 x.rxCount.deleteSlips 1 } })
      ha h (by rw [h.so.self]; simp [Link.handed, ha, Nat.le_of_not_lt hroom]) htb
    rw [storeAct_of_full (handing_inSync h) (by rw [hq]; exact hroom)]
    rw [State.reportOf, if_pos (by omega)] at hstep
    exact hstep

theorem handing_check (ha : .check ∉ taken) (h : s.Handing f ws e run startAt cells taken l u) :
    s.Handing f ws e run startAt cells (.check :: taken) l (u.checkAct l (f.checkError ws)) := by
  have htb : u.tb = s.tb.handed startAt (.check :: taken) l (collect (s.link l).rx.collector f).2 := by
    rw [h.so.tb]; simp [Timebase.handed]
  unfold State.checkAct
  split
  · next herr =>
    have hstep := handing_step (g := (·.countCheckError)) ha h (by
      have hsync := handing_inSync h
      rw [h.so.self] at hsync ⊢
      unfold Link.countCheckError
      rw [hsync]
      by_cases hce : (s.link l).config.shape.checkEnable = true <;> simp [Link.handed, ha, herr, hce]) htb
    exact hstep
  · next herr => exact handing_idle ha h (by rw [h.so.self]; simp [Link.handed, ha, herr]) htb

theorem integrateRai_turns {alarm : Bool} {run : Nat} {rai : Bool} (h : (integrateRai alarm run rai).2.2 = true) :
    (integrateRai alarm run rai).1 = !alarm := by
  unfold integrateRai at h ⊢
  grind

theorem handing_remoteAlarm (ha : .remoteAlarm ∉ taken) (h : s.Handing f ws e run startAt cells taken l u) :
    s.Handing f ws e run startAt cells (.remoteAlarm :: taken) l (u.remoteAlarmAct l f) := by
  have htb : u.tb = s.tb.handed startAt (.remoteAlarm :: taken) l (collect (s.link l).rx.collector f).2 := by
    rw [h.so.tb]; simp [Timebase.handed]
  have hrx : (u.link l).rx.remoteAlarm = (s.link l).rx.remoteAlarm ∧ (u.link l).rx.raiRun = (s.link l).rx.raiRun := by
    rw [h.so.self]; simp [Link.handed, ha]
  unfold State.remoteAlarmAct
  rw [handing_inSync h, hrx.1, hrx.2, Bool.true_and]
  cases hgood : f.good with
  | false =>
    have hstep := handing_idle ha h (by rw [h.so.self]; simp [Link.handed, ha, hgood]) htb
    rwa [State.reportOf, hgood] at hstep
  | true =>
    have hstep := handing_step (g := fun x => x.withRx { x.rx with
        remoteAlarm := (integrateRai (s.link l).rx.remoteAlarm (s.link l).rx.raiRun (headerRai f.header)).1
        raiRun := (integrateRai (s.link l).rx.remoteAlarm (s.link l).rx.raiRun (headerRai f.header)).2.1 })
      ha h (by rw [h.so.self]; simp [Link.handed, Link.withRx, ha, hgood]) htb
    rw [State.reportOf, hgood, Bool.true_and] at hstep
    simp only [if_true]
    cases hturn : (integrateRai (s.link l).rx.remoteAlarm (s.link l).rx.raiRun (headerRai f.header)).2.2 with
    | false => rwa [hturn] at hstep
    | true =>
      rw [hturn] at hstep
      rw [integrateRai_turns hturn] at hstep ⊢
      cases halarm : (s.link l).rx.remoteAlarm <;> rw [halarm] at hstep <;> exact hstep

theorem handing_collector (ha : .collector ∉ taken) (h : s.Handing f ws e run startAt cells taken l u) :
    s.Handing f ws e run startAt cells (.collector :: taken) l (u.collectorAct l f) := by
  have hcol : (u.link l).rx.collector = (s.link l).rx.collector := by
    rw [h.so.self]; simp [Link.handed, ha]
  cases hgot : (collect (s.link l).rx.collector f).2 with
  | none =>
    have htb : u.tb = s.tb.handed startAt (.collector :: taken) l (collect (s.link l).rx.collector f).2 := by
      rw [h.so.tb, hgot]; simp [Timebase.handed]
    have hstep := handing_step (g := fun x => x.withRx { x.rx with collector := (collect (s.link l).rx.collector f).1 })
      ha h (by rw [h.so.self]; simp [Link.handed, Link.withRx, ha, hgot]) htb
    simp only [State.collectorAct, handing_inSync h, hcol, hgot, if_true]
    exact hstep
  | some n =>
    have htb : u.tb.offer l n = s.tb.handed startAt (.collector :: taken) l (collect (s.link l).rx.collector f).2 := by
      rw [h.so.tb, hgot]
      by_cases hl : s.tb.source = .locked l <;> simp [Timebase.handed, Timebase.offer, ha, hl]
    have hstep := handing_step (g := fun x => x.withRx { x.rx with
        collector := (collect (s.link l).rx.collector f).1, number := n, numberValid := true })
      ha h (by rw [h.so.self]; simp [Link.handed, Link.withRx, ha, hgot]) htb
    rw [← hcol] at hgot
    rwa [collectorAct_of_number (handing_inSync h) hgot, hcol]

theorem handing_timing (ha : .timing ∉ taken) (h : s.Handing f ws e run startAt cells taken l u) :
    s.Handing f ws e run startAt cells (.timing :: taken) l (u.timingAct l startAt) := by
  have hg : u.link l = { (s.link l).handed f ws e run cells (.timing :: taken) with queue := (u.link l).queue } := by
    rw [h.so.self]; simp [Link.handed]
  have hsource : u.tb.source = s.tb.source := by rw [h.so.tb]; rfl
  rw [timingAct_eq, handing_inSync h, hsource]
  by_cases hl : s.tb.source = .locked l
  · have hstep := handing_step (g := fun y => y) (t := { u.tb with completions := u.tb.completions ++ [startAt] }) ha h hg
      (by rw [h.so.tb]; simp [Timebase.handed, ha, hl])
    rw [updLink_id] at hstep
    rw [if_pos ⟨rfl, hl⟩]
    exact hstep
  · rw [if_neg (fun hc => hl hc.2)]
    exact handing_idle ha h hg (by rw [h.so.tb]; simp [Timebase.handed, hl])

/-- The management word where it completes no cell: the assembler takes its new words. -/
theorem handing_cell (ha : .cell ∉ taken) (h : s.Handing f ws e run startAt cells taken l u) :
    s.Handing f ws e run startAt cells (.cell :: taken) l (u.updLink l fun x => { x with assembler := cells }) := by
  have htb : u.tb = s.tb.handed startAt (.cell :: taken) l (collect (s.link l).rx.collector f).2 := by
    rw [h.so.tb]; simp [Timebase.handed]
  have hstep := handing_step (g := fun x => { x with assembler := cells }) ha h
    (by rw [h.so.self]; simp [Link.handed]) htb
  exact hstep

/-! ### The acts one after the other -/

theorem handing_start : s.Handing f ws e run startAt cells [] l (s.updLink l (·.frameEnds e run)) := by
  have hqueue (k : LinkId) : ((s.updLink l (·.frameEnds e run)).link k).queue = (s.link k).queue :=
    updLink_read (fun y : Link => y.queue) s l k (·.frameEnds e run) rfl
  refine ⟨⟨?_, fun k hk => ?_, ?_, rfl, rfl, rfl⟩, ⟨s, ?_, ?_⟩, ?_⟩
  · rw [hqueue, link_updLink_self]
    simp [Link.handed, Link.frameEnds, Link.withRx, Receiver.aligned, Receiver.clockSeen]
  · rw [link_updLink_ne _ hk]
  · simp [Timebase.handed]
  · simp [State.reportsMade]
  · exact heard_of_quietly (heard_refl s) rfl rfl rfl rfl rfl hqueue
  · exact reported_of_quietly (reported_refl s) rfl rfl rfl hqueue

/-- Where the management word completes no cell, this is what it leaves in the assembler (R132, R133). -/
def State.cellLeaves (s : State) (l : LinkId) (w : Option Word) (rf nf : Bool) (cells : List Word) : Prop :=
  ∀ u : State, (u.link l).inSync = true → (u.link l).config = (s.link l).config →
    (u.link l).assembler = (s.link l).assembler →
    u.cellAct l w rf nf = u.updLink l fun x => { x with assembler := cells }

theorem handing_act {rf nf : Bool} {a : ReceiveAct}
    (hcell : a = .cell → s.cellLeaves l (f.mgmtWord ws) rf nf cells) (ha : a ∉ taken)
    (h : s.Handing f ws e run startAt cells taken l u) :
    s.Handing f ws e run startAt cells (a :: taken) l (u.receiveAct l f ws startAt rf nf a) := by
  cases a with
  | store => exact handing_store ha h
  | check => exact handing_check ha h
  | remoteAlarm => exact handing_remoteAlarm ha h
  | collector => exact handing_collector ha h
  | timing => exact handing_timing ha h
  | cell =>
    have hconfig : (u.link l).config = (s.link l).config := by rw [h.so.self]; rfl
    have hheld : (u.link l).assembler = (s.link l).assembler := by rw [h.so.self]; simp [Link.handed, ha]
    rw [State.receiveAct, hcell rfl u (handing_inSync h) hconfig hheld]
    exact handing_cell ha h

theorem handing_acts {rf nf : Bool} : ∀ (acts : List ReceiveAct) {taken : List ReceiveAct} {u : State}, acts.Nodup →
    (∀ a ∈ acts, a ∉ taken) → (.cell ∈ acts → s.cellLeaves l (f.mgmtWord ws) rf nf cells) →
    s.Handing f ws e run startAt cells taken l u →
    s.Handing f ws e run startAt cells (acts.reverse ++ taken) l (acts.foldl (State.receiveAct l f ws startAt rf nf) u)
  | [], _, _, _, _, _, h => h
  | a :: acts, taken, _, hnodup, hnew, hcell, h => by
    obtain ⟨ha, hrest⟩ := List.nodup_cons.1 hnodup
    have hstep := handing_act (rf := rf) (nf := nf) (fun e => hcell (e ▸ List.mem_cons_self)) (hnew a List.mem_cons_self) h
    have hfold := handing_acts acts hrest (fun b hb => by
      rw [List.mem_cons, not_or]
      exact ⟨fun e => ha (e ▸ hb), hnew b (List.mem_cons_of_mem a hb)⟩) (fun hc => hcell (List.mem_cons_of_mem a hc)) hstep
    simpa using hfold

/-- Once every act has been taken, the frame has been handed over. -/
theorem handedOver_of_all (hall : ∀ a, a ∈ taken) (h : s.Handing f ws e run startAt cells taken l u) :
    s.handedOver u l f ws e run startAt cells := by
  obtain ⟨v, hv, huv⟩ := h.heard
  unfold State.reportsMade at hv
  rw [if_pos (hall _), if_pos (hall _)] at hv
  refine ⟨?_, h.so.others, h.reported.other, ?_, ⟨v, ?_, huv.events, huv.notice, ?_⟩, ?_, h.so.map, h.so.bank,
    h.so.bridges, h.reported.agent⟩
  · rw [h.so.self]
    simp only [Link.handed, hall, true_and, if_true]
    rfl
  · rw [h.so.tb]
    cases (collect (s.link l).rx.collector f).2 <;> simp [Timebase.handed, hall]
  · simp only [decide_eq_true_eq]
    exact hv
  · rw [← h.reported.agent, huv.agent]
    exact huv.queue
  · rcases h.reported.outcome with ⟨hn, hq, -⟩ | ⟨hs, hann⟩
    · exact .inl ⟨hn, hq⟩
    · exact .inr ⟨hs, hann⟩

/-- A completed frame whose management word completes no cell is handed over, in whatever order. -/
theorem frameCompletes_handedOver {x : FrameArrival} (hx : (s.link x.link).rx.align = .sync e run (some f))
    (hcell : s.cellLeaves x.link (f.mgmtWord x.words) x.refFirst x.noticeFirst cells) :
    s.handedOver (s.frameCompletes x) x.link f x.words e run x.input.startAt cells := by
  have hacts := handing_acts (rf := x.refFirst) (nf := x.noticeFirst) (startAt := x.input.startAt)
    (firstOccurrences (x.input.order ++ allReceiveActs)) (nodup_firstOccurrences _) (fun _ _ => List.not_mem_nil)
    (fun _ => hcell) (handing_start (s := s) (e := e) (run := run))
  unfold State.frameCompletes
  rw [hx]
  exact handedOver_of_all (fun a => List.mem_append_left _ (List.mem_reverse.2 (mem_receiveActs _ a))) hacts

/-! ### The assembler's share (R132, R133) -/

theorem cellAct_eq {w : Option Word} {rf nf : Bool} (hs : (u.link l).inSync = true) : u.cellAct l w rf nf =
    match w with
    | none => u
    | some w => u.assembleWord l w rf nf := by
  cases w with
  | none => rfl
  | some w => exact if_pos hs

theorem cellLeaves_of_passed {rf nf : Bool}
    (h : f.shape.role = .none ∨ (s.link l).config.shape.role = .none) :
    s.cellLeaves l (f.mgmtWord ws) rf nf (s.link l).assembler := by
  intro u hsync hconfig hheld
  have hkeep : u.updLink l (fun x => { x with assembler := (s.link l).assembler }) = u := by
    rw [← hheld]
    exact (updLink_congr rfl).trans (updLink_id u l)
  rw [hkeep, cellAct_eq hsync]
  unfold FrameInProgress.mgmtWord
  rcases h with hf | hr
  · rw [if_pos hf]
  · split
    · rfl
    · next w _ => exact if_pos (by rw [hconfig]; exact hr)

theorem assemble_none {held : List Word} (h : held.length < 7) (w : Word) : (assemble held w).2 = none := by
  cases held with
  | nil => rw [assemble_empty]; split <;> rfl
  | cons a as => rw [assemble_more (List.cons_ne_nil a as) h]

theorem cellLeaves_of_few {rf nf : Bool} {w : Word} (hr : (s.link l).config.shape.role ≠ .none)
    (h : (s.link l).assembler.length < 7) :
    s.cellLeaves l (some w) rf nf (assemble (s.link l).assembler w).1 := by
  intro u hsync hconfig hheld
  rw [cellAct_eq hsync]
  simp only [State.assembleWord]
  rw [hconfig, if_neg hr, hheld, assemble_none h]

theorem cellAct_completes {rf nf : Bool} {w : Word} (hs : (u.link l).inSync = true)
    (hr : (u.link l).config.shape.role ≠ .none) (h : 7 ≤ (u.link l).assembler.length) :
    u.cellAct l (some w) rf nf = (u.updLink l fun x => { x with assembler := [] }).completeCell l
      (cellOfWords ((u.link l).assembler ++ [w])) rf nf := by
  rw [cellAct_eq hs]
  simp only [State.assembleWord]
  rw [if_neg hr, assemble_full h]

theorem mgmtWord_eq (h : f.shape.role ≠ .none) : f.mgmtWord ws =
    some ((f.header :: ws.toList.take (f.shape.slotCount.toNat - 1)).getD f.shape.mgmtSlot.val 0#16) :=
  if_neg h

/-- Where the management word completes a cell and no order is named, the rest of the frame is handed over first. -/
theorem frameCompletes_completes {x : FrameArrival} (hx : (s.link x.link).rx.align = .sync e run (some f))
    (horder : x.input.order = []) (hf : f.shape.role ≠ .none) (hr : (s.link x.link).config.shape.role ≠ .none)
    (h : 7 ≤ (s.link x.link).assembler.length) :
    ∃ u, s.handedOver u x.link f x.words e run x.input.startAt [] ∧
      s.frameCompletes x = u.completeCell x.link (cellOfWords ((s.link x.link).assembler ++
        [(f.header :: x.words.toList.take (f.shape.slotCount.toNat - 1)).getD f.shape.mgmtSlot.val 0#16]))
        x.refFirst x.noticeFirst := by
  have hacts := handing_acts (rf := x.refFirst) (nf := x.noticeFirst) (startAt := x.input.startAt) (f := f) (cells := [])
    (ws := x.words) (allReceiveActs.dropLast) (by decide) (fun _ _ => List.not_mem_nil) (fun hc => absurd hc (by decide))
    (handing_start (s := s) (l := x.link) (e := e) (run := run))
  have hsequence : firstOccurrences (x.input.order ++ allReceiveActs) = allReceiveActs.dropLast ++ [.cell] := by
    rw [horder]; decide
  set u := allReceiveActs.dropLast.foldl (State.receiveAct x.link f x.words x.input.startAt x.refFirst x.noticeFirst)
    (s.updLink x.link (·.frameEnds e run)) with hu
  have hnew : .cell ∉ allReceiveActs.dropLast.reverse ++ [] := by decide
  have hconfig : (u.link x.link).config = (s.link x.link).config := by rw [hacts.so.self]; rfl
  have hheld : (u.link x.link).assembler = (s.link x.link).assembler := by
    rw [hacts.so.self]; simp only [Link.handed, if_neg hnew]
  have hall : ∀ a, a ∈ ReceiveAct.cell :: (allReceiveActs.dropLast.reverse ++ []) := fun a => by cases a <;> decide
  refine ⟨_, handedOver_of_all hall (handing_cell hnew hacts), ?_⟩
  unfold State.frameCompletes
  rw [hx]
  simp only [hsequence, List.foldl_append, List.foldl_cons, List.foldl_nil]
  rw [← hu, State.receiveAct, mgmtWord_eq hf,
    cellAct_completes (handing_inSync hacts) (by rw [hconfig]; exact hr) (by rw [hheld]; exact h), hheld]

end

/-- Settles O35: the acts of a completion one after the other. -/
theorem completedFrameIsHandedOver : Obligations.CompletedFrameIsHandedOver := by
  intro l ws o rf nf s e run f hx
  refine ⟨fun hp => ⟨_, rfl, ?_⟩, fun hp hheld => ⟨_, rfl, ?_⟩, fun hp hheld horder => ?_⟩
  · exact frameCompletes_handedOver (x := ⟨l, ws, o, rf, nf⟩) hx (cellLeaves_of_passed hp)
  · obtain ⟨hf, hr⟩ := not_or.1 hp
    exact frameCompletes_handedOver (x := ⟨l, ws, o, rf, nf⟩) hx (mgmtWord_eq hf ▸ cellLeaves_of_few hr hheld)
  · obtain ⟨hf, hr⟩ := not_or.1 hp
    obtain ⟨u, hu, hnext⟩ := frameCompletes_completes (x := ⟨l, ws, o, rf, nf⟩) hx horder hf hr hheld
    exact ⟨u, hu, congrArg _ hnext⟩

end Sys2Proof.Machine
end

section
/-!
PROOFS. The place of a notice cell: in DUE, at the expiry of the timer, and beside a cell that a frame brings (R135, R139,
R189 to R191).
-/

namespace Sys2Proof.Machine

/-! ### A cell that leaves at a start (R116, R117) -/

/-- At the start that comes the eighth word of a cell is fixed (R117). -/
def Link.atLastWord (x : Link) : Prop :=
  x.config.txEnable = true ∧ x.config.shape.role ≠ .none ∧ x.tx.wordCount = 7

theorem atLastWord_iff {x : Link} : x.atLastWord ↔ x.sendsMgmt = true ∧ x.tx.wordCount = 7 := by
  unfold Link.atLastWord
  rw [sendsMgmt_iff, and_assoc]

theorem uplinkDeparts_iff {s : State} : s.uplinkDeparts = true ↔
    (s.link s.agent.activeUplink).atLastWord ∧ (s.link s.agent.activeUplink).queue ≠ [] := by
  rw [atLastWord_iff]
  simp [State.uplinkDeparts, Link.departs]

/-- From a full queue at its last word a cell leaves. -/
theorem uplinkDeparts_of_full {s : State} (hlast : (s.link s.agent.activeUplink).atLastWord)
    (hlen : (s.link s.agent.activeUplink).queue.length = 4) : s.uplinkDeparts = true :=
  uplinkDeparts_iff.2 ⟨hlast, fun hnil => by rw [hnil] at hlen; cases hlen⟩

theorem takeMgmtWord_queue_leaves {x : Link} (h : x.atLastWord) : x.takeMgmtWord.queue = x.queue.drop 1 := by
  obtain ⟨hs, h7⟩ := atLastWord_iff.1 h
  cases hq : x.queue with
  | nil => rw [takeMgmtWord_fill hs hq]; exact hq
  | cons q rest => rw [takeMgmtWord_leaves hs hq h7]; rfl

theorem takeMgmtWord_queue_stays {x : Link} (h : ¬x.atLastWord) : x.takeMgmtWord.queue = x.queue := by
  cases hs : x.sendsMgmt with
  | false => rw [takeMgmtWord_silent ((not_sendsMgmt_iff x).1 hs)]
  | true =>
    cases hq : x.queue with
    | nil => rw [takeMgmtWord_fill hs hq]; exact hq
    | cons q rest =>
      rw [takeMgmtWord_goesOn hs hq fun h7 => h (atLastWord_iff.2 ⟨hs, h7⟩)]
      exact hq

section
variable {s : State} {i : StartInput} {k : Bool}

theorem beforeManagement_atLastWord (l : LinkId) :
    ((s.beforeAct i k .management).link l).atLastWord ↔ (s.link l).atLastWord := by
  unfold Link.atLastWord
  rw [beforeAct_config, beforeManagement_tx]

theorem beforeTest_queue_leaves (hr : s.resetDue = false) {l : LinkId} (h : (s.link l).atLastWord) :
    ((s.beforeAct i k .noticeTest).link l).queue = ((s.beforeAct i k .management).link l).queue.drop 1 :=
  (beforeTest_link hr l).2.2.trans (takeMgmtWord_queue_leaves ((beforeManagement_atLastWord l).2 h))

theorem beforeTest_queue_stays (hr : s.resetDue = false) {l : LinkId} (h : ¬(s.link l).atLastWord) :
    ((s.beforeAct i k .noticeTest).link l).queue = ((s.beforeAct i k .management).link l).queue :=
  (beforeTest_link hr l).2.2.trans (takeMgmtWord_queue_stays fun hc => h ((beforeManagement_atLastWord l).1 hc))

theorem beforeTest_wordCount_leaves (hr : s.resetDue = false) {l : LinkId} (h : (s.link l).atLastWord)
    (hne : ((s.beforeAct i k .management).link l).queue ≠ []) :
    ((s.beforeAct i k .noticeTest).link l).tx.wordCount = 0 := by
  obtain ⟨c, rest, hcons⟩ := List.exists_cons_of_ne_nil hne
  obtain ⟨hsends, h7⟩ := atLastWord_iff.1 ((beforeManagement_atLastWord (i := i) (k := k) l).2 h)
  rw [(beforeTest_link hr l).2.1, takeMgmtWord_leaves hsends hcons h7]

theorem beforeTest_agent (hr : s.resetDue = false) : (s.beforeAct i k .noticeTest).agent = s.agent :=
  (beforeTest_channel hr).1.trans (beforeManagement_tailJoined s i k).1

/-! ### Out of QUIET (R188, R189) -/

theorem reported_awake {u : State} (h : s.Reported u) (hs : s.notice.state ≠ .quiet) :
    u.notice = s.notice ∧ ∀ l, (u.link l).queue = (s.link l).queue := by
  obtain ⟨hn, hq, -⟩ := h.outcome.resolve_right fun hc => hs hc.1
  refine ⟨hn, fun l => ?_⟩
  by_cases hl : l = s.agent.activeUplink
  · rw [hl, hq]
  · exact h.other l hl

/-- In DUE the acts of a start before its management words leave the notice as it is. -/
theorem beforeManagement_due (hd : s.notice.state = .due) : (s.beforeAct i k .management).notice = s.notice ∧
    ∀ l, ((s.beforeAct i k .management).link l).queue = (s.link l).queue := by
  have hidle : (s.startCtx i).timerRunning = false := by rw [startCtx_timerRunning, hd]; rfl
  rw [beforeManagement_eq, noticeTimerAct_idle (.inr hidle)]
  exact reported_awake (beforeTimer_reported s i k) (by rw [hd]; decide)

/-- In DUE a cell leaves the active uplink's queue, and the notice comes to its test as it was. -/
theorem beforeTest_due (hr : s.resetDue = false) (hd : s.notice.state = .due)
    (hlast : (s.link s.agent.activeUplink).atLastWord) : (s.beforeAct i k .noticeTest).notice = s.notice ∧
    ((s.beforeAct i k .noticeTest).link s.agent.activeUplink).queue =
      (s.link s.agent.activeUplink).queue.drop 1 := by
  obtain ⟨hn, hq⟩ := beforeManagement_due (i := i) (k := k) hd
  exact ⟨(beforeTest_channel hr).2.2.trans hn, by rw [beforeTest_queue_leaves hr hlast, hq]⟩

/-- A full queue that a cell leaves: the waiting notice takes its place at this start (R189). -/
theorem localFrameStart_places (ho : i.order = []) (ha : i.arrivals = []) (hk : s.tb.startKind i.elapsed = some k)
    (hr : s.resetDue = false) (hheld : s.agent.heldPlace = none)
    (hdue : (s.beforeAct i k .management).notice.state = .due)
    (hq : ((s.beforeAct i k .management).link s.agent.activeUplink).queue = (s.link s.agent.activeUplink).queue)
    (hlen : (s.link s.agent.activeUplink).queue.length = 4) (hlast : (s.link s.agent.activeUplink).atLastWord) :
    (s.localFrameStart i).notice = ⟨.wait, (s.beforeAct i k .management).notice.retry, 64⟩ ∧
    ((s.localFrameStart i).link s.agent.activeUplink).queue = (s.link s.agent.activeUplink).queue.drop 1 ++
      [⟨s.agent.noticeFor (s.localFrameStart i).events (s.beforeAct i k .management).notice.retry, false⟩] := by
  obtain ⟨-, -, hnotice⟩ := beforeTest_channel (i := i) (k := k) hr
  have hagent := beforeTest_agent (i := i) (k := k) hr
  have hqueue := (beforeTest_queue_leaves (i := i) (k := k) hr hlast).trans (congrArg (List.drop 1) hq)
  have hdeparts := uplinkDeparts_of_full hlast hlen
  have hroom : (s.beforeAct i k .noticeTest).hasRoom (s.beforeAct i k .noticeTest).agent.activeUplink = true := by
    rw [hasRoom_of_free (by rw [hagent, hheld]), hagent, hqueue]
    simp [hlen]
  rw [localFrameStart_ends_in_test ho hk, hdeparts, ha, List.isEmpty_nil, Bool.and_self, if_pos rfl,
    noticeTest_places (by rw [hnotice, hdue]) hroom, hagent, hnotice]
  exact ⟨rfl, by rw [withNotice_link, enqueue_queue, hqueue]; rfl⟩

/-! ### The expiry of the timer (R191) -/

/-- What the expiry of its timer makes of the notice controller, with what a test for a place adds (R189, R191). -/
def Notice.expired (n m : Notice) : Prop :=
  if n.retry < 3 then m.retry = n.retry + 1 ∧ ((m.state = .due ∧ m.timer = 0) ∨ (m.state = .wait ∧ m.timer = 64))
  else m = ⟨.silent, n.retry, 0⟩

theorem noticeExpiry_resends {u : State} (h : u.notice.retry < 3) : u.noticeExpiry = u.enterDue (u.notice.retry + 1) :=
  if_pos h

theorem noticeExpiry_silent {u : State} (h : ¬u.notice.retry < 3) :
    u.noticeExpiry = u.withNotice ⟨.silent, u.notice.retry, 0⟩ := if_neg h

theorem noticeExpiry_expired (u : State) : u.notice.expired u.noticeExpiry.notice := by
  unfold Notice.expired
  split
  · next h =>
    rw [noticeExpiry_resends h]
    cases hroom : u.hasRoom u.agent.activeUplink with
    | true => rw [enterDue_places hroom]; exact ⟨rfl, .inr ⟨rfl, rfl⟩⟩
    | false => rw [enterDue_waits hroom]; exact ⟨rfl, .inl ⟨rfl, rfl⟩⟩
  · next h => rw [noticeExpiry_silent h]; rfl

theorem expired_not_quiet {n m : Notice} (h : n.expired m) : m.state ≠ .quiet := by
  unfold Notice.expired at h
  split at h
  · obtain ⟨-, ⟨hs, -⟩ | ⟨hs, -⟩⟩ := h <;> rw [hs] <;> decide
  · rw [h]; exact nofun

/-- A place found later at the start is of the same expiry (R189). -/
theorem expired_placed {n m : Notice} (h : n.expired m) (hd : m.state = .due) : n.expired ⟨.wait, m.retry, 64⟩ := by
  unfold Notice.expired at h ⊢
  split at h
  · next hlt => rw [if_pos hlt]; exact ⟨h.1, .inr ⟨rfl, rfl⟩⟩
  · rw [h] at hd; cases hd

/-- The notice controller at a start at which its timer expires: as before until the timer's act, and expired after. -/
def State.expiryGoes (s : State) (rest : List StartAct) (u : State) : Prop :=
  if .noticeTimer ∈ rest then u.notice = s.notice else s.notice.expired u.notice

/-- The timer's last superframe start (R191). -/
def State.timerEnds (s : State) : Prop :=
  s.tb.superframeDue = true ∧ s.notice.state = .wait ∧ s.notice.timer = 1 ∧ s.resetDue = false

theorem noticeTimerAct_expires (h : s.timerEnds) {u : State} (hu : u.notice = s.notice) :
    u.noticeTimerAct (s.startCtx i) = u.noticeExpiry := by
  obtain ⟨hs, hw, ht, hr⟩ := h
  rw [noticeTimerAct_runs hs (by rw [startCtx_timerRunning, hw]; rfl) (by rw [hu, hw]) hr, hu, ht]
  rfl

theorem expiryGoes_step (h : s.timerEnds) {u : State} {a : StartAct} {rest : List StartAct} (ha : a ∉ rest)
    (hu : s.expiryGoes (a :: rest) u) : s.expiryGoes rest (State.startAct (s.startCtx i) u a) := by
  unfold State.expiryGoes at hu ⊢
  by_cases ht : a = .noticeTimer
  · subst ht
    rw [if_pos List.mem_cons_self] at hu
    rw [if_neg ha, State.startAct, noticeTimerAct_expires h hu, ← hu]
    exact noticeExpiry_expired u
  · have hmem : .noticeTimer ∈ a :: rest ↔ .noticeTimer ∈ rest := by simp [Ne.symm ht]
    rw [if_congr hmem rfl rfl] at hu
    have hreset : (s.startCtx i).resetDue = false := h.2.2.2
    split at hu
    · next hrest =>
      have hwait : u.notice.state = .wait := by rw [hu]; exact h.2.1
      rw [if_pos hrest, ← hu]
      refine (startAct_notice (s.startCtx i) u a (by rw [hwait]; decide) ht (.inr hreset)).resolve_right fun hc => ?_
      rw [hwait] at hc
      cases hc.1
    · next hrest =>
      rw [if_neg hrest]
      rcases startAct_notice (s.startCtx i) u a (expired_not_quiet hu) ht (.inr hreset) with e | ⟨hd, e⟩ <;> rw [e]
      · exact hu
      · exact expired_placed hu hd

theorem localFrameStart_expires (h : s.timerEnds) (hk : s.tb.startKind i.elapsed = some k) :
    s.notice.expired (s.localFrameStart i).notice := by
  have hgo := localFrameStart_goes hk s.expiryGoes
    (by rw [State.expiryGoes, if_pos (mem_startSequence ..)]; rfl) fun a rest u ha _ hu => expiryGoes_step h ha hu
  exact (if_neg List.not_mem_nil).mp hgo

/-- The timer's act with no order named: DUE is entered, over the queues as the start found them. -/
theorem beforeManagement_expires (h : s.timerEnds) (hlt : s.notice.retry < 3) :
    ∃ v : State, s.beforeAct i k .management = v.enterDue (s.notice.retry + 1) ∧ v.agent = s.agent ∧
      ∀ l, (v.link l).queue = (s.link l).queue := by
  have hbefore := beforeTimer_reported s i k
  obtain ⟨hn, hq⟩ := reported_awake hbefore (by rw [h.2.1]; decide)
  refine ⟨s.beforeAct i k .noticeTimer, ?_, hbefore.agent, hq⟩
  rw [beforeManagement_eq, noticeTimerAct_expires h hn, noticeExpiry_resends (by rw [hn]; exact hlt), hn]

/-- With a place in its queue, the notice joins it before the words of the start are fixed (R189, R191). -/
theorem localFrameStart_resends_at_once (h : s.timerEnds) (hlt : s.notice.retry < 3) (ho : i.order = [])
    (hk : s.tb.startKind i.elapsed = some k) (hheld : s.agent.heldPlace = none)
    (hlen : (s.link s.agent.activeUplink).queue.length < 4) :
    (s.localFrameStart i).notice = ⟨.wait, s.notice.retry + 1, 64⟩ ∧
    ((s.beforeAct i k .management).link s.agent.activeUplink).queue = (s.link s.agent.activeUplink).queue ++
      [⟨s.agent.noticeFor (s.localFrameStart i).events (s.notice.retry + 1), false⟩] ∧
    s.localFrameStart i = s.beforeAct i k .noticeTest := by
  obtain ⟨-, hevents, hnotice⟩ := beforeTest_channel (i := i) (k := k) h.2.2.2
  obtain ⟨v, hm, hagent, hqueue⟩ := beforeManagement_expires (i := i) (k := k) h hlt
  have hroom : v.hasRoom v.agent.activeUplink = true := by
    rw [hasRoom_of_free (by rw [hagent, hheld]), hagent, hqueue, decide_eq_true_eq]; exact hlen
  rw [enterDue_places hroom] at hm
  have hwait : (s.beforeAct i k .noticeTest).notice = ⟨.wait, s.notice.retry + 1, 64⟩ := by rw [hnotice, hm]; rfl
  have hlast : s.localFrameStart i = s.beforeAct i k .noticeTest := by
    rw [localFrameStart_ends_in_test ho hk, noticeTest_waits (.inl (by rw [hwait]; exact nofun)), ite_self]
  refine ⟨by rw [hlast, hwait], ?_, hlast⟩
  rw [hlast, hevents, hm, withNotice_link, hagent, enqueue_queue, hqueue]
  rfl

/-- With its queue full, the notice waits in DUE when the words of the start are fixed (R189, R191). -/
theorem beforeManagement_waits (h : s.timerEnds) (hlt : s.notice.retry < 3) (hheld : s.agent.heldPlace = none)
    (hlen : (s.link s.agent.activeUplink).queue.length = 4) :
    (s.beforeAct i k .management).notice = ⟨.due, s.notice.retry + 1, 0⟩ ∧
    ((s.beforeAct i k .management).link s.agent.activeUplink).queue = (s.link s.agent.activeUplink).queue := by
  obtain ⟨v, hm, hagent, hqueue⟩ := beforeManagement_expires (i := i) (k := k) h hlt
  have hroom : v.hasRoom v.agent.activeUplink = false := by
    rw [hasRoom_of_free (by rw [hagent, hheld]), hagent, hqueue, hlen]; rfl
  rw [hm, enterDue_waits hroom]
  exact ⟨rfl, hqueue _⟩

end

/-- Settles O17: act by act for whatever order, and by the place that the notice finds where no order is named. -/
theorem noticeTimerExpires : Obligations.NoticeTimerExpires := by
  intro i s k hstarted hindex hw ht hk hr ha
  have hs : s.tb.superframeDue = true := (superframeDue_iff _).2 ⟨hstarted, hindex⟩
  have hends : s.timerEnds := ⟨hs, hw, ht, hr⟩
  have hdue : s.expiryDue = true := by simp [State.expiryDue, hs, hw, ht]
  have hexp := localFrameStart_expires hends hk
  unfold Notice.expired at hexp
  refine ⟨_, congrArg Host.Outcome.next (startWhen_alone hdue ha), exec_alone ha, fun hlt => ?_, fun h3 => ?_,
    fun ho hlt hheld => ?_⟩
  · rwa [if_pos hlt] at hexp
  · rwa [if_neg (by omega), h3] at hexp
  · intro x leaves left hlen hidle
    refine ⟨fun hplace => ?_, fun hfull hstays => ?_⟩
    · by_cases hroom : x.queue.length < 4
      · obtain ⟨hnotice, hjoined, hlast⟩ := localFrameStart_resends_at_once hends hlt ho hk hheld hroom
        refine ⟨hnotice, ?_⟩
        rw [hlast] at hjoined ⊢
        by_cases hl : leaves
        · have hne : x.queue ≠ [] := fun hnil => absurd (hidle hnil) (by rw [hl.2.2]; decide)
          rw [beforeTest_queue_leaves hr hl, hjoined, List.drop_append_of_le_length (List.length_pos_iff.2 hne),
            show left = x.queue.drop 1 from if_pos hl]
        · rw [beforeTest_queue_stays hr hl, hjoined, show left = x.queue from if_neg hl]
      · have hfull : x.queue.length = 4 := by omega
        have hl : leaves := hplace.resolve_left hroom
        obtain ⟨hnotice, hqueue⟩ := beforeManagement_waits (i := i) (k := k) hends hlt hheld hfull
        have hplaced := localFrameStart_places ho ha hk hr hheld (by rw [hnotice]) hqueue hfull hl
        rw [hnotice] at hplaced
        rw [show left = x.queue.drop 1 from if_pos hl]
        exact hplaced
    · obtain ⟨hnotice, hqueue⟩ := beforeManagement_waits (i := i) (k := k) hends hlt hheld hfull
      have hdeparts : s.uplinkDeparts = false := Bool.eq_false_iff.2 fun hc => hstays (uplinkDeparts_iff.1 hc).1
      rw [localFrameStart_ends_in_test ho hk, hdeparts, Bool.false_and, if_neg (by decide)]
      refine ⟨?_, ?_⟩
      · rw [(beforeTest_channel hr).2.2, hnotice]
      · rw [beforeTest_queue_stays hr hstays, hqueue]

end Sys2Proof.Machine
end

section
/-!
PROOFS. The place of a notice beside the frames that complete together with a start (R132, R135, R139, R189).
-/

namespace Sys2Proof.Machine

section
variable {s : State} {i : StartInput} {k : Bool}

/-! ### A start up to the notice's test for a place, whatever completes with it -/

/-- Only the test itself reads whether it comes among the acts. -/
theorem startAct_testsPlace (x : StartCtx) (u : State) {a : StartAct} (ha : a ≠ .noticeTest) (b : Bool) :
    State.startAct { x with testsPlace := b } u a = State.startAct x u a := by
  cases a with
  | noticeTest => exact absurd rfl ha
  | _ => rfl

theorem startCtx_arrivals (ho : i.order = []) (as : List FrameArrival) : s.startCtx { i with arrivals := as } =
    { s.startCtx i with testsPlace := s.uplinkDeparts && as.isEmpty } := by
  have hnew : (s.startCtx { i with arrivals := as }).new = (s.startCtx i).new := by
    cases hs : s.tb.superframeDue with
    | false => rw [startCtx_new_of_not_due hs, startCtx_new_of_not_due hs]
    | true =>
      rw [startCtx_new_eq hs, startCtx_new_eq hs, numberFrom_first (i := { i with arrivals := as }) (.inl ho),
        numberFrom_first (.inl ho)]
  unfold State.startCtx at hnew ⊢
  simp only [StartCtx.mk.injEq]
  exact ⟨rfl, rfl, hnew, rfl, rfl, rfl, rfl, rfl⟩

theorem beforeTest_arrivals (ho : i.order = []) (as : List FrameArrival) :
    s.beforeAct { i with arrivals := as } k .noticeTest = s.beforeAct i k .noticeTest := by
  unfold State.beforeAct
  rw [startCtx_arrivals ho]
  exact List.foldl_ext _ _ _ fun u a ha => startAct_testsPlace _ u (takeWhile_ne ha) _

/-- Where frames complete together with a start, the test for a place is not among its acts (R139, R189). -/
theorem localFrameStart_joined (ho : i.order = []) (hk : s.tb.startKind i.elapsed = some k) (ha : i.arrivals ≠ []) :
    s.localFrameStart i = s.beforeAct i k .noticeTest := by
  rw [localFrameStart_ends_in_test ho hk, if_neg (by simp [ha])]

/-- A start, the completions that come with it, and then the notice's test for the place of a departing cell (R189). -/
theorem frameStart_tested (ho : i.order = []) (hk : s.tb.startKind i.elapsed = some k) : s.frameStart i =
    if s.uplinkDeparts = true then (i.arrivals.foldl State.frameCompletes (s.beforeAct i k .noticeTest)).noticeTest
    else i.arrivals.foldl State.frameCompletes (s.beforeAct i k .noticeTest) := by
  by_cases ha : i.arrivals = []
  · rw [frameStart_alone ha, localFrameStart_ends_in_test ho hk, ha, List.isEmpty_nil, Bool.and_true,
      List.foldl_nil]
  · rw [frameStart_joined hk ha, State.throughArrivals, localFrameStart_joined ho hk ha]

/-! ### A receiver in SYNC up to that test (R20, R132) -/

theorem startAct_assembler {x : StartCtx} {u : State} {a : StartAct} {l : LinkId}
    (h : a = .clockWatch l → u.clockLossDue l x.rxc = false) :
    ((State.startAct x u a).link l).assembler = (u.link l).assembler := by
  have hupd (j : LinkId) (f : Link → Link) (hf : (f (u.link j)).assembler = (u.link j).assembler) :
      ((u.updLink j f).link l).assembler = (u.link l).assembler := updLink_read (fun y : Link => y.assembler) u j l f hf
  cases a with
  | clockWatch j =>
    simp only [State.startAct]
    rcases clockWatchAct_cases u j x.rxc (x.refFirst.getLsbD j.val) with ⟨w, b, e, -⟩ | ⟨-, hloss, e⟩ <;> rw [e]
    · exact hupd j _ rfl
    · have hne : l ≠ j := by
        rintro rfl
        rw [h rfl] at hloss
        cases hloss
      rw [leaveSync_assembler_ne _ hne]
      exact hupd j _ rfl
  | checkWindow j =>
    simp only [State.startAct, State.checkWindowAct]
    split
    · split
      · exact hupd j _ rfl
      · rw [report_link_assembler]; exact hupd j _ rfl
    · rfl
  | qualification j =>
    simp only [State.startAct, State.qualificationAct]
    split
    · split
      · rw [select_link_assembler]; exact hupd j _ rfl
      · exact hupd j _ rfl
    · rfl
  | present j =>
    simp only [State.startAct, State.presentAct]
    split
    · exact hupd j _ rfl
    · split
      · exact hupd j _ rfl
      · split
        · rw [report_link_assembler]; exact hupd j _ rfl
        · exact hupd j _ rfl
  | softReset =>
    simp only [State.startAct]
    split
    · rw [softReset_link]; rfl
    · rfl
  | management =>
    simp only [State.startAct]
    rw [fixManagement_link, takeMgmtWord_assembler]
  | _ =>
    simp only [State.startAct, State.timeStepAct, State.scheduleAct, State.fireSwitch, State.engineAct,
      State.processChunk, State.noticeTimerAct, State.clearAllHolds] <;>
    (repeat' split) <;> simp

/-- In SYNC a receiver that does not lose its clock keeps its place in the frame. -/
theorem startAct_align_kept {x : StartCtx} {u : State} {a : StartAct} {l : LinkId} (hs : (u.link l).inSync = true)
    (h : a = .clockWatch l → u.clockLossDue l x.rxc = false) :
    ((State.startAct x u a).link l).rx.align = (u.link l).rx.align := by
  by_cases ha : a = .clockWatch l
  · subst ha
    obtain ⟨w, e⟩ := clockWatchAct_rx_kept u l x.rxc (x.refFirst.getLsbD l.val) hs (h rfl)
    rw [State.startAct, e]
  · exact (startAct_align x u a l ha).1

/-- A frame in progress on a link that does not lose its clock, and the words of its cell, stand at the end of a start. -/
theorem localFrameStart_receiver (hk : s.tb.startKind i.elapsed = some k) {l : LinkId} (hs : (s.link l).inSync = true)
    (hd : s.clockLossDue l i.rxc = false) : ((s.localFrameStart i).link l).rx.align = (s.link l).rx.align ∧
    ((s.localFrameStart i).link l).assembler = (s.link l).assembler := by
  refine localFrameStart_goes hk (fun _ u => (u.link l).rx.align = (s.link l).rx.align ∧
    (u.link l).assembler = (s.link l).assembler) ⟨rfl, rfl⟩ fun a _ u _ hlane hu => ?_
  have hloss : a = .clockWatch l → u.clockLossDue l (s.startCtx i).rxc = false := fun e =>
    (clockLossDue_untaken (hlane l e) _).trans hd
  have hsync : (u.link l).inSync = true := by unfold Link.inSync at hs ⊢; rw [hu.1]; exact hs
  exact ⟨(startAct_align_kept hsync hloss).trans hu.1, (startAct_assembler hloss).trans hu.2⟩

/-! ### A cell that takes the place (R133, R135, R189) -/

/-- An inbound cell completed on a DOWNLINK joins the active uplink's queue where that has a place. -/
theorem completeCell_relays {u : State} {l : LinkId} {cell : Cell} {rf nf : Bool}
    (hgood : cell[0] + cell[1] + cell[2] + cell[3] + cell[4] + cell[5] + cell[6] + cell[7] = 0xFFFF#16)
    (hrole : (u.link l).config.shape.role = .downlink) (hm : highByte cell[0] = 0xCA#8)
    (hroom : u.hasRoom u.agent.activeUplink = true) :
    (u.completeCell l cell rf nf).notice = u.notice ∧ (u.completeCell l cell rf nf).agent = u.agent ∧
    ((u.completeCell l cell rf nf).link u.agent.activeUplink).queue =
      (u.link u.agent.activeUplink).queue ++ [⟨cell, false⟩] := by
  rw [completeCell_good hgood]
  set v := u.updLink l fun x =>
    { x with mgmtCount := { x.mgmtCount with goodCells := satAdd16 x.mgmtCount.goodCells 1 } } with hv
  have hrole' : (v.link l).config.shape.role = .downlink := by rw [hv, link_updLink_self]; exact hrole
  have hqueue (j : LinkId) : (v.link j).queue = (u.link j).queue := updLink_read (fun y : Link => y.queue) u l j _ rfl
  have hroom' : v.hasRoom v.agent.activeUplink = true := (hasRoom_congr (hqueue _) rfl).trans hroom
  rw [dispatch_inbound hrole' hm, State.relayTo, if_pos hroom']
  exact ⟨rfl, rfl, (enqueue_queue ..).trans (by rw [hqueue]; rfl)⟩

/-- What the handing over of a frame leaves of the management channel out of QUIET. -/
theorem handedOver_awake {u : State} {l : LinkId} {f : FrameInProgress} {ws : Vector Word 63} {e : Header}
    {run startAt : Nat} {cells : List Word} (h : s.handedOver u l f ws e run startAt cells)
    (hs : s.notice.state ≠ .quiet) : u.notice = s.notice ∧ u.agent = s.agent ∧
    (u.link s.agent.activeUplink).queue = (s.link s.agent.activeUplink).queue ∧
    (u.link l).config = (s.link l).config := by
  obtain ⟨hself, -, -, -, -, hnotice, -, -, -, hagent⟩ := h
  obtain ⟨hn, hq⟩ := hnotice.resolve_right fun hc => hs hc.1
  exact ⟨hn, hagent, hq, by rw [hself]⟩

/-- The frame that a start leaves in progress brings the cell, and the cell takes the notice's place. -/
theorem frameCompletes_takes_place {x : FrameArrival} {e : Header} {run : Nat} {f : FrameInProgress} {cell : Cell}
    (hd : s.notice.state = .due) (hheld : s.agent.heldPlace = none)
    (hlen : (s.link s.agent.activeUplink).queue.length = 3) (horder : x.input.order = [])
    (hx : (s.link x.link).rx.align = .sync e run (some f)) (hf : f.shape.role ≠ .none)
    (hrole : (s.link x.link).config.shape.role = .downlink) (h7 : (s.link x.link).assembler.length = 7)
    (hcell : cell = cellOfWords ((s.link x.link).assembler ++
      [(f.header :: x.words.toList.take (f.shape.slotCount.toNat - 1)).getD f.shape.mgmtSlot.val 0#16]))
    (hgood : cell[0] + cell[1] + cell[2] + cell[3] + cell[4] + cell[5] + cell[6] + cell[7] = 0xFFFF#16)
    (hm : highByte cell[0] = 0xCA#8) :
    (s.frameCompletes x).notice = s.notice ∧ (s.frameCompletes x).agent = s.agent ∧
    ((s.frameCompletes x).link s.agent.activeUplink).queue =
      (s.link s.agent.activeUplink).queue ++ [⟨cell, false⟩] := by
  obtain ⟨u, hu, hnext⟩ := frameCompletes_completes hx horder hf (by rw [hrole]; decide) (by omega)
  obtain ⟨hn, hagent, hqueue, hconfig⟩ := handedOver_awake hu (by rw [hd]; decide)
  have hroom : u.hasRoom u.agent.activeUplink = true := by
    rw [hasRoom_of_free (by rw [hagent, hheld]), hagent, hqueue, hlen]; rfl
  obtain ⟨hn', hagent', hqueue'⟩ := completeCell_relays (l := x.link) (rf := x.refFirst) (nf := x.noticeFirst) hgood
    (by rw [hconfig]; exact hrole) hm hroom
  rw [hnext, ← hcell]
  refine ⟨hn'.trans hn, hagent'.trans hagent, ?_⟩
  rw [hagent, hqueue] at hqueue'
  exact hqueue'

end

theorem tested_iff {s : State} : s.uplinkDeparts = true ↔ (s.link s.agent.activeUplink).config.txEnable = true ∧
    (s.link s.agent.activeUplink).config.shape.role ≠ .none ∧ (s.link s.agent.activeUplink).tx.wordCount = 7 ∧
    (s.link s.agent.activeUplink).queue ≠ [] := by
  rw [uplinkDeparts_iff, Link.atLastWord, and_assoc, and_assoc]

/-- Settles O25: by the notice's test at once, at the end of a start, and after the completions that come with one. -/
theorem noticeIsPlaced : Obligations.NoticeIsPlaced := by
  refine ⟨fun i s hd hroom => ?_, fun i s k hd hheld hlen ht hr h7 ho ha hk hreset => ?_,
    ⟨fun s x => rfl, fun i s k ho hk => ⟨s.beforeAct i k .noticeTest, ?_, ?_⟩⟩,
    fun i s k x e run f cell hd hheld hlen ht hr h7 ho ha horder hk hreset hx hloss hf hrole hne hasm hcell hgood hm => ?_⟩
  · show Host.Outcome.next (if s.hasRoom s.agent.activeUplink then s.noticeTest else _) = _
    rw [if_pos hroom, noticeTest_places hd hroom]
    rfl
  · have hlast : (s.link s.agent.activeUplink).atLastWord := ⟨ht, hr, h7⟩
    obtain ⟨hn, hq⟩ := beforeManagement_due (i := i) (k := k) hd
    have hfull : s.hasRoom s.agent.activeUplink = false := by rw [hasRoom_of_free hheld, hlen]; rfl
    have hdeparts := uplinkDeparts_of_full hlast hlen
    have hplaced := localFrameStart_places ho ha hk hreset hheld (by rw [hn, hd]) (hq _) hlen hlast
    rw [hn] at hplaced
    refine ⟨s.localFrameStart i, ?_, exec_alone ha, hplaced.1, ?_, hplaced.2⟩
    · show Host.Outcome.next (if s.hasRoom s.agent.activeUplink then s.noticeTest else _) = _
      rw [hfull, if_neg (by decide), startWhen_alone (by rw [hd, hdeparts]; rfl) ha]
    · rw [localFrameStart_tx ho hk, beforeTest_wordCount_leaves hreset hlast]
      rw [hq]
      exact (uplinkDeparts_iff.1 hdeparts).2
  · show Host.Outcome.next (s.frameStart { i with arrivals := [] }) = _
    rw [frameStart_tested (i := { i with arrivals := [] }) ho hk, beforeTest_arrivals ho, List.foldl_nil,
      if_congr tested_iff rfl rfl]
  · show Host.Outcome.next (s.frameStart i) = _
    rw [frameStart_tested ho hk, if_congr tested_iff rfl rfl]
  · have hlast : (s.link s.agent.activeUplink).atLastWord := ⟨ht, hr, h7⟩
    have hdeparts := uplinkDeparts_of_full hlast hlen
    obtain ⟨hnotice, hqueue⟩ := beforeTest_due (i := i) (k := k) hreset hd hlast
    have hagent := beforeTest_agent (i := i) (k := k) hreset
    have hconfig := beforeAct_config s i k .noticeTest x.link
    have hlocal := localFrameStart_joined ho hk (by rw [ha]; exact List.cons_ne_nil x [])
    obtain ⟨halign, hwords⟩ := localFrameStart_receiver hk (by unfold Link.inSync; rw [hx]; rfl) hloss
    rw [hlocal] at halign hwords
    obtain ⟨hn', hagent', hqueue'⟩ := frameCompletes_takes_place (s := s.beforeAct i k .noticeTest) (cell := cell)
      (by rw [hnotice, hd]) (by rw [hagent, hheld]) (by rw [hagent, hqueue]; simp [hlen]) horder (halign.trans hx) hf
      (by rw [hconfig]; exact hrole) (by rw [hwords]; exact hasm) (by rw [hwords]; exact hcell) hgood hm
    rw [hagent, hqueue] at hqueue'
    have hfull : ((s.beforeAct i k .noticeTest).frameCompletes x).hasRoom
        ((s.beforeAct i k .noticeTest).frameCompletes x).agent.activeUplink = false := by
      rw [hasRoom_of_free (by rw [hagent', hagent, hheld]), hagent', hagent, hqueue']
      simp [hlen]
    refine ⟨s.frameStart i, rfl, ?_⟩
    rw [frameStart_tested ho hk, if_pos hdeparts, ha, List.foldl_cons, List.foldl_nil, noticeTest_waits (.inr hfull)]
    exact ⟨hn'.trans hnotice, hqueue'⟩

end Sys2Proof.Machine
end
